-- ==== Sys2Proof/Word.lean ====
section
/-! DEFINITION. The word types of the block. Every register and RAM word is 32 bits (rule R22), an operand, `RES`, a
`VALUE` or a `KNOT` entry is 64 bits in two words (rules R11, R64), and byte lanes are 8 bits (rule R64). -/

namespace Sys2Proof

/-- One byte lane of a word (rule R64). -/
abbrev Byte := BitVec 8

/-- A 32-bit register or RAM word (rules R6, R22). Bit 0 is the least significant bit (rule R7). -/
abbrev Word := BitVec 32

/-- A 64-bit operand, result, or table entry: bits 63:32 from the HI word, bits 31:0 from the LO word (rules R9, R11). -/
abbrev DWord := BitVec 64

/-- A byte offset in the block's 32 KiB window (rule R60): 15 bits, so every value is inside the window. -/
abbrev Offset := BitVec 15

end Sys2Proof
end

