-- ==== Sys2Proof/Syntax.lean ====
section
/-! DEFINITION. The syntax: one constructor of `Instr` per row of the command set (rule R87). A command carries no
immediate (rule R91); the only field that varies is the generator select GSEL of a "G" command (rules R85, R86). -/

namespace Sys2Proof

/-- The generators a "G" command can draw from (rule R86). The reserved GSEL values 5, 6 and 7 have no constructor, so
no term of `Instr` holds one; a word that carries one is refused by the decoder (rule R88). -/
inductive Gsel where
  /-- GSEL 0: XorShift (rule R100). -/
  | xs
  /-- GSEL 1: the MINSTD linear congruential generator (rule R103). -/
  | minstd
  /-- GSEL 2: the Marsaglia-variant linear congruential generator (rule R106). -/
  | mars
  /-- GSEL 3: complementary multiply-with-carry (rule R114). -/
  | cmwc
  /-- GSEL 4: the combined generator (rule R118). -/
  | comb
deriving DecidableEq, Repr

/-- The commands of rule R87, in the order of the opcode map. -/
inductive Instr where
  /-- OP 0x00 NOP (rule R211). -/
  | nop
  /-- OP 0x01 XS_NEXT (rule R101). -/
  | xsNext
  /-- OP 0x02 MINSTD_NEXT (rule R104). -/
  | minstdNext
  /-- OP 0x03 MARS_NEXT (rule R107). -/
  | marsNext
  /-- OP 0x04 CMWC_NEXT (rule R115). -/
  | cmwcNext
  /-- OP 0x05 COMB_NEXT (rule R121). -/
  | combNext
  /-- OP 0x06 CMWC_SEED (rule R110). -/
  | cmwcSeed
  /-- OP 0x10 UNIFORM (rule R134). -/
  | uniform (g : Gsel)
  /-- OP 0x11 DOUBLE (rule R141). -/
  | double (g : Gsel)
  /-- OP 0x12 DOUBLE_AFFINE (rule R144). -/
  | doubleAffine (g : Gsel)
  /-- OP 0x20 SHUFFLE (rule R151). -/
  | shuffle (g : Gsel)
  /-- OP 0x21 SHUFFLE_IO (rule R155). -/
  | shuffleIo (g : Gsel)
  /-- OP 0x22 PERM_BUILD (rule R159). -/
  | permBuild (g : Gsel)
  /-- OP 0x23 VALUE_BUILD (rule R162). -/
  | valueBuild (g : Gsel)
  /-- OP 0x30 HASH (rule R172). -/
  | hash
  /-- OP 0x31 LATTICE_VALUE (rule R174). -/
  | latticeValue
  /-- OP 0x32 SAMPLE_BILINEAR (rule R178). -/
  | sampleBilinear
  /-- OP 0x33 SAMPLE_BICUBIC (rule R181). -/
  | sampleBicubic
  /-- OP 0x40 LERP (rule R191). -/
  | lerp
  /-- OP 0x41 SPLINE (rule R197). -/
  | spline
deriving DecidableEq, Repr

end Sys2Proof
end

