-- ==== Sys2Proof/WellFormed.lean ====
section
/-! DEFINITION. Which 32-bit command words are legal, read from the opcode map (rule R87) and the list of illegal
encodings (rule R88) and NOT from the decoder: `Sys2Proof.decode` is written from the pseudocode of rule R89, so that the
agreement of the two is a statement about the spec. A term of `Instr` is well-formed by its type (its GSEL is one of
0-4), so the checks stand on words. -/

namespace Sys2Proof

/-- How a row of rule R87 uses GSEL: "0" (it must be zero) or "G" (it selects the generator). -/
inductive GselUse where
  /-- The row's GSEL column is "0". -/
  | zero
  /-- The row's GSEL column is "G". -/
  | select
deriving DecidableEq, Repr

/-- One row of the command set (rule R87): the opcode and its GSEL column. -/
structure OpcodeRow where
  op : BitVec 8
  use : GselUse
deriving DecidableEq, Repr

/-- The OP and GSEL columns of rule R87, row by row. -/
def opcodeRows : List OpcodeRow :=
  [⟨0x00#8, .zero⟩, ⟨0x01#8, .zero⟩, ⟨0x02#8, .zero⟩, ⟨0x03#8, .zero⟩, ⟨0x04#8, .zero⟩, ⟨0x05#8, .zero⟩, ⟨0x06#8, .zero⟩,
   ⟨0x10#8, .select⟩, ⟨0x11#8, .select⟩, ⟨0x12#8, .select⟩,
   ⟨0x20#8, .select⟩, ⟨0x21#8, .select⟩, ⟨0x22#8, .select⟩, ⟨0x23#8, .select⟩,
   ⟨0x30#8, .zero⟩, ⟨0x31#8, .zero⟩, ⟨0x32#8, .zero⟩, ⟨0x33#8, .zero⟩,
   ⟨0x40#8, .zero⟩, ⟨0x41#8, .zero⟩]

/-- Field OP, bits 7:0 of a command word (rule R85). -/
def wordOp (w : Word) : BitVec 8 := w.extractLsb' 0 8

/-- Field GSEL, bits 10:8 of a command word (rule R85). -/
def wordGsel (w : Word) : BitVec 3 := w.extractLsb' 8 3

/-- Field RES0, bits 31:11 of a command word (rule R85). -/
def wordRes0 (w : Word) : BitVec 21 := w.extractLsb' 11 21

/-- Check of rule R88: bits 31:11 are all 0. -/
def reservedBitsClear (w : Word) : Bool := wordRes0 w == 0#21

/-- Check of rule R88: OP is in rule R87. -/
def opcodeAssigned (w : Word) : Bool := opcodeRows.any fun r => r.op == wordOp w

/-- Check of rule R88: GSEL is 0 on a "0" command. -/
def gselZeroWhereUnused (w : Word) : Bool :=
  opcodeRows.all fun r => !(r.op == wordOp w && r.use == .zero) || wordGsel w == 0#3

/-- Check of rule R88: GSEL is not 5, 6 or 7 on a "G" command. -/
def gselNotReserved (w : Word) : Bool :=
  opcodeRows.all fun r => !(r.op == wordOp w && r.use == .select) || decide (wordGsel w ≤ 4#3)

/-- A command word is legal when none of the four conditions of rule R88 holds. -/
def legalWord (w : Word) : Bool :=
  reservedBitsClear w && opcodeAssigned w && gselZeroWhereUnused w && gselNotReserved w

end Sys2Proof
end

