-- ==== Sys2Proof/Decode.lean ====
section
/-! DEFINITION. The command decoder (rule R89), total on every 32-bit word and refusing by name, and after it the encoder
(rules R85-R87). The block has one format, one 32-bit word (rules R85, R92), so there is no length decoding and no
instruction memory: a command is the value of a host write to `CMD` (rule R24). -/

namespace Sys2Proof

/-- Why a word is `BAD_CMD`: the conditions of rule R88, in the order the pseudocode of rule R89 tests them. -/
inductive BadCmd where
  /-- Bits 31:11 are not all 0. -/
  | reservedBits
  /-- OP is not in the opcode map. -/
  | unassignedOpcode
  /-- GSEL is not 0 on a "0" command. -/
  | gselOnPlainCommand
  /-- GSEL is 5, 6 or 7 on a "G" command. -/
  | reservedGsel
deriving DecidableEq, Repr

/-- What a command word decodes to (rule R89): a command, or `BAD_CMD`. -/
inductive Decoded where
  /-- A legal word, with its command. -/
  | command (i : Instr)
  /-- An illegal word, with the reason. The block records only the code `BAD_CMD` (rule R220), never the reason. -/
  | badCmd (why : BadCmd)
deriving DecidableEq, Repr

/-- The generator a GSEL value selects; 5, 6 and 7 are reserved (rule R86). -/
def gselOfBits (g : BitVec 3) : Option Gsel :=
  match g.toNat with
  | 0 => some .xs
  | 1 => some .minstd
  | 2 => some .mars
  | 3 => some .cmwc
  | 4 => some .comb
  | _ => none

/-- The GSEL value of a generator (rule R86). -/
def gselBits : Gsel → BitVec 3
  | .xs => 0#3
  | .minstd => 1#3
  | .mars => 2#3
  | .cmwc => 3#3
  | .comb => 4#3

/-- Finish decoding a "0" command: its GSEL must be 0 (rule R89). -/
def decodePlain (g : BitVec 3) (i : Instr) : Decoded :=
  if g = 0#3 then .command i else .badCmd .gselOnPlainCommand

/-- Finish decoding a "G" command: its GSEL must be at most 4 (rule R89). -/
def decodeDrawing (g : BitVec 3) (i : Gsel → Instr) : Decoded :=
  match gselOfBits g with
  | some s => .command (i s)
  | none => .badCmd .reservedGsel

/-- The decoder (rule R89): reserved bits, then the opcode, then GSEL. -/
def decode (w : Word) : Decoded :=
  let g := wordGsel w
  if wordRes0 w ≠ 0#21 then .badCmd .reservedBits
  else match (wordOp w).toNat with
  | 0x00 => decodePlain g .nop
  | 0x01 => decodePlain g .xsNext
  | 0x02 => decodePlain g .minstdNext
  | 0x03 => decodePlain g .marsNext
  | 0x04 => decodePlain g .cmwcNext
  | 0x05 => decodePlain g .combNext
  | 0x06 => decodePlain g .cmwcSeed
  | 0x10 => decodeDrawing g .uniform
  | 0x11 => decodeDrawing g .double
  | 0x12 => decodeDrawing g .doubleAffine
  | 0x20 => decodeDrawing g .shuffle
  | 0x21 => decodeDrawing g .shuffleIo
  | 0x22 => decodeDrawing g .permBuild
  | 0x23 => decodeDrawing g .valueBuild
  | 0x30 => decodePlain g .hash
  | 0x31 => decodePlain g .latticeValue
  | 0x32 => decodePlain g .sampleBilinear
  | 0x33 => decodePlain g .sampleBicubic
  | 0x40 => decodePlain g .lerp
  | 0x41 => decodePlain g .spline
  | _ => .badCmd .unassignedOpcode

/-- The opcode of a command, from the OP column of rule R87. -/
def opcodeOf : Instr → BitVec 8
  | .nop => 0x00#8
  | .xsNext => 0x01#8
  | .minstdNext => 0x02#8
  | .marsNext => 0x03#8
  | .cmwcNext => 0x04#8
  | .combNext => 0x05#8
  | .cmwcSeed => 0x06#8
  | .uniform _ => 0x10#8
  | .double _ => 0x11#8
  | .doubleAffine _ => 0x12#8
  | .shuffle _ => 0x20#8
  | .shuffleIo _ => 0x21#8
  | .permBuild _ => 0x22#8
  | .valueBuild _ => 0x23#8
  | .hash => 0x30#8
  | .latticeValue => 0x31#8
  | .sampleBilinear => 0x32#8
  | .sampleBicubic => 0x33#8
  | .lerp => 0x40#8
  | .spline => 0x41#8

/-- The GSEL field of a command: its generator for a "G" command, 0 for every other command (rules R86, R87). -/
def gselFieldOf : Instr → BitVec 3
  | .uniform g => gselBits g
  | .double g => gselBits g
  | .doubleAffine g => gselBits g
  | .shuffle g => gselBits g
  | .shuffleIo g => gselBits g
  | .permBuild g => gselBits g
  | .valueBuild g => gselBits g
  | .nop => 0#3
  | .xsNext => 0#3
  | .minstdNext => 0#3
  | .marsNext => 0#3
  | .cmwcNext => 0#3
  | .combNext => 0#3
  | .cmwcSeed => 0#3
  | .hash => 0#3
  | .latticeValue => 0#3
  | .sampleBilinear => 0#3
  | .sampleBicubic => 0#3
  | .lerp => 0#3
  | .spline => 0#3

/-- The command word of a command, `w = (GSEL << 8) | OP` (rule R87), with bits 31:11 zero (rule R85). -/
def encode (i : Instr) : Word := 0#21 ++ gselFieldOf i ++ opcodeOf i

/-- The command the decoder reads from a table row's bits: a command is one 32-bit word (rule R85), and a bit the row
does not give is 0. -/
def decodeTableWord (nbits w : Nat) : Option Instr :=
  match decode (BitVec.ofNat 32 (w % 2 ^ nbits)) with
  | .command i => some i
  | .badCmd _ => none

end Sys2Proof
end

