-- ==== Sys2Proof/Config.lean ====
section
/-! DEFINITION. What an implementation fixes: the parameters of rule R6, the two of them that are OPEN as constants with
no body, and the free values of the points the spec leaves unspecified (rules R43, R71). Nothing in Lean evaluates a
constant with no body, so a theorem holds whatever value the hardware has there. -/

namespace Sys2Proof.Config

/-- The block's identification word, "RNG1" in ASCII (rules R3, R23). -/
def idWord : Word := 0x524E4731#32

/-- `CMWC_N`, the ring size in words (rule R6). -/
def cmwcN : Nat := 4096

/-- `CMWC_A`, the multiplier (rule R6). -/
def cmwcA : Nat := 18782

/-- `CMWC_R`, the complement base (rule R6). -/
def cmwcR : Word := 0xFFFFFFFE#32

/-- `CMWC_C_INIT`, the reset value of the carry (rules R6, R33). -/
def cmwcCInit : Word := 362436#32

/-- The modulus `2^31 - 1` of both linear congruential generators (rules R6, R103, R106). -/
def lcgM : Nat := 2 ^ 31 - 1

/-- `MINSTD_A` (rule R6). -/
def minstdA : Nat := 48271

/-- `MINSTD_C` (rule R6). -/
def minstdC : Nat := 0

/-- `MARS_A` (rule R6). -/
def marsA : Nat := 69069

/-- `MARS_C` (rule R6). -/
def marsC : Nat := 362437

/-- `PERM_N`, the size of the permutation and value tables (rule R6). -/
def permN : Nat := 256

/-- `KNOT_N`, the size of the knot buffer (rule R6). -/
def knotN : Nat := 64

/-- One less than the OPEN parameter `CMWC_C_MAX`, a constant with no body (log entry 7, DESIGN CHOICE, safe). -/
opaque cmwcCMaxPred : Fin 4294967295

/-- The OPEN parameter `CMWC_C_MAX`, a 32-bit integer with `1 <= CMWC_C_MAX` and no other constraint (rule R6, decision
D11). The suggested value 809430660 is not used. -/
def cmwcCMax : Nat := cmwcCMaxPred.val + 1

/-- Which 32 KiB slot of the host bus the window lies in, a constant with no body (log entry 6, DESIGN CHOICE, safe). -/
opaque baseSlot : Nat

/-- The OPEN parameter `BASE`: any multiple of 0x8000 (rules R6, R60, decision D2). -/
def base : Nat := 0x8000 * baseSlot

/-- What the RAM byte at an offset reads as until it is written, after the given number of resets: unspecified (rule
R43), so a constant with no body. It is stable until the byte is written and may differ from one reset to the next
(rule R257; log entry 4, DESIGN CHOICE, safe). -/
opaque ramByte (resets offset : Nat) : Byte

/-- What a host read returns, while a command runs, of a word the command may write: unspecified (rule R71), so a
constant with no body, a fresh one for each such read (log entry 5, DESIGN CHOICE, safe). -/
opaque busyRead (count : Nat) : Word

end Sys2Proof.Config
end

