-- ==== Sys2Proof/Machine/State.lean ====
section
/-! DEFINITION. The state of the block as plain data: every register of rule R22, the flags of rule R25, the in-flight
command of rule R42, the RAMs of rules R37-R41, whether reset is asserted (rule R250), and the model's own fields: the
events still to come at the host port, the last bus response, and two counters that free values are applied to. -/

namespace Sys2Proof.Machine

/-- The stops of the machine: none. The spec gives every event an effect: an illegal or rejected command records an
error (rules R88, R220), an access of a wrong width or alignment gets a bus error response and changes nothing (rule
R63), a command that never ends keeps BUSY = 1 (rule R265). So no constructor is raised by anything, and no run of the
model ends early (safe). -/
inductive Fault
deriving DecidableEq, Repr

/-- Why the model refuses to go on. -/
inductive Refusal where
  /-- The instruction has no meaning in this model yet. Raised by a refused arm of `exec` only; safe. -/
  | notModelled (mnemonic : String)
deriving DecidableEq, Repr

/-- The RAM contents the block has been given, by byte offset in the window (rules R64, R65): a listed byte was written
since the last reset; an unlisted byte was not, and holds the unspecified value `Config.ramByte` (rule R43). -/
abbrev Memory := List Host.Cell

/-- The offsets that are RAM bytes (rule R65): `PERM` and `SRC` (0x400-0xBFF), `VALUE` and `KNOT` (0x1000-0x19FF), `Q`
(0x4000-0x7FFF). -/
def isRamOffset (a : Nat) : Bool :=
  (0x400 ≤ a && a < 0xC00) || (0x1000 ≤ a && a < 0x1A00) || (0x4000 ≤ a && a < 0x8000)

/-- Every address of the list is above the given one. -/
def Memory.allAbove (a : Nat) (m : Memory) : Bool := m.all fun c => a < c.1

/-- The one canonical form of the RAM contents: addresses strictly rising, every one a RAM offset. An unlisted byte
reads as no written value, so no entry can repeat what an unlisted byte reads as (log entry 4). -/
def Memory.wf : Memory → Bool
  | [] => true
  | c :: m => isRamOffset c.1 && Memory.allAbove c.1 m && Memory.wf m

/-- The errors of rule R220, by name. -/
inductive ErrorCode where
  /-- An illegal command word (code 1). -/
  | badCmd
  /-- A parameter error (code 2). -/
  | param
  /-- A CMWC draw requested before CMWC_SEED (code 3). -/
  | notSeeded
  /-- A lattice command before its tables are built (code 4). -/
  | notReady
  /-- A non-finite coordinate or a NaN spline parameter (code 5). -/
  | domain
  /-- A host write other than to STATUS while a command runs (code 6). -/
  | busyWrite
deriving DecidableEq, Repr

/-- The operand registers as one command sees them: `OPA`, `OPB`, `OPC` and `KCOUNT` (rules R11, R91). -/
structure Operands where
  opa : DWord
  opb : DWord
  opc : DWord
  kcount : BitVec 7
deriving DecidableEq, Repr

/-- The in-flight command: the command, with its GSEL, and the operand values taken at issue (rules R42, R205). -/
structure InFlight where
  instr : Instr
  ops : Operands
deriving DecidableEq, Repr

/-- The width of a host access. Only 32 bits is accepted (rule R63). -/
inductive Width where
  | bits8
  | bits16
  | bits32
  | bits64
deriving DecidableEq, Repr

/-- The events at the block, totally ordered at the host port (rules R72, R227): host accesses, the completion of the
in-flight command (an internal event that can fall anywhere in that order, rule R210), and the two edges of the reset
input (rule R250). The value of a write of another width than 32 bits is not looked at, so it needs no wider field (log
entries 1 and 18, DEDUCED, safe). -/
inductive PortEvent where
  | read (off : Offset) (width : Width)
  | write (off : Offset) (width : Width) (value : Word)
  | completion
  | resetAssert
  | resetRelease
deriving DecidableEq, Repr

/-- What the host sees of the last event (log entry 8, DEDUCED, safe). -/
inductive Response where
  /-- The last event was no host access. -/
  | none
  /-- A read answered with this value (rule R61). -/
  | data (value : Word)
  /-- A write the port took (rule R62); while a command runs it may have been dropped (rule R208). -/
  | accepted
  /-- An access of a wrong width or alignment: no data, no effect (rule R63). -/
  | busError
  /-- An access made while reset is asserted (rule R250). -/
  | unanswered
deriving DecidableEq, Repr

/-- The state of the block. -/
structure State where
  /-- STATUS.ERR (rule R25). -/
  err : Bool
  /-- STATUS.ECODE, 4 bits (rule R25). -/
  ecode : BitVec 4
  /-- STATUS.CMWC_SEEDED (rules R25, R36). -/
  cmwcSeeded : Bool
  /-- STATUS.PERM_READY (rules R25, R36). -/
  permReady : Bool
  /-- STATUS.VALUE_READY (rules R25, R36). -/
  valueReady : Bool
  /-- The in-flight command; STATUS.BUSY is 1 exactly while there is one (rules R25, R42, R206). -/
  inflight : Option InFlight
  /-- OPA_LO (rule R27). -/
  opaLo : Word
  /-- OPA_HI (rule R27). -/
  opaHi : Word
  /-- OPB_LO (rule R27). -/
  opbLo : Word
  /-- OPB_HI (rule R27). -/
  opbHi : Word
  /-- OPC_LO (rule R27). -/
  opcLo : Word
  /-- OPC_HI (rule R27). -/
  opcHi : Word
  /-- RES_LO (rule R28). -/
  resLo : Word
  /-- RES_HI (rule R28). -/
  resHi : Word
  /-- XS_STATE (rule R29). -/
  xsState : Word
  /-- XS_SHIFT.A, the first left shift (rule R30). The reserved bits of XS_SHIFT hold nothing. -/
  xsShiftA : BitVec 5
  /-- XS_SHIFT.B, the right shift (rule R30). -/
  xsShiftB : BitVec 5
  /-- XS_SHIFT.C, the second left shift (rule R30). -/
  xsShiftC : BitVec 5
  /-- MINSTD_STATE (rule R31). -/
  minstdState : Word
  /-- MARS_STATE (rule R32). -/
  marsState : Word
  /-- CMWC_CARRY (rule R33). -/
  cmwcCarry : Word
  /-- CMWC_INDEX, bits 11:0 (rule R34). -/
  cmwcIndex : BitVec 12
  /-- KCOUNT, bits 6:0 (rule R35). -/
  kcount : BitVec 7
  /-- `PERM`, `SRC`, `VALUE`, `KNOT` and `Q` (rules R37-R41). -/
  mem : Memory
  /-- Whether the reset input is asserted (rule R250). -/
  inReset : Bool
  /-- The model's own: the events still to come at the port, in port order. They come from outside the block. -/
  arrivals : List PortEvent
  /-- The model's own: what the host saw of the last event. -/
  reply : Response
  /-- The model's own: how many resets there have been, so that each leaves fresh unspecified RAM contents. -/
  resets : Nat
  /-- The model's own: how many unspecified reads there have been (rule R71), so that each returns a fresh value. -/
  freeReads : Nat
deriving DecidableEq, Repr

/-- The block right after reset (rule R251): Idle, every register at its reset value, no RAM byte written, reset no
longer asserted. The model's own fields start with no event to come, no access made, and the counters at 0 (log entry 16,
DESIGN CHOICE, unsafe). -/
def State.reset : State where
  err := false
  ecode := 0#4
  cmwcSeeded := false
  permReady := false
  valueReady := false
  inflight := .none
  opaLo := 0#32
  opaHi := 0#32
  opbLo := 0#32
  opbHi := 0#32
  opcLo := 0#32
  opcHi := 0#32
  resLo := 0#32
  resHi := 0#32
  xsState := 0#32
  xsShiftA := 1#5
  xsShiftB := 3#5
  xsShiftC := 10#5
  minstdState := 0#32
  marsState := 0#32
  cmwcCarry := Config.cmwcCInit
  cmwcIndex := 4095#12
  kcount := 0#7
  mem := []
  inReset := false
  arrivals := []
  reply := .none
  resets := 0
  freeReads := 0

end Sys2Proof.Machine
end

