-- ==== Sys2Proof/Machine/Ops.lean ====
section
/-! DEFINITION. The named operations every meaning is written over: RAM bytes, words and double words (rules R64, R65),
the result register (rule R11), recording an error (rule R222: the nearest this block has to taking an exception, rule
R228) and clearing it (rule R26: the nearest to a return from one, rule R229), the lifecycle of a command (rules
R205-R207), and reset (rules R250, R251). -/

namespace Sys2Proof.Machine

/-! ## RAM bytes -/

/-- The byte written at an offset, if any was. -/
def Memory.read : Memory → Nat → Option Byte
  | [], _ => none
  | c :: m, a => if c.1 = a then some c.2 else Memory.read m a

/-- Write a byte, keeping the addresses strictly rising. -/
def Memory.write : Memory → Nat → Byte → Memory
  | [], a, b => [(a, b)]
  | c :: m, a, b =>
    if a < c.1 then (a, b) :: c :: m
    else if a = c.1 then (a, b) :: m
    else c :: Memory.write m a b

/-- What the RAM byte at an offset holds: what was written there, or its unspecified reset contents (rule R43). -/
def State.byteAt (s : State) (a : Nat) : Byte :=
  match Memory.read s.mem a with
  | some b => b
  | none => Config.ramByte s.resets a

/-- Store one RAM byte. -/
def State.setByte (s : State) (a : Nat) (b : Byte) : State := { s with mem := Memory.write s.mem a b }

/-! ## RAM words, little-endian (rule R64) -/

/-- Byte lane `k` of a word: bits `8k+7:8k` (rule R64). -/
def byteLane (w : Word) (k : Nat) : Byte := w.extractLsb' (8 * k) 8

/-- The word of four byte lanes, lane 0 first. -/
def wordOfLanes (b0 b1 b2 b3 : Byte) : Word := b3 ++ b2 ++ b1 ++ b0

/-- The RAM word at an offset (rule R64). -/
def State.wordAt (s : State) (a : Nat) : Word :=
  wordOfLanes (s.byteAt a) (s.byteAt (a + 1)) (s.byteAt (a + 2)) (s.byteAt (a + 3))

/-- Write the four byte lanes of a word, lane 0 at the lowest offset (rule R64). -/
def Memory.writeWord (m : Memory) (a : Nat) (w : Word) : Memory :=
  Memory.write (Memory.write (Memory.write (Memory.write m (a + 3) (byteLane w 3)) (a + 2) (byteLane w 2)) (a + 1)
    (byteLane w 1)) a (byteLane w 0)

/-- Store a RAM word (rule R64). -/
def State.setWord (s : State) (a : Nat) (w : Word) : State := { s with mem := Memory.writeWord s.mem a w }

/-- Bits 31:0 of a 64-bit value (rule R64). -/
def loWord (d : DWord) : Word := d.extractLsb' 0 32

/-- Bits 63:32 of a 64-bit value (rule R64). -/
def hiWord (d : DWord) : Word := d.extractLsb' 32 32

/-- The RAM double word at an offset: bits 31:0 at the offset, bits 63:32 at the offset 4 above (rule R64). -/
def State.dwordAt (s : State) (a : Nat) : DWord := s.wordAt (a + 4) ++ s.wordAt a

/-- Write a double word: bits 31:0 at the offset, bits 63:32 at the offset 4 above (rule R64). -/
def Memory.writeDword (m : Memory) (a : Nat) (d : DWord) : Memory :=
  Memory.writeWord (Memory.writeWord m (a + 4) (hiWord d)) a (loWord d)

/-- Store a RAM double word (rule R64). -/
def State.setDword (s : State) (a : Nat) (d : DWord) : State := { s with mem := Memory.writeDword s.mem a d }

/-! ## The five RAMs by index (rule R65) -/

/-- Offset of `PERM[k]` (rules R37, R65). -/
def permOff (k : Nat) : Nat := 0x400 + 4 * k

/-- Offset of `SRC[k]` (rules R38, R65). -/
def srcOff (k : Nat) : Nat := 0x800 + 4 * k

/-- Offset of `VALUE[k]` bits 31:0; bits 63:32 are 4 above (rules R39, R65). -/
def valueOff (k : Nat) : Nat := 0x1000 + 8 * k

/-- Offset of `KNOT[k]` bits 31:0; bits 63:32 are 4 above (rules R40, R65). -/
def knotOff (k : Nat) : Nat := 0x1800 + 8 * k

/-- Offset of `Q[k]` (rules R41, R65). -/
def qOff (k : Nat) : Nat := 0x4000 + 4 * k

/-- `PERM[k]` (rule R37). -/
def State.perm (s : State) (k : Nat) : Word := s.wordAt (permOff k)

/-- `PERM[k] <- w` (rule R37). -/
def State.setPerm (s : State) (k : Nat) (w : Word) : State := s.setWord (permOff k) w

/-- `SRC[k]` (rule R38). -/
def State.src (s : State) (k : Nat) : Word := s.wordAt (srcOff k)

/-- `VALUE[k]` (rule R39). -/
def State.value (s : State) (k : Nat) : DWord := s.dwordAt (valueOff k)

/-- `VALUE[k] <- d` (rule R39). -/
def State.setValue (s : State) (k : Nat) (d : DWord) : State := s.setDword (valueOff k) d

/-- `KNOT[k]` (rule R40). -/
def State.knot (s : State) (k : Nat) : DWord := s.dwordAt (knotOff k)

/-- `Q[k]` (rule R41). -/
def State.q (s : State) (k : Nat) : Word := s.wordAt (qOff k)

/-- `Q[k] <- w` (rule R41). -/
def State.setQ (s : State) (k : Nat) (w : Word) : State := s.setWord (qOff k) w

/-! ## The result register (rules R11, R28) -/

/-- `RES.u32 <- v`: the LO word, and 0 in the HI word (rules R11, R28). -/
def State.setResU32 (s : State) (v : Word) : State := { s with resLo := v, resHi := 0#32 }

/-- `RES.f64 <- d`: both words (rules R11, R28). -/
def State.setResF64 (s : State) (d : DWord) : State := { s with resLo := loWord d, resHi := hiWord d }

/-- `RES` as one 64-bit value (rule R11). -/
def State.res (s : State) : DWord := s.resHi ++ s.resLo

/-! ## Errors (rules R220, R222, R26) -/

/-- The code of an error in STATUS.ECODE (rule R220). -/
def ErrorCode.code : ErrorCode → BitVec 4
  | .badCmd => 1#4
  | .param => 2#4
  | .notSeeded => 3#4
  | .notReady => 4#4
  | .domain => 5#4
  | .busyWrite => 6#4

/-- `record_error(k)`: ECODE keeps the first error since the last clear, ERR is sticky (rule R222). -/
def State.recordError (s : State) (k : ErrorCode) : State :=
  { s with ecode := if s.err then s.ecode else k.code, err := true }

/-- The effect of a STATUS write with bit 1 set: ERR and ECODE are cleared (rule R26). -/
def State.clearError (s : State) : State := { s with err := false, ecode := 0#4 }

/-- The code of the first check that fails, in the order of the list (rule R223). -/
def firstFailure : List (Bool × ErrorCode) → Option ErrorCode
  | [] => none
  | (fails, k) :: rest => if fails then some k else firstFailure rest

/-! ## The command lifecycle (rules R205-R207) -/

/-- STATUS.BUSY: a command is in flight (rules R25, R206). -/
def State.busy (s : State) : Bool := s.inflight.isSome

/-- The operand registers as issue takes them (rule R205). -/
def State.operands (s : State) : Operands where
  opa := s.opaHi ++ s.opaLo
  opb := s.opbHi ++ s.opbLo
  opc := s.opcHi ++ s.opcLo
  kcount := s.kcount

/-- What a command rule gives: its "at issue" checks, the fallback of a rejected command (SPLINE only, rule R197), and
its "Run" on the operand snapshot, which answers the completion state, or none where the run never ends (rule R265). -/
structure Meaning where
  check : State → Option ErrorCode
  fallback : State → State
  run : Operands → State → Option State

/-- A command starts running: the snapshot is taken and BUSY is 1 (rule R205). -/
def State.begin (s : State) (i : Instr) : State := { s with inflight := some ⟨i, s.operands⟩ }

/-- A rejected command: the fallback, then the error is recorded; BUSY stays 0 (rules R205, R221). -/
def State.reject (s : State) (m : Meaning) (k : ErrorCode) : State := (m.fallback s).recordError k

/-- Issue a command and leave it running (rules R205, R210): the block is Busy until a completion event. -/
def State.issue (s : State) (i : Instr) (m : Meaning) : State :=
  match m.check s with
  | some k => s.reject m k
  | none => s.begin i

/-- The command's run has ended: every change appears at once, BUSY is 0 and the in-flight command is discarded; a run
that never ends keeps BUSY at 1 (rules R207, R265; log entry 9, DEDUCED). -/
def State.finish (s : State) (f : InFlight) (m : Meaning) : State :=
  match m.run f.ops { s with inflight := none } with
  | some t => t
  | none => s

/-- A whole command, from the host write to `CMD` to its completion, as the one atomic transition rule R207 allows (log
entries 2 and 11, DEDUCED). A
write while another command runs is dropped with BUSY_WRITE (rule R208); a command whose run never ends stays in flight
with BUSY = 1 (rule R265). -/
def perform (i : Instr) (m : Meaning) (s : State) : Host.Outcome State Fault Refusal :=
  if s.busy then .next (s.recordError .busyWrite)
  else match m.check s with
  | some k => .next (s.reject m k)
  | none =>
    match m.run s.operands s with
    | some t => .next t
    | none => .next (s.begin i)

/-! ## Reset (rules R250, R251, R257) -/

/-- The state when reset ends: the reset values, with fresh unspecified RAM contents (rules R250, R251, R257). The
events still to come and the model's own counters go on (log entry 10, DEDUCED). -/
def State.afterReset (s : State) : State :=
  { State.reset with resets := s.resets + 1, freeReads := s.freeReads, arrivals := s.arrivals }

end Sys2Proof.Machine
end

