-- ==== Sys2Proof/Machine/Operands.lean ====
section
/-! DEFINITION. The operand forms of rule R91, each read from the operand snapshot taken at issue. -/

namespace Sys2Proof.Machine

/-- `OPA.u32`: OPA_LO, OPA_HI ignored (rule R91). -/
def Operands.aU32 (o : Operands) : Word := loWord o.opa

/-- `OPB.u32`: OPB_LO, OPB_HI ignored (rule R91). -/
def Operands.bU32 (o : Operands) : Word := loWord o.opb

/-- `OPA.s32`: OPA_LO in two's complement, OPA_HI ignored (rules R9, R91). -/
def Operands.aS32 (o : Operands) : Int := (loWord o.opa).toInt

/-- `OPB.s32`: OPB_LO in two's complement, OPB_HI ignored (rules R9, R91). -/
def Operands.bS32 (o : Operands) : Int := (loWord o.opb).toInt

/-- `OPA.f64`: the binary64 value of both words (rule R91). -/
def Operands.aF64 (o : Operands) : DWord := o.opa

/-- `OPB.f64`: the binary64 value of both words (rule R91). -/
def Operands.bF64 (o : Operands) : DWord := o.opb

/-- `OPC.f64`: the binary64 value of both words (rule R91). -/
def Operands.cF64 (o : Operands) : DWord := o.opc

/-- `KCOUNT[6:0]` as an unsigned number (rules R35, R91). -/
def Operands.knotCount (o : Operands) : Nat := o.kcount.toNat

end Sys2Proof.Machine
end

