-- ==== Sys2Proof/Machine/Flags.lean ====
section
/-! DEFINITION. The flags of the block: the STATUS word (rule R25), its host write (rule R26), the readiness flags (rule
R36) and the readiness checks of commands (rules R113, R130, R170). The block has no arithmetic condition codes (rule
R44). -/

namespace Sys2Proof.Machine

/-- One flag as a bit. -/
def flagBit (b : Bool) : BitVec 1 := BitVec.ofBool b

/-- The value a read of `STATUS` returns: BUSY, ERR, CMWC_SEEDED, PERM_READY, VALUE_READY in bits 0-4, ECODE in bits
11:8, every reserved bit 0 (rule R25). -/
def State.statusWord (s : State) : Word :=
  0#20 ++ s.ecode ++ 0#3 ++ flagBit s.valueReady ++ flagBit s.permReady ++ flagBit s.cmwcSeeded ++ flagBit s.err
    ++ flagBit s.busy

/-- A host write to `STATUS`: bit 1 set clears ERR and ECODE, every other bit is ignored (rule R26). -/
def State.writeStatus (s : State) (w : Word) : State := if w.getLsbD 1 then s.clearError else s

/-- A completed PERM_BUILD sets PERM_READY (rule R36). -/
def State.setPermReady (s : State) : State := { s with permReady := true }

/-- A completed SHUFFLE or SHUFFLE_IO and an accepted host `PERM` write clear PERM_READY (rule R36). -/
def State.clearPermReady (s : State) : State := { s with permReady := false }

/-- A completed VALUE_BUILD sets VALUE_READY (rule R36). -/
def State.setValueReady (s : State) : State := { s with valueReady := true }

/-- An accepted host `VALUE` write clears VALUE_READY (rule R36). -/
def State.clearValueReady (s : State) : State := { s with valueReady := false }

/-- Whether a draw from a generator uses the CMWC state, and so needs CMWC_SEEDED (rules R113, R130). -/
def Gsel.needsSeed : Gsel → Bool
  | .xs => false
  | .minstd => false
  | .mars => false
  | .cmwc => true
  | .comb => true

/-- The readiness check of a draw: fails when the generator needs CMWC_SEEDED and it is 0 (rules R113, R130). -/
def State.seedCheck (s : State) (g : Gsel) : Bool × ErrorCode := (Gsel.needsSeed g && !s.cmwcSeeded, .notSeeded)

/-- The readiness check of HASH: fails when PERM_READY is 0 (rule R170). -/
def State.permCheck (s : State) : Bool × ErrorCode := (!s.permReady, .notReady)

/-- The readiness check of the other lattice commands: fails when PERM_READY or VALUE_READY is 0 (rule R170). -/
def State.tablesCheck (s : State) : Bool × ErrorCode := (!s.permReady || !s.valueReady, .notReady)

end Sys2Proof.Machine
end

