-- ==== Sys2Proof/Machine/Float.lean ====
section
/-! DEFINITION. Binary64 arithmetic (rules R10, R193, R194), on 64-bit patterns. Every finite double is a whole number of
units `2^-1074`, so each operation is computed exactly on whole numbers and rounded once, to nearest with ties to even.
Subnormals are kept, no operation is fused, and every NaN result is the canonical quiet NaN (log entry 15, PRESUMED). -/

namespace Sys2Proof.Machine

/-! ## Fields and classes of a pattern -/

/-- The sign bit. -/
def f64Neg (d : DWord) : Bool := d.getLsbD 63

/-- The pattern without its sign: exponent field, then fraction. Magnitudes are ordered as these numbers. -/
def f64Mag (d : DWord) : Nat := d.toNat % 2 ^ 63

/-- The magnitude pattern of infinity. -/
def f64InfMag : Nat := 0x7FF * 2 ^ 52

/-- `isnan(d)` (rule R10). -/
def f64IsNaN (d : DWord) : Bool := decide (f64InfMag < f64Mag d)

/-- The pattern is plus or minus infinity. -/
def f64IsInf (d : DWord) : Bool := f64Mag d == f64InfMag

/-- `isfinite(d)` (rule R10). -/
def f64IsFinite (d : DWord) : Bool := decide (f64Mag d < f64InfMag)

/-- The canonical quiet NaN (rule R193). -/
def f64NaN : DWord := 0x7FF8000000000000#64

/-- A pattern from its sign and magnitude. -/
def f64Pack (neg : Bool) (mag : Nat) : DWord := BitVec.ofNat 64 (if neg then 2 ^ 63 + mag else mag)

/-! ## Exact values in units of 2^-1074 -/

/-- The units of 1.0. -/
def f64One : Nat := 2 ^ 1074

/-- The magnitude of a finite double in units of `2^-1074`: the fraction for a subnormal, else the fraction with its
hidden bit, shifted by the exponent field less one. -/
def f64Units (d : DWord) : Nat :=
  let e := f64Mag d / 2 ^ 52
  let f := f64Mag d % 2 ^ 52
  if e = 0 then f else (2 ^ 52 + f) * 2 ^ (e - 1)

/-- A finite double in units of `2^-1074`, with its sign. -/
def f64Scaled (d : DWord) : Int := if f64Neg d then -(f64Units d : Int) else (f64Units d : Int)

/-! ## Rounding (rule R194: to nearest, ties to even) -/

/-- `n / d` to the nearest whole number, a tie to the even one. -/
def roundNearestEven (n d : Nat) : Nat :=
  let q := n / d
  let r := n % d
  if d < 2 * r then q + 1
  else if 2 * r = d then q + q % 2
  else q

/-- The magnitude pattern nearest to `n / d` units of `2^-1074`. The result is a multiple of `2^sh` units, with `sh` so
that 53 bits are kept (none dropped in the subnormal range); a carry out of the fraction steps the exponent by itself,
and a magnitude past the largest finite one is infinity. -/
def f64RoundMag (n d : Nat) : Nat :=
  let sh := Nat.log2 (n / d) - 52
  min (sh * 2 ^ 52 + roundNearestEven n (d * 2 ^ sh)) f64InfMag

/-! ## Operations (rules R10, R193, R194) -/

/-- The pattern with its sign turned. -/
def f64Negate (d : DWord) : DWord := f64Pack (!f64Neg d) (f64Mag d)

/-- `fadd`: an exact zero sum is -0.0 only when both operands are negative; infinities of opposite signs are invalid. -/
def fadd (a b : DWord) : DWord :=
  if f64IsNaN a || f64IsNaN b then f64NaN
  else if f64IsInf a then (if f64IsInf b && f64Neg a != f64Neg b then f64NaN else a)
  else if f64IsInf b then b
  else
    let m := f64Scaled a + f64Scaled b
    if m = 0 then f64Pack (f64Neg a && f64Neg b) 0
    else f64Pack (decide (m < 0)) (f64RoundMag m.natAbs 1)

/-- `fsub`: the sum with the second operand's sign turned. -/
def fsub (a b : DWord) : DWord := fadd a (f64Negate b)

/-- `fmul`: the sign is the exclusive or of the signs; infinity times zero is invalid. -/
def fmul (a b : DWord) : DWord :=
  let neg := f64Neg a != f64Neg b
  if f64IsNaN a || f64IsNaN b then f64NaN
  else if f64IsInf a || f64IsInf b then
    (if f64Mag a = 0 || f64Mag b = 0 then f64NaN else f64Pack neg f64InfMag)
  else f64Pack neg (f64RoundMag (f64Units a * f64Units b) f64One)

/-- `fdiv`: the sign is the exclusive or of the signs; zero by zero and infinity by infinity are invalid. The block
divides by 4294967295.0 only (rule R194). -/
def fdiv (a b : DWord) : DWord :=
  let neg := f64Neg a != f64Neg b
  if f64IsNaN a || f64IsNaN b then f64NaN
  else if f64IsInf a then (if f64IsInf b then f64NaN else f64Pack neg f64InfMag)
  else if f64IsInf b then f64Pack neg 0
  else if f64Mag b = 0 then (if f64Mag a = 0 then f64NaN else f64Pack neg f64InfMag)
  else f64Pack neg (f64RoundMag (f64Units a * f64One) (f64Units b))

/-- `f64(n)`: the double of an integer, +0.0 for 0 (rule R10; log entry 14, DEDUCED, unsafe). -/
def f64OfInt (n : Int) : DWord := f64Pack (decide (n < 0)) (f64RoundMag (n.natAbs * f64One) 1)

/-- `floor(d)` of a finite double, an integer (rule R10). -/
def f64Floor (d : DWord) : Int := f64Scaled d / (f64One : Int)

/-- A number ordered as the doubles are, equal for the two zeros; infinities are the ends. Not for a NaN. -/
def f64Order (d : DWord) : Int := if f64Neg d then -(f64Mag d : Int) else (f64Mag d : Int)

/-- `a < b`, the IEEE comparison: false when either is a NaN (rule R194). -/
def flt (a b : DWord) : Bool := !f64IsNaN a && !f64IsNaN b && decide (f64Order a < f64Order b)

/-! ## Constants -/

/-- The double +0.0. -/
def f64Zero : DWord := 0#64

/-- The double 1.0. -/
def f64OneD : DWord := 0x3FF0000000000000#64

/-- `DBL_DIV`, 4294967295.0 (rules R6, R140). -/
def dblDiv : DWord := f64OfInt 4294967295

/-! ## The two kernels -/

/-- `lerp(a, b, f) = a + f * (b - a)`: fsub, then fmul, then fadd (rule R190). -/
def flerp (a b f : DWord) : DWord := fadd a (fmul f (fsub b a))

/-- One row of the Catmull-Rom basis (rule R195). -/
structure BasisRow where
  m0 : DWord
  m1 : DWord
  m2 : DWord
  m3 : DWord
deriving DecidableEq, Repr

/-- Row 0 of the basis, `c3`: -0.5, 1.5, -1.5, 0.5 (rule R195). -/
def basisC3 : BasisRow := ⟨0xBFE0000000000000#64, 0x3FF8000000000000#64, 0xBFF8000000000000#64, 0x3FE0000000000000#64⟩

/-- Row 1 of the basis, `c2`: 1.0, -2.5, 2.0, -0.5 (rule R195). -/
def basisC2 : BasisRow := ⟨0x3FF0000000000000#64, 0xC004000000000000#64, 0x4000000000000000#64, 0xBFE0000000000000#64⟩

/-- Row 2 of the basis, `c1`: -0.5, 0.0, 0.5, 0.0 (rule R195). -/
def basisC1 : BasisRow := ⟨0xBFE0000000000000#64, 0#64, 0x3FE0000000000000#64, 0#64⟩

/-- Row 3 of the basis, `c0`: 0.0, 1.0, 0.0, 0.0 (rule R195). -/
def basisC0 : BasisRow := ⟨0#64, 0x3FF0000000000000#64, 0#64, 0#64⟩

/-- One coefficient: the four products summed left to right, zero entries included (rule R199). -/
def coefficient (r : BasisRow) (k0 k1 k2 k3 : DWord) : DWord :=
  fadd (fadd (fadd (fmul r.m0 k0) (fmul r.m1 k1)) (fmul r.m2 k2)) (fmul r.m3 k3)

/-- `spline4(t, k0, k1, k2, k3)`: the four coefficients, then Horner's rule (rule R199). -/
def spline4 (t k0 k1 k2 k3 : DWord) : DWord :=
  let c3 := coefficient basisC3 k0 k1 k2 k3
  let c2 := coefficient basisC2 k0 k1 k2 k3
  let c1 := coefficient basisC1 k0 k1 k2 k3
  let c0 := coefficient basisC0 k0 k1 k2 k3
  fadd (fmul (fadd (fmul (fadd (fmul c3 t) c2) t) c1) t) c0

end Sys2Proof.Machine
end

