-- ==== Sys2Proof/Machine/Interp.lean ====
section
/-! DEFINITION. The interpolation commands (file 44_interp.md): LERP and SPLINE. -/

namespace Sys2Proof.Machine

/-- LERP: no check; `RES.f64 <- lerp(a, b, f)` (rule R191). -/
def lerpMeaning : Meaning where
  check := fun _ => none
  fallback := id
  run := fun o s => some (s.setResF64 (flerp o.aF64 o.bF64 o.cF64))

/-- `LERP` (OP 0x40, rule R191). -/
def execLerp (s : State) : Host.Outcome State Fault Refusal := perform .lerp lerpMeaning s

/-- The clamp of the spline parameter to `[0, 1]` by comparison; -0.0 passes unchanged (rule R196). -/
def splineClamp (x : DWord) : DWord :=
  if flt x f64Zero then f64Zero
  else if flt f64OneD x then f64OneD
  else x

/-- The scaled parameter `s = xc * f64(ns)`, with `ns = n - 3` spans (rule R196). -/
def splineScaled (x : DWord) (n : Nat) : DWord := fmul (splineClamp x) (f64OfInt ((n - 3 : Nat) : Int))

/-- The span: `floor(s)`, limited to the last valid one, `ns - 1` (rule R196). -/
def splineSpan (x : DWord) (n : Nat) : Nat := min (f64Floor (splineScaled x n)).toNat (n - 4)

/-- The position in the span, `t = s - f64(span)`, one rounding (rule R196). -/
def splinePosition (x : DWord) (n : Nat) : DWord := fsub (splineScaled x n) (f64OfInt (splineSpan x n : Int))

/-- `spline(x, n)` over `KNOT[0..n-1]`, for `4 <= n <= 64` and `x` not NaN (rule R196). -/
def State.spline (s : State) (x : DWord) (n : Nat) : DWord :=
  let j := splineSpan x n
  spline4 (splinePosition x n) (s.knot j) (s.knot (j + 1)) (s.knot (j + 2)) (s.knot (j + 3))

/-- SPLINE: PARAM when `KCOUNT` is outside `[4, 64]`, then DOMAIN when `x` is NaN, each with the fallback `RES.f64 <-
+0.0`; the run puts `spline(x, n)` in `RES.f64` (rule R197). -/
def splineMeaning : Meaning where
  check := fun s => firstFailure
    [(decide (s.operands.knotCount < 4) || decide (Config.knotN < s.operands.knotCount), .param),
     (f64IsNaN s.operands.aF64, .domain)]
  fallback := fun s => s.setResF64 f64Zero
  run := fun o s => some (s.setResF64 (s.spline o.aF64 o.knotCount))

/-- `SPLINE` (OP 0x41, rule R197). -/
def execSpline (s : State) : Host.Outcome State Fault Refusal := perform .spline splineMeaning s

end Sys2Proof.Machine
end

