-- ==== Sys2Proof/Machine/Lattice.lean ====
section
/-! DEFINITION. The lattice commands (file 43_lattice.md): HASH, LATTICE_VALUE, SAMPLE_BILINEAR, SAMPLE_BICUBIC. -/

namespace Sys2Proof.Machine

/-- `v & 255` on an integer: the Euclidean remainder, in `[0, 255]` (rule R171). -/
def mask255 (v : Int) : Nat := (v % 256).toNat

/-- `lhash(x, y) = PERM[(x + PERM[y & 255]) & 255]` on exact integers (rule R171). -/
def State.lhash (s : State) (x y : Int) : Word := s.perm (mask255 (x + ((s.perm (mask255 y)).toNat : Int)))

/-- `lval(x, y) = VALUE[lhash(x, y) & 255]` (rule R175). -/
def State.lval (s : State) (x y : Int) : DWord := s.value (mask255 ((s.lhash x y).toNat : Int))

/-- A real coordinate split into its cell and its fraction (rule R176). -/
structure Split where
  cell : Int
  frac : DWord
deriving DecidableEq, Repr

/-- `split(d)` of a finite double: the cell is `floor(d) mod 256`, exact; the fraction is `d - floor(d)`, one rounding
(rule R176). -/
def splitCoord (d : DWord) : Split where
  cell := f64Floor d % 256
  frac := fsub d (f64OfInt (f64Floor d))

/-- `sample_bilinear(x, y)`: horizontal on rows `v0` and `v0 + 1`, then vertical (rule R179). -/
def State.sampleBilinear (s : State) (x y : DWord) : DWord :=
  let u := splitCoord x
  let v := splitCoord y
  let n00 := s.lval u.cell v.cell
  let n10 := s.lval (u.cell + 1) v.cell
  let n01 := s.lval u.cell (v.cell + 1)
  let n11 := s.lval (u.cell + 1) (v.cell + 1)
  flerp (flerp n00 n10 u.frac) (flerp n01 n11 u.frac) v.frac

/-- The horizontal spline of one row of the 4x4 neighbourhood: columns `u0-1 .. u0+2` on row `j` (rule R182). -/
def State.bicubicRow (s : State) (u : Split) (j : Int) : DWord :=
  spline4 u.frac (s.lval (u.cell - 1) j) (s.lval u.cell j) (s.lval (u.cell + 1) j) (s.lval (u.cell + 2) j)

/-- `sample_bicubic(x, y)`: four horizontal splines on rows `v0-1 .. v0+2`, then one vertical spline (rule R182). -/
def State.sampleBicubic (s : State) (x y : DWord) : DWord :=
  let u := splitCoord x
  let v := splitCoord y
  spline4 v.frac (s.bicubicRow u (v.cell - 1)) (s.bicubicRow u v.cell) (s.bicubicRow u (v.cell + 1))
    (s.bicubicRow u (v.cell + 2))

/-- The domain check of the sample commands: DOMAIN when a coordinate is infinite or NaN (rules R178, R184). -/
def State.coordinateCheck (s : State) : Bool × ErrorCode :=
  (!f64IsFinite s.operands.aF64 || !f64IsFinite s.operands.bF64, .domain)

/-- HASH: NOT_READY while PERM_READY is 0; `RES.u32 <- lhash(x, y)`, the whole `PERM` word (rule R172). -/
def hashMeaning : Meaning where
  check := fun s => firstFailure [s.permCheck]
  fallback := id
  run := fun o s => some (s.setResU32 (s.lhash o.aS32 o.bS32))

/-- `HASH` (OP 0x30, rule R172). -/
def execHash (s : State) : Host.Outcome State Fault Refusal := perform .hash hashMeaning s

/-- LATTICE_VALUE: NOT_READY while PERM_READY or VALUE_READY is 0; `RES.f64 <- lval(x, y)` (rule R174). -/
def latticeValueMeaning : Meaning where
  check := fun s => firstFailure [s.tablesCheck]
  fallback := id
  run := fun o s => some (s.setResF64 (s.lval o.aS32 o.bS32))

/-- `LATTICE_VALUE` (OP 0x31, rule R174). -/
def execLatticeValue (s : State) : Host.Outcome State Fault Refusal := perform .latticeValue latticeValueMeaning s

/-- SAMPLE_BILINEAR: NOT_READY, then DOMAIN; `RES.f64 <- sample_bilinear(x, y)` (rules R178, R184). -/
def sampleBilinearMeaning : Meaning where
  check := fun s => firstFailure [s.tablesCheck, s.coordinateCheck]
  fallback := id
  run := fun o s => some (s.setResF64 (s.sampleBilinear o.aF64 o.bF64))

/-- `SAMPLE_BILINEAR` (OP 0x32, rule R178). -/
def execSampleBilinear (s : State) : Host.Outcome State Fault Refusal := perform .sampleBilinear sampleBilinearMeaning s

/-- SAMPLE_BICUBIC: NOT_READY, then DOMAIN; `RES.f64 <- sample_bicubic(x, y)` (rules R181, R184). -/
def sampleBicubicMeaning : Meaning where
  check := fun s => firstFailure [s.tablesCheck, s.coordinateCheck]
  fallback := id
  run := fun o s => some (s.setResF64 (s.sampleBicubic o.aF64 o.bF64))

/-- `SAMPLE_BICUBIC` (OP 0x33, rule R181). -/
def execSampleBicubic (s : State) : Host.Outcome State Fault Refusal := perform .sampleBicubic sampleBicubicMeaning s

end Sys2Proof.Machine
end

