-- ==== Sys2Proof/Machine/Draw.lean ====
section
/-! DEFINITION. The draw functions of the five generators (rules R100, R103, R106, R114, R118), the seeding of CMWC (rule
R109), and the samplers over them: the unbiased integer draw with its unbounded rejection loop (rules R133, R138) and the
double draws (rules R140, R143). A function that answers none has a loop that never ends. -/

namespace Sys2Proof.Machine

/-! ## State advance of each generator -/

/-- One XorShift step with shifts `a`, `b`, `c` (rule R100): three logical shifts in order, each on the result of the
one before. -/
def xorShift (a b c : BitVec 5) (s : Word) : Word :=
  let s := s ^^^ (s <<< a.toNat)
  let s := s ^^^ (s >>> b.toNat)
  s ^^^ (s <<< c.toNat)

/-- One step of a linear congruential generator, the product exact (rules R103, R106). -/
def lcgStep (mul add x : Nat) : Nat := (add + mul * x) % Config.lcgM

/-- One MINSTD step (rule R103). -/
def minstdStep (x : Nat) : Nat := lcgStep Config.minstdA Config.minstdC x

/-- One Marsaglia-variant step (rule R106). -/
def marsStep (x : Nat) : Nat := lcgStep Config.marsA Config.marsC x

/-- One CMWC step on the ring word `q` and the carry (rule R114): the new ring word, which is the output, and the new
carry. The correction is taken when the wrapped 32-bit sum is below the high half. -/
def cmwcStep (q carry : Word) : Word × Word :=
  let t := Config.cmwcA * q.toNat + carry.toNat
  let c := t / 2 ^ 32
  let x := (t % 2 ^ 32 + c) % 2 ^ 32
  if x < c then (Config.cmwcR - BitVec.ofNat 32 (x + 1), BitVec.ofNat 32 (c + 1))
  else (Config.cmwcR - BitVec.ofNat 32 x, BitVec.ofNat 32 c)

/-! ## Draws on the state (rule R132) -/

/-- `xs_draw()` (rule R100). -/
def xsDraw (s : State) : Word × State :=
  let x := xorShift s.xsShiftA s.xsShiftB s.xsShiftC s.xsState
  (x, { s with xsState := x })

/-- `minstd_draw()` (rule R103). -/
def minstdDraw (s : State) : Word × State :=
  let x := BitVec.ofNat 32 (minstdStep s.minstdState.toNat)
  (x, { s with minstdState := x })

/-- `mars_draw()` (rule R106). -/
def marsDraw (s : State) : Word × State :=
  let x := BitVec.ofNat 32 (marsStep s.marsState.toNat)
  (x, { s with marsState := x })

/-- The ring index the next CMWC draw uses, `(CMWC_INDEX + 1) mod 4096` (rule R114). -/
def State.nextIndex (s : State) : BitVec 12 := s.cmwcIndex + 1#12

/-- `cmwc_draw()` (rule R114). -/
def cmwcDraw (s : State) : Word × State :=
  let i := s.nextIndex
  let p := cmwcStep (s.q i.toNat) s.cmwcCarry
  (p.1, { s with mem := Memory.writeWord s.mem (qOff i.toNat) p.1, cmwcCarry := p.2, cmwcIndex := i })

/-- `comb_draw()`: CMWC, then MINSTD, then XorShift; `((a ^ b) + d) mod 2^32` (rule R118). -/
def combDraw (s : State) : Word × State :=
  let a := cmwcDraw s
  let b := minstdDraw a.2
  let d := xsDraw b.2
  ((a.1 ^^^ b.1) + d.1, d.2)

/-- `draw(g)`: one advance of the selected generator, and its output (rule R132). -/
def draw : Gsel → State → Word × State
  | .xs, s => xsDraw s
  | .minstd, s => minstdDraw s
  | .mars, s => marsDraw s
  | .cmwc, s => cmwcDraw s
  | .comb, s => combDraw s

/-! ## The unbounded rejection loop (rules R133, R138) -/

/-- How many different states a generator has: a loop that has not ended after this many draws has come back to a state
it was in before, so it never ends. This is no bound on the loop (rule R266): it is where its outcome is decided
(log entry 9, DEDUCED). -/
def generatorStates : Gsel → Nat
  | .xs => 2 ^ 32
  | .minstd => 2 ^ 32
  | .mars => 2 ^ 32
  | .cmwc => 2 ^ (32 * 4096 + 32 + 12)
  | .comb => 2 ^ (32 * 4096 + 32 + 12 + 32 + 32)

/-- Whether a draw left the generator where it was, so that every later draw repeats it (rules R102(a), R105(a)). A CMWC
draw moves the ring index, so it never does. -/
def drawIsFixed : Gsel → State → State → Bool
  | .xs, s, t => s.xsState == t.xsState
  | .minstd, s, t => s.minstdState == t.minstdState
  | .mars, s, t => s.marsState == t.marsState
  | .cmwc, _, _ => false
  | .comb, _, _ => false

/-- Draw until an output is accepted, within a number of draws; none when there is none to accept. A rejected draw that
left the generator where it was answers none at once: the loop repeats it forever. -/
def drawUntil (g : Gsel) (accept : Word → Bool) : Nat → State → Option (Word × State)
  | 0, _ => none
  | n + 1, s =>
    let p := draw g s
    if accept p.1 then some p
    else if drawIsFixed g s p.2 then none
    else drawUntil g accept n p.2

/-- `threshold = (2^32 - range) mod range`, in exact integers (rules R133, R135). -/
def rejectThreshold (range : Nat) : Nat := (2 ^ 32 - range) % range

/-- `uniform(g, lower, upper)` for `lower <= upper`: the result and the state after, or none where the rejection loop
never ends (rules R133, R138). An empty range makes no draw. -/
def uniformDraw (g : Gsel) (lower upper : Word) (s : State) : Option (Word × State) :=
  let range := upper.toNat - lower.toNat
  if range = 0 then some (lower, s)
  else
    match drawUntil g (fun r => decide (rejectThreshold range ≤ r.toNat)) (generatorStates g) s with
    | some (r, t) => some (BitVec.ofNat 32 (lower.toNat + r.toNat % range), t)
    | none => none

/-! ## Double draws (rules R140, R143) -/

/-- `f64(r) / 4294967295.0`, one correctly rounded division (rule R140). -/
def doubleOfWord (r : Word) : DWord := fdiv (f64OfInt r.toNat) dblDiv

/-- `double(g)` (rule R140). -/
def doubleDraw (g : Gsel) (s : State) : DWord × State :=
  let p := draw g s
  (doubleOfWord p.1, p.2)

/-- `double_affine(g, lower, upper) = lower + d * (upper - lower)` (rule R143). -/
def doubleAffineDraw (g : Gsel) (lower upper : DWord) (s : State) : DWord × State :=
  let p := doubleDraw g s
  (fadd lower (fmul p.1 (fsub upper lower)), p.2)

/-! ## Seeding CMWC (rule R109) -/

/-- Fill the ring from index `k` on with the next values of the private scratch sequence (rules R109, R112). The answer is
the scratch value after the last word, and the RAM contents. The words are drawn in index order; the stores are to
different words, so it leaves no trace that the store of word `k` stands after those of the later words (log entry 12,
DEDUCED, safe). -/
def seedRing : Nat → Nat → Nat → Memory → Nat × Memory
  | 0, _, t, m => (t, m)
  | n + 1, k, t, m =>
    let p := seedRing n (k + 1) (minstdStep t) m
    (p.1, Memory.writeWord p.2 (qOff k) (BitVec.ofNat 32 (minstdStep t)))

/-- Whether a scratch value is taken as the carry: it is below `CMWC_C_MAX`. Zero always is, since `1 <= CMWC_C_MAX`
(rules R6, R111(a)); it is tested first so that it needs no value of the OPEN parameter (log entry 13, DEDUCED, safe). -/
def carryAccepted (cMax t : Nat) : Bool := t == 0 || decide (t < cMax)

/-- Draw the carry from the scratch sequence until one is accepted, within a number of draws (rule R109). A scratch value
has fewer than `2^31` values, so a loop that has not ended after that many never ends (rule R111(b)). -/
def seedCarry (cMax : Nat) : Nat → Nat → Option Nat
  | 0, _ => none
  | n + 1, t => if carryAccepted cMax (minstdStep t) then some (minstdStep t) else seedCarry cMax n (minstdStep t)

/-- `cmwc_seed(seed)` with the threshold as an argument: the state after, or none where the carry loop never ends (rules
R109-R112). -/
def seedCmwc (cMax : Nat) (seed : Word) (s : State) : Option State :=
  let p := seedRing Config.cmwcN 0 seed.toNat s.mem
  match seedCarry cMax (2 ^ 31) p.1 with
  | some c => some { s with mem := p.2, cmwcCarry := BitVec.ofNat 32 c, cmwcIndex := 4095#12, cmwcSeeded := true }
  | none => none

end Sys2Proof.Machine
end

