-- ==== Sys2Proof/Machine/Prng.lean ====
section
/-! DEFINITION. The PRNG core commands (file 40_prng.md): one draw of each generator, and the seeding of CMWC. -/

namespace Sys2Proof.Machine

/-- A command that draws once from a generator into `RES.u32`, after the readiness check of that generator (rules R101,
R104, R107, R115, R121; check: rule R113). -/
def drawToRes (g : Gsel) : Meaning where
  check := fun s => firstFailure [s.seedCheck g]
  fallback := id
  run := fun _ s => some ((draw g s).2.setResU32 (draw g s).1)

/-- XS_NEXT: `RES.u32 <- xs_draw()` (rule R101). -/
def xsNextMeaning : Meaning := drawToRes .xs

/-- `XS_NEXT` (OP 0x01, rule R101). -/
def execXsNext (s : State) : Host.Outcome State Fault Refusal := perform .xsNext xsNextMeaning s

/-- MINSTD_NEXT: `RES.u32 <- minstd_draw()` (rule R104). -/
def minstdNextMeaning : Meaning := drawToRes .minstd

/-- `MINSTD_NEXT` (OP 0x02, rule R104). -/
def execMinstdNext (s : State) : Host.Outcome State Fault Refusal := perform .minstdNext minstdNextMeaning s

/-- MARS_NEXT: `RES.u32 <- mars_draw()` (rule R107). -/
def marsNextMeaning : Meaning := drawToRes .mars

/-- `MARS_NEXT` (OP 0x03, rule R107). -/
def execMarsNext (s : State) : Host.Outcome State Fault Refusal := perform .marsNext marsNextMeaning s

/-- CMWC_NEXT: NOT_SEEDED while CMWC_SEEDED is 0, else `RES.u32 <- cmwc_draw()` (rule R115). -/
def cmwcNextMeaning : Meaning := drawToRes .cmwc

/-- `CMWC_NEXT` (OP 0x04, rule R115). -/
def execCmwcNext (s : State) : Host.Outcome State Fault Refusal := perform .cmwcNext cmwcNextMeaning s

/-- COMB_NEXT: NOT_SEEDED while CMWC_SEEDED is 0, else `RES.u32 <- comb_draw()` (rule R121). -/
def combNextMeaning : Meaning := drawToRes .comb

/-- `COMB_NEXT` (OP 0x05, rule R121). -/
def execCombNext (s : State) : Host.Outcome State Fault Refusal := perform .combNext combNextMeaning s

/-- CMWC_SEED: no issue check; `cmwc_seed(OPA.u32)` with the OPEN threshold `CMWC_C_MAX` (rule R110). -/
def cmwcSeedMeaning : Meaning where
  check := fun _ => none
  fallback := id
  run := fun o s => seedCmwc Config.cmwcCMax o.aU32 s

/-- `CMWC_SEED` (OP 0x06, rule R110). -/
def execCmwcSeed (s : State) : Host.Outcome State Fault Refusal := perform .cmwcSeed cmwcSeedMeaning s

end Sys2Proof.Machine
end

