-- ==== Sys2Proof/Machine/Samplers.lean ====
section
/-! DEFINITION. The sampler commands (file 41_samplers.md): UNIFORM, DOUBLE, DOUBLE_AFFINE. -/

namespace Sys2Proof.Machine

/-- UNIFORM: NOT_SEEDED, then PARAM when `lower > upper`; the run puts `uniform(g, lower, upper)` in `RES.u32`, and never
ends when its rejection loop never does (rules R134, R138, R139). -/
def uniformMeaning (g : Gsel) : Meaning where
  check := fun s => firstFailure [s.seedCheck g, (decide (s.operands.bU32 < s.operands.aU32), .param)]
  fallback := id
  run := fun o s =>
    match uniformDraw g o.aU32 o.bU32 s with
    | some (r, t) => some (t.setResU32 r)
    | none => none

/-- `UNIFORM` (OP 0x10, rule R134). -/
def execUniform (g : Gsel) (s : State) : Host.Outcome State Fault Refusal := perform (.uniform g) (uniformMeaning g) s

/-- DOUBLE: NOT_SEEDED; the run puts `double(g)` in `RES.f64` (rule R141). -/
def doubleMeaning (g : Gsel) : Meaning where
  check := fun s => firstFailure [s.seedCheck g]
  fallback := id
  run := fun _ s => some ((doubleDraw g s).2.setResF64 (doubleDraw g s).1)

/-- `DOUBLE` (OP 0x11, rule R141). -/
def execDouble (g : Gsel) (s : State) : Host.Outcome State Fault Refusal := perform (.double g) (doubleMeaning g) s

/-- DOUBLE_AFFINE: NOT_SEEDED, and no parameter check; the run puts `double_affine(g, lower, upper)` in `RES.f64` (rule
R144). -/
def doubleAffineMeaning (g : Gsel) : Meaning where
  check := fun s => firstFailure [s.seedCheck g]
  fallback := id
  run := fun o s => some ((doubleAffineDraw g o.aF64 o.bF64 s).2.setResF64 (doubleAffineDraw g o.aF64 o.bF64 s).1)

/-- `DOUBLE_AFFINE` (OP 0x12, rule R144). -/
def execDoubleAffine (g : Gsel) (s : State) : Host.Outcome State Fault Refusal :=
  perform (.doubleAffine g) (doubleAffineMeaning g) s

end Sys2Proof.Machine
end

