-- ==== Sys2Proof/Machine/Shuffle.lean ====
section
/-! DEFINITION. The shuffles and the table builders (file 42_shuffle.md): SHUFFLE, SHUFFLE_IO, PERM_BUILD, VALUE_BUILD.
A pass whose `uniform` call never ends makes the whole command never end (rules R152(d), R160). -/

namespace Sys2Proof.Machine

/-- Swap `PERM[i]` and `PERM[j]` (rule R150). -/
def State.swapPerm (s : State) (i j : Nat) : State :=
  { s with mem := Memory.writeWord (Memory.writeWord s.mem (permOff i) (s.perm j)) (permOff j) (s.perm i) }

/-- The passes `i, i-1, ..., 1` of the classic shuffle: draw `j` in `[0, i]`, then swap (rule R150). -/
def shufflePasses (g : Gsel) : Nat → State → Option State
  | 0, s => some s
  | i + 1, s =>
    match uniformDraw g 0#32 (BitVec.ofNat 32 (i + 2)) s with
    | some (j, t) => shufflePasses g i (t.swapPerm (i + 1) j.toNat)
    | none => none

/-- `shuffle(g, n)` for `1 <= n <= 256` (rule R150). -/
def shuffleRun (g : Gsel) (n : Nat) (s : State) : Option State := shufflePasses g (n - 1) s

/-- One placement of the inside-out shuffle at index `i` with the drawn `j`: when they differ, `PERM[j]` moves to
`PERM[i]` before `PERM[j]` takes `SRC[i]` (rule R154). -/
def State.placeInsideOut (s : State) (i j : Nat) : State :=
  if j = i then s.setPerm i (s.src i)
  else { s with mem := Memory.writeWord (Memory.writeWord s.mem (permOff i) (s.perm j)) (permOff j) (s.src i) }

/-- The steps of the inside-out shuffle from index `i` on (rule R154): a draw is made even at index 0. -/
def shuffleIoSteps (g : Gsel) : Nat → Nat → State → Option State
  | 0, _, s => some s
  | n + 1, i, s =>
    match uniformDraw g 0#32 (BitVec.ofNat 32 (i + 1)) s with
    | some (j, t) => shuffleIoSteps g n (i + 1) (t.placeInsideOut i j.toNat)
    | none => none

/-- `shuffle_io(g, n)` for `1 <= n <= 256` (rule R154). -/
def shuffleIoRun (g : Gsel) (n : Nat) (s : State) : Option State := shuffleIoSteps g n 0 s

/-- The length check of both shuffles: PARAM when `n = 0` or `n > 256` (rules R153, R157). -/
def State.lengthCheck (s : State) : Bool × ErrorCode :=
  (decide (s.operands.aU32.toNat = 0) || decide (Config.permN < s.operands.aU32.toNat), .param)

/-- `PERM[k] <- k` for every `k` below the count, on the RAM contents (rule R158). -/
def identityPerm : Nat → Memory → Memory
  | 0, m => m
  | k + 1, m => identityPerm k (Memory.writeWord m (permOff k) (BitVec.ofNat 32 k))

/-- The first step of `perm_build`: the identity over all 256 entries (rule R158). -/
def State.fillIdentity (s : State) : State := { s with mem := identityPerm Config.permN s.mem }

/-- `perm_build(g)`: the identity over all 256 entries, then the classic shuffle (rule R158). -/
def permBuildRun (g : Gsel) (s : State) : Option State := shuffleRun g Config.permN s.fillIdentity

/-- `VALUE[k] <- double(g)` from index `k` on, in index order (rule R161). -/
def fillValues (g : Gsel) : Nat → Nat → State → State
  | 0, _, s => s
  | n + 1, k, s => fillValues g n (k + 1) ((doubleDraw g s).2.setValue k (doubleDraw g s).1)

/-- SHUFFLE: NOT_SEEDED, then PARAM; the run shuffles `PERM[0..n-1]` and clears PERM_READY (rules R151, R153). -/
def shuffleMeaning (g : Gsel) : Meaning where
  check := fun s => firstFailure [s.seedCheck g, s.lengthCheck]
  fallback := id
  run := fun o s =>
    match shuffleRun g o.aU32.toNat s with
    | some t => some t.clearPermReady
    | none => none

/-- `SHUFFLE` (OP 0x20, rule R151). -/
def execShuffle (g : Gsel) (s : State) : Host.Outcome State Fault Refusal := perform (.shuffle g) (shuffleMeaning g) s

/-- SHUFFLE_IO: NOT_SEEDED, then PARAM; the run builds `PERM[0..n-1]` from `SRC[0..n-1]` and clears PERM_READY (rules
R155, R157). -/
def shuffleIoMeaning (g : Gsel) : Meaning where
  check := fun s => firstFailure [s.seedCheck g, s.lengthCheck]
  fallback := id
  run := fun o s =>
    match shuffleIoRun g o.aU32.toNat s with
    | some t => some t.clearPermReady
    | none => none

/-- `SHUFFLE_IO` (OP 0x21, rule R155). -/
def execShuffleIo (g : Gsel) (s : State) : Host.Outcome State Fault Refusal :=
  perform (.shuffleIo g) (shuffleIoMeaning g) s

/-- PERM_BUILD: NOT_SEEDED; the run builds the table and sets PERM_READY (rules R158, R159). -/
def permBuildMeaning (g : Gsel) : Meaning where
  check := fun s => firstFailure [s.seedCheck g]
  fallback := id
  run := fun _ s =>
    match permBuildRun g s with
    | some t => some t.setPermReady
    | none => none

/-- `PERM_BUILD` (OP 0x22, rule R159). -/
def execPermBuild (g : Gsel) (s : State) : Host.Outcome State Fault Refusal :=
  perform (.permBuild g) (permBuildMeaning g) s

/-- VALUE_BUILD: NOT_SEEDED; the run fills the 256 entries and sets VALUE_READY (rules R161, R162). -/
def valueBuildMeaning (g : Gsel) : Meaning where
  check := fun s => firstFailure [s.seedCheck g]
  fallback := id
  run := fun _ s => some (fillValues g Config.permN 0 s).setValueReady

/-- `VALUE_BUILD` (OP 0x23, rule R162). -/
def execValueBuild (g : Gsel) (s : State) : Host.Outcome State Fault Refusal :=
  perform (.valueBuild g) (valueBuildMeaning g) s

end Sys2Proof.Machine
end

