-- ==== Sys2Proof/Machine/System.lean ====
section
/-! DEFINITION. The system command (file 45_system.md): NOP. -/

namespace Sys2Proof.Machine

/-- NOP: no issue check, and a run that does nothing (rule R211). -/
def nopMeaning : Meaning where
  check := fun _ => none
  fallback := id
  run := fun _ s => some s

/-- `NOP` (OP 0x00, rule R211). -/
def execNop (s : State) : Host.Outcome State Fault Refusal := perform .nop nopMeaning s

end Sys2Proof.Machine
end

