-- ==== Sys2Proof/Machine/Lifecycle.lean ====
section
/-! DEFINITION. The lifecycle of a command as two events, issue and completion (rules R205-R210), and which words a
running command may write, which is what a host read sees while BUSY = 1 (rule R71). -/

namespace Sys2Proof.Machine

/-- The rule of each command: its checks, its fallback and its run. `exec i` is `perform i (meaningOf i)`. -/
def meaningOf : Instr → Meaning
  | .nop => nopMeaning
  | .xsNext => xsNextMeaning
  | .minstdNext => minstdNextMeaning
  | .marsNext => marsNextMeaning
  | .cmwcNext => cmwcNextMeaning
  | .combNext => combNextMeaning
  | .cmwcSeed => cmwcSeedMeaning
  | .uniform g => uniformMeaning g
  | .double g => doubleMeaning g
  | .doubleAffine g => doubleAffineMeaning g
  | .shuffle g => shuffleMeaning g
  | .shuffleIo g => shuffleIoMeaning g
  | .permBuild g => permBuildMeaning g
  | .valueBuild g => valueBuildMeaning g
  | .hash => hashMeaning
  | .latticeValue => latticeValueMeaning
  | .sampleBilinear => sampleBilinearMeaning
  | .sampleBicubic => sampleBicubicMeaning
  | .lerp => lerpMeaning
  | .spline => splineMeaning

/-- The completion event: the in-flight command's effects appear at once and the block is Idle (rule R207). With no
command in flight there is nothing to complete (log entry 19, DESIGN CHOICE, safe). -/
def State.complete (s : State) : State :=
  match s.inflight with
  | some f => s.finish f (meaningOf f.instr)
  | none => s

/-! ## What a running command may write (rule R71) -/

/-- The words of a register or RAM entry range that a running command may write, by word offset. -/
structure WriteSet where
  /-- The generator it may draw from, and how many of the ring words after the current index the draws can reach. -/
  draws : Option (Gsel × Nat)
  /-- `PERM[0..n-1]`. -/
  perms : Nat
  /-- `VALUE[0..n-1]`. -/
  values : Nat
  /-- All of `Q`, CMWC_CARRY and CMWC_INDEX. -/
  seeds : Bool
deriving DecidableEq, Repr

/-- A command that writes none of these words. `RES` and STATUS are not among them: reads of both are defined while a
command runs (rule R71). -/
def WriteSet.nothing : WriteSet := ⟨none, 0, 0, false⟩

/-- The "Writes" line of each command's rule. A single draw reaches one ring word, VALUE_BUILD makes 256 draws, and a
command with a rejection loop may reach every ring word (log entry 5, DEDUCED, safe). -/
def writeSetOf (f : InFlight) : WriteSet :=
  match f.instr with
  | .nop => .nothing
  | .xsNext => { WriteSet.nothing with draws := some (.xs, 1) }
  | .minstdNext => { WriteSet.nothing with draws := some (.minstd, 1) }
  | .marsNext => { WriteSet.nothing with draws := some (.mars, 1) }
  | .cmwcNext => { WriteSet.nothing with draws := some (.cmwc, 1) }
  | .combNext => { WriteSet.nothing with draws := some (.comb, 1) }
  | .cmwcSeed => { WriteSet.nothing with seeds := true }
  | .uniform g => { WriteSet.nothing with draws := some (g, Config.cmwcN) }
  | .double g => { WriteSet.nothing with draws := some (g, 1) }
  | .doubleAffine g => { WriteSet.nothing with draws := some (g, 1) }
  | .shuffle g => { WriteSet.nothing with draws := some (g, Config.cmwcN), perms := min f.ops.aU32.toNat Config.permN }
  | .shuffleIo g => { WriteSet.nothing with draws := some (g, Config.cmwcN), perms := min f.ops.aU32.toNat Config.permN }
  | .permBuild g => { WriteSet.nothing with draws := some (g, Config.cmwcN), perms := Config.permN }
  | .valueBuild g => { WriteSet.nothing with draws := some (g, 256), values := Config.permN }
  | .hash => .nothing
  | .latticeValue => .nothing
  | .sampleBilinear => .nothing
  | .sampleBicubic => .nothing
  | .lerp => .nothing
  | .spline => .nothing

/-- Offset of `XS_STATE` (rule R22). -/
def offXsState : Nat := 0x030

/-- Offset of `MINSTD_STATE` (rule R22). -/
def offMinstdState : Nat := 0x038

/-- Offset of `MARS_STATE` (rule R22). -/
def offMarsState : Nat := 0x03C

/-- Offset of `CMWC_CARRY` (rule R22). -/
def offCmwcCarry : Nat := 0x040

/-- Offset of `CMWC_INDEX` (rule R22). -/
def offCmwcIndex : Nat := 0x044

/-- Whether a word offset is in `Q` (rule R65). -/
def inQ (off : Nat) : Bool := decide (0x4000 ≤ off) && decide (off < 0x8000)

/-- Whether a word offset is one of the `n` ring words that follow the ring index. -/
def inNextRingWords (s : State) (n off : Nat) : Bool :=
  inQ off && decide (((off - 0x4000) / 4 + 4096 - s.nextIndex.toNat) % 4096 < n)

/-- Whether a draw of a generator writes the word at an offset (rule R131). -/
def drawWrites (s : State) (g : Gsel) (n off : Nat) : Bool :=
  let cmwcWords := decide (off = offCmwcCarry) || decide (off = offCmwcIndex) || inNextRingWords s n off
  match g with
  | .xs => decide (off = offXsState)
  | .minstd => decide (off = offMinstdState)
  | .mars => decide (off = offMarsState)
  | .cmwc => cmwcWords
  | .comb => cmwcWords || decide (off = offMinstdState) || decide (off = offXsState)

/-- Whether the in-flight command may write the word at a word-aligned offset (rule R71). -/
def State.mayWrite (s : State) (f : InFlight) (off : Nat) : Bool :=
  let w := writeSetOf f
  let byDraws := match w.draws with
    | some (g, n) => drawWrites s g n off
    | none => false
  byDraws
    || (decide (permOff 0 ≤ off) && decide (off < permOff w.perms))
    || (decide (valueOff 0 ≤ off) && decide (off < valueOff w.values))
    || (w.seeds && (inQ off || decide (off = offCmwcCarry) || decide (off = offCmwcIndex)))

end Sys2Proof.Machine
end

