-- ==== Sys2Proof/Machine/Bus.lean ====
section
/-! DEFINITION. The host port (rules R61-R66): the register map of rule R22 and the address map of rule R65, for reads
and for writes, with what each access does while a command runs (rules R71, R208). -/

namespace Sys2Proof.Machine

/-! ## Host addresses -/

/-- The bus address of an offset in the window, `BASE + off` (rules R60, R61). -/
def busAddress (off : Offset) : Nat := Config.base + off.toNat

/-- The offset a bus address selects, if it lies in the block's window; another address is not the
block's (rule R60; log entry 20, DEDUCED). -/
def offsetOfAddress (addr : Nat) : Option Offset :=
  if Config.base ≤ addr ∧ addr < Config.base + 0x8000 then some (BitVec.ofNat 15 (addr - Config.base)) else none

/-- The port event of a host read at a bus address, `MemRead(BASE + off, .)` (rule R61), if it is the block's. -/
def readAtAddress (addr : Nat) (width : Width) : Option PortEvent := (offsetOfAddress addr).map fun off => .read off width

/-- The port event of a host write at a bus address, `MemWrite(BASE + off, ., v)` (rule R62), if it is the block's. -/
def writeAtAddress (addr : Nat) (width : Width) (w : Word) : Option PortEvent :=
  (offsetOfAddress addr).map fun off => .write off width w

/-- Whether the port accepts an access: 32 bits wide at a multiple of 4 (rule R63). -/
def accessOk (off : Offset) (width : Width) : Bool := width == .bits32 && off.toNat % 4 == 0

/-! ## Reads -/

/-- The XS_SHIFT word: the three fields, reserved bits 0 (rule R30). -/
def State.xsShiftWord (s : State) : Word :=
  0#11 ++ s.xsShiftC ++ 0#3 ++ s.xsShiftB ++ 0#3 ++ s.xsShiftA

/-- The CMWC_INDEX word: bits 31:12 are 0 (rule R34). -/
def State.cmwcIndexWord (s : State) : Word := 0#20 ++ s.cmwcIndex

/-- The KCOUNT word: bits 31:7 are 0 (rule R35). -/
def State.kcountWord (s : State) : Word := 0#25 ++ s.kcount

/-- The register at an offset, as the map of rule R22 gives it for reads: CMD and every reserved offset read 0 (rules
R24, R66). -/
def State.readRegister (s : State) (off : Nat) : Word :=
  match off with
  | 0x000 => Config.idWord
  | 0x008 => s.statusWord
  | 0x010 => s.opaLo
  | 0x014 => s.opaHi
  | 0x018 => s.opbLo
  | 0x01C => s.opbHi
  | 0x020 => s.opcLo
  | 0x024 => s.opcHi
  | 0x028 => s.resLo
  | 0x02C => s.resHi
  | 0x030 => s.xsState
  | 0x034 => s.xsShiftWord
  | 0x038 => s.minstdState
  | 0x03C => s.marsState
  | 0x040 => s.cmwcCarry
  | 0x044 => s.cmwcIndexWord
  | 0x048 => s.kcountWord
  | _ => 0#32

/-- The value rule R65 gives a read at a word offset: a RAM word, or a register, or 0 at a reserved offset. -/
def State.readWord (s : State) (off : Nat) : Word := if isRamOffset off then s.wordAt off else s.readRegister off

/-- A host read at a word offset: the current value, or, while a command runs that may write the word, an unspecified
value (rules R61, R71). No read has an effect on the block (rule R68). -/
def State.hostRead (s : State) (off : Nat) : State :=
  match s.inflight with
  | some f =>
    if s.mayWrite f off then { s with reply := .data (Config.busyRead s.freeReads), freeReads := s.freeReads + 1 }
    else { s with reply := .data (s.readWord off) }
  | none => { s with reply := .data (s.readWord off) }

/-! ## Writes -/

/-- A host write to the register at an offset other than CMD and STATUS while Idle (rules R22, R27-R35): a read-only
register and a reserved offset ignore it, and reserved bits hold nothing (rule R66). -/
def State.writeRegister (s : State) (off : Nat) (w : Word) : State :=
  match off with
  | 0x010 => { s with opaLo := w }
  | 0x014 => { s with opaHi := w }
  | 0x018 => { s with opbLo := w }
  | 0x01C => { s with opbHi := w }
  | 0x020 => { s with opcLo := w }
  | 0x024 => { s with opcHi := w }
  | 0x030 => { s with xsState := w }
  | 0x034 =>
    { s with xsShiftA := w.extractLsb' 0 5, xsShiftB := w.extractLsb' 8 5, xsShiftC := w.extractLsb' 16 5 }
  | 0x038 => { s with minstdState := w }
  | 0x03C => { s with marsState := w }
  | 0x048 => { s with kcount := w.extractLsb' 0 7 }
  | _ => s

/-- A host write to a RAM word while Idle (rule R65): a `PERM` write clears PERM_READY, a `VALUE` write clears
VALUE_READY, and a `Q` write is ignored. -/
def State.writeRam (s : State) (off : Nat) (w : Word) : State :=
  if off < 0x800 then (s.setWord off w).clearPermReady
  else if off < 0x1000 then s.setWord off w
  else if off < 0x1800 then (s.setWord off w).clearValueReady
  else if off < 0x4000 then s.setWord off w
  else s

/-- Offset of `CMD` (rule R24). -/
def offCmd : Nat := 0x004

/-- Offset of `STATUS` (rule R25). -/
def offStatus : Nat := 0x008

/-- A host write while Idle to a word offset other than `CMD` (rules R62, R65, R68). -/
def State.writeWord (s : State) (off : Nat) (w : Word) : State :=
  if off = offStatus then s.writeStatus w
  else if isRamOffset off then s.writeRam off w
  else s.writeRegister off w

/-- A host write while a command runs: STATUS as usual, anything else dropped with BUSY_WRITE (rule R208). -/
def State.writeWhileBusy (s : State) (off : Nat) (w : Word) : State :=
  if off = offStatus then s.writeStatus w else s.recordError .busyWrite

end Sys2Proof.Machine
end

