-- ==== Sys2Proof/Machine/Dispatch.lean ====
section
/-! DEFINITION. The dispatch: what a host write of a command's word to CMD does, one arm per command (rule R87). -/

namespace Sys2Proof.Machine

def exec (i : Instr) (s : State) : Host.Outcome State Fault Refusal :=
  match i with
  | .nop => Sys2Proof.Machine.execNop s
  | .xsNext => Sys2Proof.Machine.execXsNext s
  | .minstdNext => Sys2Proof.Machine.execMinstdNext s
  | .marsNext => Sys2Proof.Machine.execMarsNext s
  | .cmwcNext => Sys2Proof.Machine.execCmwcNext s
  | .combNext => Sys2Proof.Machine.execCombNext s
  | .cmwcSeed => Sys2Proof.Machine.execCmwcSeed s
  | .uniform g => Sys2Proof.Machine.execUniform g s
  | .double g => Sys2Proof.Machine.execDouble g s
  | .doubleAffine g => Sys2Proof.Machine.execDoubleAffine g s
  | .shuffle g => Sys2Proof.Machine.execShuffle g s
  | .shuffleIo g => Sys2Proof.Machine.execShuffleIo g s
  | .permBuild g => Sys2Proof.Machine.execPermBuild g s
  | .valueBuild g => Sys2Proof.Machine.execValueBuild g s
  | .hash => Sys2Proof.Machine.execHash s
  | .latticeValue => Sys2Proof.Machine.execLatticeValue s
  | .sampleBilinear => Sys2Proof.Machine.execSampleBilinear s
  | .sampleBicubic => Sys2Proof.Machine.execSampleBicubic s
  | .lerp => Sys2Proof.Machine.execLerp s
  | .spline => Sys2Proof.Machine.execSpline s

end Sys2Proof.Machine
end

