-- ==== Sys2Proof/Machine/Port.lean ====
section
/-! DEFINITION. The parts of an event at the port that `step` is made of: the response the host sees, the events while
reset is asserted (rule R250), and whether a command completes before anything else happens at the port (rule R207). -/

namespace Sys2Proof.Machine

/-- The last event was no host access. -/
def State.answerNothing (s : State) : State := { s with reply := .none }

/-- The host's write was taken by the port (rule R62). -/
def State.answerAccepted (s : State) : State := { s with reply := .accepted }

/-- The host's access gets a bus error and has no effect; STATUS is not touched (rule R63). -/
def State.answerBusError (s : State) : State := { s with reply := .busError }

/-- The host's access is not answered: reset is asserted (rule R250). -/
def State.answerUnanswered (s : State) : State := { s with reply := .unanswered }

/-- Reset is asserted: any in-flight command is abandoned with none of its effects kept (rule R250; log
entry 10, DEDUCED). -/
def State.assertReset (s : State) : State := { s with inReset := true, inflight := .none }

/-- An event while reset is asserted: host accesses are not answered and change nothing, and releasing reset leaves the
reset state (rule R250). -/
def State.deliverInReset (s : State) (e : PortEvent) : State :=
  match e with
  | .read _ _ => s.answerUnanswered
  | .write _ _ _ => s.answerUnanswered
  | .completion => s.answerNothing
  | .resetAssert => s.answerNothing
  | .resetRelease => s.afterReset

/-- One host read (rules R61, R63). -/
def State.deliverRead (s : State) (off : Offset) (width : Width) : State :=
  if accessOk off width then s.hostRead off.toNat else s.answerBusError

/-- Whether a command issued now completes before anything else happens at the port: its completion is the next event, or
no more host access or reset is to come (log entry 2, DEDUCED). -/
def State.completesNext (s : State) : Bool :=
  match s.arrivals with
  | [] => true
  | .completion :: _ => true
  | .read _ _ :: _ => false
  | .write _ _ _ :: _ => false
  | .resetAssert :: _ => false
  | .resetRelease :: _ => false

/-- The completion event that is next at the port, taken together with the issue it belongs to. -/
def State.dropCompletion (s : State) : State :=
  match s.arrivals with
  | .completion :: rest => { s with arrivals := rest }
  | _ => s

/-- No more event is to come: the in-flight command completes, unless reset is asserted (rules R250, R268; log
entry 3, DEDUCED). -/
def State.completeUnlessReset (s : State) : State := if s.inReset then s else s.complete

end Sys2Proof.Machine
end

