-- ==== Sys2Proof/Machine/Step.lean ====
section
/-! DEFINITION. One step: the next event at the port (rules R210, R227), and where a command word is placed so that the
next step runs it. -/

namespace Sys2Proof.Machine

/-- A host write of a word to `CMD` while Idle (rules R24, R205): an illegal word records BAD_CMD; a legal one is run to
its completion by `exec` where nothing happens at the port before that (rule R207), and is left running where a host
access or a reset comes first (rule R210). -/
def writeCommand (w : Word) (s : State) : Host.Outcome State Fault Refusal :=
  match decode w with
  | .badCmd _ => .next (s.recordError .badCmd)
  | .command i =>
    if s.completesNext then exec i s.dropCompletion
    else .next (s.issue i (meaningOf i))

/-- One host write (rules R62, R63, R208). -/
def deliverWrite (off : Offset) (width : Width) (w : Word) (s : State) : Host.Outcome State Fault Refusal :=
  if !accessOk off width then .next s.answerBusError
  else if s.busy then .next (s.answerAccepted.writeWhileBusy off.toNat w)
  else if off.toNat = offCmd then writeCommand w s.answerAccepted
  else .next (s.answerAccepted.writeWord off.toNat w)

/-- One event (rule R210). -/
def deliver (e : PortEvent) (s : State) : Host.Outcome State Fault Refusal :=
  if s.inReset then .next (s.deliverInReset e)
  else match e with
  | .read off width => .next (s.deliverRead off width)
  | .write off width w => deliverWrite off width w s
  | .completion => .next s.answerNothing.complete
  | .resetAssert => .next s.answerNothing.assertReset
  | .resetRelease => .next s.answerNothing

/-- One step of the block: the next event to come, or, when no more is to come, the completion of the in-flight command
(rules R210, R268; log entries 1 and 3); an Idle block with no event to come stays as it is. -/
def step (s : State) : Host.Outcome State Fault Refusal :=
  match s.arrivals with
  | e :: rest => deliver e { s with arrivals := rest }
  | [] => .next (s.completeUnlessReset)

/-- The state whose next step is the issue and completion of a table row's word: a host write of the word to `CMD`
(rules R24, R205) and its completion come next at the port, before whatever was to come; the block is Idle and out of
reset, as issue needs (log entry 1, DESIGN CHOICE). -/
def State.withFetchWord (s : State) (nbits w : Nat) : State :=
  { s with
    arrivals := .write (BitVec.ofNat 15 offCmd) .bits32 (BitVec.ofNat 32 (w % 2 ^ nbits)) :: .completion :: s.arrivals
    inflight := .none
    inReset := false }

end Sys2Proof.Machine
end

