-- ==== Sys2Proof/Safety.lean ====
section
/-! DEFINITION. What the statements about the block speak in: an Idle block, the sequence of draws of a generator, the
source's `uniform` and shuffle procedures as relations (rules R133, R150, R154) with their loops unbounded, and the
invariants of rules R25, R45, R46, R47 and R206. -/

namespace Sys2Proof.Machine

/-! ## Idle and ready -/

/-- The block accepts a command: none is in flight (rules R205, R210). -/
def State.idle (s : State) : Prop := s.inflight = none

/-- A draw from the generator is allowed: CMWC and COMB need CMWC_SEEDED (rules R113, R130). -/
def State.drawReady (s : State) (g : Gsel) : Prop := Gsel.needsSeed g = true → s.cmwcSeeded = true

/-! ## The sequence of draws -/

/-- The state after `n` draws from a generator. -/
def drawState (g : Gsel) : Nat → State → State
  | 0, s => s
  | n + 1, s => drawState g n (draw g s).2

/-- The output of draw number `n`, counting from 0. -/
def drawOut (g : Gsel) (n : Nat) (s : State) : Word := (draw g (drawState g n s)).1

/-- Draw number `n` is the first whose output is at least the threshold. -/
def firstAccepted (g : Gsel) (threshold n : Nat) (s : State) : Prop :=
  (∀ k < n, (drawOut g k s).toNat < threshold) ∧ threshold ≤ (drawOut g n s).toNat

/-- The scratch sequence of CMWC_SEED: the value after `n` MINSTD steps from a seed (rules R109, R112). -/
def scratch : Nat → Nat → Nat
  | 0, t => t
  | n + 1, t => minstdStep (scratch n t)

/-! ## The source's procedures as relations -/

/-- `uniform(g, lower, upper)` can return `r` in state `t` (rule R133): no draw for an empty range; else the first draw at
least the threshold decides, after any number of rejected ones. -/
inductive UniformReturns (g : Gsel) (lower upper : Nat) (s : State) : Nat → State → Prop where
  | degenerate : upper = lower → UniformReturns g lower upper s lower s
  | accepted (n : Nat) : lower < upper →
      firstAccepted g ((2 ^ 32 - (upper - lower)) % (upper - lower)) n s →
      UniformReturns g lower upper s (lower + (drawOut g n s).toNat % (upper - lower)) (drawState g (n + 1) s)

/-- The passes `i, ..., 1` of the classic shuffle can end in state `t` (rule R150). -/
inductive ShufflePasses (g : Gsel) : Nat → State → State → Prop where
  | done (s : State) : ShufflePasses g 0 s s
  | pass (i j : Nat) (s u t : State) : UniformReturns g 0 (i + 2) s j u →
      ShufflePasses g i (u.swapPerm (i + 1) j) t → ShufflePasses g (i + 1) s t

/-- The steps `i, ..., n-1` of the inside-out shuffle can end in state `t` (rule R154). -/
inductive ShuffleIoSteps (g : Gsel) (n : Nat) : Nat → State → State → Prop where
  | done (s : State) : ShuffleIoSteps g n n s s
  | stepAt (i j : Nat) (s u t : State) : i < n → UniformReturns g 0 (i + 1) s j u →
      ShuffleIoSteps g n (i + 1) (u.placeInsideOut i j) t → ShuffleIoSteps g n i s t

/-! ## What each command names (rules R13, R87, R131) -/

/-- The generator a command draws from, if it draws (rule R87). CMWC_SEED draws from no generator: its scratch sequence is
its own (rule R112). -/
def drawnGenerator : Instr → Option Gsel
  | .xsNext => some .xs
  | .minstdNext => some .minstd
  | .marsNext => some .mars
  | .cmwcNext => some .cmwc
  | .combNext => some .comb
  | .uniform g => some g
  | .double g => some g
  | .doubleAffine g => some g
  | .shuffle g => some g
  | .shuffleIo g => some g
  | .permBuild g => some g
  | .valueBuild g => some g
  | .nop => none
  | .cmwcSeed => none
  | .hash => none
  | .latticeValue => none
  | .sampleBilinear => none
  | .sampleBicubic => none
  | .lerp => none
  | .spline => none

/-- The component generators a draw advances: COMB advances CMWC, MINSTD and XS together (rules R118, R131). -/
def components : Gsel → List Gsel
  | .xs => [.xs]
  | .minstd => [.minstd]
  | .mars => [.mars]
  | .cmwc => [.cmwc]
  | .comb => [.cmwc, .minstd, .xs]

/-- Whether a command can advance a component generator (rule R131). -/
def advances (i : Instr) (c : Gsel) : Bool :=
  match drawnGenerator i with
  | some g => (components g).contains c
  | none => false

/-- Whether the result column of rule R87 names `RES`. -/
def hasResult : Instr → Bool
  | .nop => false
  | .cmwcSeed => false
  | .shuffle _ => false
  | .shuffleIo _ => false
  | .permBuild _ => false
  | .valueBuild _ => false
  | .xsNext => true
  | .minstdNext => true
  | .marsNext => true
  | .cmwcNext => true
  | .combNext => true
  | .uniform _ => true
  | .double _ => true
  | .doubleAffine _ => true
  | .hash => true
  | .latticeValue => true
  | .sampleBilinear => true
  | .sampleBicubic => true
  | .lerp => true
  | .spline => true

/-- How many `PERM` words from `PERM[0]` on a command can store to (rules R151, R155, R159). -/
def permWords (i : Instr) (s : State) : Nat :=
  match i with
  | .shuffle _ => s.opaLo.toNat
  | .shuffleIo _ => s.opaLo.toNat
  | .permBuild _ => 256
  | .nop | .xsNext | .minstdNext | .marsNext | .cmwcNext | .combNext | .cmwcSeed | .uniform _ | .double _
  | .doubleAffine _ | .valueBuild _ | .hash | .latticeValue | .sampleBilinear | .sampleBicubic | .lerp | .spline => 0

/-- How many `VALUE` entries from `VALUE[0]` on a command can store to (rule R162). -/
def valueWords : Instr → Nat
  | .valueBuild _ => 256
  | .nop | .xsNext | .minstdNext | .marsNext | .cmwcNext | .combNext | .cmwcSeed | .uniform _ | .double _
  | .doubleAffine _ | .shuffle _ | .shuffleIo _ | .permBuild _ | .hash | .latticeValue | .sampleBilinear | .sampleBicubic
  | .lerp | .spline => 0

/-- A byte offset the rule of a command lets it store to (rules R110, R114, R151, R155, R159, R162). -/
def mayStoreTo (i : Instr) (s : State) (a : Nat) : Prop :=
  (0x400 ≤ a ∧ a < 0x400 + 4 * permWords i s) ∨
  (0x1000 ≤ a ∧ a < 0x1000 + 8 * valueWords i) ∨
  ((advances i .cmwc = true ∨ i = .cmwcSeed) ∧ 0x4000 ≤ a ∧ a < 0x8000)

/-! ## Commands that never end (rules R138, R265) -/

/-- Every draw of the generator is 0: XS at state 0 or with a zero shift field, MINSTD at residue 0 (rules R102, R105). -/
def State.drawsOnlyZero (s : State) (g : Gsel) : Prop :=
  (g = .xs ∧ (s.xsState = 0#32 ∨ s.xsShiftA = 0#5 ∨ s.xsShiftB = 0#5 ∨ s.xsShiftC = 0#5)) ∨
  (g = .minstd ∧ s.minstdState.toNat % (2 ^ 31 - 1) = 0)

/-- A command is in flight whose run never ends (rule R265). -/
def State.hung (s : State) : Prop :=
  ∃ f, s.inflight = some f ∧ (meaningOf f.instr).run f.ops { s with inflight := none } = none

/-! ## Rounding (rules R10, R194) -/

/-- `r` is the exact quotient `num / den`, in units of `2^-1074`, correctly rounded to nearest with ties to even: it is a
finite double than which no finite double is nearer, with an even last bit when another is as near; or it is an infinity
of the quotient's sign, when the quotient is at or past the midpoint above the largest finite double. -/
def RoundedNearestEven (r : DWord) (num : Int) (den : Nat) : Prop :=
  (f64IsFinite r = true ∧ num.natAbs < (2 ^ 54 - 1) * 2 ^ 2044 * den ∧
    ∀ e : DWord, f64IsFinite e = true →
      (f64Scaled r * den - num).natAbs ≤ (f64Scaled e * den - num).natAbs ∧
      ((f64Scaled r * den - num).natAbs = (f64Scaled e * den - num).natAbs → f64Scaled e ≠ f64Scaled r →
        f64Mag r % 2 = 0)) ∨
  (f64IsInf r = true ∧ (2 ^ 54 - 1) * 2 ^ 2044 * den ≤ num.natAbs ∧ f64Neg r = decide (num < 0))

/-! ## Invariants -/

/-- `PERM[0..255]` is a bijection on `[0, 255]` (rule R45). -/
def State.permBijective (s : State) : Prop :=
  (∀ k < 256, (s.perm k).toNat < 256) ∧ (∀ j < 256, ∀ k < 256, s.perm j = s.perm k → j = k)

/-- While PERM_READY = 1, `PERM` is a bijection on `[0, 255]` (rule R45). -/
def State.permInvariant (s : State) : Prop := s.permReady = true → s.permBijective

/-- A double is finite and in `[0.0, 1.0]`, and is not -0.0. -/
def f64InUnit (d : DWord) : Prop := f64Neg d = false ∧ f64Mag d ≤ f64Mag f64OneD

/-- While VALUE_READY = 1, every `VALUE[k]` is a finite double in `[0.0, 1.0]` (rule R46). -/
def State.valueInvariant (s : State) : Prop := s.valueReady = true → ∀ k < 256, f64InUnit (s.value k)

/-- ECODE is 0 exactly when ERR is 0, and is a code of rule R220 (rules R25, R220). -/
def State.errorInvariant (s : State) : Prop :=
  (s.err = false ↔ s.ecode = 0#4) ∧ s.ecode ≤ 6#4

/-- While CMWC_SEEDED = 1, the carry is below `CMWC_C_MAX` or at most 18783 (rule R47). -/
def State.carryInvariant (s : State) : Prop :=
  s.cmwcSeeded = true → s.cmwcCarry.toNat < Config.cmwcCMax ∨ s.cmwcCarry.toNat ≤ 18783

/-- The in-flight command has passed its issue checks and its operand snapshot is what the operand registers hold (rules
R205, R206). -/
def State.flightInvariant (s : State) : Prop :=
  ∀ f, s.inflight = some f →
    f.ops = s.operands ∧ (meaningOf f.instr).check { s with inflight := none } = none ∧ s.inReset = false

/-- The RAM contents are in canonical form. -/
def State.memInvariant (s : State) : Prop := Memory.wf s.mem = true

end Sys2Proof.Machine
end

