-- ==== Sys2Proof/Certificates/Slice0/Obligations.lean ====
section
/-! DEFINITION. The statements about the block, in the order of the spec's files. `exec i s` is what a host write of the
word of command `i` does when nothing else happens at the port before its completion (rule R207). -/

open Sys2Proof Sys2Proof.Machine

/-! ## Encoding (file 30_encoding.md) -/

/-- The decoder reads a command from a word exactly when the word is that command's encoding: no two words decode to one
command, and decoding an encoded command gives it back (rules R85-R87, R89, R90). -/
def Obligations.DecodeInvertsEncode : Prop :=
  ∀ (w : Word) (i : Instr), decode w = .command i ↔ w = encode i

/-- A word decodes exactly when none of the conditions of rule R88 holds of it; an illegal word written to CMD records
BAD_CMD and changes nothing else (rule R88). `legalWord` is written from rules R87 and R88, not from the decoder. -/
def Obligations.IllegalWordsRecordBadCmd : Prop :=
  (∀ w : Word, legalWord w = true ↔ ∃ i, decode w = .command i) ∧
  ∀ (s : State) (w : Word) (rest : List PortEvent), s.inReset = false → s.idle → legalWord w = false →
    step { s with arrivals := .write 0x004#15 .bits32 w :: rest } =
      .next { s with arrivals := rest, reply := .accepted, err := true, ecode := if s.err then s.ecode else 1#4 }

/-- The words of test vector V29 decode as it says: a sanity check of words written out from rules R85-R87. -/
def Obligations.ListedWordsDecodeAsListed : Prop :=
  decode 0x00000000#32 = .command .nop ∧ decode 0x00000001#32 = .command .xsNext ∧
  decode 0x00000006#32 = .command .cmwcSeed ∧ decode 0x00000010#32 = .command (.uniform .xs) ∧
  decode 0x00000310#32 = .command (.uniform .cmwc) ∧ decode 0x00000422#32 = .command (.permBuild .comb) ∧
  decode 0x00000041#32 = .command .spline ∧ decode 0x00000101#32 = .badCmd .gselOnPlainCommand ∧
  decode 0x00000510#32 = .badCmd .reservedGsel ∧ decode 0x00000042#32 = .badCmd .unassignedOpcode ∧
  decode 0x00000807#32 = .badCmd .reservedBits ∧ decode 0x80000001#32 = .badCmd .reservedBits ∧
  decode 0x000000FF#32 = .badCmd .unassignedOpcode

/-! ## Steps and the lifecycle (file 45_system.md) -/

/-- A step that delivers a host write of a command's word to CMD runs that command: by `exec` when its completion comes
next at the port or nothing more is to come, as it does after `withFetchWord`; and where a host access or a reset comes
first, by the issue of rule R205 alone: rejected by the first failing check, or in flight with its operand snapshot. The
event list and the merged transition are the model's, log entries 1 and 2. -/
def Obligations.StepRunsTheDecodedCommand : Prop :=
  ∀ (s : State) (w : Word) (i : Instr), decode w = .command i →
    (s.inReset = false → s.idle →
      (∀ rest, step { s with arrivals := .write 0x004#15 .bits32 w :: .completion :: rest } =
        exec i { s with arrivals := rest, reply := .accepted }) ∧
      step { s with arrivals := [.write 0x004#15 .bits32 w] } = exec i { s with arrivals := [], reply := .accepted } ∧
      ∀ e rest, e ≠ PortEvent.completion →
        step { s with arrivals := .write 0x004#15 .bits32 w :: e :: rest } =
          .next (let u := { s with arrivals := e :: rest, reply := Response.accepted }
            match (meaningOf i).check u with
            | some k => ((meaningOf i).fallback u).recordError k
            | none => { u with inflight := some ⟨i, u.operands⟩ })) ∧
    ∀ nbits n, decodeTableWord nbits n = some i →
      step (s.withFetchWord nbits n) = exec i { s with inflight := none, inReset := false, reply := .accepted }

/-- Issue and completion taken as two events end in the state `exec` answers (rule R207; that `exec` is both in one is the
model's reading of that rule, log entry 2). -/
def Obligations.ExecIsIssueThenCompletion : Prop :=
  ∀ (i : Instr) (s : State), s.idle → exec i s = .next (s.issue i (meaningOf i)).complete

/-- Host reads and writes made while a command runs do not change what it does: the completion state is the one `exec`
answers, but for ERR and ECODE, which such writes record or clear, and the model's own fields (rules R206-R209, R269). And a
Busy block gets there: a completion event, and the step when no more event is to come, perform the completion, which is
the run of the in-flight command on its snapshot, or nothing where the run never ends (rules R207, R210, R268; that the
command completes when no more event is to come is the model's deduction, log entry 3). Idle, or in reset, neither changes
anything but the response (log entry 19). -/
def Obligations.ResultsDoNotDependOnTiming : Prop :=
  (∀ (i : Instr) (s t u : State) (es : List PortEvent), s.idle → s.inReset = false → (meaningOf i).check s = none →
    exec i s = .next t → t.inflight = none →
    (∀ e ∈ es, (∃ off width, e = .read off width) ∨ ∃ off width w, e = .write off width w) →
    Host.Core.run Sys2Proof.core es.length { s with inflight := some ⟨i, s.operands⟩, arrivals := es } = .next u →
    u.complete = { t with
      err := u.err, ecode := u.ecode, arrivals := u.arrivals, reply := u.reply, freeReads := u.freeReads }) ∧
  (∀ (s : State) (f : InFlight) (rest : List PortEvent), s.inReset = false → s.inflight = some f →
    step { s with arrivals := .completion :: rest } = .next { s with arrivals := rest, reply := .none }.complete ∧
    step { s with arrivals := [] } = .next { s with arrivals := [] }.complete ∧
    s.complete = match (meaningOf f.instr).run f.ops { s with inflight := none } with
      | some t => t
      | none => s) ∧
  ∀ (s : State) (rest : List PortEvent), s.inReset = true ∨ s.inflight = none →
    step { s with arrivals := .completion :: rest } = .next { s with arrivals := rest, reply := .none } ∧
    step { s with arrivals := [] } = .next { s with arrivals := [] }

/-- A command whose run never ends stays in flight, with BUSY = 1, over every event but a reset (rules R212, R254, R265; that a
hung run is told by its having no end is log entry 9). -/
def Obligations.HungCommandsEndOnlyByReset : Prop :=
  ∀ s t : State, s.hung → s.inReset = false → s.arrivals.head? ≠ some .resetAssert → step s = .next t →
    t.inflight = s.inflight ∧ t.hung ∧ t.inReset = false

/-- NOP changes nothing (rule R211). -/
def Obligations.NopChangesNothing : Prop :=
  ∀ s : State, s.idle → exec .nop s = .next s

/-! ## The PRNG cores (file 40_prng.md) -/

/-- XS_NEXT: one XorShift step of XS_STATE with the three shifts of XS_SHIFT, into RES.u32; nothing else changes (rules
R100, R101). -/
def Obligations.XsNextIsOneXorShiftStep : Prop :=
  ∀ s : State, s.idle →
    let x1 := s.xsState ^^^ (s.xsState <<< s.xsShiftA.toNat)
    let x2 := x1 ^^^ (x1 >>> s.xsShiftB.toNat)
    let x3 := x2 ^^^ (x2 <<< s.xsShiftC.toNat)
    exec .xsNext s = .next { s with xsState := x3, resLo := x3, resHi := 0#32 }

/-- MINSTD_NEXT and MARS_NEXT: one step of the generator with an exact product, into RES.u32; nothing else changes; the
output is at most 2^31-2 (rules R103, R104, R106, R107). -/
def Obligations.LcgNextIsOneExactStep : Prop :=
  ∀ s : State, s.idle →
    (let x := (48271 * s.minstdState.toNat + 0) % (2 ^ 31 - 1)
     exec .minstdNext s =
       .next { s with minstdState := BitVec.ofNat 32 x, resLo := BitVec.ofNat 32 x, resHi := 0#32 } ∧
     (BitVec.ofNat 32 x).toNat = x ∧ x ≤ 2 ^ 31 - 2) ∧
    (let x := (69069 * s.marsState.toNat + 362437) % (2 ^ 31 - 1)
     exec .marsNext s = .next { s with marsState := BitVec.ofNat 32 x, resLo := BitVec.ofNat 32 x, resHi := 0#32 } ∧
     (BitVec.ofNat 32 x).toNat = x ∧ x ≤ 2 ^ 31 - 2)

/-- The XorShift step keeps 0 at 0, gives 0 with a zero shift field, and is a bijection when all three are nonzero (rule
R102, cases (a) to (c)). -/
def Obligations.XorShiftIsBijectiveWithNonzeroShifts : Prop :=
  (∀ a b c : BitVec 5, xorShift a b c 0#32 = 0#32) ∧
  (∀ (a b c : BitVec 5) (x : Word), a = 0#5 ∨ b = 0#5 ∨ c = 0#5 → xorShift a b c x = 0#32) ∧
  ∀ a b c : BitVec 5, a ≠ 0#5 → b ≠ 0#5 → c ≠ 0#5 → Function.Bijective (xorShift a b c)

/-- With the triple (1,3,10) every nonzero word is reached from every nonzero word, within 2^32-1 steps (rule R102, case
(d)). -/
def Obligations.XorShiftResetTripleHasOneCycle : Prop :=
  ∀ x y : Word, x ≠ 0#32 → y ≠ 0#32 → ∃ n < 2 ^ 32 - 1, (xorShift 1#5 3#5 10#5)^[n] x = y

/-- MINSTD: a residue of 0 gives 0 and stays there; a state behaves like its residue; and from any other residue the
outputs run through every value of [1, 2^31-2] once before they repeat (rule R105). -/
def Obligations.MinstdRunsThroughEveryNonzeroResidue : Prop :=
  (∀ x, x % (2 ^ 31 - 1) = 0 → minstdStep x = 0) ∧ minstdStep 0 = 0 ∧
  (∀ x, minstdStep x = minstdStep (x % (2 ^ 31 - 1))) ∧
  ∀ x y, x % (2 ^ 31 - 1) ≠ 0 → 1 ≤ y → y ≤ 2 ^ 31 - 2 → ∃! n, n < 2 ^ 31 - 2 ∧ minstdStep^[n + 1] x = y

/-- CMWC_SEED: with the carry draws rejected until number `n` and that one below `CMWC_C_MAX`, the ring holds the first
4096 values of the scratch sequence, in index order, the carry is the accepted one, the index is 4095, CMWC_SEEDED is 1,
and nothing else changes, RES and MINSTD_STATE among it (rules R109, R110, R112). -/
def Obligations.CmwcSeedFillsTheRingFromTheScratchSequence : Prop :=
  ∀ (s : State) (n : Nat), s.idle →
    (∀ k < n, Config.cmwcCMax ≤ scratch (4097 + k) s.opaLo.toNat) →
    scratch (4097 + n) s.opaLo.toNat < Config.cmwcCMax →
    ∃ t, exec .cmwcSeed s = .next t ∧
      (∀ k < 4096, t.q k = BitVec.ofNat 32 (scratch (k + 1) s.opaLo.toNat)) ∧
      (∀ a, a < 0x4000 ∨ 0x8000 ≤ a → t.byteAt a = s.byteAt a) ∧
      t = { s with
        mem := t.mem, cmwcCarry := BitVec.ofNat 32 (scratch (4097 + n) s.opaLo.toNat), cmwcIndex := 4095#12,
        cmwcSeeded := true }

/-- The carry loop of CMWC_SEED, for any value of the open threshold: it ends at once for a seed of residue 0, with a ring
of zeros and carry 0; it ends for every other seed when the threshold is at least 2; it never ends when it is 1; and the
ring words are at most 2^31-2. So the command completes, with CMWC_SEEDED = 1, for a seed of residue 0 and, when
`CMWC_C_MAX` is at least 2, for every seed; and when it is 1, CMWC_SEED with any other seed stays in flight (rules R111,
R265; how the model tells that the loop never ends is its own deduction, log entry 9, DEDUCED). -/
def Obligations.CmwcSeedingEndsUnlessTheThresholdIsOne : Prop :=
  (∀ (cMax : Nat) (seed : Word) (s : State), 1 ≤ cMax →
    (seed.toNat % (2 ^ 31 - 1) = 0 →
      ∃ t, seedCmwc cMax seed s = some t ∧ t.cmwcCarry = 0#32 ∧ ∀ k < 4096, t.q k = 0#32) ∧
    (seed.toNat % (2 ^ 31 - 1) ≠ 0 → 2 ≤ cMax → ∃ t, seedCmwc cMax seed s = some t) ∧
    (seed.toNat % (2 ^ 31 - 1) ≠ 0 → cMax = 1 → seedCmwc cMax seed s = none) ∧
    ∀ t, seedCmwc cMax seed s = some t → ∀ k < 4096, (t.q k).toNat ≤ 2 ^ 31 - 2) ∧
  ∀ s : State, s.idle →
    (s.opaLo.toNat % (2 ^ 31 - 1) = 0 ∨ 2 ≤ Config.cmwcCMax →
      ∃ t, exec .cmwcSeed s = .next t ∧ t.inflight = none ∧ t.cmwcSeeded = true) ∧
    (s.opaLo.toNat % (2 ^ 31 - 1) ≠ 0 → Config.cmwcCMax = 1 →
      exec .cmwcSeed s = .next { s with inflight := some ⟨.cmwcSeed, s.operands⟩ })

/-- CMWC_NEXT: NOT_SEEDED while CMWC_SEEDED is 0; else one step of the recurrence with its correction branch at the next
ring index, into that ring word and RES.u32; every other byte and register is as before (rules R114, R115). -/
def Obligations.CmwcNextFollowsTheRecurrence : Prop :=
  ∀ s : State, s.idle →
    (s.cmwcSeeded = false →
      exec .cmwcNext s = .next { s with err := true, ecode := if s.err then s.ecode else 3#4 }) ∧
    (s.cmwcSeeded = true →
      let i := (s.cmwcIndex.toNat + 1) % 4096
      let t := 18782 * (s.q i).toNat + s.cmwcCarry.toNat
      let c0 := t / 2 ^ 32
      let x0 := (t % 2 ^ 32 + c0) % 2 ^ 32
      let x := if x0 < c0 then x0 + 1 else x0
      let c := if x0 < c0 then c0 + 1 else c0
      let out := BitVec.ofNat 32 ((0xFFFFFFFE + 2 ^ 32 - x) % 2 ^ 32)
      ∃ u, exec .cmwcNext s = .next u ∧ u.q i = out ∧
        (∀ a, a < qOff i ∨ qOff i + 4 ≤ a → u.byteAt a = s.byteAt a) ∧
        u = { s with
          mem := u.mem, cmwcCarry := BitVec.ofNat 32 c, cmwcIndex := BitVec.ofNat 12 i, resLo := out, resHi := 0#32 })

/-- COMB_NEXT: NOT_SEEDED while CMWC_SEEDED is 0; else `((a ^ b) + d) mod 2^32` of one CMWC, one MINSTD and one XorShift
draw, each advancing its own state; only the new ring word changes in memory (rules R118, R121). -/
def Obligations.CombNextCombinesThreeDraws : Prop :=
  ∀ s : State, s.idle →
    (s.cmwcSeeded = false →
      exec .combNext s = .next { s with err := true, ecode := if s.err then s.ecode else 3#4 }) ∧
    (s.cmwcSeeded = true →
      let a := cmwcDraw s
      let b := BitVec.ofNat 32 ((48271 * s.minstdState.toNat + 0) % (2 ^ 31 - 1))
      let d := xorShift s.xsShiftA s.xsShiftB s.xsShiftC s.xsState
      let i := (s.cmwcIndex.toNat + 1) % 4096
      exec .combNext s =
        .next { a.2 with minstdState := b, xsState := d, resLo := (a.1 ^^^ b) + d, resHi := 0#32 } ∧
      ∀ x, x < qOff i ∨ qOff i + 4 ≤ x → a.2.byteAt x = s.byteAt x)

/-! ## What every command keeps (rules R13, R27, R28, R30, R35, R131) -/

/-- No command writes an operand register, KCOUNT or XS_SHIFT; a command without a result leaves RES as it is; and a
generator's registers change only by a command that draws from it, or, for CMWC, by CMWC_SEED (rules R13, R27, R131). -/
def Obligations.CommandsKeepTheRegistersTheyDoNotName : Prop :=
  ∀ (i : Instr) (s t : State), exec i s = .next t →
    (t.opaLo = s.opaLo ∧ t.opaHi = s.opaHi ∧ t.opbLo = s.opbLo ∧ t.opbHi = s.opbHi ∧ t.opcLo = s.opcLo ∧
      t.opcHi = s.opcHi ∧ t.kcount = s.kcount ∧ t.xsShiftA = s.xsShiftA ∧ t.xsShiftB = s.xsShiftB ∧
      t.xsShiftC = s.xsShiftC) ∧
    (hasResult i = false → t.resLo = s.resLo ∧ t.resHi = s.resHi) ∧
    (advances i .xs = false → t.xsState = s.xsState) ∧
    (advances i .minstd = false → t.minstdState = s.minstdState) ∧
    (advances i .mars = false → t.marsState = s.marsState) ∧
    (advances i .cmwc = false → i ≠ .cmwcSeed → t.cmwcCarry = s.cmwcCarry ∧ t.cmwcIndex = s.cmwcIndex)

/-- No command stores to a byte its rule does not name: `PERM` is written by the shuffles up to their length and by
PERM_BUILD, `VALUE` by VALUE_BUILD, `Q` by CMWC draws and CMWC_SEED, and no command writes `SRC` or `KNOT`; a command of
one CMWC or COMB draw writes one ring word alone (rules R13, R37-R41). -/
def Obligations.CommandsStoreOnlyToTheBytesTheyName : Prop :=
  ∀ (i : Instr) (s t : State), exec i s = .next t →
    (∀ a, ¬ mayStoreTo i s a → t.byteAt a = s.byteAt a) ∧
    (∀ g, i = .cmwcNext ∨ i = .combNext ∨ i = .double g ∨ i = .doubleAffine g →
      ∀ a, a < qOff s.nextIndex.toNat ∨ qOff s.nextIndex.toNat + 4 ≤ a → t.byteAt a = s.byteAt a)

/-! ## The samplers (file 41_samplers.md) -/

/-- UNIFORM is rejection sampling with no bound on the draws: it completes with what the procedure of rule R133 returns,
and it stays in flight when that procedure never returns (rules R133, R134, R138, R265; how the model tells that the loop
never ends is its own deduction, log entry 9, DEDUCED). -/
def Obligations.UniformIsUnboundedRejectionSampling : Prop :=
  ∀ (g : Gsel) (s : State), s.idle → s.drawReady g → s.opaLo ≤ s.opbLo →
    (∀ r t, UniformReturns g s.opaLo.toNat s.opbLo.toNat s r t →
      exec (.uniform g) s = .next { t with resLo := BitVec.ofNat 32 r, resHi := 0#32 }) ∧
    ((¬ ∃ r t, UniformReturns g s.opaLo.toNat s.opbLo.toNat s r t) →
      exec (.uniform g) s = .next { s with inflight := some ⟨.uniform g, s.operands⟩ })

/-- A completed UNIFORM with `lower < upper` puts a value of `[lower, upper)` in RES_LO; with `lower = upper` it puts
`lower` there and makes no draw (rule R136). -/
def Obligations.UniformResultIsInRange : Prop :=
  ∀ (g : Gsel) (s : State), s.idle → s.drawReady g →
    (s.opaLo < s.opbLo → ∀ t, exec (.uniform g) s = .next t → t.inflight = none →
      s.opaLo ≤ t.resLo ∧ t.resLo < s.opbLo ∧ t.resHi = 0#32) ∧
    (s.opaLo = s.opbLo → exec (.uniform g) s = .next { s with resLo := s.opaLo, resHi := 0#32 })

/-- The commands that never end: UNIFORM from a generator whose every draw is 0, with a nonzero threshold, and UNIFORM from
either linear congruential generator with range 2^31+1; and, from a generator whose every draw is 0, PERM_BUILD, and the
shuffles exactly from length 3 on (rules R138, R265; log entry 9). -/
def Obligations.StuckGeneratorsKeepTheCommandInFlight : Prop :=
  ∀ (g : Gsel) (s : State), s.idle →
    (s.opaLo < s.opbLo →
      (s.drawsOnlyZero g ∧ 0 < (2 ^ 32 - (s.opbLo.toNat - s.opaLo.toNat)) % (s.opbLo.toNat - s.opaLo.toNat)) ∨
        ((g = .minstd ∨ g = .mars) ∧ s.opbLo.toNat - s.opaLo.toNat = 2 ^ 31 + 1) →
      exec (.uniform g) s = .next { s with inflight := some ⟨.uniform g, s.operands⟩ }) ∧
    (s.drawsOnlyZero g →
      exec (.permBuild g) s = .next { s with inflight := some ⟨.permBuild g, s.operands⟩ } ∧
      (3 ≤ s.opaLo.toNat → s.opaLo.toNat ≤ 256 →
        exec (.shuffle g) s = .next { s with inflight := some ⟨.shuffle g, s.operands⟩ } ∧
        exec (.shuffleIo g) s = .next { s with inflight := some ⟨.shuffleIo g, s.operands⟩ }) ∧
      (s.opaLo.toNat = 1 ∨ s.opaLo.toNat = 2 →
        (∃ t, exec (.shuffle g) s = .next t ∧ t.inflight = none) ∧
        ∃ t, exec (.shuffleIo g) s = .next t ∧ t.inflight = none))

/-- From XorShift with the reset triple and a nonzero state every sampling loop ends: UNIFORM, both shuffles and
PERM_BUILD complete (rules R102(d), R138(d)). -/
def Obligations.LoopsEndFromXorShiftWithTheResetTriple : Prop :=
  ∀ s : State, s.idle → s.xsShiftA = 1#5 → s.xsShiftB = 3#5 → s.xsShiftC = 10#5 → s.xsState ≠ 0#32 →
    (s.opaLo ≤ s.opbLo → ∃ t, exec (.uniform .xs) s = .next t ∧ t.inflight = none) ∧
    (1 ≤ s.opaLo.toNat → s.opaLo.toNat ≤ 256 →
      (∃ t, exec (.shuffle .xs) s = .next t ∧ t.inflight = none ∧ t.permReady = false) ∧
      ∃ t, exec (.shuffleIo .xs) s = .next t ∧ t.inflight = none ∧ t.permReady = false) ∧
    ∃ t, exec (.permBuild .xs) s = .next t ∧ t.inflight = none ∧ t.permReady = true

/-- From MINSTD with a nonzero residue UNIFORM completes while its threshold is at most 2^31-2, and so do both shuffles and
PERM_BUILD (rules R105(c), R138(e)). -/
def Obligations.LoopsEndFromMinstdWithNonzeroResidue : Prop :=
  ∀ s : State, s.idle → s.minstdState.toNat % (2 ^ 31 - 1) ≠ 0 →
    (s.opaLo ≤ s.opbLo →
      (2 ^ 32 - (s.opbLo.toNat - s.opaLo.toNat)) % (s.opbLo.toNat - s.opaLo.toNat) ≤ 2 ^ 31 - 2 ∨ s.opaLo = s.opbLo →
      ∃ t, exec (.uniform .minstd) s = .next t ∧ t.inflight = none) ∧
    (1 ≤ s.opaLo.toNat → s.opaLo.toNat ≤ 256 →
      (∃ t, exec (.shuffle .minstd) s = .next t ∧ t.inflight = none ∧ t.permReady = false) ∧
      ∃ t, exec (.shuffleIo .minstd) s = .next t ∧ t.inflight = none ∧ t.permReady = false) ∧
    ∃ t, exec (.permBuild .minstd) s = .next t ∧ t.inflight = none ∧ t.permReady = true

/-- From MARS in any state both shuffles and PERM_BUILD complete: after an output below their thresholds the next one is
above them. The spec proves no bound for MARS (rule R265(d)); this is the argument from the generator's state that it asks
for. -/
def Obligations.TableCommandsEndFromMars : Prop :=
  ∀ s : State, s.idle →
    (1 ≤ s.opaLo.toNat → s.opaLo.toNat ≤ 256 →
      (∃ t, exec (.shuffle .mars) s = .next t ∧ t.inflight = none ∧ t.permReady = false) ∧
      ∃ t, exec (.shuffleIo .mars) s = .next t ∧ t.inflight = none ∧ t.permReady = false) ∧
    ∃ t, exec (.permBuild .mars) s = .next t ∧ t.inflight = none ∧ t.permReady = true

/-- DOUBLE and DOUBLE_AFFINE: one draw `r`; `d = f64(r) / 4294967295.0` into RES.f64, or `lower + d * (upper - lower)`,
which is `lerp(lower, upper, d)`; nothing else changes but the generator (rules R140, R141, R143, R144). -/
def Obligations.DoubleCommandsDivideOneDraw : Prop :=
  ∀ (g : Gsel) (s : State), s.idle → s.drawReady g →
    let d := fdiv (f64OfInt (draw g s).1.toNat) (f64OfInt 4294967295)
    let lower := s.opaHi ++ s.opaLo
    let upper := s.opbHi ++ s.opbLo
    let v := fadd lower (fmul d (fsub upper lower))
    exec (.double g) s =
      .next { (draw g s).2 with resLo := d.extractLsb' 0 32, resHi := d.extractLsb' 32 32 } ∧
    exec (.doubleAffine g) s =
      .next { (draw g s).2 with resLo := v.extractLsb' 0 32, resHi := v.extractLsb' 32 32 } ∧
    v = flerp lower upper d

/-- The value of a DOUBLE: 0 gives +0.0, 2^32-1 gives exactly 1.0, every other draw a finite double between, never
negative; and from MINSTD or MARS at most `(2^31-2)/(2^32-1)`, under 0.5 (rule R142). -/
def Obligations.DoubleIsInTheClosedUnitInterval : Prop :=
  doubleOfWord 0#32 = 0#64 ∧ doubleOfWord 0xFFFFFFFF#32 = 0x3FF0000000000000#64 ∧
  (∀ r : Word, f64InUnit (doubleOfWord r)) ∧
  (∀ (g : Gsel) (s t : State), s.idle → s.drawReady g → exec (.double g) s = .next t → f64InUnit t.res) ∧
  ∀ (g : Gsel) (s t : State), s.idle → g = .minstd ∨ g = .mars → exec (.double g) s = .next t →
    t.res ≤ doubleOfWord (BitVec.ofNat 32 (2 ^ 31 - 2)) ∧ t.res < 0x3FE0000000000000#64

/-! ## The shuffles and the table builders (file 42_shuffle.md) -/

/-- SHUFFLE and SHUFFLE_IO of a length from 1 to 256 are the source's procedures: they complete with the state these
procedures can end in, PERM_READY cleared, and stay in flight when they never end. The steps of the procedures, word by
word: a pass exchanges `PERM[i]` and `PERM[j]`; a placement gives `PERM[i]` the old `PERM[j]` and `PERM[j]` the word
`SRC[i]`, or `PERM[i]` the word `SRC[i]` when `j = i`; every other byte and every register is as before (rules R150 to
R152, R154, R155; how the model tells that a procedure never ends is its own deduction, log entry 9, DEDUCED). -/
def Obligations.ShufflesAreTheFisherYatesProcedures : Prop :=
  (∀ (g : Gsel) (s : State), s.idle → s.drawReady g → 1 ≤ s.opaLo.toNat → s.opaLo.toNat ≤ 256 →
    ((∀ t, ShufflePasses g (s.opaLo.toNat - 1) s t → exec (.shuffle g) s = .next { t with permReady := false }) ∧
      ((¬ ∃ t, ShufflePasses g (s.opaLo.toNat - 1) s t) →
        exec (.shuffle g) s = .next { s with inflight := some ⟨.shuffle g, s.operands⟩ })) ∧
    ((∀ t, ShuffleIoSteps g s.opaLo.toNat 0 s t → exec (.shuffleIo g) s = .next { t with permReady := false }) ∧
      ((¬ ∃ t, ShuffleIoSteps g s.opaLo.toNat 0 s t) →
        exec (.shuffleIo g) s = .next { s with inflight := some ⟨.shuffleIo g, s.operands⟩ }))) ∧
  ∀ (s : State) (i j : Nat),
    let swapped := s.swapPerm i j
    let placed := s.placeInsideOut i j
    (swapped.perm i = s.perm j ∧ swapped.perm j = s.perm i ∧
      (∀ a, (a < permOff i ∨ permOff i + 4 ≤ a) → (a < permOff j ∨ permOff j + 4 ≤ a) →
        swapped.byteAt a = s.byteAt a) ∧
      swapped = { s with mem := swapped.mem }) ∧
    (j ≠ i → placed.perm i = s.perm j ∧ placed.perm j = s.src i) ∧
    (j = i → placed.perm i = s.src i) ∧
    (∀ a, (a < permOff i ∨ permOff i + 4 ≤ a) → (a < permOff j ∨ permOff j + 4 ≤ a) →
      placed.byteAt a = s.byteAt a) ∧
    placed = { s with mem := placed.mem }

/-- A completed SHUFFLE leaves `PERM[0..n-1]` a permutation of what it was, a completed SHUFFLE_IO leaves it a permutation
of `SRC[0..n-1]`, and neither changes `PERM[n..255]` or `SRC` (rules R152(b), R156(c)). -/
def Obligations.ShufflesPermuteTheirWords : Prop :=
  ∀ (g : Gsel) (s t : State), s.idle → s.drawReady g → 1 ≤ s.opaLo.toNat → s.opaLo.toNat ≤ 256 → t.inflight = none →
    (exec (.shuffle g) s = .next t →
      ((List.range s.opaLo.toNat).map t.perm).Perm ((List.range s.opaLo.toNat).map s.perm) ∧
      (∀ k, s.opaLo.toNat ≤ k → k < 256 → t.perm k = s.perm k) ∧ ∀ k < 256, t.src k = s.src k) ∧
    (exec (.shuffleIo g) s = .next t →
      ((List.range s.opaLo.toNat).map t.perm).Perm ((List.range s.opaLo.toNat).map s.src) ∧
      (∀ k, s.opaLo.toNat ≤ k → k < 256 → t.perm k = s.perm k) ∧ ∀ k < 256, t.src k = s.src k)

/-- PERM_BUILD: from the identity over the 256 entries, with nothing else changed, the classic shuffle of all of them; then
PERM_READY is 1. It stays in flight when the shuffle never ends (rules R158 to R160, R265; how the model tells that
it never ends is its own deduction, log entry 9, DEDUCED). -/
def Obligations.PermBuildShufflesTheIdentity : Prop :=
  ∀ (g : Gsel) (s : State), s.idle → s.drawReady g →
    ∃ u : State, (∀ k < 256, u.perm k = BitVec.ofNat 32 k) ∧
      (∀ a, a < 0x400 ∨ 0x800 ≤ a → u.byteAt a = s.byteAt a) ∧ u = { s with mem := u.mem } ∧
      (∀ t, ShufflePasses g 255 u t → exec (.permBuild g) s = .next { t with permReady := true }) ∧
      ((¬ ∃ t, ShufflePasses g 255 u t) →
        exec (.permBuild g) s = .next { s with inflight := some ⟨.permBuild g, s.operands⟩ })

/-- A completed PERM_BUILD leaves a bijection on [0, 255], for every generator and state (rule R160). -/
def Obligations.PermBuildGivesABijection : Prop :=
  ∀ (g : Gsel) (s t : State), s.idle → s.drawReady g → exec (.permBuild g) s = .next t → t.inflight = none →
    t.permBijective ∧ t.permReady = true

/-- VALUE_BUILD always completes: 256 draws fill the table in index order, VALUE_READY becomes 1, the generator is where
256 draws leave it, and nothing else changes (rules R161, R162). -/
def Obligations.ValueBuildFillsTheTableInIndexOrder : Prop :=
  ∀ (g : Gsel) (s : State), s.idle → s.drawReady g →
    ∃ t, exec (.valueBuild g) s = .next t ∧
      (∀ k < 256, t.value k = fdiv (f64OfInt (drawOut g k s).toNat) (f64OfInt 4294967295)) ∧
      (∀ a, a < 0x1000 ∨ 0x1800 ≤ a → t.byteAt a = (drawState g 256 s).byteAt a) ∧
      (∀ a, a < 0x1000 ∨ (0x1800 ≤ a ∧ a < 0x4000) → t.byteAt a = s.byteAt a) ∧
      t = { drawState g 256 s with mem := t.mem, valueReady := true }

/-! ## The lattice (file 43_lattice.md) -/

/-- HASH and LATTICE_VALUE: NOT_READY while a table they read is not built; else `PERM[(x + PERM[y & 255]) & 255]` on exact
integers into RES.u32, and `VALUE` at that hash masked into RES.f64; nothing else changes (rules R171, R172, R174, R175). -/
def Obligations.HashAndLatticeValueLookUpTheTables : Prop :=
  ∀ s : State, s.idle →
    let x := s.opaLo.toInt
    let y := s.opbLo.toInt
    let h := s.perm ((x + ((s.perm (y % 256).toNat).toNat : Int)) % 256).toNat
    let v := s.value (((h.toNat : Int) % 256).toNat)
    (s.permReady = false → exec .hash s = .next { s with err := true, ecode := if s.err then s.ecode else 4#4 }) ∧
    (s.permReady = true → exec .hash s = .next { s with resLo := h, resHi := 0#32 }) ∧
    (s.permReady = false ∨ s.valueReady = false →
      exec .latticeValue s = .next { s with err := true, ecode := if s.err then s.ecode else 4#4 }) ∧
    (s.permReady = true → s.valueReady = true →
      exec .latticeValue s = .next { s with resLo := v.extractLsb' 0 32, resHi := v.extractLsb' 32 32 })

/-- The lattice hash has period 256 in each coordinate, negative coordinates and the most negative one included, depends
on the low 8 bits of each word alone, and is below 256 while PERM is a bijection (rules R171, R173). -/
def Obligations.LatticeHashWrapsEveryCoordinate : Prop :=
  ∀ s : State,
    (∀ x y a b : Int, s.lhash (x + 256 * a) (y + 256 * b) = s.lhash x y) ∧
    (∀ x y : Int, s.lhash (-1) y = s.lhash 255 y ∧ s.lhash x (-1) = s.lhash x 255 ∧ s.lhash (-2 ^ 31) y = s.lhash 0 y) ∧
    (∀ v w : Word, s.lhash v.toInt w.toInt = s.lhash ((v &&& 0xFF#32).toNat : Int) ((w &&& 0xFF#32).toNat : Int)) ∧
    (s.permBijective → ∀ x y : Int, (s.lhash x y).toNat < 256)

/-- The coordinate split: for a finite double, `fl` is its floor and is itself a double; the cell is `fl mod 256`; the
fraction is the one rounded subtraction `d - fl`, between 0 and 1 inclusive (rule R176). That the floor of -0.0 is the
integer 0 and its double +0.0, so that the fraction there is -0.0, is the model's reading, log entry 14 (DEDUCED). -/
def Obligations.SplitTakesTheFloor : Prop :=
  ∀ d : DWord, f64IsFinite d = true →
    ∃ fl : Int, f64Floor d = fl ∧ fl * (f64One : Int) ≤ f64Scaled d ∧ f64Scaled d < (fl + 1) * (f64One : Int) ∧
      f64Scaled (f64OfInt fl) = fl * (f64One : Int) ∧ f64IsFinite (f64OfInt fl) = true ∧
      splitCoord d = ⟨fl % 256, fsub d (f64OfInt fl)⟩ ∧ 0 ≤ (splitCoord d).cell ∧ (splitCoord d).cell ≤ 255 ∧
      0 ≤ f64Scaled (splitCoord d).frac ∧ f64Scaled (splitCoord d).frac ≤ (f64One : Int) ∧
      f64IsFinite (splitCoord d).frac = true

/-- SAMPLE_BILINEAR and SAMPLE_BICUBIC: NOT_READY, then DOMAIN; else the four corners interpolated horizontally twice and
then vertically, or the four row splines and one vertical spline over the 4x4 neighbourhood, into RES.f64; nothing else
changes (rules R178, R179, R181, R182, R184). `spline4` is opened, for all its arguments, by
SplineEvaluatesTheSelectedSpan. -/
def Obligations.SamplesInterpolateTheNeighbourhood : Prop :=
  ∀ s : State, s.idle →
    let x := s.opaHi ++ s.opaLo
    let y := s.opbHi ++ s.opbLo
    let u := splitCoord x
    let v := splitCoord y
    let lerp := fun a b f : DWord => fadd a (fmul f (fsub b a))
    let bil := lerp (lerp (s.lval u.cell v.cell) (s.lval (u.cell + 1) v.cell) u.frac)
      (lerp (s.lval u.cell (v.cell + 1)) (s.lval (u.cell + 1) (v.cell + 1)) u.frac) v.frac
    let row := fun r : Int => spline4 u.frac (s.lval (u.cell - 1) (v.cell - 1 + r)) (s.lval u.cell (v.cell - 1 + r))
      (s.lval (u.cell + 1) (v.cell - 1 + r)) (s.lval (u.cell + 2) (v.cell - 1 + r))
    let bic := spline4 v.frac (row 0) (row 1) (row 2) (row 3)
    (s.permReady = false ∨ s.valueReady = false →
      exec .sampleBilinear s = .next { s with err := true, ecode := if s.err then s.ecode else 4#4 } ∧
      exec .sampleBicubic s = .next { s with err := true, ecode := if s.err then s.ecode else 4#4 }) ∧
    (s.permReady = true → s.valueReady = true → f64IsFinite x = false ∨ f64IsFinite y = false →
      exec .sampleBilinear s = .next { s with err := true, ecode := if s.err then s.ecode else 5#4 } ∧
      exec .sampleBicubic s = .next { s with err := true, ecode := if s.err then s.ecode else 5#4 }) ∧
    (s.permReady = true → s.valueReady = true → f64IsFinite x = true → f64IsFinite y = true →
      exec .sampleBilinear s =
        .next { s with resLo := bil.extractLsb' 0 32, resHi := bil.extractLsb' 32 32 } ∧
      exec .sampleBicubic s =
        .next { s with resLo := bic.extractLsb' 0 32, resHi := bic.extractLsb' 32 32 })

/-- At an integer point both samples are exactly the lattice value there, when the value table is in [0, 1] (rules R180(a),
R183(a); the premise is the invariant of rule R46). -/
def Obligations.SamplesAtIntegerPointsAreLatticeValues : Prop :=
  ∀ s : State, s.idle → s.permReady = true → s.valueReady = true → s.valueInvariant →
    f64IsFinite (s.opaHi ++ s.opaLo) = true → f64IsFinite (s.opbHi ++ s.opbLo) = true →
    ∀ a b : Int, f64Scaled (s.opaHi ++ s.opaLo) = a * (f64One : Int) → f64Scaled (s.opbHi ++ s.opbLo) = b * (f64One : Int) →
      let v := s.lval a b
      exec .sampleBilinear s = .next { s with resLo := v.extractLsb' 0 32, resHi := v.extractLsb' 32 32 } ∧
      exec .sampleBicubic s = .next { s with resLo := v.extractLsb' 0 32, resHi := v.extractLsb' 32 32 }

/-! ## Interpolation and binary64 (file 44_interp.md) -/

/-- Sum, difference, product and quotient of finite doubles are the exact result correctly rounded, to nearest with ties to
even, overflow to infinity and subnormals kept; a product or quotient has the exclusive or of the signs; an exact zero sum
is negative only when both operands are, and an exact zero difference only when the first alone is. With an infinite
operand: infinity plus or minus a finite double is that infinity, and so is the sum of two of one sign and the difference
of two of opposite signs; its product with anything but a zero and its quotient by a finite double are infinite, and a
finite double by infinity is a zero, each with the exclusive or of the signs (rules R10, R194; binary64 and its field
layout are the spec's mark G1, log entry 15). -/
def Obligations.ArithmeticIsCorrectlyRounded : Prop :=
  let inf := fun neg : Bool => if neg then 0xFFF0000000000000#64 else 0x7FF0000000000000#64
  let zero := fun neg : Bool => if neg then 0x8000000000000000#64 else 0x0000000000000000#64
  (∀ d : DWord,
    let e := (d.extractLsb' 52 11).toNat
    let f := (d.extractLsb' 0 52).toNat
    (f64IsFinite d = true ↔ e ≠ 2047) ∧ (f64IsInf d = true ↔ d = inf (f64Neg d)) ∧ f64Neg d = d.getLsbD 63 ∧
    f64Scaled d = (if d.getLsbD 63 then -1 else 1) * (if e = 0 then f else (2 ^ 52 + f) * 2 ^ (e - 1) : Nat)) ∧
  (∀ a b : DWord, f64IsFinite a = true → f64IsFinite b = true →
    RoundedNearestEven (fadd a b) (f64Scaled a + f64Scaled b) 1 ∧
    (f64Scaled a + f64Scaled b = 0 → fadd a b = zero (f64Neg a && f64Neg b)) ∧
    RoundedNearestEven (fsub a b) (f64Scaled a - f64Scaled b) 1 ∧
    (f64Scaled a - f64Scaled b = 0 → fsub a b = zero (f64Neg a && !f64Neg b)) ∧
    RoundedNearestEven (fmul a b) (f64Scaled a * f64Scaled b) f64One ∧
    f64Neg (fmul a b) = (f64Neg a != f64Neg b) ∧
    (f64Scaled b ≠ 0 →
      RoundedNearestEven (fdiv a b) (f64Scaled a * (f64One : Int) * (f64Scaled b).sign) (f64Scaled b).natAbs ∧
      f64Neg (fdiv a b) = (f64Neg a != f64Neg b))) ∧
  ∀ p q : Bool,
    fadd (inf p) (inf p) = inf p ∧ fsub (inf p) (inf (!p)) = inf p ∧ fmul (inf p) (inf q) = inf (p != q) ∧
    ∀ b : DWord, f64IsFinite b = true →
      fadd (inf p) b = inf p ∧ fadd b (inf p) = inf p ∧ fsub (inf p) b = inf p ∧ fsub b (inf p) = inf (!p) ∧
      (f64Scaled b ≠ 0 → fmul (inf p) b = inf (p != f64Neg b) ∧ fmul b (inf p) = inf (p != f64Neg b)) ∧
      fdiv (inf p) b = inf (p != f64Neg b) ∧ fdiv b (inf p) = zero (p != f64Neg b)

/-- Any arithmetic on a NaN, whatever its payload and sign, and every invalid operation (the sum of infinities of opposite
signs and the difference of infinities of one sign, zero times infinity, zero by zero, infinity by infinity) gives the
canonical quiet NaN, and no operation gives another NaN. So every NaN that LERP, SPLINE, DOUBLE_AFFINE or a sample command
writes to RES is that one; LERP gives it for a NaN operand, for one infinity at both ends, and for equal finite ends at an
infinite fraction; and `spline4`, and so SPLINE, gives it for an infinite or NaN knot in the span, at every position (rules
R193, R192(e), R198(e); which operations are invalid is IEEE 754's, the spec's mark G1, log entry 15). -/
def Obligations.EveryNaNResultIsCanonical : Prop :=
  let nan := 0x7FF8000000000000#64
  (∀ d : DWord, f64IsNaN d = true ↔ d.extractLsb' 52 11 = 0x7FF#11 ∧ d.extractLsb' 0 52 ≠ 0#52) ∧
  (∀ a b : DWord,
    (f64IsNaN a = true ∨ f64IsNaN b = true → fadd a b = nan ∧ fsub a b = nan ∧ fmul a b = nan ∧ fdiv a b = nan) ∧
    (f64IsInf a = true → f64IsInf b = true →
      (f64Neg a ≠ f64Neg b → fadd a b = nan) ∧ (f64Neg a = f64Neg b → fsub a b = nan) ∧ fdiv a b = nan) ∧
    (f64IsInf a = true → b = 0x0000000000000000#64 ∨ b = 0x8000000000000000#64 → fmul a b = nan ∧ fmul b a = nan) ∧
    (a = 0x0000000000000000#64 ∨ a = 0x8000000000000000#64 → b = 0x0000000000000000#64 ∨ b = 0x8000000000000000#64 →
      fdiv a b = nan) ∧
    (f64IsNaN (fadd a b) = true → fadd a b = nan) ∧ (f64IsNaN (fsub a b) = true → fsub a b = nan) ∧
    (f64IsNaN (fmul a b) = true → fmul a b = nan) ∧ (f64IsNaN (fdiv a b) = true → fdiv a b = nan)) ∧
  (∀ (i : Instr) (s t : State), s.idle → (meaningOf i).check s = none → exec i s = .next t →
    i = .lerp ∨ i = .spline ∨ (∃ g, i = .doubleAffine g) ∨ i = .sampleBilinear ∨ i = .sampleBicubic →
    f64IsNaN t.res = true → t.res = nan) ∧
  (∀ s : State, s.idle →
    let a := s.opaHi ++ s.opaLo
    let b := s.opbHi ++ s.opbLo
    let f := s.opcHi ++ s.opcLo
    (f64IsNaN a = true ∨ f64IsNaN b = true ∨ f64IsNaN f = true) ∨ (f64IsInf a = true ∧ b = a) ∨
      (f64IsFinite a = true ∧ b = a ∧ f64IsInf f = true) →
    exec .lerp s = .next { s with resLo := 0#32, resHi := 0x7FF80000#32 }) ∧
  (∀ t k0 k1 k2 k3 : DWord, (∃ k ∈ [k0, k1, k2, k3], f64IsFinite k = false) → spline4 t k0 k1 k2 k3 = nan) ∧
  ∀ s : State, s.idle →
    let n := s.kcount.toNat
    let x := s.opaHi ++ s.opaLo
    4 ≤ n → n ≤ 64 → f64IsNaN x = false →
    (∃ k, splineSpan x n ≤ k ∧ k ≤ splineSpan x n + 3 ∧ f64IsFinite (s.knot k) = false) →
    exec .spline s = .next { s with resLo := 0#32, resHi := 0x7FF80000#32 }

/-- LERP: `a + f * (b - a)` of any operands into RES.f64; nothing else changes and no error is raised (rules R190, R191). -/
def Obligations.LerpIsThreeRoundedOperations : Prop :=
  ∀ s : State, s.idle →
    let a := s.opaHi ++ s.opaLo
    let b := s.opbHi ++ s.opbLo
    let f := s.opcHi ++ s.opcLo
    let v := fadd a (fmul f (fsub b a))
    exec .lerp s = .next { s with resLo := v.extractLsb' 0 32, resHi := v.extractLsb' 32 32 }

/-- SPLINE: PARAM for a knot count outside [4, 64], then DOMAIN for a NaN parameter, each with +0.0 in RES; else the clamp,
the scaling, the span limited to the last one, the position in it and `spline4` of its four knots, into RES.f64; nothing
else changes (rules R196, R197). `spline4`: each of the four coefficients is the sum, left to right, of its row's four
products, the zero entries included, and the value is Horner's rule from the cubic coefficient down (rules R195, R199; the
basis is the standard Catmull-Rom one by the spec's mark G3, log entry 15, PRESUMED). -/
def Obligations.SplineEvaluatesTheSelectedSpan : Prop :=
  let row := fun m0 m1 m2 m3 k0 k1 k2 k3 : DWord =>
    fadd (fadd (fadd (fmul m0 k0) (fmul m1 k1)) (fmul m2 k2)) (fmul m3 k3)
  let horner := fun t k0 k1 k2 k3 : DWord =>
    let c3 := row 0xBFE0000000000000#64 0x3FF8000000000000#64 0xBFF8000000000000#64 0x3FE0000000000000#64 k0 k1 k2 k3
    let c2 := row 0x3FF0000000000000#64 0xC004000000000000#64 0x4000000000000000#64 0xBFE0000000000000#64 k0 k1 k2 k3
    let c1 := row 0xBFE0000000000000#64 0x0000000000000000#64 0x3FE0000000000000#64 0x0000000000000000#64 k0 k1 k2 k3
    let c0 := row 0x0000000000000000#64 0x3FF0000000000000#64 0x0000000000000000#64 0x0000000000000000#64 k0 k1 k2 k3
    fadd (fmul (fadd (fmul (fadd (fmul c3 t) c2) t) c1) t) c0
  (∀ t k0 k1 k2 k3 : DWord, spline4 t k0 k1 k2 k3 = horner t k0 k1 k2 k3) ∧
  ∀ s : State, s.idle →
    let n := s.kcount.toNat
    let x := s.opaHi ++ s.opaLo
    let xc := if flt x 0#64 then 0#64 else if flt 0x3FF0000000000000#64 x then 0x3FF0000000000000#64 else x
    let sc := fmul xc (f64OfInt ((n : Int) - 3))
    let span := if (n : Int) - 3 ≤ f64Floor sc then n - 4 else (f64Floor sc).toNat
    let pos := fsub sc (f64OfInt (span : Int))
    let v := horner pos (s.knot span) (s.knot (span + 1)) (s.knot (span + 2)) (s.knot (span + 3))
    (n < 4 ∨ 64 < n → exec .spline s =
      .next { s with resLo := 0#32, resHi := 0#32, err := true, ecode := if s.err then s.ecode else 2#4 }) ∧
    (4 ≤ n → n ≤ 64 → f64IsNaN x = true → exec .spline s =
      .next { s with resLo := 0#32, resHi := 0#32, err := true, ecode := if s.err then s.ecode else 5#4 }) ∧
    (4 ≤ n → n ≤ 64 → f64IsNaN x = false →
      exec .spline s = .next { s with resLo := v.extractLsb' 0 32, resHi := v.extractLsb' 32 32 } ∧ span + 3 < n)

/-- SPLINE clamps its parameter: below 0 it gives the result of 0.0, above 1, infinity included, that of 1.0; and at 1.0
the span is the last and the position in it exactly 1.0 (rule R198, cases (a) and (b)). The comparison it clamps by, and the
block has no other, is IEEE's: false on a NaN, the order of the values on finite doubles, so that -0.0 and 0.0 are neither
below the other, and the infinities are the ends (rule R194; binary64 is the spec's mark G1, log entry 15). -/
def Obligations.SplineClampsItsParameter : Prop :=
  (∀ (s : State) (n : Nat) (x : DWord), 4 ≤ n → n ≤ 64 →
    (flt x 0#64 = true → s.spline x n = s.spline 0#64 n) ∧
    (flt 0x3FF0000000000000#64 x = true → s.spline x n = s.spline 0x3FF0000000000000#64 n) ∧
    splineSpan 0x3FF0000000000000#64 n = n - 4 ∧
    splinePosition 0x3FF0000000000000#64 n = 0x3FF0000000000000#64) ∧
  flt 0x8000000000000000#64 0x0000000000000000#64 = false ∧ flt 0x0000000000000000#64 0x8000000000000000#64 = false ∧
  ∀ a b : DWord,
    (f64IsNaN a = true ∨ f64IsNaN b = true → flt a b = false) ∧
    (f64IsFinite a = true → f64IsFinite b = true → (flt a b = true ↔ f64Scaled a < f64Scaled b)) ∧
    (f64IsNaN a = false →
      (flt a 0x7FF0000000000000#64 = true ↔ a ≠ 0x7FF0000000000000#64) ∧ flt 0x7FF0000000000000#64 a = false ∧
      (flt 0xFFF0000000000000#64 a = true ↔ a ≠ 0xFFF0000000000000#64) ∧ flt a 0xFFF0000000000000#64 = false)

/-! ## Errors and flags (files 10_state.md, 60_exceptions.md) -/

/-- Which error each command is rejected with, readiness before PARAM before DOMAIN, and that a rejected command changes
ERR and ECODE alone, by rule R222, but for SPLINE's fallback (rules R220-R223). -/
def Obligations.RejectedCommandsOnlyRecordTheFirstError : Prop :=
  ∀ s : State, s.idle →
    let rejected := fun (u : State) (k : BitVec 4) =>
      Host.Outcome.next (φ := Fault) (ρ := Refusal) { u with err := true, ecode := if s.err then s.ecode else k }
    (∀ g, g = .cmwc ∨ g = .comb → s.cmwcSeeded = false →
      ∀ i ∈ [Instr.cmwcNext, .combNext, .uniform g, .double g, .doubleAffine g, .shuffle g, .shuffleIo g, .permBuild g,
        .valueBuild g], exec i s = rejected s 3#4) ∧
    (∀ g, s.drawReady g → s.opbLo < s.opaLo → exec (.uniform g) s = rejected s 2#4) ∧
    (∀ g, s.drawReady g → s.opaLo.toNat = 0 ∨ 256 < s.opaLo.toNat →
      exec (.shuffle g) s = rejected s 2#4 ∧ exec (.shuffleIo g) s = rejected s 2#4) ∧
    (s.permReady = false → exec .hash s = rejected s 4#4) ∧
    (s.permReady = false ∨ s.valueReady = false →
      ∀ i ∈ [Instr.latticeValue, .sampleBilinear, .sampleBicubic], exec i s = rejected s 4#4) ∧
    (s.permReady = true → s.valueReady = true →
      f64IsFinite (s.opaHi ++ s.opaLo) = false ∨ f64IsFinite (s.opbHi ++ s.opbLo) = false →
      ∀ i ∈ [Instr.sampleBilinear, .sampleBicubic], exec i s = rejected s 5#4) ∧
    (s.kcount.toNat < 4 ∨ 64 < s.kcount.toNat →
      exec .spline s = rejected { s with resLo := 0#32, resHi := 0#32 } 2#4) ∧
    (4 ≤ s.kcount.toNat → s.kcount.toNat ≤ 64 → f64IsNaN (s.opaHi ++ s.opaLo) = true →
      exec .spline s = rejected { s with resLo := 0#32, resHi := 0#32 } 5#4) ∧
    ∀ (i : Instr) (k : ErrorCode), (meaningOf i).check s = some k →
      exec i s = rejected (if i = .spline then { s with resLo := 0#32, resHi := 0#32 } else s) k.code

/-- ERR is sticky: over any step but a STATUS write with bit 1 set and the end of a reset, ERR = 1 stays and ECODE keeps
its code (rules R222, R229). -/
def Obligations.ErrorIsStickyUntilClearedOrReset : Prop :=
  ∀ s t : State, s.err = true → step s = .next t →
    ¬ (s.inReset = true ∧ s.arrivals.head? = some .resetRelease) →
    ¬ (s.inReset = false ∧ ∃ w : Word, w.getLsbD 1 = true ∧ s.arrivals.head? = some (.write 0x008#15 .bits32 w)) →
    t.err = true ∧ t.ecode = s.ecode

/-- The readiness flags: a completed CMWC_SEED sets CMWC_SEEDED, PERM_BUILD sets PERM_READY, the shuffles clear it,
VALUE_BUILD sets VALUE_READY, and no other command changes one; only the end of a reset clears CMWC_SEEDED (rules R36,
R254). -/
def Obligations.ReadinessFlagsFollowTheirCommands : Prop :=
  (∀ (i : Instr) (s t : State), s.idle → (meaningOf i).check s = none → exec i s = .next t → t.inflight = none →
    (t.cmwcSeeded = if i = .cmwcSeed then true else s.cmwcSeeded) ∧
    (∀ g, (i = .permBuild g → t.permReady = true) ∧ (i = .shuffle g ∨ i = .shuffleIo g → t.permReady = false)) ∧
    ((∀ g, i ≠ .permBuild g ∧ i ≠ .shuffle g ∧ i ≠ .shuffleIo g) → t.permReady = s.permReady) ∧
    (∀ g, i = .valueBuild g → t.valueReady = true) ∧
    ((∀ g, i ≠ .valueBuild g) → t.valueReady = s.valueReady)) ∧
  ∀ s t : State, s.cmwcSeeded = true → step s = .next t →
    ¬ (s.inReset = true ∧ s.arrivals.head? = some .resetRelease) → t.cmwcSeeded = true

/-! ## The host port (files 10_state.md, 20_memory.md) -/

/-- The block's window: `BASE` is a multiple of 0x8000; a bus address in `[BASE, BASE + 0x7FFF]` selects its offset from
`BASE`, and any other address is not the block's (rules R60 to R62; the value of `BASE` is open, log entry 6; that another
address makes no event is the model's reading, log entry 20). -/
def Obligations.BusAddressesSelectTheWindow : Prop :=
  Config.base % 0x8000 = 0 ∧
  (∀ (off : Offset) (width : Width) (w : Word),
    readAtAddress (Config.base + off.toNat) width = some (.read off width) ∧
    writeAtAddress (Config.base + off.toNat) width w = some (.write off width w)) ∧
  ∀ (addr : Nat) (width : Width) (w : Word), addr < Config.base ∨ Config.base + 0x7FFF < addr →
    readAtAddress addr width = none ∧ writeAtAddress addr width w = none

/-- What a word reads as, register by register and RAM by RAM; and that an aligned 32-bit read while Idle answers it and
that no read, whenever made, changes anything the host can ever see (rules R22, R25, R61, R65, R66). -/
def Obligations.HostReadsFollowTheMapWithoutSideEffect : Prop :=
  (∀ s : State,
    s.readWord 0x000 = 0x524E4731#32 ∧ s.readWord 0x004 = 0#32 ∧
    ((s.readWord 0x008).getLsbD 0 = s.inflight.isSome ∧ (s.readWord 0x008).getLsbD 1 = s.err ∧
      (s.readWord 0x008).getLsbD 2 = s.cmwcSeeded ∧ (s.readWord 0x008).getLsbD 3 = s.permReady ∧
      (s.readWord 0x008).getLsbD 4 = s.valueReady ∧ (s.readWord 0x008).extractLsb' 5 3 = 0#3 ∧
      (s.readWord 0x008).extractLsb' 8 4 = s.ecode ∧ (s.readWord 0x008).extractLsb' 12 20 = 0#20) ∧
    s.readWord 0x010 = s.opaLo ∧ s.readWord 0x014 = s.opaHi ∧ s.readWord 0x018 = s.opbLo ∧ s.readWord 0x01C = s.opbHi ∧
    s.readWord 0x020 = s.opcLo ∧ s.readWord 0x024 = s.opcHi ∧ s.readWord 0x028 = s.resLo ∧ s.readWord 0x02C = s.resHi ∧
    s.readWord 0x030 = s.xsState ∧
    (s.readWord 0x034).toNat = s.xsShiftA.toNat + 2 ^ 8 * s.xsShiftB.toNat + 2 ^ 16 * s.xsShiftC.toNat ∧
    s.readWord 0x038 = s.minstdState ∧ s.readWord 0x03C = s.marsState ∧ s.readWord 0x040 = s.cmwcCarry ∧
    (s.readWord 0x044).toNat = s.cmwcIndex.toNat ∧ (s.readWord 0x048).toNat = s.kcount.toNat ∧
    (∀ off, off = 0x00C ∨ (0x04C ≤ off ∧ off < 0x400) ∨ (0xC00 ≤ off ∧ off < 0x1000) ∨ (0x1A00 ≤ off ∧ off < 0x4000) →
      s.readWord off = 0#32) ∧
    (∀ k < 256, s.readWord (0x400 + 4 * k) = s.perm k ∧ s.readWord (0x800 + 4 * k) = s.src k ∧
      s.readWord (0x1004 + 8 * k) ++ s.readWord (0x1000 + 8 * k) = s.value k) ∧
    (∀ k < 64, s.readWord (0x1804 + 8 * k) ++ s.readWord (0x1800 + 8 * k) = s.knot k) ∧
    ∀ k < 4096, s.readWord (0x4000 + 4 * k) = s.q k) ∧
  ∀ (s : State) (off : Offset) (width : Width) (rest : List PortEvent), s.inReset = false →
    (∃ r n, step { s with arrivals := .read off width :: rest } =
      .next { s with arrivals := rest, reply := r, freeReads := n }) ∧
    (s.idle → width = .bits32 → off.toNat % 4 = 0 →
      step { s with arrivals := .read off width :: rest } =
        .next { s with arrivals := rest, reply := .data (s.readWord off.toNat) })

/-- An access of another width than 32 bits, or at an offset that is no multiple of 4, gets a bus error and changes
nothing, Idle or Busy, read or write (rule R63). -/
def Obligations.OddAccessesGetABusError : Prop :=
  ∀ (s : State) (off : Offset) (width : Width) (w : Word) (rest : List PortEvent), s.inReset = false →
    width ≠ .bits32 ∨ off.toNat % 4 ≠ 0 →
    step { s with arrivals := .read off width :: rest } = .next { s with arrivals := rest, reply := .busError } ∧
    step { s with arrivals := .write off width w :: rest } = .next { s with arrivals := rest, reply := .busError }

/-- What a write does to the registers while Idle: each read-write register takes the word, its reserved bits apart; STATUS
takes its bit 1 as the clear of ERR and ECODE; a read-only register, a reserved offset and `Q` ignore it (rules R22, R26,
R27, R30, R35, R65, R66). -/
def Obligations.RegisterWritesFollowTheMap : Prop :=
  ∀ (s : State) (w : Word) (rest : List PortEvent), s.inReset = false → s.idle →
    let after := fun off : Offset => step { s with arrivals := .write off .bits32 w :: rest }
    let u := { s with arrivals := rest, reply := Response.accepted }
    after 0x010#15 = .next { u with opaLo := w } ∧ after 0x014#15 = .next { u with opaHi := w } ∧
    after 0x018#15 = .next { u with opbLo := w } ∧ after 0x01C#15 = .next { u with opbHi := w } ∧
    after 0x020#15 = .next { u with opcLo := w } ∧ after 0x024#15 = .next { u with opcHi := w } ∧
    after 0x030#15 = .next { u with xsState := w } ∧
    after 0x034#15 = .next { u with
      xsShiftA := w.extractLsb' 0 5, xsShiftB := w.extractLsb' 8 5, xsShiftC := w.extractLsb' 16 5 } ∧
    after 0x038#15 = .next { u with minstdState := w } ∧ after 0x03C#15 = .next { u with marsState := w } ∧
    after 0x048#15 = .next { u with kcount := w.extractLsb' 0 7 } ∧
    after 0x008#15 = .next (if w.getLsbD 1 then { u with err := false, ecode := 0#4 } else u) ∧
    (∀ off ∈ [0x000#15, 0x00C#15, 0x028#15, 0x02C#15, 0x040#15, 0x044#15], after off = .next u) ∧
    ∀ off : Offset, off.toNat % 4 = 0 →
      (0x04C ≤ off.toNat ∧ off.toNat < 0x400) ∨ (0xC00 ≤ off.toNat ∧ off.toNat < 0x1000) ∨
        (0x1A00 ≤ off.toNat ∧ off.toNat < 0x4000) ∨ 0x4000 ≤ off.toNat →
      after off = .next u

/-- What a write does to the RAMs while Idle: the word or the half entry is stored, every other byte stays, a `PERM` write
clears PERM_READY and a `VALUE` write clears VALUE_READY, even with the value already there, and nothing else changes
(rules R36-R40, R65, R68). -/
def Obligations.RamWritesStoreOneWord : Prop :=
  ∀ (s : State) (w : Word) (rest : List PortEvent) (k : Nat), s.inReset = false → s.idle → k < 256 →
    let after := fun off : Nat => step { s with arrivals := .write (BitVec.ofNat 15 off) .bits32 w :: rest }
    let stored := fun (off : Nat) (t : State) =>
      t.wordAt off = w ∧ ∀ a, a < off ∨ off + 4 ≤ a → t.byteAt a = s.byteAt a
    (∃ t, after (0x400 + 4 * k) = .next t ∧ stored (0x400 + 4 * k) t ∧ t.perm k = w ∧
      t = { s with arrivals := rest, reply := .accepted, mem := t.mem, permReady := false }) ∧
    (∃ t, after (0x800 + 4 * k) = .next t ∧ stored (0x800 + 4 * k) t ∧ t.src k = w ∧
      t = { s with arrivals := rest, reply := .accepted, mem := t.mem }) ∧
    (∃ t, after (0x1000 + 8 * k) = .next t ∧ stored (0x1000 + 8 * k) t ∧ (t.value k).extractLsb' 0 32 = w ∧
      t = { s with arrivals := rest, reply := .accepted, mem := t.mem, valueReady := false }) ∧
    (∃ t, after (0x1004 + 8 * k) = .next t ∧ stored (0x1004 + 8 * k) t ∧ (t.value k).extractLsb' 32 32 = w ∧
      t = { s with arrivals := rest, reply := .accepted, mem := t.mem, valueReady := false }) ∧
    (k < 64 →
      (∃ t, after (0x1800 + 8 * k) = .next t ∧ stored (0x1800 + 8 * k) t ∧ (t.knot k).extractLsb' 0 32 = w ∧
        t = { s with arrivals := rest, reply := .accepted, mem := t.mem }) ∧
      ∃ t, after (0x1804 + 8 * k) = .next t ∧ stored (0x1804 + 8 * k) t ∧ (t.knot k).extractLsb' 32 32 = w ∧
        t = { s with arrivals := rest, reply := .accepted, mem := t.mem })

/-- While a command runs, a STATUS write works as usual; any other aligned 32-bit write is dropped and records BUSY_WRITE,
and the in-flight command is not affected; a write that gets a bus error records nothing (rule R208). -/
def Obligations.WritesWhileBusyAreDropped : Prop :=
  ∀ (s : State) (off : Offset) (w : Word) (rest : List PortEvent), s.inReset = false → s.inflight ≠ none →
    (off.toNat % 4 = 0 →
      step { s with arrivals := .write off .bits32 w :: rest } =
        if off = 0x008#15 then
          .next (if w.getLsbD 1 then { s with arrivals := rest, reply := .accepted, err := false, ecode := 0#4 }
            else { s with arrivals := rest, reply := .accepted })
        else
          .next { s with
            arrivals := rest, reply := .accepted, err := true, ecode := if s.err then s.ecode else 6#4 }) ∧
    ∀ width : Width, width ≠ .bits32 ∨ off.toNat % 4 ≠ 0 →
      step { s with arrivals := .write off width w :: rest } = .next { s with arrivals := rest, reply := .busError }

/-- Reads while a command runs: a word outside the set the model lets read as unspecified returns its current value, and
the completion of the command does not change it, so the set misses no word a command writes. And the set holds no word
that the command's rule does not name: a RAM word of it is one the command stores to, with only the next ring word for a
command of one draw, and a register of it is one of a generator the command advances, or of CMWC for CMWC_SEED; so ID,
STATUS, the operand registers, RES, XS_SHIFT, KCOUNT, `SRC` and `KNOT` are never in it (rule R71; the set is the model's
reading of it, log entry 5). -/
def Obligations.BusyReadsAreCurrentOutsideTheWriteSet : Prop :=
  ∀ (s : State) (f : InFlight) (rest : List PortEvent), s.inReset = false → s.inflight = some f → s.flightInvariant →
    (∀ off : Offset, off.toNat % 4 = 0 → s.mayWrite f off.toNat = false →
      step { s with arrivals := .read off .bits32 :: rest } =
        .next { s with arrivals := rest, reply := .data (s.readWord off.toNat) } ∧
      (off ≠ 0x008#15 → off ≠ 0x028#15 → off ≠ 0x02C#15 → s.complete.readWord off.toNat = s.readWord off.toNat)) ∧
    (∀ off ∈ [0x000, 0x004, 0x008, 0x010, 0x014, 0x018, 0x01C, 0x020, 0x024, 0x028, 0x02C, 0x034, 0x048],
      s.mayWrite f off = false) ∧
    ∀ off : Offset, off.toNat % 4 = 0 → s.mayWrite f off.toNat = true →
      (mayStoreTo f.instr s off.toNat ∨ (off = 0x030#15 ∧ advances f.instr .xs = true) ∨
        (off = 0x038#15 ∧ advances f.instr .minstd = true) ∨ (off = 0x03C#15 ∧ advances f.instr .mars = true) ∨
        ((off = 0x040#15 ∨ off = 0x044#15) ∧ (advances f.instr .cmwc = true ∨ f.instr = .cmwcSeed))) ∧
      (∀ g, f.instr = .cmwcNext ∨ f.instr = .combNext ∨ f.instr = .double g ∨ f.instr = .doubleAffine g →
        0x4000 ≤ off.toNat → off.toNat = qOff s.nextIndex.toNat)

/-! ## Reset (file 70_reset_and_hazards.md) -/

/-- Reset: asserting it abandons the in-flight command; while it is asserted no access is answered and nothing changes;
when it ends the block is Idle, every register holds its reset value and every RAM byte is unspecified, a fresh free value
(rules R250, R251; that reset is two events, and the form of the free value, are the model's, log entries 10 and 4). -/
def Obligations.ResetRestoresEveryRegister : Prop :=
  ∀ (s : State) (rest : List PortEvent),
    (s.inReset = false → step { s with arrivals := .resetAssert :: rest } =
      .next { s with arrivals := rest, reply := .none, inReset := true, inflight := none }) ∧
    (s.inReset = true → ∀ (off : Offset) (width : Width) (w : Word),
      step { s with arrivals := .read off width :: rest } = .next { s with arrivals := rest, reply := .unanswered } ∧
      step { s with arrivals := .write off width w :: rest } = .next { s with arrivals := rest, reply := .unanswered }) ∧
    (s.inReset = true → ∃ t, step { s with arrivals := .resetRelease :: rest } = .next t ∧
      t.inReset = false ∧ t.inflight = none ∧ t.arrivals = rest ∧ t.readWord 0x000 = 0x524E4731#32 ∧
      t.err = false ∧ t.ecode = 0#4 ∧ t.cmwcSeeded = false ∧ t.permReady = false ∧ t.valueReady = false ∧
      t.opaLo = 0#32 ∧ t.opaHi = 0#32 ∧ t.opbLo = 0#32 ∧ t.opbHi = 0#32 ∧ t.opcLo = 0#32 ∧ t.opcHi = 0#32 ∧
      t.resLo = 0#32 ∧ t.resHi = 0#32 ∧ t.xsState = 0#32 ∧ t.readWord 0x034 = 0x000A0301#32 ∧ t.minstdState = 0#32 ∧
      t.marsState = 0#32 ∧ t.cmwcCarry = 362436#32 ∧ t.cmwcIndex = 4095#12 ∧ t.kcount = 0#7 ∧
      ∀ a, t.byteAt a = Config.ramByte (s.resets + 1) a)

/-! ## Invariants that every step keeps -/

/-- While PERM_READY = 1, `PERM` is a bijection on [0, 255] (rule R45). -/
def Obligations.EveryStepKeepsPermABijectionWhileReady : Prop :=
  ∀ s t : State, s.permInvariant → step s = .next t → t.permInvariant

/-- While VALUE_READY = 1, every `VALUE` entry is a finite double in [0.0, 1.0] (rule R46); the premise is that the
in-flight command has passed its checks. -/
def Obligations.EveryStepKeepsValuesInUnitWhileReady : Prop :=
  ∀ s t : State, s.flightInvariant → s.valueInvariant → step s = .next t → t.valueInvariant

/-- While CMWC_SEEDED = 1, the carry is below CMWC_C_MAX or at most 18783 (rule R47). -/
def Obligations.EveryStepKeepsTheCarryBounded : Prop :=
  ∀ s t : State, s.carryInvariant → step s = .next t → t.carryInvariant

/-- ECODE is 0 exactly while ERR is 0, and is never a reserved code (rules R25, R220). -/
def Obligations.EveryStepKeepsTheErrorCodeLegal : Prop :=
  ∀ s t : State, s.errorInvariant → step s = .next t → t.errorInvariant

/-- The in-flight command has passed its issue checks, and its operand snapshot is what the operand registers hold (rules
R205, R206). -/
def Obligations.EveryStepKeepsTheSnapshotEqualToTheRegisters : Prop :=
  ∀ s t : State, s.flightInvariant → step s = .next t → t.flightInvariant

/-- The RAM contents keep their one canonical form (the model's choice, log entry 4), with every listed offset a RAM offset;
the premise is that the in-flight command has passed its checks. -/
def Obligations.EveryStepKeepsTheRamCanonical : Prop :=
  ∀ s t : State, s.flightInvariant → s.memInvariant → step s = .next t → t.memInvariant

/-- The state after reset meets every invariant (its RAM part is the model's choice of form, log entry 4). -/
def Obligations.ResetStateMeetsTheInvariants : Prop :=
  State.reset.permInvariant ∧ State.reset.valueInvariant ∧ State.reset.carryInvariant ∧ State.reset.errorInvariant ∧
  State.reset.flightInvariant ∧ State.reset.memInvariant
end

