-- ==== Sys2Proof/Laws/State.lean ====
section
/-! SUPPORT. Beside `State`: for each update of a state, what every field holds after it, by definition, so that no proof
unfolds a record update. -/

namespace Sys2Proof.Machine

/-! ### `State.setByte` -/

@[simp] theorem State.setByte_err (s : State) (a : Nat) (b : Byte) : (s.setByte a b).err = s.err := rfl
@[simp] theorem State.setByte_ecode (s : State) (a : Nat) (b : Byte) : (s.setByte a b).ecode = s.ecode := rfl
@[simp] theorem State.setByte_cmwcSeeded (s : State) (a : Nat) (b : Byte) : (s.setByte a b).cmwcSeeded = s.cmwcSeeded := rfl
@[simp] theorem State.setByte_permReady (s : State) (a : Nat) (b : Byte) : (s.setByte a b).permReady = s.permReady := rfl
@[simp] theorem State.setByte_valueReady (s : State) (a : Nat) (b : Byte) : (s.setByte a b).valueReady = s.valueReady := rfl
@[simp] theorem State.setByte_inflight (s : State) (a : Nat) (b : Byte) : (s.setByte a b).inflight = s.inflight := rfl
@[simp] theorem State.setByte_opaLo (s : State) (a : Nat) (b : Byte) : (s.setByte a b).opaLo = s.opaLo := rfl
@[simp] theorem State.setByte_opaHi (s : State) (a : Nat) (b : Byte) : (s.setByte a b).opaHi = s.opaHi := rfl
@[simp] theorem State.setByte_opbLo (s : State) (a : Nat) (b : Byte) : (s.setByte a b).opbLo = s.opbLo := rfl
@[simp] theorem State.setByte_opbHi (s : State) (a : Nat) (b : Byte) : (s.setByte a b).opbHi = s.opbHi := rfl
@[simp] theorem State.setByte_opcLo (s : State) (a : Nat) (b : Byte) : (s.setByte a b).opcLo = s.opcLo := rfl
@[simp] theorem State.setByte_opcHi (s : State) (a : Nat) (b : Byte) : (s.setByte a b).opcHi = s.opcHi := rfl
@[simp] theorem State.setByte_resLo (s : State) (a : Nat) (b : Byte) : (s.setByte a b).resLo = s.resLo := rfl
@[simp] theorem State.setByte_resHi (s : State) (a : Nat) (b : Byte) : (s.setByte a b).resHi = s.resHi := rfl
@[simp] theorem State.setByte_xsState (s : State) (a : Nat) (b : Byte) : (s.setByte a b).xsState = s.xsState := rfl
@[simp] theorem State.setByte_xsShiftA (s : State) (a : Nat) (b : Byte) : (s.setByte a b).xsShiftA = s.xsShiftA := rfl
@[simp] theorem State.setByte_xsShiftB (s : State) (a : Nat) (b : Byte) : (s.setByte a b).xsShiftB = s.xsShiftB := rfl
@[simp] theorem State.setByte_xsShiftC (s : State) (a : Nat) (b : Byte) : (s.setByte a b).xsShiftC = s.xsShiftC := rfl
@[simp] theorem State.setByte_minstdState (s : State) (a : Nat) (b : Byte) : (s.setByte a b).minstdState = s.minstdState := rfl
@[simp] theorem State.setByte_marsState (s : State) (a : Nat) (b : Byte) : (s.setByte a b).marsState = s.marsState := rfl
@[simp] theorem State.setByte_cmwcCarry (s : State) (a : Nat) (b : Byte) : (s.setByte a b).cmwcCarry = s.cmwcCarry := rfl
@[simp] theorem State.setByte_cmwcIndex (s : State) (a : Nat) (b : Byte) : (s.setByte a b).cmwcIndex = s.cmwcIndex := rfl
@[simp] theorem State.setByte_kcount (s : State) (a : Nat) (b : Byte) : (s.setByte a b).kcount = s.kcount := rfl
@[simp] theorem State.setByte_mem (s : State) (a : Nat) (b : Byte) : (s.setByte a b).mem = Memory.write s.mem a b := rfl
@[simp] theorem State.setByte_inReset (s : State) (a : Nat) (b : Byte) : (s.setByte a b).inReset = s.inReset := rfl
@[simp] theorem State.setByte_arrivals (s : State) (a : Nat) (b : Byte) : (s.setByte a b).arrivals = s.arrivals := rfl
@[simp] theorem State.setByte_reply (s : State) (a : Nat) (b : Byte) : (s.setByte a b).reply = s.reply := rfl
@[simp] theorem State.setByte_resets (s : State) (a : Nat) (b : Byte) : (s.setByte a b).resets = s.resets := rfl
@[simp] theorem State.setByte_freeReads (s : State) (a : Nat) (b : Byte) : (s.setByte a b).freeReads = s.freeReads := rfl

/-! ### `State.setWord` -/

@[simp] theorem State.setWord_err (s : State) (a : Nat) (w : Word) : (s.setWord a w).err = s.err := rfl
@[simp] theorem State.setWord_ecode (s : State) (a : Nat) (w : Word) : (s.setWord a w).ecode = s.ecode := rfl
@[simp] theorem State.setWord_cmwcSeeded (s : State) (a : Nat) (w : Word) : (s.setWord a w).cmwcSeeded = s.cmwcSeeded := rfl
@[simp] theorem State.setWord_permReady (s : State) (a : Nat) (w : Word) : (s.setWord a w).permReady = s.permReady := rfl
@[simp] theorem State.setWord_valueReady (s : State) (a : Nat) (w : Word) : (s.setWord a w).valueReady = s.valueReady := rfl
@[simp] theorem State.setWord_inflight (s : State) (a : Nat) (w : Word) : (s.setWord a w).inflight = s.inflight := rfl
@[simp] theorem State.setWord_opaLo (s : State) (a : Nat) (w : Word) : (s.setWord a w).opaLo = s.opaLo := rfl
@[simp] theorem State.setWord_opaHi (s : State) (a : Nat) (w : Word) : (s.setWord a w).opaHi = s.opaHi := rfl
@[simp] theorem State.setWord_opbLo (s : State) (a : Nat) (w : Word) : (s.setWord a w).opbLo = s.opbLo := rfl
@[simp] theorem State.setWord_opbHi (s : State) (a : Nat) (w : Word) : (s.setWord a w).opbHi = s.opbHi := rfl
@[simp] theorem State.setWord_opcLo (s : State) (a : Nat) (w : Word) : (s.setWord a w).opcLo = s.opcLo := rfl
@[simp] theorem State.setWord_opcHi (s : State) (a : Nat) (w : Word) : (s.setWord a w).opcHi = s.opcHi := rfl
@[simp] theorem State.setWord_resLo (s : State) (a : Nat) (w : Word) : (s.setWord a w).resLo = s.resLo := rfl
@[simp] theorem State.setWord_resHi (s : State) (a : Nat) (w : Word) : (s.setWord a w).resHi = s.resHi := rfl
@[simp] theorem State.setWord_xsState (s : State) (a : Nat) (w : Word) : (s.setWord a w).xsState = s.xsState := rfl
@[simp] theorem State.setWord_xsShiftA (s : State) (a : Nat) (w : Word) : (s.setWord a w).xsShiftA = s.xsShiftA := rfl
@[simp] theorem State.setWord_xsShiftB (s : State) (a : Nat) (w : Word) : (s.setWord a w).xsShiftB = s.xsShiftB := rfl
@[simp] theorem State.setWord_xsShiftC (s : State) (a : Nat) (w : Word) : (s.setWord a w).xsShiftC = s.xsShiftC := rfl
@[simp] theorem State.setWord_minstdState (s : State) (a : Nat) (w : Word) : (s.setWord a w).minstdState = s.minstdState := rfl
@[simp] theorem State.setWord_marsState (s : State) (a : Nat) (w : Word) : (s.setWord a w).marsState = s.marsState := rfl
@[simp] theorem State.setWord_cmwcCarry (s : State) (a : Nat) (w : Word) : (s.setWord a w).cmwcCarry = s.cmwcCarry := rfl
@[simp] theorem State.setWord_cmwcIndex (s : State) (a : Nat) (w : Word) : (s.setWord a w).cmwcIndex = s.cmwcIndex := rfl
@[simp] theorem State.setWord_kcount (s : State) (a : Nat) (w : Word) : (s.setWord a w).kcount = s.kcount := rfl
@[simp] theorem State.setWord_mem (s : State) (a : Nat) (w : Word) : (s.setWord a w).mem = Memory.writeWord s.mem a w := rfl
@[simp] theorem State.setWord_inReset (s : State) (a : Nat) (w : Word) : (s.setWord a w).inReset = s.inReset := rfl
@[simp] theorem State.setWord_arrivals (s : State) (a : Nat) (w : Word) : (s.setWord a w).arrivals = s.arrivals := rfl
@[simp] theorem State.setWord_reply (s : State) (a : Nat) (w : Word) : (s.setWord a w).reply = s.reply := rfl
@[simp] theorem State.setWord_resets (s : State) (a : Nat) (w : Word) : (s.setWord a w).resets = s.resets := rfl
@[simp] theorem State.setWord_freeReads (s : State) (a : Nat) (w : Word) : (s.setWord a w).freeReads = s.freeReads := rfl

/-! ### `State.setDword` -/

@[simp] theorem State.setDword_err (s : State) (a : Nat) (d : DWord) : (s.setDword a d).err = s.err := rfl
@[simp] theorem State.setDword_ecode (s : State) (a : Nat) (d : DWord) : (s.setDword a d).ecode = s.ecode := rfl
@[simp] theorem State.setDword_cmwcSeeded (s : State) (a : Nat) (d : DWord) : (s.setDword a d).cmwcSeeded = s.cmwcSeeded := rfl
@[simp] theorem State.setDword_permReady (s : State) (a : Nat) (d : DWord) : (s.setDword a d).permReady = s.permReady := rfl
@[simp] theorem State.setDword_valueReady (s : State) (a : Nat) (d : DWord) : (s.setDword a d).valueReady = s.valueReady := rfl
@[simp] theorem State.setDword_inflight (s : State) (a : Nat) (d : DWord) : (s.setDword a d).inflight = s.inflight := rfl
@[simp] theorem State.setDword_opaLo (s : State) (a : Nat) (d : DWord) : (s.setDword a d).opaLo = s.opaLo := rfl
@[simp] theorem State.setDword_opaHi (s : State) (a : Nat) (d : DWord) : (s.setDword a d).opaHi = s.opaHi := rfl
@[simp] theorem State.setDword_opbLo (s : State) (a : Nat) (d : DWord) : (s.setDword a d).opbLo = s.opbLo := rfl
@[simp] theorem State.setDword_opbHi (s : State) (a : Nat) (d : DWord) : (s.setDword a d).opbHi = s.opbHi := rfl
@[simp] theorem State.setDword_opcLo (s : State) (a : Nat) (d : DWord) : (s.setDword a d).opcLo = s.opcLo := rfl
@[simp] theorem State.setDword_opcHi (s : State) (a : Nat) (d : DWord) : (s.setDword a d).opcHi = s.opcHi := rfl
@[simp] theorem State.setDword_resLo (s : State) (a : Nat) (d : DWord) : (s.setDword a d).resLo = s.resLo := rfl
@[simp] theorem State.setDword_resHi (s : State) (a : Nat) (d : DWord) : (s.setDword a d).resHi = s.resHi := rfl
@[simp] theorem State.setDword_xsState (s : State) (a : Nat) (d : DWord) : (s.setDword a d).xsState = s.xsState := rfl
@[simp] theorem State.setDword_xsShiftA (s : State) (a : Nat) (d : DWord) : (s.setDword a d).xsShiftA = s.xsShiftA := rfl
@[simp] theorem State.setDword_xsShiftB (s : State) (a : Nat) (d : DWord) : (s.setDword a d).xsShiftB = s.xsShiftB := rfl
@[simp] theorem State.setDword_xsShiftC (s : State) (a : Nat) (d : DWord) : (s.setDword a d).xsShiftC = s.xsShiftC := rfl
@[simp] theorem State.setDword_minstdState (s : State) (a : Nat) (d : DWord) : (s.setDword a d).minstdState = s.minstdState := rfl
@[simp] theorem State.setDword_marsState (s : State) (a : Nat) (d : DWord) : (s.setDword a d).marsState = s.marsState := rfl
@[simp] theorem State.setDword_cmwcCarry (s : State) (a : Nat) (d : DWord) : (s.setDword a d).cmwcCarry = s.cmwcCarry := rfl
@[simp] theorem State.setDword_cmwcIndex (s : State) (a : Nat) (d : DWord) : (s.setDword a d).cmwcIndex = s.cmwcIndex := rfl
@[simp] theorem State.setDword_kcount (s : State) (a : Nat) (d : DWord) : (s.setDword a d).kcount = s.kcount := rfl
@[simp] theorem State.setDword_mem (s : State) (a : Nat) (d : DWord) : (s.setDword a d).mem = Memory.writeDword s.mem a d := rfl
@[simp] theorem State.setDword_inReset (s : State) (a : Nat) (d : DWord) : (s.setDword a d).inReset = s.inReset := rfl
@[simp] theorem State.setDword_arrivals (s : State) (a : Nat) (d : DWord) : (s.setDword a d).arrivals = s.arrivals := rfl
@[simp] theorem State.setDword_reply (s : State) (a : Nat) (d : DWord) : (s.setDword a d).reply = s.reply := rfl
@[simp] theorem State.setDword_resets (s : State) (a : Nat) (d : DWord) : (s.setDword a d).resets = s.resets := rfl
@[simp] theorem State.setDword_freeReads (s : State) (a : Nat) (d : DWord) : (s.setDword a d).freeReads = s.freeReads := rfl

/-! ### `State.setPerm` -/

@[simp] theorem State.setPerm_err (s : State) (k : Nat) (w : Word) : (s.setPerm k w).err = s.err := rfl
@[simp] theorem State.setPerm_ecode (s : State) (k : Nat) (w : Word) : (s.setPerm k w).ecode = s.ecode := rfl
@[simp] theorem State.setPerm_cmwcSeeded (s : State) (k : Nat) (w : Word) : (s.setPerm k w).cmwcSeeded = s.cmwcSeeded := rfl
@[simp] theorem State.setPerm_permReady (s : State) (k : Nat) (w : Word) : (s.setPerm k w).permReady = s.permReady := rfl
@[simp] theorem State.setPerm_valueReady (s : State) (k : Nat) (w : Word) : (s.setPerm k w).valueReady = s.valueReady := rfl
@[simp] theorem State.setPerm_inflight (s : State) (k : Nat) (w : Word) : (s.setPerm k w).inflight = s.inflight := rfl
@[simp] theorem State.setPerm_opaLo (s : State) (k : Nat) (w : Word) : (s.setPerm k w).opaLo = s.opaLo := rfl
@[simp] theorem State.setPerm_opaHi (s : State) (k : Nat) (w : Word) : (s.setPerm k w).opaHi = s.opaHi := rfl
@[simp] theorem State.setPerm_opbLo (s : State) (k : Nat) (w : Word) : (s.setPerm k w).opbLo = s.opbLo := rfl
@[simp] theorem State.setPerm_opbHi (s : State) (k : Nat) (w : Word) : (s.setPerm k w).opbHi = s.opbHi := rfl
@[simp] theorem State.setPerm_opcLo (s : State) (k : Nat) (w : Word) : (s.setPerm k w).opcLo = s.opcLo := rfl
@[simp] theorem State.setPerm_opcHi (s : State) (k : Nat) (w : Word) : (s.setPerm k w).opcHi = s.opcHi := rfl
@[simp] theorem State.setPerm_resLo (s : State) (k : Nat) (w : Word) : (s.setPerm k w).resLo = s.resLo := rfl
@[simp] theorem State.setPerm_resHi (s : State) (k : Nat) (w : Word) : (s.setPerm k w).resHi = s.resHi := rfl
@[simp] theorem State.setPerm_xsState (s : State) (k : Nat) (w : Word) : (s.setPerm k w).xsState = s.xsState := rfl
@[simp] theorem State.setPerm_xsShiftA (s : State) (k : Nat) (w : Word) : (s.setPerm k w).xsShiftA = s.xsShiftA := rfl
@[simp] theorem State.setPerm_xsShiftB (s : State) (k : Nat) (w : Word) : (s.setPerm k w).xsShiftB = s.xsShiftB := rfl
@[simp] theorem State.setPerm_xsShiftC (s : State) (k : Nat) (w : Word) : (s.setPerm k w).xsShiftC = s.xsShiftC := rfl
@[simp] theorem State.setPerm_minstdState (s : State) (k : Nat) (w : Word) : (s.setPerm k w).minstdState = s.minstdState := rfl
@[simp] theorem State.setPerm_marsState (s : State) (k : Nat) (w : Word) : (s.setPerm k w).marsState = s.marsState := rfl
@[simp] theorem State.setPerm_cmwcCarry (s : State) (k : Nat) (w : Word) : (s.setPerm k w).cmwcCarry = s.cmwcCarry := rfl
@[simp] theorem State.setPerm_cmwcIndex (s : State) (k : Nat) (w : Word) : (s.setPerm k w).cmwcIndex = s.cmwcIndex := rfl
@[simp] theorem State.setPerm_kcount (s : State) (k : Nat) (w : Word) : (s.setPerm k w).kcount = s.kcount := rfl
@[simp] theorem State.setPerm_mem (s : State) (k : Nat) (w : Word) : (s.setPerm k w).mem = Memory.writeWord s.mem (permOff k) w := rfl
@[simp] theorem State.setPerm_inReset (s : State) (k : Nat) (w : Word) : (s.setPerm k w).inReset = s.inReset := rfl
@[simp] theorem State.setPerm_arrivals (s : State) (k : Nat) (w : Word) : (s.setPerm k w).arrivals = s.arrivals := rfl
@[simp] theorem State.setPerm_reply (s : State) (k : Nat) (w : Word) : (s.setPerm k w).reply = s.reply := rfl
@[simp] theorem State.setPerm_resets (s : State) (k : Nat) (w : Word) : (s.setPerm k w).resets = s.resets := rfl
@[simp] theorem State.setPerm_freeReads (s : State) (k : Nat) (w : Word) : (s.setPerm k w).freeReads = s.freeReads := rfl

/-! ### `State.setValue` -/

@[simp] theorem State.setValue_err (s : State) (k : Nat) (d : DWord) : (s.setValue k d).err = s.err := rfl
@[simp] theorem State.setValue_ecode (s : State) (k : Nat) (d : DWord) : (s.setValue k d).ecode = s.ecode := rfl
@[simp] theorem State.setValue_cmwcSeeded (s : State) (k : Nat) (d : DWord) : (s.setValue k d).cmwcSeeded = s.cmwcSeeded := rfl
@[simp] theorem State.setValue_permReady (s : State) (k : Nat) (d : DWord) : (s.setValue k d).permReady = s.permReady := rfl
@[simp] theorem State.setValue_valueReady (s : State) (k : Nat) (d : DWord) : (s.setValue k d).valueReady = s.valueReady := rfl
@[simp] theorem State.setValue_inflight (s : State) (k : Nat) (d : DWord) : (s.setValue k d).inflight = s.inflight := rfl
@[simp] theorem State.setValue_opaLo (s : State) (k : Nat) (d : DWord) : (s.setValue k d).opaLo = s.opaLo := rfl
@[simp] theorem State.setValue_opaHi (s : State) (k : Nat) (d : DWord) : (s.setValue k d).opaHi = s.opaHi := rfl
@[simp] theorem State.setValue_opbLo (s : State) (k : Nat) (d : DWord) : (s.setValue k d).opbLo = s.opbLo := rfl
@[simp] theorem State.setValue_opbHi (s : State) (k : Nat) (d : DWord) : (s.setValue k d).opbHi = s.opbHi := rfl
@[simp] theorem State.setValue_opcLo (s : State) (k : Nat) (d : DWord) : (s.setValue k d).opcLo = s.opcLo := rfl
@[simp] theorem State.setValue_opcHi (s : State) (k : Nat) (d : DWord) : (s.setValue k d).opcHi = s.opcHi := rfl
@[simp] theorem State.setValue_resLo (s : State) (k : Nat) (d : DWord) : (s.setValue k d).resLo = s.resLo := rfl
@[simp] theorem State.setValue_resHi (s : State) (k : Nat) (d : DWord) : (s.setValue k d).resHi = s.resHi := rfl
@[simp] theorem State.setValue_xsState (s : State) (k : Nat) (d : DWord) : (s.setValue k d).xsState = s.xsState := rfl
@[simp] theorem State.setValue_xsShiftA (s : State) (k : Nat) (d : DWord) : (s.setValue k d).xsShiftA = s.xsShiftA := rfl
@[simp] theorem State.setValue_xsShiftB (s : State) (k : Nat) (d : DWord) : (s.setValue k d).xsShiftB = s.xsShiftB := rfl
@[simp] theorem State.setValue_xsShiftC (s : State) (k : Nat) (d : DWord) : (s.setValue k d).xsShiftC = s.xsShiftC := rfl
@[simp] theorem State.setValue_minstdState (s : State) (k : Nat) (d : DWord) : (s.setValue k d).minstdState = s.minstdState := rfl
@[simp] theorem State.setValue_marsState (s : State) (k : Nat) (d : DWord) : (s.setValue k d).marsState = s.marsState := rfl
@[simp] theorem State.setValue_cmwcCarry (s : State) (k : Nat) (d : DWord) : (s.setValue k d).cmwcCarry = s.cmwcCarry := rfl
@[simp] theorem State.setValue_cmwcIndex (s : State) (k : Nat) (d : DWord) : (s.setValue k d).cmwcIndex = s.cmwcIndex := rfl
@[simp] theorem State.setValue_kcount (s : State) (k : Nat) (d : DWord) : (s.setValue k d).kcount = s.kcount := rfl
@[simp] theorem State.setValue_mem (s : State) (k : Nat) (d : DWord) : (s.setValue k d).mem = Memory.writeDword s.mem (valueOff k) d := rfl
@[simp] theorem State.setValue_inReset (s : State) (k : Nat) (d : DWord) : (s.setValue k d).inReset = s.inReset := rfl
@[simp] theorem State.setValue_arrivals (s : State) (k : Nat) (d : DWord) : (s.setValue k d).arrivals = s.arrivals := rfl
@[simp] theorem State.setValue_reply (s : State) (k : Nat) (d : DWord) : (s.setValue k d).reply = s.reply := rfl
@[simp] theorem State.setValue_resets (s : State) (k : Nat) (d : DWord) : (s.setValue k d).resets = s.resets := rfl
@[simp] theorem State.setValue_freeReads (s : State) (k : Nat) (d : DWord) : (s.setValue k d).freeReads = s.freeReads := rfl

/-! ### `State.setQ` -/

@[simp] theorem State.setQ_err (s : State) (k : Nat) (w : Word) : (s.setQ k w).err = s.err := rfl
@[simp] theorem State.setQ_ecode (s : State) (k : Nat) (w : Word) : (s.setQ k w).ecode = s.ecode := rfl
@[simp] theorem State.setQ_cmwcSeeded (s : State) (k : Nat) (w : Word) : (s.setQ k w).cmwcSeeded = s.cmwcSeeded := rfl
@[simp] theorem State.setQ_permReady (s : State) (k : Nat) (w : Word) : (s.setQ k w).permReady = s.permReady := rfl
@[simp] theorem State.setQ_valueReady (s : State) (k : Nat) (w : Word) : (s.setQ k w).valueReady = s.valueReady := rfl
@[simp] theorem State.setQ_inflight (s : State) (k : Nat) (w : Word) : (s.setQ k w).inflight = s.inflight := rfl
@[simp] theorem State.setQ_opaLo (s : State) (k : Nat) (w : Word) : (s.setQ k w).opaLo = s.opaLo := rfl
@[simp] theorem State.setQ_opaHi (s : State) (k : Nat) (w : Word) : (s.setQ k w).opaHi = s.opaHi := rfl
@[simp] theorem State.setQ_opbLo (s : State) (k : Nat) (w : Word) : (s.setQ k w).opbLo = s.opbLo := rfl
@[simp] theorem State.setQ_opbHi (s : State) (k : Nat) (w : Word) : (s.setQ k w).opbHi = s.opbHi := rfl
@[simp] theorem State.setQ_opcLo (s : State) (k : Nat) (w : Word) : (s.setQ k w).opcLo = s.opcLo := rfl
@[simp] theorem State.setQ_opcHi (s : State) (k : Nat) (w : Word) : (s.setQ k w).opcHi = s.opcHi := rfl
@[simp] theorem State.setQ_resLo (s : State) (k : Nat) (w : Word) : (s.setQ k w).resLo = s.resLo := rfl
@[simp] theorem State.setQ_resHi (s : State) (k : Nat) (w : Word) : (s.setQ k w).resHi = s.resHi := rfl
@[simp] theorem State.setQ_xsState (s : State) (k : Nat) (w : Word) : (s.setQ k w).xsState = s.xsState := rfl
@[simp] theorem State.setQ_xsShiftA (s : State) (k : Nat) (w : Word) : (s.setQ k w).xsShiftA = s.xsShiftA := rfl
@[simp] theorem State.setQ_xsShiftB (s : State) (k : Nat) (w : Word) : (s.setQ k w).xsShiftB = s.xsShiftB := rfl
@[simp] theorem State.setQ_xsShiftC (s : State) (k : Nat) (w : Word) : (s.setQ k w).xsShiftC = s.xsShiftC := rfl
@[simp] theorem State.setQ_minstdState (s : State) (k : Nat) (w : Word) : (s.setQ k w).minstdState = s.minstdState := rfl
@[simp] theorem State.setQ_marsState (s : State) (k : Nat) (w : Word) : (s.setQ k w).marsState = s.marsState := rfl
@[simp] theorem State.setQ_cmwcCarry (s : State) (k : Nat) (w : Word) : (s.setQ k w).cmwcCarry = s.cmwcCarry := rfl
@[simp] theorem State.setQ_cmwcIndex (s : State) (k : Nat) (w : Word) : (s.setQ k w).cmwcIndex = s.cmwcIndex := rfl
@[simp] theorem State.setQ_kcount (s : State) (k : Nat) (w : Word) : (s.setQ k w).kcount = s.kcount := rfl
@[simp] theorem State.setQ_mem (s : State) (k : Nat) (w : Word) : (s.setQ k w).mem = Memory.writeWord s.mem (qOff k) w := rfl
@[simp] theorem State.setQ_inReset (s : State) (k : Nat) (w : Word) : (s.setQ k w).inReset = s.inReset := rfl
@[simp] theorem State.setQ_arrivals (s : State) (k : Nat) (w : Word) : (s.setQ k w).arrivals = s.arrivals := rfl
@[simp] theorem State.setQ_reply (s : State) (k : Nat) (w : Word) : (s.setQ k w).reply = s.reply := rfl
@[simp] theorem State.setQ_resets (s : State) (k : Nat) (w : Word) : (s.setQ k w).resets = s.resets := rfl
@[simp] theorem State.setQ_freeReads (s : State) (k : Nat) (w : Word) : (s.setQ k w).freeReads = s.freeReads := rfl

/-! ### `State.swapPerm` -/

@[simp] theorem State.swapPerm_err (s : State) (i j : Nat) : (s.swapPerm i j).err = s.err := rfl
@[simp] theorem State.swapPerm_ecode (s : State) (i j : Nat) : (s.swapPerm i j).ecode = s.ecode := rfl
@[simp] theorem State.swapPerm_cmwcSeeded (s : State) (i j : Nat) : (s.swapPerm i j).cmwcSeeded = s.cmwcSeeded := rfl
@[simp] theorem State.swapPerm_permReady (s : State) (i j : Nat) : (s.swapPerm i j).permReady = s.permReady := rfl
@[simp] theorem State.swapPerm_valueReady (s : State) (i j : Nat) : (s.swapPerm i j).valueReady = s.valueReady := rfl
@[simp] theorem State.swapPerm_inflight (s : State) (i j : Nat) : (s.swapPerm i j).inflight = s.inflight := rfl
@[simp] theorem State.swapPerm_opaLo (s : State) (i j : Nat) : (s.swapPerm i j).opaLo = s.opaLo := rfl
@[simp] theorem State.swapPerm_opaHi (s : State) (i j : Nat) : (s.swapPerm i j).opaHi = s.opaHi := rfl
@[simp] theorem State.swapPerm_opbLo (s : State) (i j : Nat) : (s.swapPerm i j).opbLo = s.opbLo := rfl
@[simp] theorem State.swapPerm_opbHi (s : State) (i j : Nat) : (s.swapPerm i j).opbHi = s.opbHi := rfl
@[simp] theorem State.swapPerm_opcLo (s : State) (i j : Nat) : (s.swapPerm i j).opcLo = s.opcLo := rfl
@[simp] theorem State.swapPerm_opcHi (s : State) (i j : Nat) : (s.swapPerm i j).opcHi = s.opcHi := rfl
@[simp] theorem State.swapPerm_resLo (s : State) (i j : Nat) : (s.swapPerm i j).resLo = s.resLo := rfl
@[simp] theorem State.swapPerm_resHi (s : State) (i j : Nat) : (s.swapPerm i j).resHi = s.resHi := rfl
@[simp] theorem State.swapPerm_xsState (s : State) (i j : Nat) : (s.swapPerm i j).xsState = s.xsState := rfl
@[simp] theorem State.swapPerm_xsShiftA (s : State) (i j : Nat) : (s.swapPerm i j).xsShiftA = s.xsShiftA := rfl
@[simp] theorem State.swapPerm_xsShiftB (s : State) (i j : Nat) : (s.swapPerm i j).xsShiftB = s.xsShiftB := rfl
@[simp] theorem State.swapPerm_xsShiftC (s : State) (i j : Nat) : (s.swapPerm i j).xsShiftC = s.xsShiftC := rfl
@[simp] theorem State.swapPerm_minstdState (s : State) (i j : Nat) : (s.swapPerm i j).minstdState = s.minstdState := rfl
@[simp] theorem State.swapPerm_marsState (s : State) (i j : Nat) : (s.swapPerm i j).marsState = s.marsState := rfl
@[simp] theorem State.swapPerm_cmwcCarry (s : State) (i j : Nat) : (s.swapPerm i j).cmwcCarry = s.cmwcCarry := rfl
@[simp] theorem State.swapPerm_cmwcIndex (s : State) (i j : Nat) : (s.swapPerm i j).cmwcIndex = s.cmwcIndex := rfl
@[simp] theorem State.swapPerm_kcount (s : State) (i j : Nat) : (s.swapPerm i j).kcount = s.kcount := rfl
@[simp] theorem State.swapPerm_mem (s : State) (i j : Nat) : (s.swapPerm i j).mem = Memory.writeWord (Memory.writeWord s.mem (permOff i) (s.perm j)) (permOff j) (s.perm i) := rfl
@[simp] theorem State.swapPerm_inReset (s : State) (i j : Nat) : (s.swapPerm i j).inReset = s.inReset := rfl
@[simp] theorem State.swapPerm_arrivals (s : State) (i j : Nat) : (s.swapPerm i j).arrivals = s.arrivals := rfl
@[simp] theorem State.swapPerm_reply (s : State) (i j : Nat) : (s.swapPerm i j).reply = s.reply := rfl
@[simp] theorem State.swapPerm_resets (s : State) (i j : Nat) : (s.swapPerm i j).resets = s.resets := rfl
@[simp] theorem State.swapPerm_freeReads (s : State) (i j : Nat) : (s.swapPerm i j).freeReads = s.freeReads := rfl

/-! ### `State.fillIdentity` -/

@[simp] theorem State.fillIdentity_err (s : State) : s.fillIdentity.err = s.err := by simp only [State.fillIdentity]
@[simp] theorem State.fillIdentity_ecode (s : State) : s.fillIdentity.ecode = s.ecode := by simp only [State.fillIdentity]
@[simp] theorem State.fillIdentity_cmwcSeeded (s : State) : s.fillIdentity.cmwcSeeded = s.cmwcSeeded := by simp only [State.fillIdentity]
@[simp] theorem State.fillIdentity_permReady (s : State) : s.fillIdentity.permReady = s.permReady := by simp only [State.fillIdentity]
@[simp] theorem State.fillIdentity_valueReady (s : State) : s.fillIdentity.valueReady = s.valueReady := by simp only [State.fillIdentity]
@[simp] theorem State.fillIdentity_inflight (s : State) : s.fillIdentity.inflight = s.inflight := by simp only [State.fillIdentity]
@[simp] theorem State.fillIdentity_opaLo (s : State) : s.fillIdentity.opaLo = s.opaLo := by simp only [State.fillIdentity]
@[simp] theorem State.fillIdentity_opaHi (s : State) : s.fillIdentity.opaHi = s.opaHi := by simp only [State.fillIdentity]
@[simp] theorem State.fillIdentity_opbLo (s : State) : s.fillIdentity.opbLo = s.opbLo := by simp only [State.fillIdentity]
@[simp] theorem State.fillIdentity_opbHi (s : State) : s.fillIdentity.opbHi = s.opbHi := by simp only [State.fillIdentity]
@[simp] theorem State.fillIdentity_opcLo (s : State) : s.fillIdentity.opcLo = s.opcLo := by simp only [State.fillIdentity]
@[simp] theorem State.fillIdentity_opcHi (s : State) : s.fillIdentity.opcHi = s.opcHi := by simp only [State.fillIdentity]
@[simp] theorem State.fillIdentity_resLo (s : State) : s.fillIdentity.resLo = s.resLo := by simp only [State.fillIdentity]
@[simp] theorem State.fillIdentity_resHi (s : State) : s.fillIdentity.resHi = s.resHi := by simp only [State.fillIdentity]
@[simp] theorem State.fillIdentity_xsState (s : State) : s.fillIdentity.xsState = s.xsState := by simp only [State.fillIdentity]
@[simp] theorem State.fillIdentity_xsShiftA (s : State) : s.fillIdentity.xsShiftA = s.xsShiftA := by simp only [State.fillIdentity]
@[simp] theorem State.fillIdentity_xsShiftB (s : State) : s.fillIdentity.xsShiftB = s.xsShiftB := by simp only [State.fillIdentity]
@[simp] theorem State.fillIdentity_xsShiftC (s : State) : s.fillIdentity.xsShiftC = s.xsShiftC := by simp only [State.fillIdentity]
@[simp] theorem State.fillIdentity_minstdState (s : State) : s.fillIdentity.minstdState = s.minstdState := by simp only [State.fillIdentity]
@[simp] theorem State.fillIdentity_marsState (s : State) : s.fillIdentity.marsState = s.marsState := by simp only [State.fillIdentity]
@[simp] theorem State.fillIdentity_cmwcCarry (s : State) : s.fillIdentity.cmwcCarry = s.cmwcCarry := by simp only [State.fillIdentity]
@[simp] theorem State.fillIdentity_cmwcIndex (s : State) : s.fillIdentity.cmwcIndex = s.cmwcIndex := by simp only [State.fillIdentity]
@[simp] theorem State.fillIdentity_kcount (s : State) : s.fillIdentity.kcount = s.kcount := by simp only [State.fillIdentity]
@[simp] theorem State.fillIdentity_mem (s : State) : s.fillIdentity.mem = identityPerm Config.permN s.mem := by simp only [State.fillIdentity]
@[simp] theorem State.fillIdentity_inReset (s : State) : s.fillIdentity.inReset = s.inReset := by simp only [State.fillIdentity]
@[simp] theorem State.fillIdentity_arrivals (s : State) : s.fillIdentity.arrivals = s.arrivals := by simp only [State.fillIdentity]
@[simp] theorem State.fillIdentity_reply (s : State) : s.fillIdentity.reply = s.reply := by simp only [State.fillIdentity]
@[simp] theorem State.fillIdentity_resets (s : State) : s.fillIdentity.resets = s.resets := by simp only [State.fillIdentity]
@[simp] theorem State.fillIdentity_freeReads (s : State) : s.fillIdentity.freeReads = s.freeReads := by simp only [State.fillIdentity]

/-! ### `State.setResU32` -/

@[simp] theorem State.setResU32_err (s : State) (v : Word) : (s.setResU32 v).err = s.err := rfl
@[simp] theorem State.setResU32_ecode (s : State) (v : Word) : (s.setResU32 v).ecode = s.ecode := rfl
@[simp] theorem State.setResU32_cmwcSeeded (s : State) (v : Word) : (s.setResU32 v).cmwcSeeded = s.cmwcSeeded := rfl
@[simp] theorem State.setResU32_permReady (s : State) (v : Word) : (s.setResU32 v).permReady = s.permReady := rfl
@[simp] theorem State.setResU32_valueReady (s : State) (v : Word) : (s.setResU32 v).valueReady = s.valueReady := rfl
@[simp] theorem State.setResU32_inflight (s : State) (v : Word) : (s.setResU32 v).inflight = s.inflight := rfl
@[simp] theorem State.setResU32_opaLo (s : State) (v : Word) : (s.setResU32 v).opaLo = s.opaLo := rfl
@[simp] theorem State.setResU32_opaHi (s : State) (v : Word) : (s.setResU32 v).opaHi = s.opaHi := rfl
@[simp] theorem State.setResU32_opbLo (s : State) (v : Word) : (s.setResU32 v).opbLo = s.opbLo := rfl
@[simp] theorem State.setResU32_opbHi (s : State) (v : Word) : (s.setResU32 v).opbHi = s.opbHi := rfl
@[simp] theorem State.setResU32_opcLo (s : State) (v : Word) : (s.setResU32 v).opcLo = s.opcLo := rfl
@[simp] theorem State.setResU32_opcHi (s : State) (v : Word) : (s.setResU32 v).opcHi = s.opcHi := rfl
@[simp] theorem State.setResU32_resLo (s : State) (v : Word) : (s.setResU32 v).resLo = v := rfl
@[simp] theorem State.setResU32_resHi (s : State) (v : Word) : (s.setResU32 v).resHi = 0#32 := rfl
@[simp] theorem State.setResU32_xsState (s : State) (v : Word) : (s.setResU32 v).xsState = s.xsState := rfl
@[simp] theorem State.setResU32_xsShiftA (s : State) (v : Word) : (s.setResU32 v).xsShiftA = s.xsShiftA := rfl
@[simp] theorem State.setResU32_xsShiftB (s : State) (v : Word) : (s.setResU32 v).xsShiftB = s.xsShiftB := rfl
@[simp] theorem State.setResU32_xsShiftC (s : State) (v : Word) : (s.setResU32 v).xsShiftC = s.xsShiftC := rfl
@[simp] theorem State.setResU32_minstdState (s : State) (v : Word) : (s.setResU32 v).minstdState = s.minstdState := rfl
@[simp] theorem State.setResU32_marsState (s : State) (v : Word) : (s.setResU32 v).marsState = s.marsState := rfl
@[simp] theorem State.setResU32_cmwcCarry (s : State) (v : Word) : (s.setResU32 v).cmwcCarry = s.cmwcCarry := rfl
@[simp] theorem State.setResU32_cmwcIndex (s : State) (v : Word) : (s.setResU32 v).cmwcIndex = s.cmwcIndex := rfl
@[simp] theorem State.setResU32_kcount (s : State) (v : Word) : (s.setResU32 v).kcount = s.kcount := rfl
@[simp] theorem State.setResU32_mem (s : State) (v : Word) : (s.setResU32 v).mem = s.mem := rfl
@[simp] theorem State.setResU32_inReset (s : State) (v : Word) : (s.setResU32 v).inReset = s.inReset := rfl
@[simp] theorem State.setResU32_arrivals (s : State) (v : Word) : (s.setResU32 v).arrivals = s.arrivals := rfl
@[simp] theorem State.setResU32_reply (s : State) (v : Word) : (s.setResU32 v).reply = s.reply := rfl
@[simp] theorem State.setResU32_resets (s : State) (v : Word) : (s.setResU32 v).resets = s.resets := rfl
@[simp] theorem State.setResU32_freeReads (s : State) (v : Word) : (s.setResU32 v).freeReads = s.freeReads := rfl

/-! ### `State.setResF64` -/

@[simp] theorem State.setResF64_err (s : State) (d : DWord) : (s.setResF64 d).err = s.err := rfl
@[simp] theorem State.setResF64_ecode (s : State) (d : DWord) : (s.setResF64 d).ecode = s.ecode := rfl
@[simp] theorem State.setResF64_cmwcSeeded (s : State) (d : DWord) : (s.setResF64 d).cmwcSeeded = s.cmwcSeeded := rfl
@[simp] theorem State.setResF64_permReady (s : State) (d : DWord) : (s.setResF64 d).permReady = s.permReady := rfl
@[simp] theorem State.setResF64_valueReady (s : State) (d : DWord) : (s.setResF64 d).valueReady = s.valueReady := rfl
@[simp] theorem State.setResF64_inflight (s : State) (d : DWord) : (s.setResF64 d).inflight = s.inflight := rfl
@[simp] theorem State.setResF64_opaLo (s : State) (d : DWord) : (s.setResF64 d).opaLo = s.opaLo := rfl
@[simp] theorem State.setResF64_opaHi (s : State) (d : DWord) : (s.setResF64 d).opaHi = s.opaHi := rfl
@[simp] theorem State.setResF64_opbLo (s : State) (d : DWord) : (s.setResF64 d).opbLo = s.opbLo := rfl
@[simp] theorem State.setResF64_opbHi (s : State) (d : DWord) : (s.setResF64 d).opbHi = s.opbHi := rfl
@[simp] theorem State.setResF64_opcLo (s : State) (d : DWord) : (s.setResF64 d).opcLo = s.opcLo := rfl
@[simp] theorem State.setResF64_opcHi (s : State) (d : DWord) : (s.setResF64 d).opcHi = s.opcHi := rfl
@[simp] theorem State.setResF64_resLo (s : State) (d : DWord) : (s.setResF64 d).resLo = loWord d := rfl
@[simp] theorem State.setResF64_resHi (s : State) (d : DWord) : (s.setResF64 d).resHi = hiWord d := rfl
@[simp] theorem State.setResF64_xsState (s : State) (d : DWord) : (s.setResF64 d).xsState = s.xsState := rfl
@[simp] theorem State.setResF64_xsShiftA (s : State) (d : DWord) : (s.setResF64 d).xsShiftA = s.xsShiftA := rfl
@[simp] theorem State.setResF64_xsShiftB (s : State) (d : DWord) : (s.setResF64 d).xsShiftB = s.xsShiftB := rfl
@[simp] theorem State.setResF64_xsShiftC (s : State) (d : DWord) : (s.setResF64 d).xsShiftC = s.xsShiftC := rfl
@[simp] theorem State.setResF64_minstdState (s : State) (d : DWord) : (s.setResF64 d).minstdState = s.minstdState := rfl
@[simp] theorem State.setResF64_marsState (s : State) (d : DWord) : (s.setResF64 d).marsState = s.marsState := rfl
@[simp] theorem State.setResF64_cmwcCarry (s : State) (d : DWord) : (s.setResF64 d).cmwcCarry = s.cmwcCarry := rfl
@[simp] theorem State.setResF64_cmwcIndex (s : State) (d : DWord) : (s.setResF64 d).cmwcIndex = s.cmwcIndex := rfl
@[simp] theorem State.setResF64_kcount (s : State) (d : DWord) : (s.setResF64 d).kcount = s.kcount := rfl
@[simp] theorem State.setResF64_mem (s : State) (d : DWord) : (s.setResF64 d).mem = s.mem := rfl
@[simp] theorem State.setResF64_inReset (s : State) (d : DWord) : (s.setResF64 d).inReset = s.inReset := rfl
@[simp] theorem State.setResF64_arrivals (s : State) (d : DWord) : (s.setResF64 d).arrivals = s.arrivals := rfl
@[simp] theorem State.setResF64_reply (s : State) (d : DWord) : (s.setResF64 d).reply = s.reply := rfl
@[simp] theorem State.setResF64_resets (s : State) (d : DWord) : (s.setResF64 d).resets = s.resets := rfl
@[simp] theorem State.setResF64_freeReads (s : State) (d : DWord) : (s.setResF64 d).freeReads = s.freeReads := rfl

/-! ### `State.recordError` -/

@[simp] theorem State.recordError_err (s : State) (k : ErrorCode) : (s.recordError k).err = true := rfl
@[simp] theorem State.recordError_ecode (s : State) (k : ErrorCode) : (s.recordError k).ecode = if s.err then s.ecode else k.code := rfl
@[simp] theorem State.recordError_cmwcSeeded (s : State) (k : ErrorCode) : (s.recordError k).cmwcSeeded = s.cmwcSeeded := rfl
@[simp] theorem State.recordError_permReady (s : State) (k : ErrorCode) : (s.recordError k).permReady = s.permReady := rfl
@[simp] theorem State.recordError_valueReady (s : State) (k : ErrorCode) : (s.recordError k).valueReady = s.valueReady := rfl
@[simp] theorem State.recordError_inflight (s : State) (k : ErrorCode) : (s.recordError k).inflight = s.inflight := rfl
@[simp] theorem State.recordError_opaLo (s : State) (k : ErrorCode) : (s.recordError k).opaLo = s.opaLo := rfl
@[simp] theorem State.recordError_opaHi (s : State) (k : ErrorCode) : (s.recordError k).opaHi = s.opaHi := rfl
@[simp] theorem State.recordError_opbLo (s : State) (k : ErrorCode) : (s.recordError k).opbLo = s.opbLo := rfl
@[simp] theorem State.recordError_opbHi (s : State) (k : ErrorCode) : (s.recordError k).opbHi = s.opbHi := rfl
@[simp] theorem State.recordError_opcLo (s : State) (k : ErrorCode) : (s.recordError k).opcLo = s.opcLo := rfl
@[simp] theorem State.recordError_opcHi (s : State) (k : ErrorCode) : (s.recordError k).opcHi = s.opcHi := rfl
@[simp] theorem State.recordError_resLo (s : State) (k : ErrorCode) : (s.recordError k).resLo = s.resLo := rfl
@[simp] theorem State.recordError_resHi (s : State) (k : ErrorCode) : (s.recordError k).resHi = s.resHi := rfl
@[simp] theorem State.recordError_xsState (s : State) (k : ErrorCode) : (s.recordError k).xsState = s.xsState := rfl
@[simp] theorem State.recordError_xsShiftA (s : State) (k : ErrorCode) : (s.recordError k).xsShiftA = s.xsShiftA := rfl
@[simp] theorem State.recordError_xsShiftB (s : State) (k : ErrorCode) : (s.recordError k).xsShiftB = s.xsShiftB := rfl
@[simp] theorem State.recordError_xsShiftC (s : State) (k : ErrorCode) : (s.recordError k).xsShiftC = s.xsShiftC := rfl
@[simp] theorem State.recordError_minstdState (s : State) (k : ErrorCode) : (s.recordError k).minstdState = s.minstdState := rfl
@[simp] theorem State.recordError_marsState (s : State) (k : ErrorCode) : (s.recordError k).marsState = s.marsState := rfl
@[simp] theorem State.recordError_cmwcCarry (s : State) (k : ErrorCode) : (s.recordError k).cmwcCarry = s.cmwcCarry := rfl
@[simp] theorem State.recordError_cmwcIndex (s : State) (k : ErrorCode) : (s.recordError k).cmwcIndex = s.cmwcIndex := rfl
@[simp] theorem State.recordError_kcount (s : State) (k : ErrorCode) : (s.recordError k).kcount = s.kcount := rfl
@[simp] theorem State.recordError_mem (s : State) (k : ErrorCode) : (s.recordError k).mem = s.mem := rfl
@[simp] theorem State.recordError_inReset (s : State) (k : ErrorCode) : (s.recordError k).inReset = s.inReset := rfl
@[simp] theorem State.recordError_arrivals (s : State) (k : ErrorCode) : (s.recordError k).arrivals = s.arrivals := rfl
@[simp] theorem State.recordError_reply (s : State) (k : ErrorCode) : (s.recordError k).reply = s.reply := rfl
@[simp] theorem State.recordError_resets (s : State) (k : ErrorCode) : (s.recordError k).resets = s.resets := rfl
@[simp] theorem State.recordError_freeReads (s : State) (k : ErrorCode) : (s.recordError k).freeReads = s.freeReads := rfl

/-! ### `State.clearError` -/

@[simp] theorem State.clearError_err (s : State) : s.clearError.err = false := rfl
@[simp] theorem State.clearError_ecode (s : State) : s.clearError.ecode = 0#4 := rfl
@[simp] theorem State.clearError_cmwcSeeded (s : State) : s.clearError.cmwcSeeded = s.cmwcSeeded := rfl
@[simp] theorem State.clearError_permReady (s : State) : s.clearError.permReady = s.permReady := rfl
@[simp] theorem State.clearError_valueReady (s : State) : s.clearError.valueReady = s.valueReady := rfl
@[simp] theorem State.clearError_inflight (s : State) : s.clearError.inflight = s.inflight := rfl
@[simp] theorem State.clearError_opaLo (s : State) : s.clearError.opaLo = s.opaLo := rfl
@[simp] theorem State.clearError_opaHi (s : State) : s.clearError.opaHi = s.opaHi := rfl
@[simp] theorem State.clearError_opbLo (s : State) : s.clearError.opbLo = s.opbLo := rfl
@[simp] theorem State.clearError_opbHi (s : State) : s.clearError.opbHi = s.opbHi := rfl
@[simp] theorem State.clearError_opcLo (s : State) : s.clearError.opcLo = s.opcLo := rfl
@[simp] theorem State.clearError_opcHi (s : State) : s.clearError.opcHi = s.opcHi := rfl
@[simp] theorem State.clearError_resLo (s : State) : s.clearError.resLo = s.resLo := rfl
@[simp] theorem State.clearError_resHi (s : State) : s.clearError.resHi = s.resHi := rfl
@[simp] theorem State.clearError_xsState (s : State) : s.clearError.xsState = s.xsState := rfl
@[simp] theorem State.clearError_xsShiftA (s : State) : s.clearError.xsShiftA = s.xsShiftA := rfl
@[simp] theorem State.clearError_xsShiftB (s : State) : s.clearError.xsShiftB = s.xsShiftB := rfl
@[simp] theorem State.clearError_xsShiftC (s : State) : s.clearError.xsShiftC = s.xsShiftC := rfl
@[simp] theorem State.clearError_minstdState (s : State) : s.clearError.minstdState = s.minstdState := rfl
@[simp] theorem State.clearError_marsState (s : State) : s.clearError.marsState = s.marsState := rfl
@[simp] theorem State.clearError_cmwcCarry (s : State) : s.clearError.cmwcCarry = s.cmwcCarry := rfl
@[simp] theorem State.clearError_cmwcIndex (s : State) : s.clearError.cmwcIndex = s.cmwcIndex := rfl
@[simp] theorem State.clearError_kcount (s : State) : s.clearError.kcount = s.kcount := rfl
@[simp] theorem State.clearError_mem (s : State) : s.clearError.mem = s.mem := rfl
@[simp] theorem State.clearError_inReset (s : State) : s.clearError.inReset = s.inReset := rfl
@[simp] theorem State.clearError_arrivals (s : State) : s.clearError.arrivals = s.arrivals := rfl
@[simp] theorem State.clearError_reply (s : State) : s.clearError.reply = s.reply := rfl
@[simp] theorem State.clearError_resets (s : State) : s.clearError.resets = s.resets := rfl
@[simp] theorem State.clearError_freeReads (s : State) : s.clearError.freeReads = s.freeReads := rfl

/-! ### `State.begin` -/

@[simp] theorem State.begin_err (s : State) (i : Instr) : (s.begin i).err = s.err := rfl
@[simp] theorem State.begin_ecode (s : State) (i : Instr) : (s.begin i).ecode = s.ecode := rfl
@[simp] theorem State.begin_cmwcSeeded (s : State) (i : Instr) : (s.begin i).cmwcSeeded = s.cmwcSeeded := rfl
@[simp] theorem State.begin_permReady (s : State) (i : Instr) : (s.begin i).permReady = s.permReady := rfl
@[simp] theorem State.begin_valueReady (s : State) (i : Instr) : (s.begin i).valueReady = s.valueReady := rfl
@[simp] theorem State.begin_inflight (s : State) (i : Instr) : (s.begin i).inflight = some ⟨i, s.operands⟩ := rfl
@[simp] theorem State.begin_opaLo (s : State) (i : Instr) : (s.begin i).opaLo = s.opaLo := rfl
@[simp] theorem State.begin_opaHi (s : State) (i : Instr) : (s.begin i).opaHi = s.opaHi := rfl
@[simp] theorem State.begin_opbLo (s : State) (i : Instr) : (s.begin i).opbLo = s.opbLo := rfl
@[simp] theorem State.begin_opbHi (s : State) (i : Instr) : (s.begin i).opbHi = s.opbHi := rfl
@[simp] theorem State.begin_opcLo (s : State) (i : Instr) : (s.begin i).opcLo = s.opcLo := rfl
@[simp] theorem State.begin_opcHi (s : State) (i : Instr) : (s.begin i).opcHi = s.opcHi := rfl
@[simp] theorem State.begin_resLo (s : State) (i : Instr) : (s.begin i).resLo = s.resLo := rfl
@[simp] theorem State.begin_resHi (s : State) (i : Instr) : (s.begin i).resHi = s.resHi := rfl
@[simp] theorem State.begin_xsState (s : State) (i : Instr) : (s.begin i).xsState = s.xsState := rfl
@[simp] theorem State.begin_xsShiftA (s : State) (i : Instr) : (s.begin i).xsShiftA = s.xsShiftA := rfl
@[simp] theorem State.begin_xsShiftB (s : State) (i : Instr) : (s.begin i).xsShiftB = s.xsShiftB := rfl
@[simp] theorem State.begin_xsShiftC (s : State) (i : Instr) : (s.begin i).xsShiftC = s.xsShiftC := rfl
@[simp] theorem State.begin_minstdState (s : State) (i : Instr) : (s.begin i).minstdState = s.minstdState := rfl
@[simp] theorem State.begin_marsState (s : State) (i : Instr) : (s.begin i).marsState = s.marsState := rfl
@[simp] theorem State.begin_cmwcCarry (s : State) (i : Instr) : (s.begin i).cmwcCarry = s.cmwcCarry := rfl
@[simp] theorem State.begin_cmwcIndex (s : State) (i : Instr) : (s.begin i).cmwcIndex = s.cmwcIndex := rfl
@[simp] theorem State.begin_kcount (s : State) (i : Instr) : (s.begin i).kcount = s.kcount := rfl
@[simp] theorem State.begin_mem (s : State) (i : Instr) : (s.begin i).mem = s.mem := rfl
@[simp] theorem State.begin_inReset (s : State) (i : Instr) : (s.begin i).inReset = s.inReset := rfl
@[simp] theorem State.begin_arrivals (s : State) (i : Instr) : (s.begin i).arrivals = s.arrivals := rfl
@[simp] theorem State.begin_reply (s : State) (i : Instr) : (s.begin i).reply = s.reply := rfl
@[simp] theorem State.begin_resets (s : State) (i : Instr) : (s.begin i).resets = s.resets := rfl
@[simp] theorem State.begin_freeReads (s : State) (i : Instr) : (s.begin i).freeReads = s.freeReads := rfl

/-! ### `State.setPermReady` -/

@[simp] theorem State.setPermReady_err (s : State) : s.setPermReady.err = s.err := rfl
@[simp] theorem State.setPermReady_ecode (s : State) : s.setPermReady.ecode = s.ecode := rfl
@[simp] theorem State.setPermReady_cmwcSeeded (s : State) : s.setPermReady.cmwcSeeded = s.cmwcSeeded := rfl
@[simp] theorem State.setPermReady_permReady (s : State) : s.setPermReady.permReady = true := rfl
@[simp] theorem State.setPermReady_valueReady (s : State) : s.setPermReady.valueReady = s.valueReady := rfl
@[simp] theorem State.setPermReady_inflight (s : State) : s.setPermReady.inflight = s.inflight := rfl
@[simp] theorem State.setPermReady_opaLo (s : State) : s.setPermReady.opaLo = s.opaLo := rfl
@[simp] theorem State.setPermReady_opaHi (s : State) : s.setPermReady.opaHi = s.opaHi := rfl
@[simp] theorem State.setPermReady_opbLo (s : State) : s.setPermReady.opbLo = s.opbLo := rfl
@[simp] theorem State.setPermReady_opbHi (s : State) : s.setPermReady.opbHi = s.opbHi := rfl
@[simp] theorem State.setPermReady_opcLo (s : State) : s.setPermReady.opcLo = s.opcLo := rfl
@[simp] theorem State.setPermReady_opcHi (s : State) : s.setPermReady.opcHi = s.opcHi := rfl
@[simp] theorem State.setPermReady_resLo (s : State) : s.setPermReady.resLo = s.resLo := rfl
@[simp] theorem State.setPermReady_resHi (s : State) : s.setPermReady.resHi = s.resHi := rfl
@[simp] theorem State.setPermReady_xsState (s : State) : s.setPermReady.xsState = s.xsState := rfl
@[simp] theorem State.setPermReady_xsShiftA (s : State) : s.setPermReady.xsShiftA = s.xsShiftA := rfl
@[simp] theorem State.setPermReady_xsShiftB (s : State) : s.setPermReady.xsShiftB = s.xsShiftB := rfl
@[simp] theorem State.setPermReady_xsShiftC (s : State) : s.setPermReady.xsShiftC = s.xsShiftC := rfl
@[simp] theorem State.setPermReady_minstdState (s : State) : s.setPermReady.minstdState = s.minstdState := rfl
@[simp] theorem State.setPermReady_marsState (s : State) : s.setPermReady.marsState = s.marsState := rfl
@[simp] theorem State.setPermReady_cmwcCarry (s : State) : s.setPermReady.cmwcCarry = s.cmwcCarry := rfl
@[simp] theorem State.setPermReady_cmwcIndex (s : State) : s.setPermReady.cmwcIndex = s.cmwcIndex := rfl
@[simp] theorem State.setPermReady_kcount (s : State) : s.setPermReady.kcount = s.kcount := rfl
@[simp] theorem State.setPermReady_mem (s : State) : s.setPermReady.mem = s.mem := rfl
@[simp] theorem State.setPermReady_inReset (s : State) : s.setPermReady.inReset = s.inReset := rfl
@[simp] theorem State.setPermReady_arrivals (s : State) : s.setPermReady.arrivals = s.arrivals := rfl
@[simp] theorem State.setPermReady_reply (s : State) : s.setPermReady.reply = s.reply := rfl
@[simp] theorem State.setPermReady_resets (s : State) : s.setPermReady.resets = s.resets := rfl
@[simp] theorem State.setPermReady_freeReads (s : State) : s.setPermReady.freeReads = s.freeReads := rfl

/-! ### `State.clearPermReady` -/

@[simp] theorem State.clearPermReady_err (s : State) : s.clearPermReady.err = s.err := rfl
@[simp] theorem State.clearPermReady_ecode (s : State) : s.clearPermReady.ecode = s.ecode := rfl
@[simp] theorem State.clearPermReady_cmwcSeeded (s : State) : s.clearPermReady.cmwcSeeded = s.cmwcSeeded := rfl
@[simp] theorem State.clearPermReady_permReady (s : State) : s.clearPermReady.permReady = false := rfl
@[simp] theorem State.clearPermReady_valueReady (s : State) : s.clearPermReady.valueReady = s.valueReady := rfl
@[simp] theorem State.clearPermReady_inflight (s : State) : s.clearPermReady.inflight = s.inflight := rfl
@[simp] theorem State.clearPermReady_opaLo (s : State) : s.clearPermReady.opaLo = s.opaLo := rfl
@[simp] theorem State.clearPermReady_opaHi (s : State) : s.clearPermReady.opaHi = s.opaHi := rfl
@[simp] theorem State.clearPermReady_opbLo (s : State) : s.clearPermReady.opbLo = s.opbLo := rfl
@[simp] theorem State.clearPermReady_opbHi (s : State) : s.clearPermReady.opbHi = s.opbHi := rfl
@[simp] theorem State.clearPermReady_opcLo (s : State) : s.clearPermReady.opcLo = s.opcLo := rfl
@[simp] theorem State.clearPermReady_opcHi (s : State) : s.clearPermReady.opcHi = s.opcHi := rfl
@[simp] theorem State.clearPermReady_resLo (s : State) : s.clearPermReady.resLo = s.resLo := rfl
@[simp] theorem State.clearPermReady_resHi (s : State) : s.clearPermReady.resHi = s.resHi := rfl
@[simp] theorem State.clearPermReady_xsState (s : State) : s.clearPermReady.xsState = s.xsState := rfl
@[simp] theorem State.clearPermReady_xsShiftA (s : State) : s.clearPermReady.xsShiftA = s.xsShiftA := rfl
@[simp] theorem State.clearPermReady_xsShiftB (s : State) : s.clearPermReady.xsShiftB = s.xsShiftB := rfl
@[simp] theorem State.clearPermReady_xsShiftC (s : State) : s.clearPermReady.xsShiftC = s.xsShiftC := rfl
@[simp] theorem State.clearPermReady_minstdState (s : State) : s.clearPermReady.minstdState = s.minstdState := rfl
@[simp] theorem State.clearPermReady_marsState (s : State) : s.clearPermReady.marsState = s.marsState := rfl
@[simp] theorem State.clearPermReady_cmwcCarry (s : State) : s.clearPermReady.cmwcCarry = s.cmwcCarry := rfl
@[simp] theorem State.clearPermReady_cmwcIndex (s : State) : s.clearPermReady.cmwcIndex = s.cmwcIndex := rfl
@[simp] theorem State.clearPermReady_kcount (s : State) : s.clearPermReady.kcount = s.kcount := rfl
@[simp] theorem State.clearPermReady_mem (s : State) : s.clearPermReady.mem = s.mem := rfl
@[simp] theorem State.clearPermReady_inReset (s : State) : s.clearPermReady.inReset = s.inReset := rfl
@[simp] theorem State.clearPermReady_arrivals (s : State) : s.clearPermReady.arrivals = s.arrivals := rfl
@[simp] theorem State.clearPermReady_reply (s : State) : s.clearPermReady.reply = s.reply := rfl
@[simp] theorem State.clearPermReady_resets (s : State) : s.clearPermReady.resets = s.resets := rfl
@[simp] theorem State.clearPermReady_freeReads (s : State) : s.clearPermReady.freeReads = s.freeReads := rfl

/-! ### `State.setValueReady` -/

@[simp] theorem State.setValueReady_err (s : State) : s.setValueReady.err = s.err := rfl
@[simp] theorem State.setValueReady_ecode (s : State) : s.setValueReady.ecode = s.ecode := rfl
@[simp] theorem State.setValueReady_cmwcSeeded (s : State) : s.setValueReady.cmwcSeeded = s.cmwcSeeded := rfl
@[simp] theorem State.setValueReady_permReady (s : State) : s.setValueReady.permReady = s.permReady := rfl
@[simp] theorem State.setValueReady_valueReady (s : State) : s.setValueReady.valueReady = true := rfl
@[simp] theorem State.setValueReady_inflight (s : State) : s.setValueReady.inflight = s.inflight := rfl
@[simp] theorem State.setValueReady_opaLo (s : State) : s.setValueReady.opaLo = s.opaLo := rfl
@[simp] theorem State.setValueReady_opaHi (s : State) : s.setValueReady.opaHi = s.opaHi := rfl
@[simp] theorem State.setValueReady_opbLo (s : State) : s.setValueReady.opbLo = s.opbLo := rfl
@[simp] theorem State.setValueReady_opbHi (s : State) : s.setValueReady.opbHi = s.opbHi := rfl
@[simp] theorem State.setValueReady_opcLo (s : State) : s.setValueReady.opcLo = s.opcLo := rfl
@[simp] theorem State.setValueReady_opcHi (s : State) : s.setValueReady.opcHi = s.opcHi := rfl
@[simp] theorem State.setValueReady_resLo (s : State) : s.setValueReady.resLo = s.resLo := rfl
@[simp] theorem State.setValueReady_resHi (s : State) : s.setValueReady.resHi = s.resHi := rfl
@[simp] theorem State.setValueReady_xsState (s : State) : s.setValueReady.xsState = s.xsState := rfl
@[simp] theorem State.setValueReady_xsShiftA (s : State) : s.setValueReady.xsShiftA = s.xsShiftA := rfl
@[simp] theorem State.setValueReady_xsShiftB (s : State) : s.setValueReady.xsShiftB = s.xsShiftB := rfl
@[simp] theorem State.setValueReady_xsShiftC (s : State) : s.setValueReady.xsShiftC = s.xsShiftC := rfl
@[simp] theorem State.setValueReady_minstdState (s : State) : s.setValueReady.minstdState = s.minstdState := rfl
@[simp] theorem State.setValueReady_marsState (s : State) : s.setValueReady.marsState = s.marsState := rfl
@[simp] theorem State.setValueReady_cmwcCarry (s : State) : s.setValueReady.cmwcCarry = s.cmwcCarry := rfl
@[simp] theorem State.setValueReady_cmwcIndex (s : State) : s.setValueReady.cmwcIndex = s.cmwcIndex := rfl
@[simp] theorem State.setValueReady_kcount (s : State) : s.setValueReady.kcount = s.kcount := rfl
@[simp] theorem State.setValueReady_mem (s : State) : s.setValueReady.mem = s.mem := rfl
@[simp] theorem State.setValueReady_inReset (s : State) : s.setValueReady.inReset = s.inReset := rfl
@[simp] theorem State.setValueReady_arrivals (s : State) : s.setValueReady.arrivals = s.arrivals := rfl
@[simp] theorem State.setValueReady_reply (s : State) : s.setValueReady.reply = s.reply := rfl
@[simp] theorem State.setValueReady_resets (s : State) : s.setValueReady.resets = s.resets := rfl
@[simp] theorem State.setValueReady_freeReads (s : State) : s.setValueReady.freeReads = s.freeReads := rfl

/-! ### `State.clearValueReady` -/

@[simp] theorem State.clearValueReady_err (s : State) : s.clearValueReady.err = s.err := rfl
@[simp] theorem State.clearValueReady_ecode (s : State) : s.clearValueReady.ecode = s.ecode := rfl
@[simp] theorem State.clearValueReady_cmwcSeeded (s : State) : s.clearValueReady.cmwcSeeded = s.cmwcSeeded := rfl
@[simp] theorem State.clearValueReady_permReady (s : State) : s.clearValueReady.permReady = s.permReady := rfl
@[simp] theorem State.clearValueReady_valueReady (s : State) : s.clearValueReady.valueReady = false := rfl
@[simp] theorem State.clearValueReady_inflight (s : State) : s.clearValueReady.inflight = s.inflight := rfl
@[simp] theorem State.clearValueReady_opaLo (s : State) : s.clearValueReady.opaLo = s.opaLo := rfl
@[simp] theorem State.clearValueReady_opaHi (s : State) : s.clearValueReady.opaHi = s.opaHi := rfl
@[simp] theorem State.clearValueReady_opbLo (s : State) : s.clearValueReady.opbLo = s.opbLo := rfl
@[simp] theorem State.clearValueReady_opbHi (s : State) : s.clearValueReady.opbHi = s.opbHi := rfl
@[simp] theorem State.clearValueReady_opcLo (s : State) : s.clearValueReady.opcLo = s.opcLo := rfl
@[simp] theorem State.clearValueReady_opcHi (s : State) : s.clearValueReady.opcHi = s.opcHi := rfl
@[simp] theorem State.clearValueReady_resLo (s : State) : s.clearValueReady.resLo = s.resLo := rfl
@[simp] theorem State.clearValueReady_resHi (s : State) : s.clearValueReady.resHi = s.resHi := rfl
@[simp] theorem State.clearValueReady_xsState (s : State) : s.clearValueReady.xsState = s.xsState := rfl
@[simp] theorem State.clearValueReady_xsShiftA (s : State) : s.clearValueReady.xsShiftA = s.xsShiftA := rfl
@[simp] theorem State.clearValueReady_xsShiftB (s : State) : s.clearValueReady.xsShiftB = s.xsShiftB := rfl
@[simp] theorem State.clearValueReady_xsShiftC (s : State) : s.clearValueReady.xsShiftC = s.xsShiftC := rfl
@[simp] theorem State.clearValueReady_minstdState (s : State) : s.clearValueReady.minstdState = s.minstdState := rfl
@[simp] theorem State.clearValueReady_marsState (s : State) : s.clearValueReady.marsState = s.marsState := rfl
@[simp] theorem State.clearValueReady_cmwcCarry (s : State) : s.clearValueReady.cmwcCarry = s.cmwcCarry := rfl
@[simp] theorem State.clearValueReady_cmwcIndex (s : State) : s.clearValueReady.cmwcIndex = s.cmwcIndex := rfl
@[simp] theorem State.clearValueReady_kcount (s : State) : s.clearValueReady.kcount = s.kcount := rfl
@[simp] theorem State.clearValueReady_mem (s : State) : s.clearValueReady.mem = s.mem := rfl
@[simp] theorem State.clearValueReady_inReset (s : State) : s.clearValueReady.inReset = s.inReset := rfl
@[simp] theorem State.clearValueReady_arrivals (s : State) : s.clearValueReady.arrivals = s.arrivals := rfl
@[simp] theorem State.clearValueReady_reply (s : State) : s.clearValueReady.reply = s.reply := rfl
@[simp] theorem State.clearValueReady_resets (s : State) : s.clearValueReady.resets = s.resets := rfl
@[simp] theorem State.clearValueReady_freeReads (s : State) : s.clearValueReady.freeReads = s.freeReads := rfl

/-! ### `State.answerNothing` -/

@[simp] theorem State.answerNothing_err (s : State) : s.answerNothing.err = s.err := rfl
@[simp] theorem State.answerNothing_ecode (s : State) : s.answerNothing.ecode = s.ecode := rfl
@[simp] theorem State.answerNothing_cmwcSeeded (s : State) : s.answerNothing.cmwcSeeded = s.cmwcSeeded := rfl
@[simp] theorem State.answerNothing_permReady (s : State) : s.answerNothing.permReady = s.permReady := rfl
@[simp] theorem State.answerNothing_valueReady (s : State) : s.answerNothing.valueReady = s.valueReady := rfl
@[simp] theorem State.answerNothing_inflight (s : State) : s.answerNothing.inflight = s.inflight := rfl
@[simp] theorem State.answerNothing_opaLo (s : State) : s.answerNothing.opaLo = s.opaLo := rfl
@[simp] theorem State.answerNothing_opaHi (s : State) : s.answerNothing.opaHi = s.opaHi := rfl
@[simp] theorem State.answerNothing_opbLo (s : State) : s.answerNothing.opbLo = s.opbLo := rfl
@[simp] theorem State.answerNothing_opbHi (s : State) : s.answerNothing.opbHi = s.opbHi := rfl
@[simp] theorem State.answerNothing_opcLo (s : State) : s.answerNothing.opcLo = s.opcLo := rfl
@[simp] theorem State.answerNothing_opcHi (s : State) : s.answerNothing.opcHi = s.opcHi := rfl
@[simp] theorem State.answerNothing_resLo (s : State) : s.answerNothing.resLo = s.resLo := rfl
@[simp] theorem State.answerNothing_resHi (s : State) : s.answerNothing.resHi = s.resHi := rfl
@[simp] theorem State.answerNothing_xsState (s : State) : s.answerNothing.xsState = s.xsState := rfl
@[simp] theorem State.answerNothing_xsShiftA (s : State) : s.answerNothing.xsShiftA = s.xsShiftA := rfl
@[simp] theorem State.answerNothing_xsShiftB (s : State) : s.answerNothing.xsShiftB = s.xsShiftB := rfl
@[simp] theorem State.answerNothing_xsShiftC (s : State) : s.answerNothing.xsShiftC = s.xsShiftC := rfl
@[simp] theorem State.answerNothing_minstdState (s : State) : s.answerNothing.minstdState = s.minstdState := rfl
@[simp] theorem State.answerNothing_marsState (s : State) : s.answerNothing.marsState = s.marsState := rfl
@[simp] theorem State.answerNothing_cmwcCarry (s : State) : s.answerNothing.cmwcCarry = s.cmwcCarry := rfl
@[simp] theorem State.answerNothing_cmwcIndex (s : State) : s.answerNothing.cmwcIndex = s.cmwcIndex := rfl
@[simp] theorem State.answerNothing_kcount (s : State) : s.answerNothing.kcount = s.kcount := rfl
@[simp] theorem State.answerNothing_mem (s : State) : s.answerNothing.mem = s.mem := rfl
@[simp] theorem State.answerNothing_inReset (s : State) : s.answerNothing.inReset = s.inReset := rfl
@[simp] theorem State.answerNothing_arrivals (s : State) : s.answerNothing.arrivals = s.arrivals := rfl
@[simp] theorem State.answerNothing_reply (s : State) : s.answerNothing.reply = .none := rfl
@[simp] theorem State.answerNothing_resets (s : State) : s.answerNothing.resets = s.resets := rfl
@[simp] theorem State.answerNothing_freeReads (s : State) : s.answerNothing.freeReads = s.freeReads := rfl

/-! ### `State.answerAccepted` -/

@[simp] theorem State.answerAccepted_err (s : State) : s.answerAccepted.err = s.err := rfl
@[simp] theorem State.answerAccepted_ecode (s : State) : s.answerAccepted.ecode = s.ecode := rfl
@[simp] theorem State.answerAccepted_cmwcSeeded (s : State) : s.answerAccepted.cmwcSeeded = s.cmwcSeeded := rfl
@[simp] theorem State.answerAccepted_permReady (s : State) : s.answerAccepted.permReady = s.permReady := rfl
@[simp] theorem State.answerAccepted_valueReady (s : State) : s.answerAccepted.valueReady = s.valueReady := rfl
@[simp] theorem State.answerAccepted_inflight (s : State) : s.answerAccepted.inflight = s.inflight := rfl
@[simp] theorem State.answerAccepted_opaLo (s : State) : s.answerAccepted.opaLo = s.opaLo := rfl
@[simp] theorem State.answerAccepted_opaHi (s : State) : s.answerAccepted.opaHi = s.opaHi := rfl
@[simp] theorem State.answerAccepted_opbLo (s : State) : s.answerAccepted.opbLo = s.opbLo := rfl
@[simp] theorem State.answerAccepted_opbHi (s : State) : s.answerAccepted.opbHi = s.opbHi := rfl
@[simp] theorem State.answerAccepted_opcLo (s : State) : s.answerAccepted.opcLo = s.opcLo := rfl
@[simp] theorem State.answerAccepted_opcHi (s : State) : s.answerAccepted.opcHi = s.opcHi := rfl
@[simp] theorem State.answerAccepted_resLo (s : State) : s.answerAccepted.resLo = s.resLo := rfl
@[simp] theorem State.answerAccepted_resHi (s : State) : s.answerAccepted.resHi = s.resHi := rfl
@[simp] theorem State.answerAccepted_xsState (s : State) : s.answerAccepted.xsState = s.xsState := rfl
@[simp] theorem State.answerAccepted_xsShiftA (s : State) : s.answerAccepted.xsShiftA = s.xsShiftA := rfl
@[simp] theorem State.answerAccepted_xsShiftB (s : State) : s.answerAccepted.xsShiftB = s.xsShiftB := rfl
@[simp] theorem State.answerAccepted_xsShiftC (s : State) : s.answerAccepted.xsShiftC = s.xsShiftC := rfl
@[simp] theorem State.answerAccepted_minstdState (s : State) : s.answerAccepted.minstdState = s.minstdState := rfl
@[simp] theorem State.answerAccepted_marsState (s : State) : s.answerAccepted.marsState = s.marsState := rfl
@[simp] theorem State.answerAccepted_cmwcCarry (s : State) : s.answerAccepted.cmwcCarry = s.cmwcCarry := rfl
@[simp] theorem State.answerAccepted_cmwcIndex (s : State) : s.answerAccepted.cmwcIndex = s.cmwcIndex := rfl
@[simp] theorem State.answerAccepted_kcount (s : State) : s.answerAccepted.kcount = s.kcount := rfl
@[simp] theorem State.answerAccepted_mem (s : State) : s.answerAccepted.mem = s.mem := rfl
@[simp] theorem State.answerAccepted_inReset (s : State) : s.answerAccepted.inReset = s.inReset := rfl
@[simp] theorem State.answerAccepted_arrivals (s : State) : s.answerAccepted.arrivals = s.arrivals := rfl
@[simp] theorem State.answerAccepted_reply (s : State) : s.answerAccepted.reply = .accepted := rfl
@[simp] theorem State.answerAccepted_resets (s : State) : s.answerAccepted.resets = s.resets := rfl
@[simp] theorem State.answerAccepted_freeReads (s : State) : s.answerAccepted.freeReads = s.freeReads := rfl

/-! ### `State.answerBusError` -/

@[simp] theorem State.answerBusError_err (s : State) : s.answerBusError.err = s.err := rfl
@[simp] theorem State.answerBusError_ecode (s : State) : s.answerBusError.ecode = s.ecode := rfl
@[simp] theorem State.answerBusError_cmwcSeeded (s : State) : s.answerBusError.cmwcSeeded = s.cmwcSeeded := rfl
@[simp] theorem State.answerBusError_permReady (s : State) : s.answerBusError.permReady = s.permReady := rfl
@[simp] theorem State.answerBusError_valueReady (s : State) : s.answerBusError.valueReady = s.valueReady := rfl
@[simp] theorem State.answerBusError_inflight (s : State) : s.answerBusError.inflight = s.inflight := rfl
@[simp] theorem State.answerBusError_opaLo (s : State) : s.answerBusError.opaLo = s.opaLo := rfl
@[simp] theorem State.answerBusError_opaHi (s : State) : s.answerBusError.opaHi = s.opaHi := rfl
@[simp] theorem State.answerBusError_opbLo (s : State) : s.answerBusError.opbLo = s.opbLo := rfl
@[simp] theorem State.answerBusError_opbHi (s : State) : s.answerBusError.opbHi = s.opbHi := rfl
@[simp] theorem State.answerBusError_opcLo (s : State) : s.answerBusError.opcLo = s.opcLo := rfl
@[simp] theorem State.answerBusError_opcHi (s : State) : s.answerBusError.opcHi = s.opcHi := rfl
@[simp] theorem State.answerBusError_resLo (s : State) : s.answerBusError.resLo = s.resLo := rfl
@[simp] theorem State.answerBusError_resHi (s : State) : s.answerBusError.resHi = s.resHi := rfl
@[simp] theorem State.answerBusError_xsState (s : State) : s.answerBusError.xsState = s.xsState := rfl
@[simp] theorem State.answerBusError_xsShiftA (s : State) : s.answerBusError.xsShiftA = s.xsShiftA := rfl
@[simp] theorem State.answerBusError_xsShiftB (s : State) : s.answerBusError.xsShiftB = s.xsShiftB := rfl
@[simp] theorem State.answerBusError_xsShiftC (s : State) : s.answerBusError.xsShiftC = s.xsShiftC := rfl
@[simp] theorem State.answerBusError_minstdState (s : State) : s.answerBusError.minstdState = s.minstdState := rfl
@[simp] theorem State.answerBusError_marsState (s : State) : s.answerBusError.marsState = s.marsState := rfl
@[simp] theorem State.answerBusError_cmwcCarry (s : State) : s.answerBusError.cmwcCarry = s.cmwcCarry := rfl
@[simp] theorem State.answerBusError_cmwcIndex (s : State) : s.answerBusError.cmwcIndex = s.cmwcIndex := rfl
@[simp] theorem State.answerBusError_kcount (s : State) : s.answerBusError.kcount = s.kcount := rfl
@[simp] theorem State.answerBusError_mem (s : State) : s.answerBusError.mem = s.mem := rfl
@[simp] theorem State.answerBusError_inReset (s : State) : s.answerBusError.inReset = s.inReset := rfl
@[simp] theorem State.answerBusError_arrivals (s : State) : s.answerBusError.arrivals = s.arrivals := rfl
@[simp] theorem State.answerBusError_reply (s : State) : s.answerBusError.reply = .busError := rfl
@[simp] theorem State.answerBusError_resets (s : State) : s.answerBusError.resets = s.resets := rfl
@[simp] theorem State.answerBusError_freeReads (s : State) : s.answerBusError.freeReads = s.freeReads := rfl

/-! ### `State.answerUnanswered` -/

@[simp] theorem State.answerUnanswered_err (s : State) : s.answerUnanswered.err = s.err := rfl
@[simp] theorem State.answerUnanswered_ecode (s : State) : s.answerUnanswered.ecode = s.ecode := rfl
@[simp] theorem State.answerUnanswered_cmwcSeeded (s : State) : s.answerUnanswered.cmwcSeeded = s.cmwcSeeded := rfl
@[simp] theorem State.answerUnanswered_permReady (s : State) : s.answerUnanswered.permReady = s.permReady := rfl
@[simp] theorem State.answerUnanswered_valueReady (s : State) : s.answerUnanswered.valueReady = s.valueReady := rfl
@[simp] theorem State.answerUnanswered_inflight (s : State) : s.answerUnanswered.inflight = s.inflight := rfl
@[simp] theorem State.answerUnanswered_opaLo (s : State) : s.answerUnanswered.opaLo = s.opaLo := rfl
@[simp] theorem State.answerUnanswered_opaHi (s : State) : s.answerUnanswered.opaHi = s.opaHi := rfl
@[simp] theorem State.answerUnanswered_opbLo (s : State) : s.answerUnanswered.opbLo = s.opbLo := rfl
@[simp] theorem State.answerUnanswered_opbHi (s : State) : s.answerUnanswered.opbHi = s.opbHi := rfl
@[simp] theorem State.answerUnanswered_opcLo (s : State) : s.answerUnanswered.opcLo = s.opcLo := rfl
@[simp] theorem State.answerUnanswered_opcHi (s : State) : s.answerUnanswered.opcHi = s.opcHi := rfl
@[simp] theorem State.answerUnanswered_resLo (s : State) : s.answerUnanswered.resLo = s.resLo := rfl
@[simp] theorem State.answerUnanswered_resHi (s : State) : s.answerUnanswered.resHi = s.resHi := rfl
@[simp] theorem State.answerUnanswered_xsState (s : State) : s.answerUnanswered.xsState = s.xsState := rfl
@[simp] theorem State.answerUnanswered_xsShiftA (s : State) : s.answerUnanswered.xsShiftA = s.xsShiftA := rfl
@[simp] theorem State.answerUnanswered_xsShiftB (s : State) : s.answerUnanswered.xsShiftB = s.xsShiftB := rfl
@[simp] theorem State.answerUnanswered_xsShiftC (s : State) : s.answerUnanswered.xsShiftC = s.xsShiftC := rfl
@[simp] theorem State.answerUnanswered_minstdState (s : State) : s.answerUnanswered.minstdState = s.minstdState := rfl
@[simp] theorem State.answerUnanswered_marsState (s : State) : s.answerUnanswered.marsState = s.marsState := rfl
@[simp] theorem State.answerUnanswered_cmwcCarry (s : State) : s.answerUnanswered.cmwcCarry = s.cmwcCarry := rfl
@[simp] theorem State.answerUnanswered_cmwcIndex (s : State) : s.answerUnanswered.cmwcIndex = s.cmwcIndex := rfl
@[simp] theorem State.answerUnanswered_kcount (s : State) : s.answerUnanswered.kcount = s.kcount := rfl
@[simp] theorem State.answerUnanswered_mem (s : State) : s.answerUnanswered.mem = s.mem := rfl
@[simp] theorem State.answerUnanswered_inReset (s : State) : s.answerUnanswered.inReset = s.inReset := rfl
@[simp] theorem State.answerUnanswered_arrivals (s : State) : s.answerUnanswered.arrivals = s.arrivals := rfl
@[simp] theorem State.answerUnanswered_reply (s : State) : s.answerUnanswered.reply = .unanswered := rfl
@[simp] theorem State.answerUnanswered_resets (s : State) : s.answerUnanswered.resets = s.resets := rfl
@[simp] theorem State.answerUnanswered_freeReads (s : State) : s.answerUnanswered.freeReads = s.freeReads := rfl

/-! ### `State.assertReset` -/

@[simp] theorem State.assertReset_err (s : State) : s.assertReset.err = s.err := rfl
@[simp] theorem State.assertReset_ecode (s : State) : s.assertReset.ecode = s.ecode := rfl
@[simp] theorem State.assertReset_cmwcSeeded (s : State) : s.assertReset.cmwcSeeded = s.cmwcSeeded := rfl
@[simp] theorem State.assertReset_permReady (s : State) : s.assertReset.permReady = s.permReady := rfl
@[simp] theorem State.assertReset_valueReady (s : State) : s.assertReset.valueReady = s.valueReady := rfl
@[simp] theorem State.assertReset_inflight (s : State) : s.assertReset.inflight = .none := rfl
@[simp] theorem State.assertReset_opaLo (s : State) : s.assertReset.opaLo = s.opaLo := rfl
@[simp] theorem State.assertReset_opaHi (s : State) : s.assertReset.opaHi = s.opaHi := rfl
@[simp] theorem State.assertReset_opbLo (s : State) : s.assertReset.opbLo = s.opbLo := rfl
@[simp] theorem State.assertReset_opbHi (s : State) : s.assertReset.opbHi = s.opbHi := rfl
@[simp] theorem State.assertReset_opcLo (s : State) : s.assertReset.opcLo = s.opcLo := rfl
@[simp] theorem State.assertReset_opcHi (s : State) : s.assertReset.opcHi = s.opcHi := rfl
@[simp] theorem State.assertReset_resLo (s : State) : s.assertReset.resLo = s.resLo := rfl
@[simp] theorem State.assertReset_resHi (s : State) : s.assertReset.resHi = s.resHi := rfl
@[simp] theorem State.assertReset_xsState (s : State) : s.assertReset.xsState = s.xsState := rfl
@[simp] theorem State.assertReset_xsShiftA (s : State) : s.assertReset.xsShiftA = s.xsShiftA := rfl
@[simp] theorem State.assertReset_xsShiftB (s : State) : s.assertReset.xsShiftB = s.xsShiftB := rfl
@[simp] theorem State.assertReset_xsShiftC (s : State) : s.assertReset.xsShiftC = s.xsShiftC := rfl
@[simp] theorem State.assertReset_minstdState (s : State) : s.assertReset.minstdState = s.minstdState := rfl
@[simp] theorem State.assertReset_marsState (s : State) : s.assertReset.marsState = s.marsState := rfl
@[simp] theorem State.assertReset_cmwcCarry (s : State) : s.assertReset.cmwcCarry = s.cmwcCarry := rfl
@[simp] theorem State.assertReset_cmwcIndex (s : State) : s.assertReset.cmwcIndex = s.cmwcIndex := rfl
@[simp] theorem State.assertReset_kcount (s : State) : s.assertReset.kcount = s.kcount := rfl
@[simp] theorem State.assertReset_mem (s : State) : s.assertReset.mem = s.mem := rfl
@[simp] theorem State.assertReset_inReset (s : State) : s.assertReset.inReset = true := rfl
@[simp] theorem State.assertReset_arrivals (s : State) : s.assertReset.arrivals = s.arrivals := rfl
@[simp] theorem State.assertReset_reply (s : State) : s.assertReset.reply = s.reply := rfl
@[simp] theorem State.assertReset_resets (s : State) : s.assertReset.resets = s.resets := rfl
@[simp] theorem State.assertReset_freeReads (s : State) : s.assertReset.freeReads = s.freeReads := rfl

end Sys2Proof.Machine
end

