-- ==== Sys2Proof/Laws/Memory.lean ====
section
/-! SUPPORT. The laws of the RAM operations: a read after a write, the canonical form, and the same for bytes, words,
double words and the five RAMs. -/

namespace Sys2Proof.Machine

/-! ## Bytes -/

theorem Memory.read_write_same (m : Memory) (a : Nat) (b : Byte) : Memory.read (Memory.write m a b) a = some b := by
  induction m with
  | nil => simp [Memory.write, Memory.read]
  | cons c m ih =>
    by_cases h1 : a < c.1
    · simp [Memory.write, Memory.read, h1]
    · by_cases h2 : a = c.1
      · simp [Memory.write, Memory.read, h2]
      · simp [Memory.write, Memory.read, h1, h2, Ne.symm h2, ih]

theorem Memory.read_write_other (m : Memory) {a x : Nat} (b : Byte) (h : x ≠ a) :
    Memory.read (Memory.write m a b) x = Memory.read m x := by
  induction m with
  | nil => simp [Memory.write, Memory.read, Ne.symm h]
  | cons c m ih =>
    by_cases h1 : a < c.1
    · simp [Memory.write, Memory.read, h1, Ne.symm h]
    · by_cases h2 : a = c.1
      · simp [Memory.write, Memory.read, ← h2, Ne.symm h]
      · simp [Memory.write, Memory.read, h1, h2, ih]

theorem Memory.allAbove_write {x a : Nat} {m : Memory} (b : Byte) (hm : Memory.allAbove x m = true) (ha : x < a) :
    Memory.allAbove x (Memory.write m a b) = true := by
  induction m with
  | nil => simp [Memory.write, Memory.allAbove, ha]
  | cons c m ih =>
    simp only [Memory.allAbove, List.all_cons, Bool.and_eq_true, decide_eq_true_eq] at hm ih
    by_cases h1 : a < c.1
    · simp only [Memory.write, h1, if_true, Memory.allAbove, List.all_cons, Bool.and_eq_true, decide_eq_true_eq]
      exact ⟨ha, hm.1, hm.2⟩
    · by_cases h2 : a = c.1
      · simp only [Memory.write, h2, lt_irrefl, if_false, if_true, Memory.allAbove, List.all_cons, Bool.and_eq_true,
          decide_eq_true_eq]
        exact ⟨hm.1, hm.2⟩
      · simp only [Memory.write, h1, h2, if_false, Memory.allAbove, List.all_cons, Bool.and_eq_true, decide_eq_true_eq]
        exact ⟨hm.1, ih hm.2⟩

theorem Memory.allAbove_mono {x y : Nat} {m : Memory} (hm : Memory.allAbove y m = true) (hx : x ≤ y) :
    Memory.allAbove x m = true := by
  simp only [Memory.allAbove, List.all_eq_true, decide_eq_true_eq] at hm ⊢
  exact fun c hc => Nat.lt_of_le_of_lt hx (hm c hc)

/-- A write at a RAM offset keeps the canonical form. -/
theorem Memory.wf_write {m : Memory} {a : Nat} (b : Byte) (hm : Memory.wf m = true) (ha : isRamOffset a = true) :
    Memory.wf (Memory.write m a b) = true := by
  induction m with
  | nil => simp [Memory.write, Memory.wf, Memory.allAbove, ha]
  | cons c m ih =>
    simp only [Memory.wf, Bool.and_eq_true] at hm
    obtain ⟨⟨hc, habove⟩, hwf⟩ := hm
    by_cases h1 : a < c.1
    · simp only [Memory.write, h1, if_true, Memory.wf, Bool.and_eq_true]
      refine ⟨⟨ha, ?_⟩, ⟨hc, habove⟩, hwf⟩
      have := Memory.allAbove_mono habove (Nat.le_of_lt h1)
      simpa [Memory.allAbove, h1] using this
    · by_cases h2 : a = c.1
      · simp only [Memory.write, h2, lt_irrefl, if_false, if_true, Memory.wf, Bool.and_eq_true]
        exact ⟨⟨hc, habove⟩, hwf⟩
      · simp only [Memory.write, h1, h2, if_false, Memory.wf, Bool.and_eq_true]
        exact ⟨⟨hc, Memory.allAbove_write b habove (by omega)⟩, ih hwf⟩

@[simp] theorem byteAt_setByte_same (s : State) (a : Nat) (b : Byte) : (s.setByte a b).byteAt a = b := by
  simp [State.byteAt, Memory.read_write_same]

@[simp] theorem byteAt_setByte_other (s : State) {a x : Nat} (b : Byte) (h : x ≠ a) :
    (s.setByte a b).byteAt x = s.byteAt x := by
  simp [State.byteAt, Memory.read_write_other _ b h]

/-- Two states with the same RAM contents and the same number of resets read the same byte everywhere. -/
theorem byteAt_congr {s t : State} (hm : s.mem = t.mem) (hr : s.resets = t.resets) (a : Nat) :
    s.byteAt a = t.byteAt a := by
  simp [State.byteAt, hm, hr]

theorem wordAt_congr {s t : State} {a : Nat} (h : ∀ k < 4, s.byteAt (a + k) = t.byteAt (a + k)) :
    s.wordAt a = t.wordAt a := by
  have h0 := h 0 (by omega)
  have h1 := h 1 (by omega)
  have h2 := h 2 (by omega)
  have h3 := h 3 (by omega)
  simp only [Nat.add_zero] at h0
  simp [State.wordAt, h0, h1, h2, h3]

/-! ## Words -/

theorem wordOfLanes_byteLane (w : Word) :
    wordOfLanes (byteLane w 0) (byteLane w 1) (byteLane w 2) (byteLane w 3) = w := by
  apply BitVec.eq_of_getLsbD_eq
  intro i hi
  simp only [wordOfLanes, byteLane, BitVec.getLsbD_append, BitVec.getLsbD_extractLsb']
  by_cases h0 : i < 8
  · simp [h0]
  by_cases h1 : i < 16
  · simp [h0, show i - 8 < 8 by omega, show 8 + (i - 8) = i by omega]
  by_cases h2 : i < 24
  · simp [h0, show ¬ i - 8 < 8 by omega, show i - 8 - 8 < 8 by omega, show 16 + (i - 8 - 8) = i by omega]
  · simp [h0, show ¬ i - 8 < 8 by omega, show ¬ i - 8 - 8 < 8 by omega, show i - 8 - 8 - 8 < 8 by omega,
      show 24 + (i - 8 - 8 - 8) = i by omega]

theorem Memory.read_writeWord_outside (m : Memory) {a x : Nat} (w : Word) (h : x < a ∨ a + 4 ≤ x) :
    Memory.read (Memory.writeWord m a w) x = Memory.read m x := by
  unfold Memory.writeWord
  rw [Memory.read_write_other _ _ (by omega), Memory.read_write_other _ _ (by omega),
    Memory.read_write_other _ _ (by omega), Memory.read_write_other _ _ (by omega)]

theorem Memory.read_writeWord_lane (m : Memory) (a : Nat) (w : Word) {k : Nat} (hk : k < 4) :
    Memory.read (Memory.writeWord m a w) (a + k) = some (byteLane w k) := by
  unfold Memory.writeWord
  interval_cases k
  · exact Memory.read_write_same _ _ _
  · rw [Memory.read_write_other _ _ (by omega), Memory.read_write_same]
  · rw [Memory.read_write_other _ _ (by omega), Memory.read_write_other _ _ (by omega), Memory.read_write_same]
  · rw [Memory.read_write_other _ _ (by omega), Memory.read_write_other _ _ (by omega),
      Memory.read_write_other _ _ (by omega), Memory.read_write_same]

/-- A byte outside the four of a stored word reads as before. -/
@[simp] theorem byteAt_setWord_outside (s : State) {a x : Nat} (w : Word) (h : x < a ∨ a + 4 ≤ x) :
    (s.setWord a w).byteAt x = s.byteAt x := by
  simp [State.byteAt, Memory.read_writeWord_outside _ _ h]

/-- The byte lanes of a stored word, in rule R64's order. -/
theorem byteAt_setWord_lane (s : State) (a : Nat) (w : Word) {k : Nat} (hk : k < 4) :
    (s.setWord a w).byteAt (a + k) = byteLane w k := by
  simp [State.byteAt, Memory.read_writeWord_lane _ _ _ hk]

@[simp] theorem wordAt_setWord_same (s : State) (a : Nat) (w : Word) : (s.setWord a w).wordAt a = w := by
  have h0 := byteAt_setWord_lane s a w (k := 0) (by omega)
  simp only [Nat.add_zero] at h0
  simp only [State.wordAt, h0, byteAt_setWord_lane s a w (k := 1) (by omega),
    byteAt_setWord_lane s a w (k := 2) (by omega), byteAt_setWord_lane s a w (k := 3) (by omega)]
  exact wordOfLanes_byteLane w

@[simp] theorem wordAt_setWord_other (s : State) {a x : Nat} (w : Word) (h : x + 4 ≤ a ∨ a + 4 ≤ x) :
    (s.setWord a w).wordAt x = s.wordAt x :=
  wordAt_congr fun k hk => byteAt_setWord_outside s w (by omega)

theorem isRamOffset_iff (a : Nat) :
    isRamOffset a = true ↔ (0x400 ≤ a ∧ a < 0xC00) ∨ (0x1000 ≤ a ∧ a < 0x1A00) ∨ (0x4000 ≤ a ∧ a < 0x8000) := by
  simp [isRamOffset, Bool.or_eq_true, Bool.and_eq_true, or_assoc]

theorem isRamOffset_word {a : Nat} (h4 : a % 4 = 0) (ha : isRamOffset a = true) {k : Nat} (hk : k < 4) :
    isRamOffset (a + k) = true := by
  rw [isRamOffset_iff] at *
  omega

/-- A word store at a word-aligned RAM offset keeps the canonical form. -/
theorem Memory.wf_writeWord {m : Memory} {a : Nat} (w : Word) (hm : Memory.wf m = true) (h4 : a % 4 = 0)
    (ha : isRamOffset a = true) : Memory.wf (Memory.writeWord m a w) = true := by
  have h := fun k (hk : k < 4) => isRamOffset_word h4 ha hk
  exact Memory.wf_write _ (Memory.wf_write _ (Memory.wf_write _ (Memory.wf_write _ hm (h 3 (by omega))) (h 2 (by omega)))
    (h 1 (by omega))) (by simpa using h 0 (by omega))

/-! ## Double words -/

theorem hiWord_append_loWord (d : DWord) : hiWord d ++ loWord d = d := by
  apply BitVec.eq_of_getLsbD_eq
  intro i hi
  simp only [hiWord, loWord, BitVec.getLsbD_append, BitVec.getLsbD_extractLsb']
  by_cases h : i < 32
  · simp [h]
  · simp [h, show i - 32 < 32 by omega, show 32 + (i - 32) = i by omega]

@[simp] theorem loWord_append (h l : Word) : loWord (h ++ l) = l := by
  apply BitVec.eq_of_getLsbD_eq
  intro i hi
  simp only [loWord, BitVec.getLsbD_extractLsb', BitVec.getLsbD_append, hi, Nat.zero_add, decide_true, Bool.true_and,
    if_true]

@[simp] theorem hiWord_append (h l : Word) : hiWord (h ++ l) = h := by
  apply BitVec.eq_of_getLsbD_eq
  intro i hi
  simp only [hiWord, BitVec.getLsbD_extractLsb', BitVec.getLsbD_append, hi, decide_true, Bool.true_and,
    show ¬ 32 + i < 32 by omega, if_false, Nat.add_sub_cancel_left]

theorem setDword_eq (s : State) (a : Nat) (d : DWord) :
    s.setDword a d = (s.setWord (a + 4) (hiWord d)).setWord a (loWord d) := rfl

/-- A byte outside the eight of a stored double word reads as before. -/
@[simp] theorem byteAt_setDword_outside (s : State) {a x : Nat} (d : DWord) (h : x < a ∨ a + 8 ≤ x) :
    (s.setDword a d).byteAt x = s.byteAt x := by
  rw [setDword_eq, byteAt_setWord_outside _ _ (by omega), byteAt_setWord_outside _ _ (by omega)]

@[simp] theorem dwordAt_setDword_same (s : State) (a : Nat) (d : DWord) : (s.setDword a d).dwordAt a = d := by
  rw [setDword_eq]
  unfold State.dwordAt
  rw [wordAt_setWord_same, wordAt_setWord_other _ _ (by omega), wordAt_setWord_same, hiWord_append_loWord]

@[simp] theorem dwordAt_setDword_other (s : State) {a x : Nat} (d : DWord) (h : x + 8 ≤ a ∨ a + 8 ≤ x) :
    (s.setDword a d).dwordAt x = s.dwordAt x := by
  rw [setDword_eq]
  unfold State.dwordAt
  rw [wordAt_setWord_other _ _ (by omega), wordAt_setWord_other _ _ (by omega), wordAt_setWord_other _ _ (by omega),
    wordAt_setWord_other _ _ (by omega)]

/-! ## The RAMs by index -/

@[simp] theorem perm_setPerm_same (s : State) (k : Nat) (w : Word) : (s.setPerm k w).perm k = w :=
  wordAt_setWord_same s _ w

@[simp] theorem perm_setPerm_other (s : State) {j k : Nat} (w : Word) (h : j ≠ k) :
    (s.setPerm k w).perm j = s.perm j :=
  wordAt_setWord_other s w (by unfold permOff; omega)

@[simp] theorem value_setValue_same (s : State) (k : Nat) (d : DWord) : (s.setValue k d).value k = d :=
  dwordAt_setDword_same s _ d

@[simp] theorem value_setValue_other (s : State) {j k : Nat} (d : DWord) (h : j ≠ k) :
    (s.setValue k d).value j = s.value j :=
  dwordAt_setDword_other s d (by unfold valueOff; omega)

@[simp] theorem q_setQ_same (s : State) (k : Nat) (w : Word) : (s.setQ k w).q k = w :=
  wordAt_setWord_same s _ w

@[simp] theorem q_setQ_other (s : State) {j k : Nat} (w : Word) (h : j ≠ k) : (s.setQ k w).q j = s.q j :=
  wordAt_setWord_other s w (by unfold qOff; omega)

/-- A `PERM` store leaves every byte outside the stored word as it was. -/
@[simp] theorem byteAt_setPerm_outside (s : State) {k x : Nat} (w : Word) (h : x < permOff k ∨ permOff k + 4 ≤ x) :
    (s.setPerm k w).byteAt x = s.byteAt x := byteAt_setWord_outside s w h

/-- A `Q` store leaves every byte outside the stored word as it was. -/
@[simp] theorem byteAt_setQ_outside (s : State) {k x : Nat} (w : Word) (h : x < qOff k ∨ qOff k + 4 ≤ x) :
    (s.setQ k w).byteAt x = s.byteAt x := byteAt_setWord_outside s w h

/-- A `VALUE` store leaves every byte outside the stored entry as it was. -/
@[simp] theorem byteAt_setValue_outside (s : State) {k x : Nat} (d : DWord) (h : x < valueOff k ∨ valueOff k + 8 ≤ x) :
    (s.setValue k d).byteAt x = s.byteAt x := byteAt_setDword_outside s d h

/-- A `Q` store at a ring index touches no `PERM`, `SRC`, `VALUE` or `KNOT` byte. -/
theorem byteAt_setQ_below (s : State) (k : Nat) (w : Word) {x : Nat} (h : x < 0x4000) :
    (s.setQ k w).byteAt x = s.byteAt x :=
  byteAt_setQ_outside s w (by unfold qOff; omega)

theorem setPerm_eq (s : State) (k : Nat) (w : Word) : s.setPerm k w = s.setWord (permOff k) w := rfl

theorem setQ_eq (s : State) (k : Nat) (w : Word) : s.setQ k w = s.setWord (qOff k) w := rfl

theorem setValue_eq (s : State) (k : Nat) (d : DWord) : s.setValue k d = s.setDword (valueOff k) d := rfl

theorem swapPerm_eq (s : State) (i j : Nat) : s.swapPerm i j = (s.setPerm i (s.perm j)).setPerm j (s.perm i) := rfl

/-- An inside-out placement as `PERM` stores in the order of rule R154. -/
theorem placeInsideOut_eq (s : State) (i j : Nat) :
    s.placeInsideOut i j = if j = i then s.setPerm i (s.src i) else (s.setPerm i (s.perm j)).setPerm j (s.src i) := rfl

theorem Memory.wf_writePerm {m : Memory} {k : Nat} (w : Word) (hm : Memory.wf m = true) (hk : k < 256) :
    Memory.wf (Memory.writeWord m (permOff k) w) = true :=
  Memory.wf_writeWord w hm (by unfold permOff; omega)
    (by rw [isRamOffset_iff]; unfold permOff; omega)

theorem Memory.wf_writeQ {m : Memory} {k : Nat} (w : Word) (hm : Memory.wf m = true) (hk : k < 4096) :
    Memory.wf (Memory.writeWord m (qOff k) w) = true :=
  Memory.wf_writeWord w hm (by unfold qOff; omega)
    (by rw [isRamOffset_iff]; unfold qOff; omega)

theorem Memory.wf_writeValue {m : Memory} {k : Nat} (d : DWord) (hm : Memory.wf m = true) (hk : k < 256) :
    Memory.wf (Memory.writeDword m (valueOff k) d) = true :=
  Memory.wf_writeWord _
    (Memory.wf_writeWord _ hm (by unfold valueOff; omega)
      (by rw [isRamOffset_iff]; unfold valueOff; omega))
    (by unfold valueOff; omega)
    (by rw [isRamOffset_iff]; unfold valueOff; omega)

end Sys2Proof.Machine
end

