-- ==== Sys2Proof/Laws/Lifecycle.lean ====
section
/-! SUPPORT. What the shared operations of the lifecycle can do: `perform` and `exec`, and the one lemma that carries a
property over a step. -/

namespace Sys2Proof.Machine

/-! ## `perform` and `exec` -/

/-- Every arm of `exec` is `perform` on that command's rule. -/
theorem exec_eq_perform (i : Instr) (s : State) : exec i s = perform i (meaningOf i) s := by cases i <;> rfl

theorem busy_eq_false_iff (s : State) : s.busy = false ↔ s.inflight = none := by
  unfold State.busy
  cases s.inflight <;> simp

theorem perform_busy {i : Instr} {m : Meaning} {s : State} (h : s.busy = true) :
    perform i m s = .next (s.recordError .busyWrite) := by
  simp [perform, h]

theorem perform_rejected {i : Instr} {m : Meaning} {s : State} {k : ErrorCode} (h : s.busy = false)
    (hk : m.check s = some k) : perform i m s = .next (s.reject m k) := by
  simp [perform, h, hk]

theorem perform_completes {i : Instr} {m : Meaning} {s t : State} (h : s.busy = false) (hk : m.check s = none)
    (hr : m.run s.operands s = some t) : perform i m s = .next t := by
  simp [perform, h, hk, hr]

theorem perform_runs_forever {i : Instr} {m : Meaning} {s : State} (h : s.busy = false) (hk : m.check s = none)
    (hr : m.run s.operands s = none) : perform i m s = .next (s.begin i) := by
  simp [perform, h, hk, hr]

/-- Everything `perform` can do: drop a write made while busy, reject, complete, or stay in flight. -/
theorem perform_cases {i : Instr} {m : Meaning} {s t : State} (h : perform i m s = .next t) :
    (s.busy = true ∧ t = s.recordError .busyWrite) ∨
    (s.busy = false ∧ ∃ k, m.check s = some k ∧ t = s.reject m k) ∨
    (s.busy = false ∧ m.check s = none ∧ m.run s.operands s = some t) ∨
    (s.busy = false ∧ m.check s = none ∧ m.run s.operands s = none ∧ t = s.begin i) := by
  cases hb : s.busy with
  | true =>
    rw [perform_busy hb] at h
    cases h
    exact .inl ⟨rfl, rfl⟩
  | false =>
    cases hc : m.check s with
    | some k =>
      rw [perform_rejected hb hc] at h
      cases h
      exact .inr (.inl ⟨rfl, k, rfl, rfl⟩)
    | none =>
      cases hr : m.run s.operands s with
      | some u =>
        rw [perform_completes hb hc hr] at h
        cases h
        exact .inr (.inr (.inl ⟨rfl, rfl, rfl⟩))
      | none =>
        rw [perform_runs_forever hb hc hr] at h
        cases h
        exact .inr (.inr (.inr ⟨rfl, rfl, rfl, rfl⟩))

theorem idle_not_busy {s : State} (h : s.idle) : s.busy = false := (busy_eq_false_iff s).2 h

/-- A command whose checks pass and whose run ends is done by `exec` in one step. -/
theorem exec_completes {i : Instr} {s t : State} (h : s.idle) (hk : (meaningOf i).check s = none)
    (hr : (meaningOf i).run s.operands s = some t) : exec i s = .next t := by
  rw [exec_eq_perform]
  exact perform_completes (idle_not_busy h) hk hr

/-- A command whose checks fail is rejected by `exec`. -/
theorem exec_rejected {i : Instr} {s : State} {k : ErrorCode} (h : s.idle) (hk : (meaningOf i).check s = some k) :
    exec i s = .next (s.reject (meaningOf i) k) := by
  rw [exec_eq_perform]
  exact perform_rejected (idle_not_busy h) hk

/-- A command whose checks pass and whose run never ends is left in flight by `exec`. -/
theorem exec_runs_forever {i : Instr} {s : State} (h : s.idle) (hk : (meaningOf i).check s = none)
    (hr : (meaningOf i).run s.operands s = none) : exec i s = .next (s.begin i) := by
  rw [exec_eq_perform]
  exact perform_runs_forever (idle_not_busy h) hk hr

/-- The readiness check of a drawing command passes exactly when the generator is ready. -/
theorem firstFailure_seedCheck {g : Gsel} {s : State} (h : s.drawReady g) (rest : List (Bool × ErrorCode)) :
    firstFailure (s.seedCheck g :: rest) = firstFailure rest := by
  unfold State.drawReady at h
  cases hg : Gsel.needsSeed g <;> simp_all [firstFailure, State.seedCheck]

theorem firstFailure_notSeeded {g : Gsel} {s : State} (hg : Gsel.needsSeed g = true) (h : s.cmwcSeeded = false)
    (rest : List (Bool × ErrorCode)) : firstFailure (s.seedCheck g :: rest) = some .notSeeded := by
  simp [firstFailure, State.seedCheck, hg, h]

/-- No command stops the machine: `perform` always answers a next state. -/
theorem perform_answers_next (i : Instr) (m : Meaning) (s : State) : ∃ t, perform i m s = .next t := by
  unfold perform
  split
  · exact ⟨_, rfl⟩
  · split
    · exact ⟨_, rfl⟩
    · split <;> exact ⟨_, rfl⟩

/-! ## Issue and completion -/

/-- Everything `issue` can do: reject, or start the command. -/
theorem issue_cases (s : State) (i : Instr) (m : Meaning) :
    (∃ k, m.check s = some k ∧ s.issue i m = s.reject m k) ∨ (m.check s = none ∧ s.issue i m = s.begin i) := by
  unfold State.issue
  cases m.check s with
  | some k => exact .inl ⟨k, rfl, rfl⟩
  | none => exact .inr ⟨rfl, rfl⟩

/-- Everything a completion event can do: nothing when no command is in flight or its run never ends, else the run's end
state. -/
theorem complete_cases (s : State) :
    s.complete = s ∨
    ∃ f, s.inflight = some f ∧ (meaningOf f.instr).run f.ops { s with inflight := none } = some s.complete := by
  unfold State.complete State.finish
  cases hf : s.inflight with
  | none => exact .inl rfl
  | some f =>
    simp only
    cases hr : (meaningOf f.instr).run f.ops { s with inflight := none } with
    | none => exact .inl rfl
    | some t => exact .inr ⟨f, rfl, hr⟩

/-! ## One property over one step -/

/-- What a property must survive for every step to keep it: the model's own fields changing, an error recorded or
cleared, a host write taken while Idle, SPLINE's fallback, a command starting, being abandoned and completing, and
reset. -/
structure KeptByParts (P : State → Prop) : Prop where
  bookkeeping : ∀ (s : State) arrivals reply freeReads, P s → P { s with arrivals := arrivals, reply := reply, freeReads := freeReads }
  record : ∀ (s : State) k, P s → P (s.recordError k)
  clear : ∀ s : State, P s → P s.clearError
  register : ∀ (s : State) off w, s.inflight = none → P s → P (s.writeRegister off w)
  ram : ∀ (s : State) off w, s.inflight = none → isRamOffset off = true → off % 4 = 0 → P s → P (s.writeRam off w)
  fallback : ∀ (s : State) i, s.inflight = none → P s → P ((meaningOf i).fallback s)
  starts : ∀ (s : State) i, s.inflight = none → s.inReset = false → (meaningOf i).check s = none → P s → P (s.begin i)
  completes : ∀ (s : State) i t, s.inflight = none → P s → (meaningOf i).run s.operands s = some t → P t
  finishes : ∀ (s : State) f t, s.inflight = some f → P s →
    (meaningOf f.instr).run f.ops { s with inflight := none } = some t → P t
  asserts : ∀ s : State, P s → P s.assertReset
  resets : ∀ s : State, P s.afterReset

theorem KeptByParts.exec_keeps {P : State → Prop} (h : KeptByParts P) {i : Instr} {s t : State} (hr : s.inReset = false)
    (hs : P s) (hx : exec i s = .next t) : P t := by
  rw [exec_eq_perform] at hx
  rcases perform_cases hx with ⟨_, rfl⟩ | ⟨hb, k, _, rfl⟩ | ⟨hb, _, hrun⟩ | ⟨hb, hc, _, rfl⟩
  · exact h.record _ _ hs
  · exact h.record _ _ (h.fallback _ _ ((busy_eq_false_iff s).1 hb) hs)
  · exact h.completes _ _ _ ((busy_eq_false_iff s).1 hb) hs hrun
  · exact h.starts _ _ ((busy_eq_false_iff s).1 hb) hr hc hs

theorem KeptByParts.issue_keeps {P : State → Prop} (h : KeptByParts P) (i : Instr) {s : State} (hi : s.inflight = none)
    (hr : s.inReset = false) (hs : P s) : P (s.issue i (meaningOf i)) := by
  rcases issue_cases s i (meaningOf i) with ⟨k, _, he⟩ | ⟨hc, he⟩
  · rw [he]
    exact h.record _ _ (h.fallback _ _ hi hs)
  · rw [he]
    exact h.starts _ _ hi hr hc hs

theorem KeptByParts.complete_keeps {P : State → Prop} (h : KeptByParts P) {s : State} (hs : P s) : P s.complete := by
  rcases complete_cases s with he | ⟨f, hf, hrun⟩
  · rw [he]
    exact hs
  · exact h.finishes _ _ _ hf hs hrun

theorem KeptByParts.writeStatus_keeps {P : State → Prop} (h : KeptByParts P) {s : State} (w : Word) (hs : P s) :
    P (s.writeStatus w) := by
  unfold State.writeStatus
  split
  · exact h.clear _ hs
  · exact hs

theorem KeptByParts.reply_keeps {P : State → Prop} (h : KeptByParts P) {s : State} (r : Response) (hs : P s) :
    P { s with reply := r } := h.bookkeeping s s.arrivals r s.freeReads hs

theorem KeptByParts.hostRead_keeps {P : State → Prop} (h : KeptByParts P) {s : State} (off : Nat) (hs : P s) :
    P (s.hostRead off) := by
  unfold State.hostRead
  split
  · split
    · exact h.bookkeeping s s.arrivals _ _ hs
    · exact h.reply_keeps _ hs
  · exact h.reply_keeps _ hs

theorem KeptByParts.writeWord_keeps {P : State → Prop} (h : KeptByParts P) {s : State} {off : Nat} (w : Word)
    (hi : s.inflight = none) (h4 : off % 4 = 0) (hs : P s) : P (s.writeWord off w) := by
  unfold State.writeWord
  split
  · exact h.writeStatus_keeps _ hs
  · split
    · exact h.ram _ _ _ hi (by assumption) h4 hs
    · exact h.register _ _ _ hi hs

theorem KeptByParts.writeCommand_keeps {P : State → Prop} (h : KeptByParts P) {s t : State} {w : Word}
    (hi : s.inflight = none) (hr : s.inReset = false) (hs : P s) (hx : writeCommand w s = .next t) : P t := by
  unfold writeCommand at hx
  split at hx
  · cases hx
    exact h.record _ _ hs
  · split at hx
    · refine h.exec_keeps ?_ ?_ hx
      · unfold State.dropCompletion
        split <;> exact hr
      · unfold State.dropCompletion
        split
        · exact h.bookkeeping s _ _ _ hs
        · exact hs
    · cases hx
      exact h.issue_keeps _ hi hr hs

theorem KeptByParts.deliverWrite_keeps {P : State → Prop} (h : KeptByParts P) {s t : State} {off : Offset} {width : Width}
    {w : Word} (hr : s.inReset = false) (hs : P s) (hx : deliverWrite off width w s = .next t) : P t := by
  unfold deliverWrite at hx
  split at hx
  · cases hx
    exact h.reply_keeps _ hs
  · rename_i hok
    split at hx
    · cases hx
      unfold State.writeWhileBusy
      split
      · exact h.writeStatus_keeps _ (h.reply_keeps _ hs)
      · exact h.record _ _ (h.reply_keeps _ hs)
    · rename_i hb
      have hi : s.inflight = none := (busy_eq_false_iff s).1 (by simpa using hb)
      split at hx
      · exact h.writeCommand_keeps (s := s.answerAccepted) hi hr (h.reply_keeps _ hs) hx
      · cases hx
        refine h.writeWord_keeps (s := s.answerAccepted) _ hi ?_ (h.reply_keeps _ hs)
        simp only [accessOk, Bool.not_eq_true', Bool.and_eq_false_iff, not_or, beq_eq_false_iff_ne, ne_eq, not_not] at hok
        exact hok.2

/-- A property that survives every part of a step survives every step. -/
theorem KeptByParts.step_keeps {P : State → Prop} (h : KeptByParts P) {s t : State} (hs : P s) (hx : step s = .next t) :
    P t := by
  unfold step at hx
  split at hx
  · rename_i e rest _
    have hu : P { s with arrivals := rest } := h.bookkeeping s rest s.reply s.freeReads hs
    generalize { s with arrivals := rest } = u at hx hu
    unfold deliver at hx
    split at hx
    · cases hx
      cases e with
      | read => exact h.reply_keeps _ hu
      | write => exact h.reply_keeps _ hu
      | completion => exact h.reply_keeps _ hu
      | resetAssert => exact h.reply_keeps _ hu
      | resetRelease => exact h.resets _
    · rename_i hr
      have hr : u.inReset = false := by simpa using hr
      cases e with
      | read off width =>
        cases hx
        unfold State.deliverRead
        split
        · exact h.hostRead_keeps _ hu
        · exact h.reply_keeps _ hu
      | write off width w => exact h.deliverWrite_keeps hr hu hx
      | completion =>
        cases hx
        exact h.complete_keeps (h.reply_keeps _ hu)
      | resetAssert =>
        cases hx
        exact h.asserts _ (h.reply_keeps _ hu)
      | resetRelease =>
        cases hx
        exact h.reply_keeps _ hu
  · cases hx
    unfold State.completeUnlessReset
    split
    · exact hs
    · exact h.complete_keeps hs

/-! ## One step on a given event -/

theorem step_event (s : State) (e : PortEvent) (rest : List PortEvent) :
    step { s with arrivals := e :: rest } = deliver e { s with arrivals := rest } := rfl

theorem deliver_inReset {s : State} (e : PortEvent) (h : s.inReset = true) :
    deliver e s = .next (s.deliverInReset e) := by
  simp [deliver, h]

theorem deliver_read {s : State} (off : Offset) (width : Width) (h : s.inReset = false) :
    deliver (.read off width) s = .next (s.deliverRead off width) := by
  simp [deliver, h]

theorem deliver_write {s : State} (off : Offset) (width : Width) (w : Word) (h : s.inReset = false) :
    deliver (.write off width w) s = deliverWrite off width w s := by
  simp [deliver, h]

theorem accessOk_aligned {off : Offset} (h : off.toNat % 4 = 0) : accessOk off .bits32 = true := by
  simp [accessOk, h]

theorem deliverWrite_busy {s : State} {off : Offset} (w : Word) (h4 : off.toNat % 4 = 0) (hb : s.busy = true) :
    deliverWrite off .bits32 w s = .next (s.answerAccepted.writeWhileBusy off.toNat w) := by
  simp [deliverWrite, accessOk_aligned h4, hb]

theorem deliverWrite_command {s : State} (w : Word) (hb : s.busy = false) :
    deliverWrite (BitVec.ofNat 15 offCmd) .bits32 w s = writeCommand w s.answerAccepted := by
  have hok : accessOk (BitVec.ofNat 15 offCmd) .bits32 = true := by decide
  have hoff : (BitVec.ofNat 15 offCmd).toNat = offCmd := by decide
  rw [deliverWrite, hok, hb, hoff]
  rfl

theorem deliverWrite_idle {s : State} {off : Offset} (w : Word) (h4 : off.toNat % 4 = 0) (hb : s.busy = false)
    (hc : off.toNat ≠ offCmd) :
    deliverWrite off .bits32 w s = .next (s.answerAccepted.writeWord off.toNat w) := by
  simp [deliverWrite, accessOk_aligned h4, hb, hc]

/-- No event stops the machine: every step answers a next state. -/
theorem step_answers_next (s : State) : ∃ t, step s = .next t := by
  unfold step
  split
  · unfold deliver
    split
    · exact ⟨_, rfl⟩
    · split
      · exact ⟨_, rfl⟩
      · unfold deliverWrite
        split
        · exact ⟨_, rfl⟩
        · split
          · exact ⟨_, rfl⟩
          · split
            · unfold writeCommand
              split
              · exact ⟨_, rfl⟩
              · split
                · rw [exec_eq_perform]
                  exact perform_answers_next _ _ _
                · exact ⟨_, rfl⟩
            · exact ⟨_, rfl⟩
      · exact ⟨_, rfl⟩
      · exact ⟨_, rfl⟩
      · exact ⟨_, rfl⟩
  · exact ⟨_, rfl⟩

end Sys2Proof.Machine
end

