-- ==== Sys2Proof/Laws/Draw.lean ====
section
/-! SUPPORT. The laws of the draws: what a draw changes, the sequence of draws, and that the number of draws at which the
rejection loop of `uniform` is decided is no bound on it: an output that is ever accepted is accepted before that. -/

namespace Sys2Proof.Machine

/-! ## What a draw changes -/

/-- The second state differs from the first in generator registers and RAM contents alone: all that the draws and the
shuffles change before the end of a run. -/
structure DrawFrame (s t : State) : Prop where
  err : t.err = s.err
  ecode : t.ecode = s.ecode
  cmwcSeeded : t.cmwcSeeded = s.cmwcSeeded
  permReady : t.permReady = s.permReady
  valueReady : t.valueReady = s.valueReady
  inflight : t.inflight = s.inflight
  opaLo : t.opaLo = s.opaLo
  opaHi : t.opaHi = s.opaHi
  opbLo : t.opbLo = s.opbLo
  opbHi : t.opbHi = s.opbHi
  opcLo : t.opcLo = s.opcLo
  opcHi : t.opcHi = s.opcHi
  resLo : t.resLo = s.resLo
  resHi : t.resHi = s.resHi
  xsShiftA : t.xsShiftA = s.xsShiftA
  xsShiftB : t.xsShiftB = s.xsShiftB
  xsShiftC : t.xsShiftC = s.xsShiftC
  kcount : t.kcount = s.kcount
  inReset : t.inReset = s.inReset
  arrivals : t.arrivals = s.arrivals
  reply : t.reply = s.reply
  resets : t.resets = s.resets
  freeReads : t.freeReads = s.freeReads

theorem DrawFrame.refl (s : State) : DrawFrame s s := by constructor <;> rfl

theorem DrawFrame.trans {s t u : State} (h1 : DrawFrame s t) (h2 : DrawFrame t u) : DrawFrame s u where
  err := h2.err.trans h1.err
  ecode := h2.ecode.trans h1.ecode
  cmwcSeeded := h2.cmwcSeeded.trans h1.cmwcSeeded
  permReady := h2.permReady.trans h1.permReady
  valueReady := h2.valueReady.trans h1.valueReady
  inflight := h2.inflight.trans h1.inflight
  opaLo := h2.opaLo.trans h1.opaLo
  opaHi := h2.opaHi.trans h1.opaHi
  opbLo := h2.opbLo.trans h1.opbLo
  opbHi := h2.opbHi.trans h1.opbHi
  opcLo := h2.opcLo.trans h1.opcLo
  opcHi := h2.opcHi.trans h1.opcHi
  resLo := h2.resLo.trans h1.resLo
  resHi := h2.resHi.trans h1.resHi
  xsShiftA := h2.xsShiftA.trans h1.xsShiftA
  xsShiftB := h2.xsShiftB.trans h1.xsShiftB
  xsShiftC := h2.xsShiftC.trans h1.xsShiftC
  kcount := h2.kcount.trans h1.kcount
  inReset := h2.inReset.trans h1.inReset
  arrivals := h2.arrivals.trans h1.arrivals
  reply := h2.reply.trans h1.reply
  resets := h2.resets.trans h1.resets
  freeReads := h2.freeReads.trans h1.freeReads

theorem xsDraw_frame (s : State) : DrawFrame s (xsDraw s).2 := by constructor <;> rfl

theorem minstdDraw_frame (s : State) : DrawFrame s (minstdDraw s).2 := by constructor <;> rfl

theorem marsDraw_frame (s : State) : DrawFrame s (marsDraw s).2 := by constructor <;> rfl

theorem cmwcDraw_frame (s : State) : DrawFrame s (cmwcDraw s).2 := by constructor <;> rfl

theorem combDraw_frame (s : State) : DrawFrame s (combDraw s).2 :=
  ((cmwcDraw_frame s).trans (minstdDraw_frame _)).trans (xsDraw_frame _)

/-- A draw changes nothing but generator registers and RAM. -/
theorem draw_frame (g : Gsel) (s : State) : DrawFrame s (draw g s).2 := by
  cases g with
  | xs => exact xsDraw_frame s
  | minstd => exact minstdDraw_frame s
  | mars => exact marsDraw_frame s
  | cmwc => exact cmwcDraw_frame s
  | comb => exact combDraw_frame s

theorem swapPerm_frame (s : State) (i j : Nat) : DrawFrame s (s.swapPerm i j) := by constructor <;> rfl

theorem setPerm_frame (s : State) (k : Nat) (w : Word) : DrawFrame s (s.setPerm k w) := by constructor <;> rfl

theorem setValue_frame (s : State) (k : Nat) (d : DWord) : DrawFrame s (s.setValue k d) := by constructor <;> rfl

theorem placeInsideOut_frame (s : State) (i j : Nat) : DrawFrame s (s.placeInsideOut i j) := by
  unfold State.placeInsideOut
  split
  · exact setPerm_frame _ _ _
  · constructor <;> rfl

theorem fillIdentity_frame (s : State) : DrawFrame s s.fillIdentity := by constructor <;> simp

/-- The COMB draw's CMWC part decides the RAM, the carry and the ring index. -/
theorem combDraw_mem (s : State) : (combDraw s).2.mem = (cmwcDraw s).2.mem := rfl

theorem combDraw_carry (s : State) : (combDraw s).2.cmwcCarry = (cmwcDraw s).2.cmwcCarry := rfl

theorem combDraw_index (s : State) : (combDraw s).2.cmwcIndex = (cmwcDraw s).2.cmwcIndex := rfl

theorem cmwcDraw_mem (s : State) :
    (cmwcDraw s).2.mem = Memory.writeWord s.mem (qOff s.nextIndex.toNat) (cmwcDraw s).1 := rfl

/-- The RAM contents after a draw: one `Q` word written, or none. -/
theorem draw_mem (g : Gsel) (s : State) :
    (draw g s).2.mem = s.mem ∨
    ∃ w, (draw g s).2.mem = Memory.writeWord s.mem (qOff s.nextIndex.toNat) w := by
  cases g with
  | xs => exact .inl rfl
  | minstd => exact .inl rfl
  | mars => exact .inl (by simp only [draw, marsDraw])
  | cmwc => exact .inr ⟨_, cmwcDraw_mem s⟩
  | comb => exact .inr ⟨_, (combDraw_mem s).trans (cmwcDraw_mem s)⟩

theorem draw_resets (g : Gsel) (s : State) : (draw g s).2.resets = s.resets := (draw_frame g s).resets

/-- A draw touches no RAM byte below the ring. -/
theorem draw_byteAt_below (g : Gsel) (s : State) {x : Nat} (h : x < 0x4000) :
    (draw g s).2.byteAt x = s.byteAt x := by
  rcases draw_mem g s with hm | ⟨w, hm⟩
  · exact byteAt_congr hm (draw_resets g s) x
  · rw [byteAt_congr (t := s.setQ s.nextIndex.toNat w) hm (draw_resets g s), byteAt_setQ_below _ _ _ h]

/-! ## The sequence of draws -/

theorem drawState_succ (g : Gsel) (n : Nat) (s : State) : drawState g (n + 1) s = (draw g (drawState g n s)).2 := by
  induction n generalizing s with
  | zero => rfl
  | succ n ih => exact ih (draw g s).2

theorem drawState_add (g : Gsel) (m n : Nat) (s : State) : drawState g (m + n) s = drawState g n (drawState g m s) := by
  induction m generalizing s with
  | zero => simp [drawState]
  | succ m ih =>
    rw [Nat.succ_add]
    exact ih (draw g s).2

theorem drawOut_succ (g : Gsel) (n : Nat) (s : State) : drawOut g (n + 1) s = drawOut g n (draw g s).2 := rfl

theorem drawState_resets (g : Gsel) (n : Nat) (s : State) : (drawState g n s).resets = s.resets := by
  induction n generalizing s with
  | zero => rfl
  | succ n ih => exact (ih _).trans (draw_resets g s)

theorem drawState_byteAt_below (g : Gsel) (n : Nat) (s : State) {x : Nat} (h : x < 0x4000) :
    (drawState g n s).byteAt x = s.byteAt x := by
  induction n generalizing s with
  | zero => rfl
  | succ n ih => exact (ih _).trans (draw_byteAt_below g s h)

/-- Draws of a generator change nothing but generator registers and RAM. -/
theorem drawState_frame (g : Gsel) (n : Nat) (s : State) : DrawFrame s (drawState g n s) := by
  induction n generalizing s with
  | zero => exact DrawFrame.refl s
  | succ n ih => exact (draw_frame g s).trans (ih _)

/-! ## Outputs as a function of the generator's own state -/

/-- When a part of the state decides the next output and its own next value, the outputs are those of the iterated
part. -/
theorem drawOut_of_key {K : Type} {g : Gsel} (keyOf : State → K) (next : K → K) (out : K → Word) (P : State → Prop)
    (hP : ∀ s, P s → P (draw g s).2) (hk : ∀ s, P s → keyOf (draw g s).2 = next (keyOf s))
    (ho : ∀ s, P s → (draw g s).1 = out (keyOf s)) (n : Nat) (s : State) (hs : P s) :
    drawOut g n s = out (next^[n] (keyOf s)) := by
  induction n generalizing s with
  | zero => exact ho s hs
  | succ n ih => rw [drawOut_succ, ih _ (hP s hs), hk s hs, Function.iterate_succ_apply]

/-- The three shifts of XorShift are what they were. -/
def sameShifts (s t : State) : Prop := t.xsShiftA = s.xsShiftA ∧ t.xsShiftB = s.xsShiftB ∧ t.xsShiftC = s.xsShiftC

theorem sameShifts_draw {g : Gsel} {s t : State} (h : sameShifts s t) : sameShifts s (draw g t).2 :=
  ⟨(draw_frame g t).xsShiftA.trans h.1, (draw_frame g t).xsShiftB.trans h.2.1, (draw_frame g t).xsShiftC.trans h.2.2⟩

/-- The next value of MINSTD_STATE. -/
def minstdNext (x : Word) : Word := BitVec.ofNat 32 (minstdStep x.toNat)

/-- The next value of MARS_STATE. -/
def marsNext (x : Word) : Word := BitVec.ofNat 32 (marsStep x.toNat)

theorem xs_outputs (n : Nat) (s : State) :
    drawOut .xs n s = xorShift s.xsShiftA s.xsShiftB s.xsShiftC
      ((xorShift s.xsShiftA s.xsShiftB s.xsShiftC)^[n] s.xsState) := by
  refine drawOut_of_key State.xsState _ _ (sameShifts s) (fun t ht => sameShifts_draw ht) ?_ ?_ n s ⟨rfl, rfl, rfl⟩
  · rintro t ⟨h1, h2, h3⟩
    simp only [draw, xsDraw, h1, h2, h3]
  · rintro t ⟨h1, h2, h3⟩
    simp only [draw, xsDraw, h1, h2, h3]

theorem minstd_outputs (n : Nat) (s : State) : drawOut .minstd n s = minstdNext (minstdNext^[n] s.minstdState) := by
  refine drawOut_of_key State.minstdState _ _ (fun _ => True) (fun _ h => h) ?_ ?_ n s trivial
  · intro t _
    simp only [draw, minstdDraw, minstdNext]
  · intro t _
    simp only [draw, minstdDraw, minstdNext]

theorem mars_outputs (n : Nat) (s : State) : drawOut .mars n s = marsNext (marsNext^[n] s.marsState) := by
  refine drawOut_of_key State.marsState _ _ (fun _ => True) (fun _ h => h) ?_ ?_ n s trivial
  · intro t _
    simp only [draw, marsDraw, marsNext]
  · intro t _
    simp only [draw, marsDraw, marsNext]

/-- When a draw leaves the generator where it was, every later output is the same. -/
theorem drawIsFixed_repeats {g : Gsel} {s : State} (h : drawIsFixed g s (draw g s).2 = true) (n : Nat) :
    drawOut g n s = drawOut g 0 s := by
  cases g with
  | xs =>
    have hx : xorShift s.xsShiftA s.xsShiftB s.xsShiftC s.xsState = s.xsState := by
      simp only [drawIsFixed, draw, xsDraw, beq_iff_eq] at h
      exact h.symm
    rw [xs_outputs, xs_outputs, Function.iterate_fixed hx, Function.iterate_zero, id]
  | minstd =>
    have hx : minstdNext s.minstdState = s.minstdState := by
      simp only [drawIsFixed, draw, minstdDraw, beq_iff_eq] at h
      exact h.symm
    rw [minstd_outputs, minstd_outputs, Function.iterate_fixed hx, Function.iterate_zero, id]
  | mars =>
    have hx : marsNext s.marsState = s.marsState := by
      simp only [drawIsFixed, draw, marsDraw, beq_iff_eq] at h
      exact h.symm
    rw [mars_outputs, mars_outputs, Function.iterate_fixed hx, Function.iterate_zero, id]
  | cmwc => cases h
  | comb => cases h

/-! ## `drawUntil` -/

/-- Everything `drawUntil` can answer: the first accepted output, with the state after that draw. -/
theorem drawUntil_some {g : Gsel} {accept : Word → Bool} {n : Nat} {s t : State} {r : Word}
    (h : drawUntil g accept n s = some (r, t)) :
    ∃ k < n, (∀ j < k, accept (drawOut g j s) = false) ∧ accept (drawOut g k s) = true ∧ r = drawOut g k s ∧
      t = drawState g (k + 1) s := by
  induction n generalizing s with
  | zero => simp [drawUntil] at h
  | succ n ih =>
    simp only [drawUntil] at h
    split at h
    · rename_i ha
      injection h with h
      exact ⟨0, by omega, by simp, ha, (congrArg Prod.fst h).symm, (congrArg Prod.snd h).symm⟩
    · rename_i ha
      split at h
      · cases h
      · obtain ⟨k, hk, hrej, hacc, hr, ht⟩ := ih h
        refine ⟨k + 1, by omega, ?_, hacc, hr, ht⟩
        intro j hj
        cases j with
        | zero => simpa [drawOut, drawState] using ha
        | succ j => exact hrej j (by omega)

/-- An output accepted within the number of draws is found. -/
theorem drawUntil_of_accepted {g : Gsel} {accept : Word → Bool} {n k : Nat} {s : State} (hk : k < n)
    (hrej : ∀ j < k, accept (drawOut g j s) = false) (hacc : accept (drawOut g k s) = true) :
    drawUntil g accept n s = some (drawOut g k s, drawState g (k + 1) s) := by
  induction n generalizing s k with
  | zero => omega
  | succ n ih =>
    simp only [drawUntil]
    cases k with
    | zero =>
      have ha : accept (draw g s).1 = true := hacc
      rw [if_pos ha]
      rfl
    | succ k =>
      have ha : accept (draw g s).1 = false := hrej 0 (by omega)
      rw [if_neg (by simp [ha])]
      rw [if_neg]
      · rw [ih (k := k) (by omega) (fun j hj => hrej (j + 1) (by omega)) hacc]
        rfl
      · intro hf
        have hrep := drawIsFixed_repeats hf (k + 1)
        rw [hrep] at hacc
        have h0 : drawOut g 0 s = (draw g s).1 := rfl
        rw [h0, ha] at hacc
        cases hacc

/-! ## No bound: the number of draws at which the loop is decided -/

/-- In a sequence over a finite set of keys, a property of the key that ever holds holds within as many steps as there
are keys. -/
theorem exists_lt_card_of_exists {K : Type} [Fintype K] (next : K → K) (P : K → Prop) (x : K) {n : Nat}
    (hn : P (next^[n] x)) : ∃ k < Fintype.card K, P (next^[k] x) := by
  induction n using Nat.strong_induction_on with
  | _ n ih =>
    by_cases hlt : n < Fintype.card K
    · exact ⟨n, hlt, hn⟩
    · have hcard : Fintype.card K < Fintype.card (Fin (n + 1)) := by
        rw [Fintype.card_fin]
        omega
      obtain ⟨i, j, hij, heq⟩ := Fintype.exists_ne_map_eq_of_card_lt (fun i : Fin (n + 1) => next^[i.val] x) hcard
      have key : ∀ a b : Nat, a < b → b ≤ n → next^[a] x = next^[b] x → ∃ k < Fintype.card K, P (next^[k] x) := by
        intro a b hab hbn he
        refine ih (a + (n - b)) (by omega) ?_
        have h1 : next^[n] x = next^[n - b] (next^[b] x) := by
          rw [← Function.iterate_add_apply]
          congr 1
          omega
        rw [h1, ← he, ← Function.iterate_add_apply] at hn
        rw [Nat.add_comm]
        exact hn
      rcases Nat.lt_or_gt_of_ne (fun h => hij (Fin.ext h)) with h | h
      · exact key i j h (by omega) heq
      · exact key j i h (by omega) heq.symm

/-- What decides the later outputs of CMWC: the ring, the carry and the index. -/
abbrev RingKey := (Fin 4096 → Word) × Word × BitVec 12

/-- The ring, the carry and the index of a state. -/
def ringKey (s : State) : RingKey := (fun k => s.q k.val, s.cmwcCarry, s.cmwcIndex)

/-- The ring word the next CMWC draw replaces. -/
def ringWord (k : RingKey) : Fin 4096 := (k.2.2 + 1#12).toFin

/-- The next CMWC output, and the next carry. -/
def ringStep (k : RingKey) : Word × Word := cmwcStep (k.1 (ringWord k)) k.2.1

/-- The key after one CMWC draw. -/
def ringNext (k : RingKey) : RingKey :=
  (Function.update k.1 (ringWord k) (ringStep k).1, (ringStep k).2, k.2.2 + 1#12)

theorem cmwcDraw_out (s : State) : (cmwcDraw s).1 = (ringStep (ringKey s)).1 := rfl

theorem cmwcDraw_q (s : State) (k : Nat) : (cmwcDraw s).2.q k = (s.setQ s.nextIndex.toNat (cmwcDraw s).1).q k :=
  wordAt_congr fun _ _ => byteAt_congr (t := s.setQ s.nextIndex.toNat (cmwcDraw s).1) (cmwcDraw_mem s)
    (cmwcDraw_frame s).resets _

theorem ringKey_cmwcDraw (s : State) : ringKey (cmwcDraw s).2 = ringNext (ringKey s) := by
  have h1 : (ringKey (cmwcDraw s).2).1 = (ringNext (ringKey s)).1 := by
    funext k
    change (cmwcDraw s).2.q k.val = Function.update (ringKey s).1 (ringWord (ringKey s)) (ringStep (ringKey s)).1 k
    rw [cmwcDraw_q]
    by_cases hk : k = ringWord (ringKey s)
    · rw [hk, Function.update_self]
      exact q_setQ_same _ _ _
    · rw [Function.update_of_ne hk]
      exact q_setQ_other _ _ fun he => hk (Fin.ext he)
  exact Prod.ext h1 rfl

theorem card_bitVec (n : Nat) : Fintype.card (BitVec n) = 2 ^ n := by
  rw [Fintype.card_congr ⟨BitVec.toFin, BitVec.ofFin, fun _ => rfl, fun _ => rfl⟩, Fintype.card_fin]

theorem card_ringKey : Fintype.card RingKey = 2 ^ (32 * 4096 + 32 + 12) := by
  rw [Fintype.card_prod, Fintype.card_prod, Fintype.card_fun]
  rw [card_bitVec, card_bitVec, Fintype.card_fin, ← pow_mul, ← pow_add, ← pow_add]

theorem draw_cmwc (s : State) : draw .cmwc s = cmwcDraw s := rfl

theorem draw_comb (s : State) : draw .comb s = combDraw s := rfl

theorem cmwc_outputs (n : Nat) (s : State) : drawOut .cmwc n s = (ringStep (ringNext^[n] (ringKey s))).1 := by
  refine drawOut_of_key (g := .cmwc) ringKey ringNext (fun k => (ringStep k).1) (fun _ => True) (fun _ h => h) ?_ ?_ n s
    trivial
  · intro t _
    rw [draw_cmwc]
    exact ringKey_cmwcDraw t
  · intro t _
    rw [draw_cmwc]
    exact cmwcDraw_out t

theorem ringKey_combDraw (s : State) : ringKey (combDraw s).2 = ringKey (cmwcDraw s).2 :=
  Prod.ext (funext fun _ => wordAt_congr fun _ _ => byteAt_congr (combDraw_mem s)
    ((combDraw_frame s).resets.trans (cmwcDraw_frame s).resets.symm) _)
    (Prod.ext (combDraw_carry s) (combDraw_index s))

theorem combDraw_minstd (s : State) : (combDraw s).2.minstdState = minstdNext s.minstdState := rfl

theorem combDraw_xs (s : State) :
    (combDraw s).2.xsState = xorShift s.xsShiftA s.xsShiftB s.xsShiftC s.xsState := rfl

theorem combDraw_out (s : State) :
    (combDraw s).1 = ((cmwcDraw s).1 ^^^ minstdNext s.minstdState)
      + xorShift s.xsShiftA s.xsShiftB s.xsShiftC s.xsState := rfl

/-- What decides the later outputs of COMB, beside the shifts: the ring key, MINSTD_STATE and XS_STATE. -/
abbrev CombKey := RingKey × Word × Word

/-- The COMB key of a state. -/
def combKey (s : State) : CombKey := (ringKey s, s.minstdState, s.xsState)

/-- The key after one COMB draw with the given shifts. -/
def combNextKey (a b c : BitVec 5) (k : CombKey) : CombKey := (ringNext k.1, minstdNext k.2.1, xorShift a b c k.2.2)

/-- The COMB output that follows a key. -/
def combOut (a b c : BitVec 5) (k : CombKey) : Word := ((ringStep k.1).1 ^^^ minstdNext k.2.1) + xorShift a b c k.2.2

theorem comb_outputs (n : Nat) (s : State) :
    drawOut .comb n s = combOut s.xsShiftA s.xsShiftB s.xsShiftC
      ((combNextKey s.xsShiftA s.xsShiftB s.xsShiftC)^[n] (combKey s)) := by
  refine drawOut_of_key combKey _ _ (sameShifts s) (fun t ht => sameShifts_draw ht) ?_ ?_ n s ⟨rfl, rfl, rfl⟩
  · rintro t ⟨h1, h2, h3⟩
    rw [draw_comb]
    simp only [combKey, combNextKey, ringKey_combDraw, ringKey_cmwcDraw, combDraw_minstd, combDraw_xs, h1, h2, h3]
  · rintro t ⟨h1, h2, h3⟩
    rw [draw_comb, combDraw_out, cmwcDraw_out]
    simp only [combKey, combOut, h1, h2, h3]

theorem card_combKey : Fintype.card CombKey = generatorStates .comb := by
  rw [Fintype.card_prod RingKey, Fintype.card_prod Word, card_ringKey, card_bitVec, generatorStates,
    pow_add _ (32 * 4096 + 32 + 12 + 32) 32, pow_add _ (32 * 4096 + 32 + 12) 32, Nat.mul_assoc]

/-- An output that is ever accepted is accepted within as many draws as the generator has states: the point at which
`uniformDraw` decides its loop is no bound on it (rule R266). -/
theorem accepted_in_time (g : Gsel) (accept : Word → Bool) (s : State) {n : Nat} (h : accept (drawOut g n s) = true) :
    ∃ k < generatorStates g, accept (drawOut g k s) = true := by
  cases g with
  | xs =>
    simp only [xs_outputs] at h ⊢
    have := exists_lt_card_of_exists _ (fun x => accept (xorShift s.xsShiftA s.xsShiftB s.xsShiftC x) = true) _ h
    rwa [card_bitVec] at this
  | minstd =>
    simp only [minstd_outputs] at h ⊢
    have := exists_lt_card_of_exists _ (fun x => accept (minstdNext x) = true) _ h
    rwa [card_bitVec] at this
  | mars =>
    simp only [mars_outputs] at h ⊢
    have := exists_lt_card_of_exists _ (fun x => accept (marsNext x) = true) _ h
    rwa [card_bitVec] at this
  | cmwc =>
    simp only [cmwc_outputs] at h ⊢
    have := exists_lt_card_of_exists _ (fun x => accept (ringStep x).1 = true) _ h
    rwa [card_ringKey] at this
  | comb =>
    simp only [comb_outputs] at h ⊢
    have := exists_lt_card_of_exists _
      (fun x => accept (combOut s.xsShiftA s.xsShiftB s.xsShiftC x) = true) _ h
    rwa [card_combKey] at this

/-! ## `uniformDraw` is the unbounded `uniform` of rule R133 -/

/-- The loop finds the first accepted output, whenever there is one. -/
theorem drawUntil_of_first {g : Gsel} {accept : Word → Bool} {k : Nat} {s : State}
    (hrej : ∀ j < k, accept (drawOut g j s) = false) (hacc : accept (drawOut g k s) = true) :
    drawUntil g accept (generatorStates g) s = some (drawOut g k s, drawState g (k + 1) s) := by
  obtain ⟨m, hm, ha⟩ := accepted_in_time g accept s hacc
  refine drawUntil_of_accepted (lt_of_le_of_lt ?_ hm) hrej hacc
  by_contra hlt
  rw [hrej m (by omega)] at ha
  cases ha

/-- What `uniformDraw` answers is what rule R133's procedure returns. -/
theorem uniformDraw_sound {g : Gsel} {lower upper r : Word} {s t : State} (hle : lower ≤ upper)
    (h : uniformDraw g lower upper s = some (r, t)) :
    UniformReturns g lower.toNat upper.toNat s r.toNat t := by
  have hle' : lower.toNat ≤ upper.toNat := hle
  unfold uniformDraw at h
  simp only at h
  split at h
  · injection h with h
    obtain ⟨rfl, rfl⟩ := Prod.mk.inj h
    exact .degenerate (by omega)
  · split at h
    · rename_i r' t' hd
      injection h with h
      obtain ⟨rfl, rfl⟩ := Prod.mk.inj h
      obtain ⟨k, _, hrej, hacc, rfl, rfl⟩ := drawUntil_some hd
      have hlt := (drawOut g k s).isLt
      have hu := upper.isLt
      have hmod : (drawOut g k s).toNat % (upper.toNat - lower.toNat) < upper.toNat - lower.toNat :=
        Nat.mod_lt _ (by omega)
      rw [BitVec.toNat_ofNat, Nat.mod_eq_of_lt (by omega)]
      exact .accepted k (by omega) ⟨fun j hj => Nat.lt_of_not_le (of_decide_eq_false (hrej j hj)), of_decide_eq_true hacc⟩
    · cases h

/-- What rule R133's procedure returns, `uniformDraw` answers. -/
theorem uniformDraw_complete {g : Gsel} {lower upper : Word} {r : Nat} {s t : State}
    (h : UniformReturns g lower.toNat upper.toNat s r t) : uniformDraw g lower upper s = some (BitVec.ofNat 32 r, t) := by
  unfold uniformDraw
  simp only
  cases h with
  | degenerate he =>
    rw [if_pos (by omega), BitVec.ofNat_toNat, BitVec.setWidth_eq]
  | accepted n hlt hf =>
    rw [if_neg (by omega), drawUntil_of_first (k := n)]
    · exact fun j hj => decide_eq_false (Nat.not_le_of_lt (hf.1 j hj))
    · exact decide_eq_true hf.2

/-- The result lies in `[lower, upper]`, and below `upper` unless the range is empty (rule R136). -/
theorem uniformDraw_range {g : Gsel} {lower upper r : Word} {s t : State} (hle : lower ≤ upper)
    (h : uniformDraw g lower upper s = some (r, t)) :
    lower.toNat ≤ r.toNat ∧ (r.toNat < upper.toNat ∨ r = lower ∧ lower = upper) := by
  have hle' : lower.toNat ≤ upper.toNat := hle
  generalize hr : r.toNat = n
  have hs := uniformDraw_sound hle h
  rw [hr] at hs
  cases hs with
  | degenerate he =>
    exact ⟨by omega, .inr ⟨BitVec.eq_of_toNat_eq hr, BitVec.eq_of_toNat_eq he.symm⟩⟩
  | accepted m hlt hf =>
    have hmod := Nat.mod_lt (drawOut g m s).toNat (show 0 < upper.toNat - lower.toNat by omega)
    exact ⟨by omega, .inl (by omega)⟩

theorem uniformDraw_frame {g : Gsel} {lower upper r : Word} {s t : State}
    (h : uniformDraw g lower upper s = some (r, t)) : DrawFrame s t := by
  unfold uniformDraw at h
  simp only at h
  split at h
  · injection h with h
    obtain ⟨rfl, rfl⟩ := Prod.mk.inj h
    exact DrawFrame.refl s
  · split at h
    · rename_i r' t' hd
      injection h with h
      obtain ⟨rfl, rfl⟩ := Prod.mk.inj h
      obtain ⟨k, _, _, _, _, rfl⟩ := drawUntil_some hd
      exact drawState_frame g _ s
    · cases h

end Sys2Proof.Machine
end

