-- ==== Sys2Proof/Laws/Float.lean ====
section
/-! SUPPORT. The laws of binary64 patterns: the sign and the magnitude of a packed or a negated pattern, the classes, the
order of the magnitudes, and each operation on finite operands. -/

namespace Sys2Proof.Machine

/-! ## Sign and magnitude -/

theorem f64Mag_lt (d : DWord) : f64Mag d < 2 ^ 63 := Nat.mod_lt _ (by decide)

theorem f64Neg_iff (d : DWord) : f64Neg d = true ↔ 2 ^ 63 ≤ d.toNat := by
  have h : f64Neg d = d.msb := by simp [f64Neg, BitVec.msb_eq_getLsbD_last]
  rw [h, BitVec.msb_eq_decide]
  simp

/-- A pattern is its sign and its magnitude. -/
theorem f64Pack_neg_mag (d : DWord) : f64Pack (f64Neg d) (f64Mag d) = d := by
  have hd := d.isLt
  apply BitVec.eq_of_toNat_eq
  rw [f64Pack, BitVec.toNat_ofNat]
  cases h : f64Neg d with
  | true =>
    have := (f64Neg_iff d).1 h
    simp only [f64Mag, if_true]
    omega
  | false =>
    have : ¬ 2 ^ 63 ≤ d.toNat := fun hc => by rw [(f64Neg_iff d).2 hc] at h; cases h
    simp only [f64Mag, Bool.false_eq_true, if_false]
    omega

theorem f64Pack_toNat (neg : Bool) {m : Nat} (h : m < 2 ^ 63) :
    (f64Pack neg m).toNat = if neg then 2 ^ 63 + m else m := by
  rw [f64Pack, BitVec.toNat_ofNat]
  cases neg <;> simp only [if_true, Bool.false_eq_true, if_false] <;> omega

@[simp] theorem f64Mag_pack (neg : Bool) {m : Nat} (h : m < 2 ^ 63) : f64Mag (f64Pack neg m) = m := by
  rw [f64Mag, f64Pack_toNat neg h]
  cases neg <;> simp only [if_true, Bool.false_eq_true, if_false] <;> omega

@[simp] theorem f64Neg_pack (neg : Bool) {m : Nat} (h : m < 2 ^ 63) : f64Neg (f64Pack neg m) = neg := by
  have hi := f64Neg_iff (f64Pack neg m)
  rw [f64Pack_toNat neg h] at hi
  cases neg with
  | true => exact hi.2 (by simp)
  | false =>
    rw [Bool.eq_false_iff]
    intro hc
    have := hi.1 hc
    simp only [Bool.false_eq_true, if_false] at this
    omega

@[simp] theorem f64Mag_negate (d : DWord) : f64Mag (f64Negate d) = f64Mag d := f64Mag_pack _ (f64Mag_lt d)

@[simp] theorem f64Neg_negate (d : DWord) : f64Neg (f64Negate d) = !f64Neg d := f64Neg_pack _ (f64Mag_lt d)

/-! ## The classes -/

@[simp] theorem f64IsNaN_negate (d : DWord) : f64IsNaN (f64Negate d) = f64IsNaN d := by simp [f64IsNaN]

@[simp] theorem f64IsInf_negate (d : DWord) : f64IsInf (f64Negate d) = f64IsInf d := by simp [f64IsInf]

@[simp] theorem f64IsFinite_negate (d : DWord) : f64IsFinite (f64Negate d) = f64IsFinite d := by simp [f64IsFinite]

theorem f64IsNaN_of_finite {d : DWord} (h : f64IsFinite d = true) : f64IsNaN d = false := by
  simp only [f64IsFinite, f64IsNaN, decide_eq_true_eq, decide_eq_false_iff_not] at *
  omega

theorem f64IsInf_of_finite {d : DWord} (h : f64IsFinite d = true) : f64IsInf d = false := by
  simp only [f64IsFinite, f64IsInf, decide_eq_true_eq, beq_eq_false_iff_ne] at *
  omega

theorem f64IsNaN_of_inf {d : DWord} (h : f64IsInf d = true) : f64IsNaN d = false := by
  simp only [f64IsInf, f64IsNaN, beq_iff_eq, decide_eq_false_iff_not] at *
  omega

/-- A pattern that is not finite is infinite or a NaN. -/
theorem f64_not_finite {d : DWord} (h : f64IsFinite d = false) : f64IsInf d = true ∨ f64IsNaN d = true := by
  simp only [f64IsFinite, f64IsInf, f64IsNaN, decide_eq_false_iff_not, beq_iff_eq, decide_eq_true_eq] at *
  omega

/-! ## Exact values -/

@[simp] theorem f64Units_negate (d : DWord) : f64Units (f64Negate d) = f64Units d := by simp [f64Units]

@[simp] theorem f64Scaled_negate (d : DWord) : f64Scaled (f64Negate d) = -f64Scaled d := by
  cases h : f64Neg d <;> simp [f64Scaled, h]

/-- The value of a magnitude pattern grows strictly from one pattern to the next, across an exponent step too. -/
theorem f64Units_lt_succ (m : Nat) :
    (if m / 2 ^ 52 = 0 then m % 2 ^ 52 else (2 ^ 52 + m % 2 ^ 52) * 2 ^ (m / 2 ^ 52 - 1)) <
      if (m + 1) / 2 ^ 52 = 0 then (m + 1) % 2 ^ 52
      else (2 ^ 52 + (m + 1) % 2 ^ 52) * 2 ^ ((m + 1) / 2 ^ 52 - 1) := by
  by_cases hc : m % 2 ^ 52 + 1 = 2 ^ 52
  · have hd : (m + 1) / 2 ^ 52 = m / 2 ^ 52 + 1 := by omega
    have hr : (m + 1) % 2 ^ 52 = 0 := by omega
    rw [hd, hr, if_neg (Nat.succ_ne_zero _), Nat.add_sub_cancel]
    by_cases h0 : m / 2 ^ 52 = 0
    · rw [if_pos h0, h0]
      omega
    · obtain ⟨e, he⟩ := Nat.exists_eq_succ_of_ne_zero h0
      rw [if_neg h0, he, Nat.succ_sub_one, Nat.pow_succ]
      have hp : 0 < 2 ^ e := Nat.two_pow_pos e
      calc (2 ^ 52 + m % 2 ^ 52) * 2 ^ e < (2 ^ 53) * 2 ^ e := Nat.mul_lt_mul_of_pos_right (by omega) hp
        _ = (2 ^ 52 + 0) * (2 ^ e * 2) := by ring
  · have hd : (m + 1) / 2 ^ 52 = m / 2 ^ 52 := by omega
    have hr : (m + 1) % 2 ^ 52 = m % 2 ^ 52 + 1 := by omega
    rw [hd, hr]
    split
    · omega
    · exact Nat.mul_lt_mul_of_pos_right (by omega) (Nat.two_pow_pos _)

/-- Finite or not, values are ordered as the magnitude patterns. -/
theorem f64Units_lt_iff (a b : DWord) : f64Units a < f64Units b ↔ f64Mag a < f64Mag b := by
  have hmono : StrictMono fun m : Nat =>
      if m / 2 ^ 52 = 0 then m % 2 ^ 52 else (2 ^ 52 + m % 2 ^ 52) * 2 ^ (m / 2 ^ 52 - 1) :=
    strictMono_nat_of_lt_succ f64Units_lt_succ
  exact hmono.lt_iff_lt

theorem f64Units_zero_iff (d : DWord) : f64Units d = 0 ↔ f64Mag d = 0 := by
  have h := f64Units_lt_iff 0#64 d
  have h0 : f64Units 0#64 = 0 := by decide
  have h1 : f64Mag 0#64 = 0 := by decide
  rw [h0, h1] at h
  omega

theorem f64Scaled_zero_iff (d : DWord) : f64Scaled d = 0 ↔ f64Mag d = 0 := by
  rw [← f64Units_zero_iff]
  unfold f64Scaled
  split <;> omega

/-- Rounding never passes the pattern of infinity. -/
theorem f64RoundMag_le (n d : Nat) : f64RoundMag n d ≤ f64InfMag := Nat.min_le_right _ _

theorem f64RoundMag_lt (n d : Nat) : f64RoundMag n d < 2 ^ 63 :=
  Nat.lt_of_le_of_lt (f64RoundMag_le n d) (by decide)

/-! ## Each operation on finite operands -/

/-- The sum of two finite doubles: one rounding of the exact sum, or a zero. -/
theorem fadd_finite {a b : DWord} (ha : f64IsFinite a = true) (hb : f64IsFinite b = true) :
    fadd a b = if f64Scaled a + f64Scaled b = 0 then f64Pack (f64Neg a && f64Neg b) 0
      else f64Pack (decide (f64Scaled a + f64Scaled b < 0)) (f64RoundMag (f64Scaled a + f64Scaled b).natAbs 1) := by
  simp [fadd, f64IsNaN_of_finite ha, f64IsNaN_of_finite hb, f64IsInf_of_finite ha, f64IsInf_of_finite hb]

/-- The product of two finite doubles: one rounding of the exact product. -/
theorem fmul_finite {a b : DWord} (ha : f64IsFinite a = true) (hb : f64IsFinite b = true) :
    fmul a b = f64Pack (f64Neg a != f64Neg b) (f64RoundMag (f64Units a * f64Units b) f64One) := by
  simp [fmul, f64IsNaN_of_finite ha, f64IsNaN_of_finite hb, f64IsInf_of_finite ha, f64IsInf_of_finite hb]

/-- The quotient of a finite double by a finite one that is no zero: one rounding of the exact quotient. -/
theorem fdiv_finite {a b : DWord} (ha : f64IsFinite a = true) (hb : f64IsFinite b = true) (h0 : f64Mag b ≠ 0) :
    fdiv a b = f64Pack (f64Neg a != f64Neg b) (f64RoundMag (f64Units a * f64One) (f64Units b)) := by
  simp [fdiv, f64IsNaN_of_finite ha, f64IsNaN_of_finite hb, f64IsInf_of_finite ha, f64IsInf_of_finite hb, h0]

/-- A difference is the sum with the second operand's sign turned (rule R10). -/
theorem fsub_eq (a b : DWord) : fsub a b = fadd a (f64Negate b) := rfl

end Sys2Proof.Machine
end

