-- ==== Sys2Proof/Laws/PerInstr.lean ====
section
/-! SUPPORT. The per-instruction family: the command word of every command, with every generator it can select, is legal
by rule R88. -/

namespace Sys2Proof.Laws.EncodeLegal

/-- The command word of the instruction breaks none of the conditions of rule R88. -/
def Statement (i : Instr) : Prop := legalWord (encode i) = true

theorem nop : Statement .nop := by unfold Statement; decide
theorem xsNext : Statement .xsNext := by unfold Statement; decide
theorem minstdNext : Statement .minstdNext := by unfold Statement; decide
theorem marsNext : Statement .marsNext := by unfold Statement; decide
theorem cmwcNext : Statement .cmwcNext := by unfold Statement; decide
theorem combNext : Statement .combNext := by unfold Statement; decide
theorem cmwcSeed : Statement .cmwcSeed := by unfold Statement; decide
theorem uniform (g : Gsel) : Statement (.uniform g) := by unfold Statement; cases g <;> decide
theorem double (g : Gsel) : Statement (.double g) := by unfold Statement; cases g <;> decide
theorem doubleAffine (g : Gsel) : Statement (.doubleAffine g) := by unfold Statement; cases g <;> decide
theorem shuffle (g : Gsel) : Statement (.shuffle g) := by unfold Statement; cases g <;> decide
theorem shuffleIo (g : Gsel) : Statement (.shuffleIo g) := by unfold Statement; cases g <;> decide
theorem permBuild (g : Gsel) : Statement (.permBuild g) := by unfold Statement; cases g <;> decide
theorem valueBuild (g : Gsel) : Statement (.valueBuild g) := by unfold Statement; cases g <;> decide
theorem hash : Statement .hash := by unfold Statement; decide
theorem latticeValue : Statement .latticeValue := by unfold Statement; decide
theorem sampleBilinear : Statement .sampleBilinear := by unfold Statement; decide
theorem sampleBicubic : Statement .sampleBicubic := by unfold Statement; decide
theorem lerp : Statement .lerp := by unfold Statement; decide
theorem spline : Statement .spline := by unfold Statement; decide

end Sys2Proof.Laws.EncodeLegal
end

