-- ==== Sys2Proof/Laws/Runs.lean ====
section
/-! SUPPORT. What the loops of the commands can do: the shuffles and the table builders change nothing but generator
registers and RAM, and the seeding of CMWC changes its own state alone. -/

namespace Sys2Proof.Machine

theorem shufflePasses_frame {g : Gsel} {n : Nat} {s t : State} (h : shufflePasses g n s = some t) : DrawFrame s t := by
  induction n generalizing s with
  | zero =>
    cases h
    exact DrawFrame.refl _
  | succ n ih =>
    simp only [shufflePasses] at h
    split at h
    · rename_i j u hu
      exact (uniformDraw_frame hu).trans ((swapPerm_frame u _ _).trans (ih h))
    · cases h

theorem shuffleIoSteps_frame {g : Gsel} {n i : Nat} {s t : State} (h : shuffleIoSteps g n i s = some t) :
    DrawFrame s t := by
  induction n generalizing s i with
  | zero =>
    cases h
    exact DrawFrame.refl _
  | succ n ih =>
    simp only [shuffleIoSteps] at h
    split at h
    · rename_i j u hu
      exact (uniformDraw_frame hu).trans ((placeInsideOut_frame u _ _).trans (ih h))
    · cases h

theorem permBuildRun_frame {g : Gsel} {s t : State} (h : permBuildRun g s = some t) : DrawFrame s t :=
  (fillIdentity_frame s).trans (shufflePasses_frame h)

theorem doubleDraw_frame (g : Gsel) (s : State) : DrawFrame s (doubleDraw g s).2 := draw_frame g s

theorem fillValues_frame (g : Gsel) (n k : Nat) (s : State) : DrawFrame s (fillValues g n k s) := by
  induction n generalizing s k with
  | zero => exact DrawFrame.refl _
  | succ n ih => exact (doubleDraw_frame g s).trans ((setValue_frame _ _ _).trans (ih _ _))

/-- What the passes of the classic shuffle answer is what rule R150's procedure ends in. -/
theorem shufflePasses_sound {g : Gsel} {n : Nat} {s t : State} (hn : n ≤ 255) (h : shufflePasses g n s = some t) :
    ShufflePasses g n s t := by
  induction n generalizing s with
  | zero =>
    cases h
    exact .done _
  | succ n ih =>
    simp only [shufflePasses] at h
    split at h
    · rename_i j u hu
      have hr := uniformDraw_sound (show (0#32 : Word) ≤ BitVec.ofNat 32 (n + 2) from Nat.zero_le _) hu
      have hb : (BitVec.ofNat 32 (n + 2)).toNat = n + 2 := by rw [BitVec.toNat_ofNat, Nat.mod_eq_of_lt (by omega)]
      rw [hb] at hr
      exact .pass n j.toNat s u t hr (ih (by omega) h)
    · cases h

/-- What the steps of the inside-out shuffle answer is what rule R154's procedure ends in. -/
theorem shuffleIoSteps_sound {g : Gsel} {n i : Nat} {s t : State} (hn : i + n ≤ 256)
    (h : shuffleIoSteps g n i s = some t) : ShuffleIoSteps g (i + n) i s t := by
  induction n generalizing s i with
  | zero =>
    cases h
    exact .done _
  | succ n ih =>
    simp only [shuffleIoSteps] at h
    split at h
    · rename_i j u hu
      have hr := uniformDraw_sound (show (0#32 : Word) ≤ BitVec.ofNat 32 (i + 1) from Nat.zero_le _) hu
      have hb : (BitVec.ofNat 32 (i + 1)).toNat = i + 1 := by rw [BitVec.toNat_ofNat, Nat.mod_eq_of_lt (by omega)]
      rw [hb] at hr
      have hrest := ih (i := i + 1) (by omega) h
      rw [show i + 1 + n = i + (n + 1) by omega] at hrest
      exact .stepAt i j.toNat s u t (by omega) hr hrest
    · cases h

/-- The identity fill stores to no byte outside the words it fills. -/
theorem read_identityPerm_outside {n : Nat} {m : Memory} {a : Nat} (h : a < permOff 0 ∨ permOff n ≤ a) :
    Memory.read (identityPerm n m) a = Memory.read m a := by
  induction n generalizing m with
  | zero => rfl
  | succ n ih =>
    unfold permOff at h
    rw [identityPerm, ih (by unfold permOff; omega), Memory.read_writeWord_outside _ _ (by unfold permOff; omega)]

/-- Below the count, `PERM[k]` holds `k`. -/
theorem read_identityPerm_lane {n k b : Nat} (m : Memory) (hk : k < n) (hb : b < 4) :
    Memory.read (identityPerm n m) (permOff k + b) = some (byteLane (BitVec.ofNat 32 k) b) := by
  induction n generalizing m with
  | zero => omega
  | succ n ih =>
    rw [identityPerm]
    by_cases h : k = n
    · subst h
      rw [read_identityPerm_outside (by unfold permOff; omega), Memory.read_writeWord_lane _ _ _ hb]
    · exact ih _ (by omega)

theorem perm_fillIdentity (s : State) {k : Nat} (hk : k < 256) : s.fillIdentity.perm k = BitVec.ofNat 32 k := by
  have h : ∀ b < 4, s.fillIdentity.byteAt (permOff k + b) = byteLane (BitVec.ofNat 32 k) b := by
    intro b hb
    simp only [State.byteAt, State.fillIdentity, Config.permN, read_identityPerm_lane s.mem hk hb]
  have h0 := h 0 (by omega)
  simp only [Nat.add_zero] at h0
  rw [State.perm, State.wordAt, h0, h 1 (by omega), h 2 (by omega), h 3 (by omega), wordOfLanes_byteLane]

theorem byteAt_fillIdentity_outside (s : State) {a : Nat} (h : a < 0x400 ∨ 0x800 ≤ a) :
    s.fillIdentity.byteAt a = s.byteAt a := by
  simp only [State.byteAt, State.fillIdentity, Config.permN]
  rw [read_identityPerm_outside (by unfold permOff; omega)]

/-! ## Seeding -/

/-- A scratch sequence that starts at 0 stays there (rule R111(a)). -/
theorem scratch_zero (n : Nat) : scratch n 0 = 0 := by
  induction n with
  | zero => rfl
  | succ n ih => rw [scratch, ih]; rfl


/-- Scratch steps may be taken first or last. -/
theorem scratch_minstdStep (j x : Nat) : scratch j (minstdStep x) = scratch (j + 1) x := by
  induction j with
  | zero => rfl
  | succ j ih => exact congrArg minstdStep ih

/-- The value the carry loop answers is the first of the scratch sequence that is accepted. -/
theorem seedCarry_some {cMax n t c : Nat} (h : seedCarry cMax n t = some c) :
    ∃ k < n, (∀ j < k, carryAccepted cMax (scratch (j + 1) t) = false) ∧ carryAccepted cMax (scratch (k + 1) t) = true ∧
      c = scratch (k + 1) t := by
  induction n generalizing t with
  | zero => simp [seedCarry] at h
  | succ n ih =>
    simp only [seedCarry] at h
    split at h
    · rename_i ha
      injection h with h
      exact ⟨0, by omega, by simp, ha, h.symm⟩
    · rename_i ha
      obtain ⟨k, hk, hrej, hacc, hc⟩ := ih h
      simp only [scratch_minstdStep] at hrej hacc hc
      refine ⟨k + 1, by omega, ?_, hacc, hc⟩
      intro j hj
      cases j with
      | zero => simpa [scratch] using ha
      | succ j => exact hrej j (by omega)

/-- The scratch value after the ring is filled. -/
theorem seedRing_scratch (n k t : Nat) (m : Memory) : (seedRing n k t m).1 = scratch n t := by
  induction n generalizing k t with
  | zero => rfl
  | succ n ih => exact (ih (k + 1) (minstdStep t)).trans (scratch_minstdStep n t)

/-- The run of CMWC_SEED is the seeding with the open threshold. -/
theorem cmwcSeed_run (o : Operands) (s : State) :
    (meaningOf .cmwcSeed).run o s = seedCmwc Config.cmwcCMax o.aU32 s := by
  simp only [meaningOf, cmwcSeedMeaning]

/-- Everything `seedCmwc` can answer. -/
theorem seedCmwc_some {cMax : Nat} {seed : Word} {s t : State} (h : seedCmwc cMax seed s = some t) :
    ∃ c, seedCarry cMax (2 ^ 31) (scratch Config.cmwcN seed.toNat) = some c ∧
      t = { s with
        mem := (seedRing Config.cmwcN 0 seed.toNat s.mem).2, cmwcCarry := BitVec.ofNat 32 c, cmwcIndex := 4095#12,
        cmwcSeeded := true } := by
  unfold seedCmwc at h
  simp only [seedRing_scratch] at h
  split at h
  · rename_i c hc
    injection h with h
    exact ⟨c, hc, h.symm⟩
  · cases h

end Sys2Proof.Machine
end

