-- ==== Sys2Proof/Laws/WriteSet.lean ====
section
/-! SUPPORT. The words a running command may write (rule R71): every way a word can be in the set, in the terms of the
statements. -/

namespace Sys2Proof.Machine

/-- A ring word the next draws can reach is a word of `Q`, and the next ring word itself where there is one draw. -/
theorem inNextRingWords_cases {s : State} {n off : Nat} (h4 : off % 4 = 0) (h : inNextRingWords s n off = true) :
    0x4000 ≤ off ∧ off < 0x8000 ∧ (n = 1 → off = qOff s.nextIndex.toNat) := by
  have hi := s.nextIndex.isLt
  simp only [inNextRingWords, inQ, Bool.and_eq_true, decide_eq_true_eq] at h
  refine ⟨h.1.1, h.1.2, fun hn => ?_⟩
  subst hn
  unfold qOff
  omega

/-- Every word that draws from a generator write: the state register of a component, or a ring word. -/
theorem drawWrites_cases {s : State} {g : Gsel} {n off : Nat} (h4 : off % 4 = 0) (h : drawWrites s g n off = true) :
    (off = 0x030 ∧ (components g).contains .xs = true) ∨ (off = 0x038 ∧ (components g).contains .minstd = true) ∨
    (off = 0x03C ∧ (components g).contains .mars = true) ∨
    ((off = 0x040 ∨ off = 0x044) ∧ (components g).contains .cmwc = true) ∨
    ((components g).contains .cmwc = true ∧ 0x4000 ≤ off ∧ off < 0x8000 ∧ (n = 1 → off = qOff s.nextIndex.toNat)) := by
  cases g <;> simp only [drawWrites, Bool.or_eq_true, decide_eq_true_eq] at h <;>
    simp only [offXsState, offMinstdState, offMarsState, offCmwcCarry, offCmwcIndex] at h
  · exact .inl ⟨h, rfl⟩
  · exact .inr (.inl ⟨h, rfl⟩)
  · exact .inr (.inr (.inl ⟨h, rfl⟩))
  · rcases h with h | h
    · exact .inr (.inr (.inr (.inl ⟨h, rfl⟩)))
    · exact .inr (.inr (.inr (.inr ⟨rfl, inNextRingWords_cases h4 h⟩)))
  · rcases h with ((h | h) | h) | h
    · exact .inr (.inr (.inr (.inl ⟨h, rfl⟩)))
    · exact .inr (.inr (.inr (.inr ⟨rfl, inNextRingWords_cases h4 h⟩)))
    · exact .inr (.inl ⟨h, rfl⟩)
    · exact .inl ⟨h, rfl⟩

/-- Every way a word can be in the set of the in-flight command: by its draws, by its `PERM` entries, by its `VALUE`
entries, or by seeding CMWC. -/
theorem mayWrite_cases {s : State} {f : InFlight} {off : Nat} (h : s.mayWrite f off = true) :
    (∃ g n, (writeSetOf f).draws = some (g, n) ∧ drawWrites s g n off = true) ∨
    (0x400 ≤ off ∧ off < 0x400 + 4 * (writeSetOf f).perms) ∨
    (0x1000 ≤ off ∧ off < 0x1000 + 8 * (writeSetOf f).values) ∨
    ((writeSetOf f).seeds = true ∧ ((0x4000 ≤ off ∧ off < 0x8000) ∨ off = 0x040 ∨ off = 0x044)) := by
  simp only [State.mayWrite] at h
  rcases hd : (writeSetOf f).draws with _ | ⟨g, n⟩ <;> rw [hd] at h <;>
    simp only [inQ, Bool.or_eq_true, Bool.and_eq_true, decide_eq_true_eq, Bool.false_eq_true, false_or] at h <;>
    simp only [permOff, valueOff, offCmwcCarry, offCmwcIndex, Nat.mul_zero, Nat.add_zero] at h
  · rcases h with (h | h) | h
    · exact .inr (.inl h)
    · exact .inr (.inr (.inl h))
    · exact .inr (.inr (.inr (by simpa only [or_assoc] using h)))
  · rcases h with ((h | h) | h) | h
    · exact .inl ⟨g, n, rfl, h⟩
    · exact .inr (.inl h)
    · exact .inr (.inr (.inl h))
    · exact .inr (.inr (.inr (by simpa only [or_assoc] using h)))

end Sys2Proof.Machine
end

