-- ==== Sys2Proof/Tests/Slice0.lean ====
section
/-! SUPPORT. The model's own tests: the word checks on ill-formed words, the decoding of words written out from rules
R85-R87, one or two small tests per command with results taken from file 95_test_vectors.md or a rule's own example, and
for every statement with hypotheses a witness that meets them. -/

namespace Sys2Proof.Machine.Tests

-- One test at a time: the kernel evaluates each, and each one that waits for another would hold a thread of its own.
set_option Elab.async false

/-! ## The checks of rule R88, each refusing an ill-formed word -/

theorem test_reservedBits_refused : reservedBitsClear 0x00000800#32 = false ∧ reservedBitsClear 0x80000001#32 = false := by
  decide
theorem test_unassignedOpcode_refused : opcodeAssigned 0x00000007#32 = false ∧ opcodeAssigned 0x00000042#32 = false := by
  decide
theorem test_gselOnPlainCommand_refused : gselZeroWhereUnused 0x00000101#32 = false := by decide
theorem test_reservedGsel_refused :
    gselNotReserved 0x00000510#32 = false ∧ gselNotReserved 0x00000623#32 = false ∧
    gselNotReserved 0x00000722#32 = false := by decide
theorem test_illegalWords_not_legal :
    [0x00000800#32, 0x00000007#32, 0x00000042#32, 0x000000FF#32, 0x00000101#32, 0x00000510#32].all
      (fun w => !legalWord w) = true := by decide

/-! ## Decoding: words written out bit by bit from rule R85 (bits 31:11 zero, then GSEL, then OP) and rule R87 -/

theorem test_decode_system : decode 0b000000000000000000000_000_00000000#32 = .command .nop := by decide
theorem test_decode_prng :
    decode 0b000000000000000000000_000_00000001#32 = .command .xsNext ∧
    decode 0b000000000000000000000_000_00000010#32 = .command .minstdNext ∧
    decode 0b000000000000000000000_000_00000011#32 = .command .marsNext ∧
    decode 0b000000000000000000000_000_00000100#32 = .command .cmwcNext ∧
    decode 0b000000000000000000000_000_00000101#32 = .command .combNext ∧
    decode 0b000000000000000000000_000_00000110#32 = .command .cmwcSeed := by decide
theorem test_decode_samplers :
    decode 0b000000000000000000000_011_00010000#32 = .command (.uniform .cmwc) ∧
    decode 0b000000000000000000000_001_00010001#32 = .command (.double .minstd) ∧
    decode 0b000000000000000000000_010_00010010#32 = .command (.doubleAffine .mars) := by decide
theorem test_decode_shuffle :
    decode 0b000000000000000000000_000_00100000#32 = .command (.shuffle .xs) ∧
    decode 0b000000000000000000000_001_00100001#32 = .command (.shuffleIo .minstd) ∧
    decode 0b000000000000000000000_100_00100010#32 = .command (.permBuild .comb) ∧
    decode 0b000000000000000000000_010_00100011#32 = .command (.valueBuild .mars) := by decide
theorem test_decode_lattice :
    decode 0b000000000000000000000_000_00110000#32 = .command .hash ∧
    decode 0b000000000000000000000_000_00110001#32 = .command .latticeValue ∧
    decode 0b000000000000000000000_000_00110010#32 = .command .sampleBilinear ∧
    decode 0b000000000000000000000_000_00110011#32 = .command .sampleBicubic := by decide
theorem test_decode_interp :
    decode 0b000000000000000000000_000_01000000#32 = .command .lerp ∧
    decode 0b000000000000000000000_000_01000001#32 = .command .spline := by decide
theorem test_decodeTableWord : decodeTableWord 16 0x310 = some (.uniform .cmwc) ∧ decodeTableWord 16 0x510 = none := by
  decide

/-! ## Helpers: small states and what a command left -/

/-- The state after an outcome, or the reset state where it is no next state. -/
def stateAfter (o : Host.Outcome State Fault Refusal) : State :=
  match o with
  | .next t => t
  | .fault _ => State.reset
  | .refused _ => State.reset

/-- The outcome is a next state with no command in flight. -/
def completed (o : Host.Outcome State Fault Refusal) : Bool :=
  match o with
  | .next t => t.inflight.isNone
  | .fault _ => false
  | .refused _ => false

/-- What a completed outcome shows. -/
theorem completed_next {o : Host.Outcome State Fault Refusal} (h : completed o = true) :
    ∃ t, o = .next t ∧ t.inflight = none := by
  cases o with
  | next t => exact ⟨t, rfl, by simpa [completed] using h⟩
  | fault r => cases h
  | refused r => cases h

/-- The reset state with operands `OPA` and `OPB`, low words alone. -/
def withOps (s : State) (a b : Word) : State := { s with opaLo := a, opbLo := b }

/-- The reset state with double operands. -/
def withDoubles (s : State) (a b c : DWord) : State :=
  { s with opaLo := loWord a, opaHi := hiWord a, opbLo := loWord b, opbHi := hiWord b, opcLo := loWord c, opcHi := hiWord c }

/-- XS_STATE = 1 with the reset triple (1,3,10). -/
def xs1 : State := { State.reset with xsState := 1#32 }

/-- MINSTD_STATE = 1. -/
def minstd1 : State := { State.reset with minstdState := 1#32 }

/-- A seeded CMWC whose next ring word is `Q[0] = 0xFFFFFFFF`, with carry 1 (rule R116(b)). -/
def cmwcCorner : State := { State.reset.setQ 0 0xFFFFFFFF#32 with cmwcCarry := 1#32, cmwcSeeded := true }

/-- Store `PERM` words. -/
def storePerm : List (Nat × Nat) → State → State
  | [], s => s
  | p :: ps, s => storePerm ps (s.setPerm p.1 (BitVec.ofNat 32 p.2))

/-- Store `VALUE` entries. -/
def storeValue : List (Nat × Nat) → State → State
  | [], s => s
  | p :: ps, s => storeValue ps (s.setValue p.1 (BitVec.ofNat 64 p.2))

/-- The entries of the tables of vectors V17 and V18 that the cell at (0, 0) uses, both tables ready. They are stored from
the highest offset down, which is the shortest way for the kernel. -/
def tables : State :=
  { storePerm
  [(255, 3), (250, 176), (249, 203), (248, 164), (247, 189), (55, 206), (54, 68), (53, 237), (52, 76), (36, 47), (35, 222),
   (34, 67), (33, 112), (5, 132), (4, 119), (3, 168), (2, 248), (1, 34), (0, 53)]
    (storeValue
  [(248, 0x3FEB89E6129B89E6), (237, 0x3FC251C8CF9251C9), (222, 0x3FD7169758D71697), (206, 0x3FC202157D120215),
   (203, 0x3FBE68392F1E6839), (189, 0x3FD8150478181504), (176, 0x3FDDAF1CBA1DAF1D), (168, 0x3FABF3A8B01BF3A9),
   (164, 0x3FE68FC086568FC1), (132, 0x3FE53EBEFA553EBF), (119, 0x3FCDB7A6C71DB7A7), (112, 0x3FD5515BC0D5515C),
   (76, 0x3FEE739F34BE739F), (68, 0x3FC9BEB6DC99BEB7), (67, 0x3FC94D1FBC194D20), (47, 0x3FBD93FBDE1D93FC)]
    State.reset) with permReady := true, valueReady := true }

/-- The knots 0.0, 1.0, 4.0, 9.0 with KCOUNT = 4 (vector V26). -/
def knots : State :=
  { ((((State.reset.setDword (knotOff 3) 0x4022000000000000#64).setDword (knotOff 2) 0x4010000000000000#64).setDword
      (knotOff 1) 0x3FF0000000000000#64).setDword (knotOff 0) 0#64) with kcount := 4#7 }

/-- `PERM[0..3]` and `SRC[0..3]` hold 10, 20, 30, 40 (vectors V15 and V16), XS_STATE = 1. -/
def fourWords (off : Nat) : State :=
  { (((State.reset.setWord off 10#32).setWord (off + 4) 20#32).setWord (off + 8) 30#32).setWord (off + 12) 40#32 with
    xsState := 1#32, opaLo := 4#32 }

/-! ## One or two tests per command -/

/-- Vector V30, row 1. -/
theorem test_nop : exec .nop State.reset = .next State.reset := by rfl

/-- Vector V1, draws 1 and 2. -/
theorem test_xsNext : (stateAfter (exec .xsNext xs1)).resLo = 3075#32 ∧
    (stateAfter (exec .xsNext (stateAfter (exec .xsNext xs1)))).xsState = 5898885#32 := by decide +kernel

/-- Vector V2: the triple (1,3,10) from 0x80000000, where a shift that is not logical would differ. -/
theorem test_xsNext_high : (stateAfter (exec .xsNext { xs1 with xsState := 0x80000000#32 })).resLo = 2415919104#32 := by
  decide +kernel

/-- Rule R104's example. -/
theorem test_minstdNext : (stateAfter (exec .minstdNext minstd1)).resLo = 48271#32 ∧
    (stateAfter (exec .minstdNext (stateAfter (exec .minstdNext minstd1)))).resLo = 182605794#32 := by decide +kernel

/-- Rule R107's example. -/
theorem test_marsNext : (stateAfter (exec .marsNext State.reset)).resLo = 362437#32 ∧
    (stateAfter (exec .marsNext { State.reset with marsState := 1#32 })).resLo = 431506#32 := by decide +kernel

/-- Rule R116(b): the correction branch. -/
theorem test_cmwcNext : (stateAfter (exec .cmwcNext cmwcCorner)).q 0 = 0xFFFFFFFD#32 ∧
    (stateAfter (exec .cmwcNext cmwcCorner)).cmwcCarry = 18782#32 ∧
    (stateAfter (exec .cmwcNext cmwcCorner)).cmwcIndex = 0#12 := by decide +kernel

/-- Rule R116(c): no correction, and the subtraction wraps. -/
theorem test_cmwcNext_wraps :
    (stateAfter (exec .cmwcNext { cmwcCorner with cmwcCarry := 0#32 })).resLo = 0xFFFFFFFF#32 := by decide +kernel

/-- Rule R121's corner case: with XS and MINSTD at 0 the output is the CMWC output. -/
theorem test_combNext : (stateAfter (exec .combNext cmwcCorner)).resLo = 0xFFFFFFFD#32 := by decide +kernel

/-- Rule R110's example, the first ring words for seed 8423032, on the filling of a short ring. -/
theorem test_cmwcSeed_ring : (seedRing 2 0 8423032 []).1 = 86272951 ∧
    ({ State.reset with mem := (seedRing 2 0 8423032 []).2 } : State).q 0 = 713768389#32 := by decide +kernel

/-- Rule R110's example: with the suggested threshold, the first carry draw is rejected and the second taken. -/
theorem test_cmwcSeed_carry : seedCarry 809430660 2 602009428 = some 150990440 := by decide +kernel

/-- Vector V10, rows 1 and 2 (two draws rejected in the second). -/
theorem test_uniform : (stateAfter (exec (.uniform .xs) (withOps xs1 0#32 10#32))).resLo = 5#32 ∧
    (stateAfter (exec (.uniform .xs) (withOps xs1 0#32 3221225472#32))).resLo = 267272062#32 := by decide +kernel

/-- Rule R138(a): range 3 from XS_STATE = 0 never ends. -/
theorem test_uniform_hangs : (stateAfter (exec (.uniform .xs) (withOps State.reset 0#32 3#32))).busy = true := by
  decide +kernel

/-- Vector V12, the draw 3075. -/
theorem test_double : (stateAfter (exec (.double .xs) xs1)).res = 0x3EA8060000180600#64 := by decide +kernel

/-- Vector V13. -/
theorem test_doubleAffine :
    (stateAfter (exec (.doubleAffine .xs) (withDoubles xs1 0xBFF0000000000000#64 0x4008000000000000#64 0#64))).res =
      0xBFEFFFF9FE7FFFFA#64 := by decide +kernel

/-- Vector V15, row 1. -/
theorem test_shuffle : let t := stateAfter (exec (.shuffle .xs) (fourWords (permOff 0)))
    (t.perm 0, t.perm 1, t.perm 2, t.perm 3, t.xsState) = (20#32, 30#32, 10#32, 40#32, 3488497534#32) := by
  decide +kernel

/-- Vector V16, row 1. -/
theorem test_shuffleIo : let t := stateAfter (exec (.shuffleIo .xs) (fourWords (srcOff 0)))
    (t.perm 0, t.perm 1, t.perm 2, t.perm 3, t.xsState) = (10#32, 30#32, 40#32, 20#32, 2316485042#32) := by
  decide +kernel

/-- Vector V17: the generator after the whole table is built. -/
theorem test_permBuild : (stateAfter (exec (.permBuild .xs) xs1)).xsState = 2125552563#32 ∧
    (stateAfter (exec (.permBuild .xs) xs1)).permReady = true := by decide +kernel

/-- Vector V18: the first entry of the value table, and the second, from the state after V17. -/
theorem test_valueBuild : let s := fillValues .xs 2 0 { xs1 with xsState := 2125552563#32 }
    (s.value 0, s.value 1) = (0x3FCAF656A79AF657#64, 0x3FE31AFCA5731AFD#64) := by decide +kernel

/-- Vector V18: the generator after the whole table is built. -/
theorem test_valueBuild_draws :
    (stateAfter (exec (.valueBuild .xs) { xs1 with xsState := 2125552563#32 })).xsState = 2074631749#32 := by
  decide +kernel

/-- Vector V19, rows 1 and 4. -/
theorem test_hash : (stateAfter (exec .hash tables)).resLo = 237#32 ∧
    (stateAfter (exec .hash (withOps tables 257#32 0xFFFFFF01#32))).resLo = 222#32 := by decide +kernel

/-- Vector V19, row 1. -/
theorem test_latticeValue : (stateAfter (exec .latticeValue tables)).res = 0x3FC251C8CF9251C9#64 := by decide +kernel

/-- Vector V20, (0.5, 0.5). -/
theorem test_sampleBilinear :
    (stateAfter (exec .sampleBilinear (withDoubles tables 0x3FE0000000000000#64 0x3FE0000000000000#64 0#64))).res =
      0x3FCCE2B3867CE2B4#64 := by decide +kernel

/-- Vector V25, rows 1 and 7. -/
theorem test_lerp :
    (stateAfter (exec .lerp (withDoubles State.reset 0#64 0x4024000000000000#64 0x3FD0000000000000#64))).res =
      0x4004000000000000#64 ∧
    (stateAfter (exec .lerp (withDoubles State.reset 0x7FE1CCF385EBC8A0#64 0xFFE1CCF385EBC8A0#64
      0x3FE0000000000000#64))).res = 0xFFF0000000000000#64 := by decide +kernel

/-- Vector V26, x = 0.25, and vector V28, KCOUNT = 3 with its fallback and code. -/
theorem test_spline :
    (stateAfter (exec .spline (withDoubles knots 0x3FD0000000000000#64 0#64 0#64))).res = 0x3FF9000000000000#64 ∧
    (stateAfter (exec .spline { knots with kcount := 3#7, resLo := 7#32 })).res = 0#64 ∧
    (stateAfter (exec .spline { knots with kcount := 3#7 })).statusWord = 0x00000202#32 := by decide +kernel

/-! ## Steps -/

/-- The words 0x0002 and 0x0003 run MINSTD_NEXT and MARS_NEXT as the first step after reset (rule R253). -/
theorem test_step_runs_word : (stateAfter (step (State.reset.withFetchWord 16 0x0002))).resLo = 0#32 ∧
    (stateAfter (step (State.reset.withFetchWord 16 0x0003))).marsState = 362437#32 := by decide +kernel

/-- Vector V30, row 2: CMWC_NEXT before seeding. -/
theorem test_step_notSeeded : (stateAfter (step (State.reset.withFetchWord 16 0x0004))).statusWord = 0x00000302#32 := by
  decide +kernel

/-- A read of a word the in-flight command may write is the free value; it is no number the model chose. -/
theorem test_busyRead_is_free :
    (stateAfter (step { State.reset with
      inflight := some ⟨.xsNext, State.reset.operands⟩, arrivals := [.read 0x030#15 .bits32] })).reply =
      .data (Config.busyRead 0) := by rfl

/-! ## Witnesses: states and operands that meet each statement's hypotheses -/

theorem witness_IllegalWordsRecordBadCmd :
    State.reset.inReset = false ∧ State.reset.idle ∧ legalWord 0x00000042#32 = false ∧ legalWord 0x00000800#32 = false ∧
    legalWord 0x00000041#32 = true := ⟨rfl, rfl, by decide, by decide, by decide⟩

theorem witness_StepRunsTheDecodedCommand :
    decode 0x00000000#32 = .command .nop ∧ State.reset.inReset = false ∧ State.reset.idle ∧
    (PortEvent.resetAssert ≠ .completion) ∧ decodeTableWord 16 0x0310 = some (.uniform .cmwc) :=
  ⟨by decide, rfl, rfl, by decide, by decide⟩

/-- The one hypothesis of ExecIsIssueThenCompletion, NopChangesNothing, XsNextIsOneXorShiftStep, LcgNextIsOneExactStep and
LerpIsThreeRoundedOperations. -/
theorem witness_idle : State.reset.idle := rfl

theorem witness_XorShiftResetTripleHasOneCycle : (1#32 : Word) ≠ 0#32 ∧ (0xFFFFFFFF#32 : Word) ≠ 0#32 := by decide

theorem witness_CombNextCombinesThreeDraws :
    State.reset.idle ∧ State.reset.cmwcSeeded = false ∧ cmwcCorner.idle ∧ cmwcCorner.cmwcSeeded = true :=
  ⟨rfl, rfl, rfl, rfl⟩

/-- With a reserved offset in each of the four ranges of its last clause. -/
theorem witness_RegisterWritesFollowTheMap :
    State.reset.inReset = false ∧ State.reset.idle ∧ (0x04C#15).toNat = 0x04C ∧ (0xFFC#15).toNat = 0xFFC ∧
    (0x1A00#15).toNat = 0x1A00 ∧ (0x7FFC#15).toNat % 4 = 0 := ⟨rfl, rfl, by decide, by decide, by decide, by decide⟩

theorem witness_ResultsDoNotDependOnTiming :
    State.reset.idle ∧ State.reset.inReset = false ∧ (meaningOf .marsNext).check State.reset = none ∧
    completed (exec .marsNext State.reset) = true ∧
    ∃ u, Host.Core.run Sys2Proof.core 2 { State.reset with
      inflight := some ⟨.marsNext, State.reset.operands⟩,
      arrivals := [.read 0x008#15 .bits32, .write 0x010#15 .bits32 1#32] } = .next u :=
  ⟨rfl, rfl, rfl, by decide +kernel, _, rfl⟩

/-- For its clauses about one step: a Busy block out of reset, and a block in reset. -/
theorem witness_ResultsDoNotDependOnTiming_busy :
    (State.reset.begin .marsNext).inReset = false ∧
    (State.reset.begin .marsNext).inflight = some ⟨.marsNext, State.reset.operands⟩ ∧
    State.reset.assertReset.inReset = true ∧ State.reset.inflight = none := ⟨rfl, rfl, rfl, rfl⟩

theorem witness_HungCommandsEndOnlyByReset :
    State.hung { State.reset with
      inflight := some ⟨.uniform .xs, ⟨0#64, 3#64, 0#64, 0#7⟩⟩, arrivals := [.write 0x010#15 .bits32 1#32] } :=
  ⟨_, rfl, by decide +kernel⟩

theorem witness_XorShiftIsBijectiveWithNonzeroShifts : (1#5 ≠ 0#5) ∧ (31#5 ≠ 0#5) := by decide

theorem witness_MinstdRunsThroughEveryNonzeroResidue :
    1 % (2 ^ 31 - 1) ≠ 0 ∧ (2 ^ 31 - 1) % (2 ^ 31 - 1) = 0 ∧ 4294967295 % (2 ^ 31 - 1) = 1 := by decide

theorem witness_CmwcSeedFillsTheRingFromTheScratchSequence :
    State.reset.idle ∧ (∀ k < 0, Config.cmwcCMax ≤ scratch (4097 + k) State.reset.opaLo.toNat) ∧
    scratch (4097 + 0) State.reset.opaLo.toNat < Config.cmwcCMax := by
  refine ⟨rfl, fun k hk => absurd hk (Nat.not_lt_zero k), ?_⟩
  change scratch 4097 0 < Config.cmwcCMax
  rw [scratch_zero]
  exact Nat.succ_pos _

theorem witness_CmwcSeedingEndsUnlessTheThresholdIsOne :
    (0#32).toNat % (2 ^ 31 - 1) = 0 ∧ (4294967294#32).toNat % (2 ^ 31 - 1) = 0 ∧ (1#32).toNat % (2 ^ 31 - 1) ≠ 0 := by
  decide

/-- For its clauses about the command: a seed of residue 0 and one of another, and, whatever the open threshold is, one of
the two clauses about it applies. -/
theorem witness_CmwcSeedingEndsUnlessTheThresholdIsOne_command :
    State.reset.idle ∧ State.reset.opaLo.toNat % (2 ^ 31 - 1) = 0 ∧
    (withOps State.reset 1#32 0#32).opaLo.toNat % (2 ^ 31 - 1) ≠ 0 ∧ (Config.cmwcCMax = 1 ∨ 2 ≤ Config.cmwcCMax) := by
  refine ⟨rfl, by decide, by decide, ?_⟩
  unfold Config.cmwcCMax
  omega

theorem witness_CmwcNextFollowsTheRecurrence :
    State.reset.idle ∧ State.reset.cmwcSeeded = false ∧ cmwcCorner.idle ∧ cmwcCorner.cmwcSeeded = true :=
  ⟨rfl, rfl, rfl, rfl⟩

theorem witness_CommandsKeepTheRegistersTheyDoNotName :
    exec .nop State.reset = .next State.reset ∧ hasResult .nop = false ∧ advances .nop .xs = false ∧
    advances .nop .cmwc = false ∧ advances .lerp .minstd = false ∧ advances .lerp .mars = false :=
  ⟨rfl, rfl, rfl, rfl, rfl, rfl⟩

theorem witness_CommandsStoreOnlyToTheBytesTheyName :
    ¬ mayStoreTo (.shuffle .xs) (withOps xs1 4#32 0#32) 0x410 ∧ mayStoreTo (.shuffle .xs) (withOps xs1 4#32 0#32) 0x40F ∧
    completed (exec (.double .cmwc) cmwcCorner) = true := by
  refine ⟨by simp [mayStoreTo, permWords, valueWords, advances, drawnGenerator, components, withOps], ?_,
    by decide +kernel⟩
  exact .inl (by decide)

theorem witness_UniformIsUnboundedRejectionSampling :
    (withOps xs1 0#32 10#32).idle ∧ (withOps xs1 0#32 10#32).drawReady .xs ∧
    UniformReturns .xs 0 10 (withOps xs1 0#32 10#32) 5 (drawState .xs 1 (withOps xs1 0#32 10#32)) := by
  refine ⟨rfl, fun h => (by cases h), ?_⟩
  exact .accepted 0 (by omega) ⟨fun k hk => absurd hk (Nat.not_lt_zero k), by decide +kernel⟩

/-- From XS_STATE = 0 no draw is ever accepted for range 3. -/
theorem witness_UniformIsUnboundedRejectionSampling_endless : ¬ ∃ r t, UniformReturns .xs 0 3 State.reset r t := by
  rintro ⟨r, t, h⟩
  cases h with
  | degenerate he => omega
  | accepted n _ hf =>
    have h0 : drawOut .xs n State.reset = drawOut .xs 0 State.reset := drawIsFixed_repeats (by decide +kernel) n
    have h1 := hf.2
    rw [h0] at h1
    exact absurd h1 (by decide +kernel)

theorem witness_UniformResultIsInRange :
    (withOps xs1 0#32 10#32).idle ∧ (withOps xs1 0#32 10#32).opaLo < (withOps xs1 0#32 10#32).opbLo ∧
    completed (exec (.uniform .xs) (withOps xs1 0#32 10#32)) = true ∧
    (withOps xs1 5#32 5#32).opaLo = (withOps xs1 5#32 5#32).opbLo := ⟨rfl, by decide, by decide +kernel, rfl⟩

theorem witness_StuckGeneratorsKeepTheCommandInFlight :
    (withOps State.reset 0#32 3#32).drawsOnlyZero .xs ∧ 0 < (2 ^ 32 - (3 - 0)) % (3 - 0) ∧
    ({ xs1 with xsShiftB := 0#5 } : State).drawsOnlyZero .xs ∧
    ({ State.reset with minstdState := 2147483647#32 } : State).drawsOnlyZero .minstd ∧
    (2147483649#32).toNat - (0#32).toNat = 2 ^ 31 + 1 ∧ (withOps State.reset 3#32 0#32).opaLo.toNat = 3 ∧
    (withOps State.reset 256#32 0#32).opaLo.toNat = 256 ∧ (withOps State.reset 2#32 0#32).opaLo.toNat = 2 :=
  ⟨.inl ⟨rfl, .inl rfl⟩, by decide, .inl ⟨rfl, .inr (.inr (.inl rfl))⟩, .inr ⟨rfl, by decide⟩, by decide, rfl, rfl, rfl⟩

theorem witness_LoopsEndFromXorShiftWithTheResetTriple :
    xs1.idle ∧ xs1.xsShiftA = 1#5 ∧ xs1.xsShiftB = 3#5 ∧ xs1.xsShiftC = 10#5 ∧ xs1.xsState ≠ 0#32 ∧
    (withOps xs1 256#32 256#32).opaLo ≤ (withOps xs1 256#32 256#32).opbLo ∧ (withOps xs1 256#32 256#32).opaLo.toNat ≤ 256 :=
  ⟨rfl, rfl, rfl, rfl, by decide, by decide, by decide⟩

/-- The threshold of range 2^31+2 is exactly 2^31-2. -/
theorem witness_LoopsEndFromMinstdWithNonzeroResidue :
    minstd1.idle ∧ minstd1.minstdState.toNat % (2 ^ 31 - 1) ≠ 0 ∧
    (2 ^ 32 - ((2147483650#32).toNat - (0#32).toNat)) % ((2147483650#32).toNat - (0#32).toNat) = 2 ^ 31 - 2 :=
  ⟨rfl, by decide, by decide⟩

theorem witness_TableCommandsEndFromMars :
    (withOps State.reset 1#32 0#32).idle ∧ (withOps State.reset 1#32 0#32).opaLo.toNat = 1 := ⟨rfl, rfl⟩

theorem witness_DoubleCommandsDivideOneDraw :
    xs1.idle ∧ xs1.drawReady .xs ∧ cmwcCorner.idle ∧ cmwcCorner.drawReady .comb :=
  ⟨rfl, fun h => (by cases h), rfl, fun _ => rfl⟩

theorem witness_DoubleIsInTheClosedUnitInterval :
    minstd1.idle ∧ minstd1.drawReady .minstd ∧ completed (exec (.double .minstd) minstd1) = true :=
  ⟨rfl, fun h => (by cases h), by decide +kernel⟩

theorem witness_ShufflesAreTheFisherYatesProcedures :
    (withOps xs1 1#32 0#32).idle ∧ (withOps xs1 1#32 0#32).drawReady .xs ∧ (withOps xs1 1#32 0#32).opaLo.toNat = 1 ∧
    ShufflePasses .xs (1 - 1) (withOps xs1 1#32 0#32) (withOps xs1 1#32 0#32) ∧
    ∃ t, ShuffleIoSteps .xs 1 0 (withOps xs1 1#32 0#32) t := by
  refine ⟨rfl, fun h => (by cases h), rfl, .done _, ?_⟩
  have h : (shuffleIoSteps .xs 1 0 (withOps xs1 1#32 0#32)).isSome = true := by decide +kernel
  obtain ⟨t, ht⟩ := Option.isSome_iff_exists.1 h
  exact ⟨t, shuffleIoSteps_sound (by omega) ht⟩

/-- Both forms of a placement, and a swap of an entry with itself, on given words. -/
theorem witness_ShufflesAreTheFisherYatesProcedures_words :
    (((fourWords (permOff 0)).swapPerm 3 0).perm 0, ((fourWords (permOff 0)).swapPerm 3 0).perm 3,
      ((fourWords (permOff 0)).swapPerm 2 2).perm 2) = (40#32, 10#32, 30#32) ∧
    (((fourWords (srcOff 0)).placeInsideOut 2 2).perm 2, ((fourWords (srcOff 0)).placeInsideOut 3 1).perm 1) =
      (30#32, 40#32) := by decide +kernel

theorem witness_ShufflesPermuteTheirWords :
    (fourWords (permOff 0)).idle ∧ (fourWords (permOff 0)).opaLo.toNat = 4 ∧
    completed (exec (.shuffle .xs) (fourWords (permOff 0))) = true ∧
    completed (exec (.shuffleIo .xs) (fourWords (srcOff 0))) = true :=
  ⟨rfl, rfl, by decide +kernel, by decide +kernel⟩

theorem witness_PermBuildShufflesTheIdentity :
    xs1.idle ∧ xs1.drawReady .xs ∧ ∃ t, ShufflePasses .xs 255 xs1.fillIdentity t := by
  refine ⟨rfl, fun h => (by cases h), ?_⟩
  have h : (permBuildRun .xs xs1).isSome = true := by decide +kernel
  obtain ⟨t, ht⟩ := Option.isSome_iff_exists.1 h
  exact ⟨t, shufflePasses_sound (by omega) ht⟩

theorem witness_PermBuildGivesABijection :
    xs1.idle ∧ xs1.drawReady .xs ∧ completed (exec (.permBuild .xs) xs1) = true :=
  ⟨rfl, fun h => (by cases h), by decide +kernel⟩

theorem witness_ValueBuildFillsTheTableInIndexOrder : State.reset.idle ∧ State.reset.drawReady .mars :=
  ⟨rfl, fun h => (by cases h)⟩

theorem witness_HashAndLatticeValueLookUpTheTables :
    State.reset.idle ∧ State.reset.permReady = false ∧ tables.idle ∧ tables.permReady = true ∧ tables.valueReady = true :=
  ⟨rfl, rfl, rfl, rfl, rfl⟩

/-- The identity is a bijection on [0, 255]. -/
theorem witness_LatticeHashWrapsEveryCoordinate : State.reset.fillIdentity.permBijective := by
  constructor
  · intro k hk
    rw [perm_fillIdentity _ hk, BitVec.toNat_ofNat, Nat.mod_eq_of_lt (by omega)]
    exact hk
  · intro j hj k hk h
    rw [perm_fillIdentity _ hj, perm_fillIdentity _ hk] at h
    have h := congrArg BitVec.toNat h
    rw [BitVec.toNat_ofNat, BitVec.toNat_ofNat, Nat.mod_eq_of_lt (by omega), Nat.mod_eq_of_lt (by omega)] at h
    exact h

/-- Finite doubles at the ends of the format: the largest, the smallest subnormal, -0.0. -/
theorem witness_SplitTakesTheFloor :
    f64IsFinite 0x7FEFFFFFFFFFFFFF#64 = true ∧ f64IsFinite 0x0000000000000001#64 = true ∧
    f64IsFinite 0x8000000000000000#64 = true := by decide

theorem witness_SamplesInterpolateTheNeighbourhood :
    tables.permReady = true ∧ tables.valueReady = true ∧ State.reset.valueReady = false ∧
    f64IsFinite (tables.opaHi ++ tables.opaLo) = true ∧ f64IsFinite 0x7FF0000000000000#64 = false ∧
    f64IsFinite f64NaN = false := ⟨rfl, rfl, rfl, by decide, by decide, by decide⟩

/-- RAM contents with every byte of `VALUE` zero. -/
def zeroValues : Nat → Memory
  | 0 => []
  | n + 1 => Memory.write (zeroValues n) (0x1000 + n) 0#8

theorem read_zeroValues {n a : Nat} (h : a < n) : Memory.read (zeroValues n) (0x1000 + a) = some 0#8 := by
  induction n with
  | zero => omega
  | succ n ih =>
    by_cases he : a = n
    · rw [he]
      exact Memory.read_write_same _ _ _
    · rw [zeroValues, Memory.read_write_other _ _ (by omega)]
      exact ih (by omega)

/-- Both tables flagged ready, with the given RAM contents. -/
def tablesWith (m : Memory) : State := { State.reset with mem := m, permReady := true, valueReady := true }

theorem tablesWith_facts {m : Memory} (hm : ∀ a < 2048, Memory.read m (0x1000 + a) = some 0#8) :
    (tablesWith m).idle ∧ (tablesWith m).permReady = true ∧ (tablesWith m).valueReady = true ∧
    (tablesWith m).valueInvariant ∧ f64IsFinite ((tablesWith m).opaHi ++ (tablesWith m).opaLo) = true ∧
    f64Scaled ((tablesWith m).opaHi ++ (tablesWith m).opaLo) = 0 * (f64One : Int) := by
  have h0 : f64Scaled (State.reset.opaHi ++ State.reset.opaLo) = 0 * (f64One : Int) := by decide +kernel
  have h1 : f64IsFinite (State.reset.opaHi ++ State.reset.opaLo) = true := by decide
  refine ⟨rfl, rfl, rfl, fun _ k hk => ?_, h1, h0⟩
  have hb : ∀ j < 8, (tablesWith m).byteAt (valueOff k + j) = 0#8 := by
    intro j hj
    have := hm (8 * k + j) (by omega)
    rw [← Nat.add_assoc] at this
    simp only [State.byteAt, tablesWith, valueOff, this]
  have hv : (tablesWith m).value k = 0#64 := by
    have h0 := hb 0 (by omega)
    simp only [Nat.add_zero] at h0
    have h4 := hb 4 (by omega)
    simp only [State.value, State.dwordAt, State.wordAt, Nat.add_assoc, h0, h4, hb 1 (by omega), hb 2 (by omega),
      hb 3 (by omega), hb 5 (by omega), hb 6 (by omega), hb 7 (by omega)]
    decide
  rw [hv]
  exact ⟨by decide, by decide⟩

/-- Both tables flagged ready with every `VALUE` entry +0.0, sampled at the point 0. -/
theorem witness_SamplesAtIntegerPointsAreLatticeValues :
    (tablesWith (zeroValues 2048)).idle ∧ (tablesWith (zeroValues 2048)).permReady = true ∧
    (tablesWith (zeroValues 2048)).valueReady = true ∧ (tablesWith (zeroValues 2048)).valueInvariant ∧
    f64IsFinite ((tablesWith (zeroValues 2048)).opaHi ++ (tablesWith (zeroValues 2048)).opaLo) = true ∧
    f64Scaled ((tablesWith (zeroValues 2048)).opaHi ++ (tablesWith (zeroValues 2048)).opaLo) = 0 * (f64One : Int) :=
  tablesWith_facts fun _ h => read_zeroValues h

theorem witness_ArithmeticIsCorrectlyRounded :
    f64IsFinite 0x7FEFFFFFFFFFFFFF#64 = true ∧ f64IsFinite 0x8000000000000000#64 = true ∧
    f64Scaled 0x8000000000000000#64 + f64Scaled 0x8000000000000000#64 = 0 ∧
    f64Scaled 0x8000000000000000#64 - f64Scaled 0x0000000000000000#64 = 0 ∧ f64Scaled 0x0000000000000001#64 ≠ 0 ∧
    f64IsInf 0xFFF0000000000000#64 = true := by
  decide +kernel

theorem witness_EveryNaNResultIsCanonical :
    f64IsNaN (fadd 0x7FF0000000000000#64 0xFFF0000000000000#64) = true ∧ f64IsNaN 0xFFF0000000000001#64 = true ∧
    f64IsInf 0x7FF0000000000000#64 = true ∧ f64IsInf 0xFFF0000000000000#64 = true ∧
    f64Neg 0x7FF0000000000000#64 ≠ f64Neg 0xFFF0000000000000#64 ∧ State.reset.idle ∧
    (meaningOf .lerp).check State.reset = none ∧
    f64IsNaN (stateAfter (exec .lerp (withDoubles State.reset 0x7FF0000000000000#64 0x7FF0000000000000#64 0#64))).res =
      true ∧ f64IsFinite 0x4014000000000000#64 = true :=
  ⟨by decide +kernel, by decide, by decide, by decide, by decide, rfl, rfl, by decide +kernel, by decide⟩

/-- Its last clause: an infinite knot in the one span, at position 0. -/
theorem witness_EveryNaNResultIsCanonical_knot :
    let s := knots.setDword (knotOff 3) 0x7FF0000000000000#64
    s.idle ∧ s.kcount.toNat = 4 ∧ f64IsNaN (s.opaHi ++ s.opaLo) = false ∧ splineSpan (s.opaHi ++ s.opaLo) 4 = 0 ∧
    f64IsFinite (s.knot 3) = false := ⟨rfl, rfl, by decide, by decide +kernel, by decide +kernel⟩

theorem witness_SplineEvaluatesTheSelectedSpan :
    knots.idle ∧ (3#7).toNat < 4 ∧ 64 < (65#7).toNat ∧ knots.kcount.toNat = 4 ∧ (64#7).toNat ≤ 64 ∧
    f64IsNaN 0x7FF0000000000001#64 = true ∧ f64IsNaN (knots.opaHi ++ knots.opaLo) = false :=
  ⟨rfl, by decide, by decide, rfl, by decide, by decide, by decide⟩

theorem witness_SplineClampsItsParameter :
    flt 0xFFF0000000000000#64 0#64 = true ∧ flt 0x3FF0000000000000#64 0x7FF0000000000000#64 = true ∧
    flt 0x8000000000000000#64 0#64 = false ∧ flt 0x3FF0000000000000#64 0x3FF0000000000000#64 = false ∧
    f64IsNaN 0x7FF0000000000001#64 = true ∧ f64IsFinite 0xFFEFFFFFFFFFFFFF#64 = true ∧
    f64IsFinite 0x0000000000000001#64 = true ∧ f64IsNaN 0x7FF0000000000000#64 = false := by decide

theorem witness_RejectedCommandsOnlyRecordTheFirstError :
    State.reset.idle ∧ State.reset.cmwcSeeded = false ∧ (withOps State.reset 10#32 3#32).drawReady .xs ∧
    (withOps State.reset 10#32 3#32).opbLo < (withOps State.reset 10#32 3#32).opaLo ∧
    256 < (withOps State.reset 257#32 0#32).opaLo.toNat ∧ State.reset.permReady = false ∧
    (meaningOf .spline).check State.reset = some .param ∧ State.reset.kcount.toNat < 4 ∧
    64 < (65#7).toNat ∧ knots.kcount.toNat = 4 ∧ f64IsNaN (f64NaN : DWord) = true ∧ tables.permReady = true ∧
    tables.valueReady = true ∧ f64IsFinite 0xFFF0000000000000#64 = false :=
  ⟨rfl, rfl, fun h => (by cases h), by decide, by decide, rfl, by decide, by decide, by decide, rfl, by decide, rfl, rfl,
    by decide⟩

theorem witness_ErrorIsStickyUntilClearedOrReset :
    let s : State := { State.reset with err := true, ecode := 3#4, arrivals := [.write 0x008#15 .bits32 0xFFFFFFFD#32] }
    s.err = true ∧ completed (step s) = true ∧ (0xFFFFFFFD#32 : Word).getLsbD 1 = false := by decide +kernel

theorem witness_ReadinessFlagsFollowTheirCommands :
    (meaningOf (.valueBuild .xs)).check xs1 = none ∧ completed (exec (.valueBuild .xs) xs1) = true ∧
    (meaningOf (.shuffle .xs)).check (fourWords 0x400) = none ∧ cmwcCorner.cmwcSeeded = true ∧
    completed (step cmwcCorner) = true := by decide +kernel

theorem witness_BusAddressesSelectTheWindow : Config.base + 0x7FFF < Config.base + 0x8000 :=
  Nat.add_lt_add_left (by decide) _

theorem witness_HostReadsFollowTheMapWithoutSideEffect :
    State.reset.inReset = false ∧ State.reset.idle ∧ (0x7FFC#15).toNat % 4 = 0 := ⟨rfl, rfl, by decide⟩

theorem witness_OddAccessesGetABusError :
    State.reset.inReset = false ∧ Width.bits64 ≠ .bits32 ∧ (0x012#15).toNat % 4 ≠ 0 := by decide

theorem witness_RamWritesStoreOneWord : State.reset.inReset = false ∧ State.reset.idle ∧ 255 < 256 ∧ 63 < 64 :=
  ⟨rfl, rfl, by decide, by decide⟩

theorem witness_WritesWhileBusyAreDropped :
    (State.reset.begin .nop).inReset = false ∧ (State.reset.begin .nop).inflight ≠ none ∧ (0x004#15).toNat % 4 = 0 := by
  decide

theorem witness_flightInvariant : (State.reset.begin .nop).flightInvariant := by
  intro f hf
  cases hf
  exact ⟨rfl, rfl, rfl⟩

theorem witness_BusyReadsAreCurrentOutsideTheWriteSet :
    (State.reset.begin .xsNext).inflight = some ⟨.xsNext, State.reset.operands⟩ ∧
    (State.reset.begin .xsNext).mayWrite ⟨.xsNext, State.reset.operands⟩ 0x038 = false ∧
    (State.reset.begin .xsNext).mayWrite ⟨.xsNext, State.reset.operands⟩ 0x030 = true := by decide

theorem witness_ResetRestoresEveryRegister : State.reset.inReset = false ∧ State.reset.assertReset.inReset = true :=
  ⟨rfl, rfl⟩

/-- For the six statements EveryStepKeeps…: a step from a state that meets each invariant. -/
theorem witness_EveryStepKeeps : completed (step State.reset) = true ∧ State.reset.memInvariant ∧
    State.reset.errorInvariant ∧ State.reset.carryInvariant ∧ State.reset.permInvariant ∧ State.reset.valueInvariant ∧
    State.reset.flightInvariant :=
  ⟨by decide, by unfold State.memInvariant; decide, by unfold State.errorInvariant; decide, fun h => (by cases h),
    fun h => (by cases h), fun h => (by cases h), fun f h => (by cases h)⟩

/-! ## The slowest test, last -/

/-- Vector V21, (0.25, 0.75): the two coordinates differ, so a swap of the axes would show. -/
theorem test_sampleBicubic :
    (stateAfter (exec .sampleBicubic (withDoubles tables 0x3FD0000000000000#64 0x3FE8000000000000#64 0#64))).res =
      0x3FC69A6F35DD2A6F#64 := by decide +kernel

end Sys2Proof.Machine.Tests
end

section
/-! Binary64 rounding is correct (rules R10, R194). A magnitude pattern is nearest to `n / d` when `n / d` lies between the
midpoints to its two neighbours, a midpoint itself going to the even pattern; `f64RoundMag` computes such a pattern, and
from that each operation on finite operands is the exact result correctly rounded. -/

namespace Sys2Proof.Machine

/-! ## The value of a magnitude pattern -/

/-- The units of a magnitude pattern; `f64Units` reads a double through it. -/
def magUnits (m : Nat) : Nat :=
  if m / 2 ^ 52 = 0 then m % 2 ^ 52 else (2 ^ 52 + m % 2 ^ 52) * 2 ^ (m / 2 ^ 52 - 1)

theorem f64Units_eq_magUnits (d : DWord) : f64Units d = magUnits (f64Mag d) := rfl

theorem magUnits_strictMono : StrictMono magUnits := strictMono_nat_of_lt_succ f64Units_lt_succ

theorem magUnits_mul_mono (d : Nat) {i j : Nat} (h : i ≤ j) : magUnits i * d ≤ magUnits j * d :=
  Nat.mul_le_mul_right d (magUnits_strictMono.monotone h)

theorem magUnits_mul_strictMono {d i j : Nat} (hd : 0 < d) (h : i < j) : magUnits i * d < magUnits j * d :=
  Nat.mul_lt_mul_of_pos_right (magUnits_strictMono h) hd

theorem magUnits_zero : magUnits 0 = 0 := by decide

/-- The pattern that `f64RoundMag` builds from a shift and a whole number of at most 53 bits, a carry to `2 ^ 53` included,
is worth that number shifted. -/
theorem magUnits_shifted {sh m : Nat} (hm : m ≤ 2 ^ 53) (hsh : sh = 0 ∨ 2 ^ 52 ≤ m) :
    magUnits (sh * 2 ^ 52 + m) = m * 2 ^ sh := by
  unfold magUnits
  by_cases hsub : m < 2 ^ 52
  · obtain rfl : sh = 0 := by omega
    rw [if_pos (by omega)]
    omega
  · rw [if_neg (by omega)]
    by_cases hc : m = 2 ^ 53
    · rw [show (sh * 2 ^ 52 + m) % 2 ^ 52 = 0 by omega, show (sh * 2 ^ 52 + m) / 2 ^ 52 - 1 = sh + 1 by omega, hc]
      ring
    · rw [show (sh * 2 ^ 52 + m) / 2 ^ 52 - 1 = sh by omega, show 2 ^ 52 + (sh * 2 ^ 52 + m) % 2 ^ 52 = m by omega]

/-- Just past a carry the patterns are two steps of the old shift apart. -/
theorem magUnits_shifted_succ {sh m : Nat} (hm : m ≤ 2 ^ 53) (hsh : sh = 0 ∨ 2 ^ 52 ≤ m) :
    (m + 1) * 2 ^ sh ≤ magUnits (sh * 2 ^ 52 + m + 1) := by
  by_cases hc : m = 2 ^ 53
  · rw [show sh * 2 ^ 52 + m + 1 = (sh + 1) * 2 ^ 52 + (2 ^ 52 + 1) by omega, magUnits_shifted (by omega) (by omega), hc,
      Nat.pow_succ]
    have hp := Nat.two_pow_pos sh
    omega
  · rw [Nat.add_assoc, magUnits_shifted (by omega) (by omega)]

/-- Twice the midpoint between the largest finite pattern and the one of infinity. -/
theorem magUnits_overflow_midpoint :
    magUnits (f64InfMag - 1) + magUnits f64InfMag = 2 * ((2 ^ 54 - 1) * 2 ^ 2044) := by
  rw [show f64InfMag - 1 = 2045 * 2 ^ 52 + (2 ^ 53 - 1) by decide, show f64InfMag = 2045 * 2 ^ 52 + 2 ^ 53 by decide,
    magUnits_shifted (by omega) (by omega), magUnits_shifted (by omega) (by omega), Nat.pow_succ 2 2044]
  omega

/-! ## The nearest magnitude pattern -/

/-- `n / d` units are at most at the midpoint above the pattern `M` and at least at the one below it, and at a midpoint
only when `M` is even. -/
structure NearestMag (n d M : Nat) : Prop where
  above : 2 * n ≤ magUnits M * d + magUnits (M + 1) * d
  above_even : 2 * n = magUnits M * d + magUnits (M + 1) * d → M % 2 = 0
  below : ∀ k, k + 1 = M → magUnits k * d + magUnits M * d ≤ 2 * n
  below_even : ∀ k, k + 1 = M → magUnits k * d + magUnits M * d = 2 * n → M % 2 = 0

/-- No pattern is nearer than the one between the two midpoints, and another is as near only when that one is even. -/
theorem NearestMag.nearest {n d M : Nat} (h : NearestMag n d M) (hd : 0 < d) (k : Nat) :
    ((magUnits M * d : Nat) - n : Int).natAbs ≤ ((magUnits k * d : Nat) - n : Int).natAbs ∧
    (((magUnits M * d : Nat) - n : Int).natAbs = ((magUnits k * d : Nat) - n : Int).natAbs → k ≠ M → M % 2 = 0) := by
  rcases Nat.lt_trichotomy k M with hk | rfl | hk
  · obtain ⟨j, rfl⟩ : ∃ j, j + 1 = M := ⟨M - 1, by omega⟩
    have hkj := magUnits_mul_mono d (show k ≤ j by omega)
    have hkM := magUnits_mul_strictMono hd hk
    have hb := h.below j rfl
    have he := h.below_even j rfl
    exact ⟨by omega, fun heq _ => he (by omega)⟩
  · exact ⟨Nat.le_refl _, fun _ hne => absurd rfl hne⟩
  · have hMk := magUnits_mul_mono d (show M + 1 ≤ k from hk)
    have hlt := magUnits_mul_strictMono hd hk
    have ha := h.above
    have he := h.above_even
    exact ⟨by omega, fun heq _ => he (by omega)⟩

/-- The nearest pattern is finite exactly below the midpoint to infinity: the largest finite pattern is odd, so the
midpoint itself rounds up. -/
theorem NearestMag.lt_inf_iff {n d M : Nat} (h : NearestMag n d M) (hd : 0 < d) :
    M < f64InfMag ↔ n < (2 ^ 54 - 1) * 2 ^ 2044 * d := by
  have hmid : magUnits (f64InfMag - 1) * d + magUnits f64InfMag * d = 2 * ((2 ^ 54 - 1) * 2 ^ 2044 * d) := by
    rw [← Nat.add_mul, magUnits_overflow_midpoint, Nat.mul_assoc]
  generalize (2 ^ 54 - 1) * 2 ^ 2044 * d = mid at hmid ⊢
  have hinf : f64InfMag = 2 * (0x7FF * 2 ^ 51) := by decide
  constructor
  · intro hM
    have ha := h.above
    have he := h.above_even
    have h1 := magUnits_mul_mono d (show M ≤ f64InfMag - 1 by omega)
    have h2 := magUnits_mul_mono d (show M + 1 ≤ f64InfMag from hM)
    rcases Nat.lt_or_ge (M + 1) f64InfMag with hlt | hge
    · have h3 := magUnits_mul_strictMono hd (show M < f64InfMag - 1 by omega)
      omega
    · have hodd : M % 2 ≠ 0 := by omega
      have hne := mt he hodd
      omega
  · intro hn
    by_contra hM
    have hb := h.below (M - 1) (by omega)
    have h1 := magUnits_mul_mono d (show f64InfMag - 1 ≤ M - 1 by omega)
    have h2 := magUnits_mul_mono d (show f64InfMag ≤ M by omega)
    omega

/-! ## `roundNearestEven` and `f64RoundMag` find it -/

theorem roundNearestEven_bounds (n d : Nat) :
    n / d ≤ roundNearestEven n d ∧ roundNearestEven n d ≤ n / d + 1 := by
  simp only [roundNearestEven]
  split
  · omega
  · split <;> omega

/-- `roundNearestEven` is at most half a step from the quotient, and half a step only when it is even. -/
theorem roundNearestEven_half_step {n d : Nat} (hd : 0 < d) :
    2 * n ≤ 2 * (roundNearestEven n d * d) + d ∧ 2 * (roundNearestEven n d * d) ≤ 2 * n + d ∧
    (2 * n = 2 * (roundNearestEven n d * d) + d ∨ 2 * (roundNearestEven n d * d) = 2 * n + d →
      roundNearestEven n d % 2 = 0) := by
  have hn := Nat.div_add_mod' n d
  have hr := Nat.mod_lt n hd
  simp only [roundNearestEven]
  split
  · rw [Nat.add_mul]
    omega
  · split
    · rcases Nat.mod_two_eq_zero_or_one (n / d) with hq | hq <;> rw [hq, Nat.add_mul] <;> omega
    · omega

/-- The number of low bits that `f64RoundMag` drops. -/
def roundShift (n d : Nat) : Nat := Nat.log2 (n / d) - 52

/-- The pattern that `f64RoundMag` takes when it is not past infinity. -/
def roundMagUnbounded (n d : Nat) : Nat := roundShift n d * 2 ^ 52 + roundNearestEven n (d * 2 ^ roundShift n d)

theorem f64RoundMag_eq_min (n d : Nat) : f64RoundMag n d = min (roundMagUnbounded n d) f64InfMag := rfl

/-- The shift leaves at most 53 bits of the quotient, and all 53 when it drops any. -/
theorem div_roundShift_bounds (n d : Nat) :
    n / (d * 2 ^ roundShift n d) < 2 ^ 53 ∧ (roundShift n d = 0 ∨ 2 ^ 52 ≤ n / (d * 2 ^ roundShift n d)) := by
  have hp := Nat.two_pow_pos (roundShift n d)
  rw [← Nat.div_div_eq_div_mul]
  constructor
  · rw [Nat.div_lt_iff_lt_mul hp, ← Nat.pow_add]
    calc n / d < 2 ^ ((n / d).log2 + 1) := Nat.lt_log2_self
      _ ≤ 2 ^ (53 + roundShift n d) := Nat.pow_le_pow_right (by decide) (by unfold roundShift; omega)
  · by_cases h0 : roundShift n d = 0
    · exact .inl h0
    · have hlog : 52 + roundShift n d = (n / d).log2 := by unfold roundShift at *; omega
      have hq : n / d ≠ 0 := fun h => h0 (by rw [roundShift, h, Nat.log2_zero])
      rw [Nat.le_div_iff_mul_le hp, ← Nat.pow_add, hlog]
      exact .inr (Nat.log2_self_le hq)

theorem roundMagUnbounded_nearest {n d : Nat} (hd : 0 < d) : NearestMag n d (roundMagUnbounded n d) := by
  obtain ⟨hlt, hfull⟩ := div_roundShift_bounds n d
  unfold roundMagUnbounded
  generalize roundShift n d = sh at *
  have hp := Nat.two_pow_pos sh
  have hD : 0 < d * 2 ^ sh := Nat.mul_pos hd hp
  obtain ⟨hq, hq'⟩ := roundNearestEven_bounds n (d * 2 ^ sh)
  obtain ⟨habove, hbelow, heven⟩ := roundNearestEven_half_step (n := n) hD
  generalize roundNearestEven n (d * 2 ^ sh) = m at *
  have hm : m ≤ 2 ^ 53 := by omega
  have hsh : sh = 0 ∨ 2 ^ 52 ≤ m := by omega
  have hval : magUnits (sh * 2 ^ 52 + m) * d = m * (d * 2 ^ sh) := by rw [magUnits_shifted hm hsh]; ring
  have hnext : m * (d * 2 ^ sh) + d * 2 ^ sh ≤ magUnits (sh * 2 ^ 52 + m + 1) * d :=
    calc m * (d * 2 ^ sh) + d * 2 ^ sh = (m + 1) * 2 ^ sh * d := by ring
      _ ≤ magUnits (sh * 2 ^ 52 + m + 1) * d := Nat.mul_le_mul_right d (magUnits_shifted_succ hm hsh)
  have hprev : ∀ k, k + 1 = sh * 2 ^ 52 + m →
      magUnits k * d + d * 2 ^ sh = m * (d * 2 ^ sh) ∨ (magUnits k * d < m * (d * 2 ^ sh) ∧ m * (d * 2 ^ sh) ≤ n) := by
    intro k hk
    by_cases hstep : sh ≠ 0 ∧ m = 2 ^ 52
    · refine .inr ⟨?_, ?_⟩
      · rw [← hval]
        exact magUnits_mul_strictMono hd (by omega)
      · exact (Nat.le_div_iff_mul_le hD).1 (by omega)
    · obtain ⟨j, rfl⟩ : ∃ j, j + 1 = m := ⟨m - 1, by omega⟩
      rw [show k = sh * 2 ^ 52 + j by omega, magUnits_shifted (by omega) (by omega)]
      exact .inl (by ring)
  generalize d * 2 ^ sh = D at *
  generalize m * D = V at *
  refine ⟨by omega, fun h => ?_, fun k hk => ?_, fun k hk h => ?_⟩
  · have := heven (by omega)
    omega
  · have := hprev k hk
    omega
  · have := hprev k hk
    have := heven (by omega)
    omega

end Sys2Proof.Machine
end

section
/-! The statement O38 from the rounding of magnitudes: the fields of a pattern, the sign put back on a rounded magnitude,
then each operation on finite operands and on an infinite one (rules R10, R194). -/

namespace Sys2Proof.Machine

/-! ## The fields of a pattern -/

theorem f64Mag_div_eq_exponent (d : DWord) : f64Mag d / 2 ^ 52 = (d.extractLsb' 52 11).toNat := by
  rw [BitVec.extractLsb'_toNat, Nat.shiftRight_eq_div_pow, f64Mag]
  omega

theorem f64Mag_mod_eq_fraction (d : DWord) : f64Mag d % 2 ^ 52 = (d.extractLsb' 0 52).toNat := by
  rw [BitVec.extractLsb'_toNat, Nat.shiftRight_zero, f64Mag]
  omega

/-- A pattern is finite unless its exponent field is all ones. -/
theorem f64IsFinite_iff_exponent (d : DWord) : f64IsFinite d = true ↔ (d.extractLsb' 52 11).toNat ≠ 2047 := by
  have he := f64Mag_div_eq_exponent d
  have hlt := (d.extractLsb' 52 11).isLt
  rw [f64IsFinite, decide_eq_true_eq, f64InfMag]
  omega

theorem f64Scaled_eq_fields (d : DWord) :
    f64Scaled d = (if d.getLsbD 63 then -1 else 1) *
      (if (d.extractLsb' 52 11).toNat = 0 then (d.extractLsb' 0 52).toNat
        else (2 ^ 52 + (d.extractLsb' 0 52).toNat) * 2 ^ ((d.extractLsb' 52 11).toNat - 1) : Nat) := by
  rw [← f64Mag_div_eq_exponent, ← f64Mag_mod_eq_fraction]
  change (if f64Neg d then -(magUnits (f64Mag d) : Int) else (magUnits (f64Mag d) : Int)) =
    (if f64Neg d then -1 else 1) * (magUnits (f64Mag d) : Int)
  cases f64Neg d <;> simp

theorem f64Pack_infMag (p : Bool) :
    f64Pack p f64InfMag = if p then 0xFFF0000000000000#64 else 0x7FF0000000000000#64 := by cases p <;> decide

theorem f64Pack_zeroMag (p : Bool) :
    f64Pack p 0 = if p then 0x8000000000000000#64 else 0x0000000000000000#64 := by cases p <;> decide

/-- An infinity is one of two patterns, told by its sign. -/
theorem f64IsInf_iff (d : DWord) : f64IsInf d = true ↔ d = f64Pack (f64Neg d) f64InfMag := by
  rw [f64IsInf, beq_iff_eq]
  constructor
  · intro h
    rw [← h, f64Pack_neg_mag]
  · intro h
    rw [h, f64Mag_pack _ (by decide)]

@[simp] theorem f64Neg_packInf (p : Bool) : f64Neg (f64Pack p f64InfMag) = p := f64Neg_pack p (by decide)

@[simp] theorem f64Mag_packInf (p : Bool) : f64Mag (f64Pack p f64InfMag) = f64InfMag := f64Mag_pack p (by decide)

@[simp] theorem f64IsInf_packInf (p : Bool) : f64IsInf (f64Pack p f64InfMag) = true := by simp [f64IsInf]

@[simp] theorem f64IsNaN_packInf (p : Bool) : f64IsNaN (f64Pack p f64InfMag) = false :=
  f64IsNaN_of_inf (f64IsInf_packInf p)

@[simp] theorem f64Negate_packInf (p : Bool) : f64Negate (f64Pack p f64InfMag) = f64Pack (!p) f64InfMag := by
  simp [f64Negate]

/-! ## Signed results -/

/-- A whole number with a sign beside it. -/
def withSign (neg : Bool) (n : Nat) : Int := if neg then -(n : Int) else (n : Int)

theorem f64Scaled_eq_withSign (d : DWord) : f64Scaled d = withSign (f64Neg d) (magUnits (f64Mag d)) := rfl

theorem withSign_zero (neg : Bool) : withSign neg 0 = 0 := by cases neg <;> rfl

theorem natAbs_withSign (neg : Bool) (n : Nat) : (withSign neg n).natAbs = n := by
  cases neg <;> simp [withSign]

theorem withSign_mul (p q : Bool) (m n : Nat) : withSign p m * withSign q n = withSign (p != q) (m * n) := by
  cases p <;> cases q <;> simp [withSign]

theorem withSign_mul_natCast (p : Bool) (m n : Nat) : withSign p m * (n : Int) = withSign p (m * n) := by
  cases p <;> simp [withSign]

theorem withSign_decide_lt_zero (m : Int) : withSign (decide (m < 0)) m.natAbs = m := by
  by_cases h : m < 0
  · simp only [h, decide_true, withSign, if_true]
    omega
  · simp only [h, decide_false, withSign, Bool.false_eq_true, if_false]
    omega

theorem decide_withSign_lt_zero (neg : Bool) {n : Nat} (hn : 0 < n) : decide (withSign neg n < 0) = neg := by
  cases neg <;> simp [withSign, hn]

/-- Two numbers of one sign are as far apart as their magnitudes; of two signs, as far as the sum of these. -/
theorem natAbs_withSign_sub (p q : Bool) (m n : Nat) :
    (withSign p m - withSign q n).natAbs = if p = q then ((m : Int) - n).natAbs else m + n := by
  cases p <;> cases q <;> simp only [withSign, if_true, Bool.false_eq_true, reduceCtorEq, if_false] <;> omega

/-- No finite double of either sign is nearer to a signed quotient than the nearest magnitude with its sign. -/
theorem NearestMag.nearest_signed {n d M : Nat} (h : NearestMag n d M) (hd : 0 < d) (neg : Bool) (e : DWord) :
    (withSign neg (magUnits M) * d - withSign neg n).natAbs ≤ (f64Scaled e * d - withSign neg n).natAbs ∧
    ((withSign neg (magUnits M) * d - withSign neg n).natAbs = (f64Scaled e * d - withSign neg n).natAbs →
      f64Scaled e ≠ withSign neg (magUnits M) → M % 2 = 0) := by
  rw [f64Scaled_eq_withSign, withSign_mul_natCast, withSign_mul_natCast, natAbs_withSign_sub, natAbs_withSign_sub,
    if_pos rfl]
  by_cases hsign : f64Neg e = neg
  · rw [if_pos hsign, hsign]
    obtain ⟨hle, heven⟩ := h.nearest hd (f64Mag e)
    exact ⟨hle, fun heq hne => heven heq fun hk => hne (by rw [hk])⟩
  · rw [if_neg hsign]
    obtain ⟨hle, heven⟩ := h.nearest hd 0
    simp only [magUnits_zero, Nat.zero_mul] at hle heven
    refine ⟨by omega, fun heq _ => ?_⟩
    by_cases hM : M = 0
    · omega
    · exact heven (by omega) (Ne.symm hM)

/-- Rounding a magnitude and putting the sign on is rounding the signed quotient correctly (rule R194). -/
theorem roundedNearestEven_pack (neg : Bool) {n d : Nat} (hd : 0 < d) :
    RoundedNearestEven (f64Pack neg (f64RoundMag n d)) (withSign neg n) d := by
  have hnear := roundMagUnbounded_nearest (n := n) hd
  have hfin := hnear.lt_inf_iff hd
  have hmag := f64Mag_pack neg (f64RoundMag_lt n d)
  have hsgn := f64Neg_pack neg (f64RoundMag_lt n d)
  unfold RoundedNearestEven
  rw [natAbs_withSign]
  by_cases hM : roundMagUnbounded n d < f64InfMag
  · have hround : f64RoundMag n d = roundMagUnbounded n d := Nat.min_eq_left (Nat.le_of_lt hM)
    rw [hround] at hmag hsgn ⊢
    refine .inl ⟨?_, hfin.1 hM, fun e _ => ?_⟩
    · rw [f64IsFinite, hmag]
      exact decide_eq_true hM
    · rw [f64Scaled_eq_withSign (f64Pack _ _), hmag, hsgn]
      exact hnear.nearest_signed hd neg e
  · have hround : f64RoundMag n d = f64InfMag := Nat.min_eq_right (Nat.le_of_not_lt hM)
    have hover : (2 ^ 54 - 1) * 2 ^ 2044 * d ≤ n := Nat.le_of_not_lt (mt hfin.2 hM)
    have hmid : 0 < (2 ^ 54 - 1) * 2 ^ 2044 * d := Nat.mul_pos (Nat.mul_pos (by decide) (pow_pos two_pos 2044)) hd
    have hn : 0 < n := Nat.lt_of_lt_of_le hmid hover
    rw [hround, f64Neg_packInf]
    exact .inr ⟨f64IsInf_packInf neg, hover, (decide_withSign_lt_zero neg hn).symm⟩

/-! ## Finite operands -/

theorem f64RoundMag_zero : f64RoundMag 0 1 = 0 := by decide

theorem f64One_pos : 0 < f64One := pow_pos two_pos _

theorem roundedNearestEven_fadd {a b : DWord} (ha : f64IsFinite a = true) (hb : f64IsFinite b = true) :
    RoundedNearestEven (fadd a b) (f64Scaled a + f64Scaled b) 1 := by
  rw [fadd_finite ha hb]
  by_cases h0 : f64Scaled a + f64Scaled b = 0
  · rw [if_pos h0, h0]
    have hr := roundedNearestEven_pack (f64Neg a && f64Neg b) (n := 0) Nat.one_pos
    rwa [f64RoundMag_zero, withSign_zero] at hr
  · rw [if_neg h0]
    have hr := roundedNearestEven_pack (decide (f64Scaled a + f64Scaled b < 0))
      (n := (f64Scaled a + f64Scaled b).natAbs) Nat.one_pos
    rwa [withSign_decide_lt_zero] at hr

theorem fadd_exact_zero {a b : DWord} (ha : f64IsFinite a = true) (hb : f64IsFinite b = true)
    (h0 : f64Scaled a + f64Scaled b = 0) : fadd a b = f64Pack (f64Neg a && f64Neg b) 0 := by
  rw [fadd_finite ha hb, if_pos h0]

theorem roundedNearestEven_fsub {a b : DWord} (ha : f64IsFinite a = true) (hb : f64IsFinite b = true) :
    RoundedNearestEven (fsub a b) (f64Scaled a - f64Scaled b) 1 := by
  rw [fsub_eq, Int.sub_eq_add_neg, ← f64Scaled_negate]
  exact roundedNearestEven_fadd ha (by rwa [f64IsFinite_negate])

theorem fsub_exact_zero {a b : DWord} (ha : f64IsFinite a = true) (hb : f64IsFinite b = true)
    (h0 : f64Scaled a - f64Scaled b = 0) : fsub a b = f64Pack (f64Neg a && !f64Neg b) 0 := by
  rw [fsub_eq, fadd_exact_zero ha (by rwa [f64IsFinite_negate]) (by rw [f64Scaled_negate]; omega), f64Neg_negate]

theorem roundedNearestEven_fmul {a b : DWord} (ha : f64IsFinite a = true) (hb : f64IsFinite b = true) :
    RoundedNearestEven (fmul a b) (f64Scaled a * f64Scaled b) f64One := by
  rw [fmul_finite ha hb, f64Scaled_eq_withSign, f64Scaled_eq_withSign, withSign_mul]
  exact roundedNearestEven_pack _ f64One_pos

theorem f64Neg_fmul {a b : DWord} (ha : f64IsFinite a = true) (hb : f64IsFinite b = true) :
    f64Neg (fmul a b) = (f64Neg a != f64Neg b) := by
  rw [fmul_finite ha hb, f64Neg_pack _ (f64RoundMag_lt _ _)]

theorem roundedNearestEven_fdiv {a b : DWord} (ha : f64IsFinite a = true) (hb : f64IsFinite b = true)
    (h0 : f64Scaled b ≠ 0) :
    RoundedNearestEven (fdiv a b) (f64Scaled a * (f64One : Int) * (f64Scaled b).sign) (f64Scaled b).natAbs := by
  have hmag : f64Mag b ≠ 0 := mt (f64Scaled_zero_iff b).2 h0
  have hpos : 0 < f64Units b := Nat.pos_of_ne_zero (mt (f64Units_zero_iff b).1 hmag)
  have hsign : (f64Scaled b).sign = withSign (f64Neg b) 1 := by
    unfold f64Scaled withSign
    split
    · rw [Int.sign_neg, Int.sign_natCast_of_ne_zero hpos.ne']; rfl
    · rw [Int.sign_natCast_of_ne_zero hpos.ne']; rfl
  have hnum : f64Scaled a * (f64One : Int) * (f64Scaled b).sign =
      withSign (f64Neg a != f64Neg b) (f64Units a * f64One) := by
    rw [hsign, Int.mul_right_comm, f64Scaled_eq_withSign a, withSign_mul, Nat.mul_one, withSign_mul_natCast,
      f64Units_eq_magUnits]
  rw [hnum, fdiv_finite ha hb hmag, show (f64Scaled b).natAbs = f64Units b from natAbs_withSign _ _]
  exact roundedNearestEven_pack _ hpos

theorem f64Neg_fdiv {a b : DWord} (ha : f64IsFinite a = true) (hb : f64IsFinite b = true) (h0 : f64Scaled b ≠ 0) :
    f64Neg (fdiv a b) = (f64Neg a != f64Neg b) := by
  rw [fdiv_finite ha hb (mt (f64Scaled_zero_iff b).2 h0), f64Neg_pack _ (f64RoundMag_lt _ _)]

/-! ## An infinite operand -/

theorem fadd_inf_same (p : Bool) :
    fadd (f64Pack p f64InfMag) (f64Pack p f64InfMag) = f64Pack p f64InfMag := by simp [fadd]

theorem fsub_inf_opposite (p : Bool) :
    fsub (f64Pack p f64InfMag) (f64Pack (!p) f64InfMag) = f64Pack p f64InfMag := by simp [fsub_eq, fadd_inf_same]

theorem fmul_inf_inf (p q : Bool) :
    fmul (f64Pack p f64InfMag) (f64Pack q f64InfMag) = f64Pack (p != q) f64InfMag := by
  have hinf : f64InfMag ≠ 0 := by decide
  simp [fmul, hinf]

section finite
variable (p : Bool) {b : DWord} (hb : f64IsFinite b = true)
include hb

theorem fadd_inf_finite : fadd (f64Pack p f64InfMag) b = f64Pack p f64InfMag := by
  simp [fadd, f64IsNaN_of_finite hb, f64IsInf_of_finite hb]

theorem fadd_finite_inf : fadd b (f64Pack p f64InfMag) = f64Pack p f64InfMag := by
  simp [fadd, f64IsNaN_of_finite hb, f64IsInf_of_finite hb]

theorem fsub_inf_finite : fsub (f64Pack p f64InfMag) b = f64Pack p f64InfMag :=
  fadd_inf_finite p (by rwa [f64IsFinite_negate])

theorem fsub_finite_inf : fsub b (f64Pack p f64InfMag) = f64Pack (!p) f64InfMag := by
  rw [fsub_eq, f64Negate_packInf, fadd_finite_inf _ hb]

theorem fmul_inf_finite (h0 : f64Scaled b ≠ 0) :
    fmul (f64Pack p f64InfMag) b = f64Pack (p != f64Neg b) f64InfMag := by
  have hinf : f64InfMag ≠ 0 := by decide
  simp [fmul, f64IsNaN_of_finite hb, hinf, mt (f64Scaled_zero_iff b).2 h0]

theorem fmul_finite_inf (h0 : f64Scaled b ≠ 0) :
    fmul b (f64Pack p f64InfMag) = f64Pack (p != f64Neg b) f64InfMag := by
  have hinf : f64InfMag ≠ 0 := by decide
  simp [fmul, f64IsNaN_of_finite hb, hinf, mt (f64Scaled_zero_iff b).2 h0, Bool.xor_comm]

theorem fdiv_inf_finite : fdiv (f64Pack p f64InfMag) b = f64Pack (p != f64Neg b) f64InfMag := by
  simp [fdiv, f64IsNaN_of_finite hb, f64IsInf_of_finite hb]

theorem fdiv_finite_inf : fdiv b (f64Pack p f64InfMag) = f64Pack (p != f64Neg b) 0 := by
  simp [fdiv, f64IsNaN_of_finite hb, f64IsInf_of_finite hb, Bool.xor_comm]

end finite

/-- Settles O38: the field layout, then the four operations by `roundedNearestEven_pack`, then the infinite operands. -/
theorem arithmeticIsCorrectlyRounded : Obligations.ArithmeticIsCorrectlyRounded := by
  unfold Obligations.ArithmeticIsCorrectlyRounded
  simp only [← f64Pack_infMag, ← f64Pack_zeroMag]
  refine ⟨fun d => ⟨f64IsFinite_iff_exponent d, f64IsInf_iff d, rfl, f64Scaled_eq_fields d⟩, fun a b ha hb => ?_,
    fun p q => ⟨fadd_inf_same p, fsub_inf_opposite p, fmul_inf_inf p q, fun b hb => ?_⟩⟩
  · exact ⟨roundedNearestEven_fadd ha hb, fadd_exact_zero ha hb, roundedNearestEven_fsub ha hb, fsub_exact_zero ha hb,
      roundedNearestEven_fmul ha hb, f64Neg_fmul ha hb,
      fun h0 => ⟨roundedNearestEven_fdiv ha hb h0, f64Neg_fdiv ha hb h0⟩⟩
  · exact ⟨fadd_inf_finite p hb, fadd_finite_inf p hb, fsub_inf_finite p hb, fsub_finite_inf p hb,
      fun h0 => ⟨fmul_inf_finite p hb h0, fmul_finite_inf p hb h0⟩, fdiv_inf_finite p hb, fdiv_finite_inf p hb⟩

end Sys2Proof.Machine
end

section
/-! The host port (file 20_memory.md): which bus addresses are the block's, what an access that the port does not accept
does, and what every word of the window reads as. -/

namespace Sys2Proof.Machine

/-! ## Bus addresses and refused accesses (rules R60 to R63) -/

theorem offsetOfAddress_inside (off : Offset) : offsetOfAddress (Config.base + off.toNat) = some off := by
  have hlt : off.toNat < 0x8000 := off.isLt
  rw [offsetOfAddress, if_pos (by omega), Nat.add_sub_cancel_left, BitVec.ofNat_toNat, BitVec.setWidth_eq]

theorem offsetOfAddress_outside {addr : Nat} (h : addr < Config.base ∨ Config.base + 0x7FFF < addr) :
    offsetOfAddress addr = none :=
  if_neg (by omega)

/-- Settles O46: an access event exists exactly where `offsetOfAddress` answers. -/
theorem busAddressesSelectTheWindow : Obligations.BusAddressesSelectTheWindow := by
  unfold Obligations.BusAddressesSelectTheWindow
  refine ⟨Nat.mul_mod_right 0x8000 Config.baseSlot, fun off width w => ?_, fun addr width w h => ?_⟩
  · simp [readAtAddress, writeAtAddress, offsetOfAddress_inside]
  · simp [readAtAddress, writeAtAddress, offsetOfAddress_outside h]

theorem step_read {s : State} (off : Offset) (width : Width) (rest : List PortEvent) (hr : s.inReset = false) :
    step { s with arrivals := .read off width :: rest } =
      .next (State.deliverRead { s with arrivals := rest } off width) :=
  deliver_read (s := { s with arrivals := rest }) off width hr

theorem step_write {s : State} (off : Offset) (width : Width) (w : Word) (rest : List PortEvent)
    (hr : s.inReset = false) :
    step { s with arrivals := .write off width w :: rest } = deliverWrite off width w { s with arrivals := rest } :=
  deliver_write (s := { s with arrivals := rest }) off width w hr

theorem accessOk_eq_false {off : Offset} {width : Width} (h : width ≠ .bits32 ∨ off.toNat % 4 ≠ 0) :
    accessOk off width = false := by
  rcases h with h | h <;> simp [accessOk, h]

/-- Settles O48: `accessOk` is tested before BUSY and before the kind of word, for reads and writes alike. -/
theorem oddAccessesGetABusError : Obligations.OddAccessesGetABusError := by
  unfold Obligations.OddAccessesGetABusError
  intro s off width w rest hr h
  have hok := accessOk_eq_false h
  refine ⟨?_, ?_⟩
  · rw [step_read _ _ _ hr, State.deliverRead, if_neg (by simp [hok])]
    rfl
  · rw [step_write _ _ _ _ hr, deliverWrite, if_pos (by simp [hok])]
    rfl

/-! ## What a word reads as (rules R22, R25, R65, R66) -/

theorem readWord_ram {s : State} {off : Nat} (h : isRamOffset off = true) : s.readWord off = s.wordAt off := if_pos h

theorem readWord_register {s : State} {off : Nat} (h : isRamOffset off = false) :
    s.readWord off = s.readRegister off := if_neg (by simp [h])

theorem readRegister_reserved (s : State) {off : Nat} (h : off = 0x00C ∨ 0x04C ≤ off) :
    s.readRegister off = 0#32 := by
  unfold State.readRegister
  split
  case h_18 => rfl
  all_goals omega

theorem readWord_perm (s : State) {k : Nat} (hk : k < 256) : s.readWord (permOff k) = s.perm k :=
  readWord_ram (by rw [isRamOffset_iff, permOff]; omega)

theorem readWord_src (s : State) {k : Nat} (hk : k < 256) : s.readWord (srcOff k) = s.src k :=
  readWord_ram (by rw [isRamOffset_iff, srcOff]; omega)

theorem readWord_q (s : State) {k : Nat} (hk : k < 4096) : s.readWord (qOff k) = s.q k :=
  readWord_ram (by rw [isRamOffset_iff, qOff]; omega)

/-- A 64-bit RAM entry is its two words, the high one 4 above the low one (rule R64). -/
theorem readWord_dword (s : State) {off : Nat} (hlo : isRamOffset off = true) (hhi : isRamOffset (off + 4) = true) :
    s.readWord (off + 4) ++ s.readWord off = s.dwordAt off := by
  rw [readWord_ram hlo, readWord_ram hhi, State.dwordAt]

theorem readWord_value (s : State) {k : Nat} (hk : k < 256) :
    s.readWord (valueOff k + 4) ++ s.readWord (valueOff k) = s.value k :=
  readWord_dword s (by rw [isRamOffset_iff, valueOff]; omega) (by rw [isRamOffset_iff, valueOff]; omega)

theorem readWord_knot (s : State) {k : Nat} (hk : k < 64) :
    s.readWord (knotOff k + 4) ++ s.readWord (knotOff k) = s.knot k :=
  readWord_dword s (by rw [isRamOffset_iff, knotOff]; omega) (by rw [isRamOffset_iff, knotOff]; omega)

/-- The bits of STATUS, field by field (rule R25). -/
theorem statusWord_fields (s : State) :
    s.statusWord.getLsbD 0 = s.inflight.isSome ∧ s.statusWord.getLsbD 1 = s.err ∧
    s.statusWord.getLsbD 2 = s.cmwcSeeded ∧ s.statusWord.getLsbD 3 = s.permReady ∧
    s.statusWord.getLsbD 4 = s.valueReady ∧ s.statusWord.extractLsb' 5 3 = 0#3 ∧
    s.statusWord.extractLsb' 8 4 = s.ecode ∧ s.statusWord.extractLsb' 12 20 = 0#20 := by
  simp only [State.statusWord, State.busy, flagBit, BitVec.getLsbD_append, BitVec.extractLsb'_append_eq_ite]
  simp

theorem toNat_append_add {m n : Nat} (x : BitVec m) (y : BitVec n) : (x ++ y).toNat = 2 ^ n * x.toNat + y.toNat := by
  rw [BitVec.toNat_append, ← Nat.shiftLeft_add_eq_or_of_lt y.isLt, Nat.shiftLeft_eq, Nat.mul_comm]

theorem toNat_xsShiftWord (s : State) :
    s.xsShiftWord.toNat = s.xsShiftA.toNat + 2 ^ 8 * s.xsShiftB.toNat + 2 ^ 16 * s.xsShiftC.toNat := by
  simp only [State.xsShiftWord, toNat_append_add, BitVec.toNat_ofNat]
  omega

theorem toNat_cmwcIndexWord (s : State) : s.cmwcIndexWord.toNat = s.cmwcIndex.toNat := by
  simp only [State.cmwcIndexWord, toNat_append_add, BitVec.toNat_ofNat]
  omega

theorem toNat_kcountWord (s : State) : s.kcountWord.toNat = s.kcount.toNat := by
  simp only [State.kcountWord, toNat_append_add, BitVec.toNat_ofNat]
  omega

/-! ## Host reads (rules R61, R71) -/

/-- No read changes anything but the response and the count of unspecified reads. -/
theorem deliverRead_changes_reply_alone (s : State) (off : Offset) (width : Width) :
    ∃ r n, s.deliverRead off width = { s with reply := r, freeReads := n } := by
  unfold State.deliverRead State.hostRead
  split
  · split
    · split <;> exact ⟨_, _, rfl⟩
    · exact ⟨_, _, rfl⟩
  · exact ⟨_, _, rfl⟩

theorem hostRead_idle {s : State} (off : Nat) (h : s.idle) :
    s.hostRead off = { s with reply := .data (s.readWord off) } := by
  unfold State.hostRead
  rw [show s.inflight = none from h]

theorem hostRead_busy {s : State} {f : InFlight} {off : Nat} (hf : s.inflight = some f)
    (hw : s.mayWrite f off = false) :
    s.hostRead off = { s with reply := .data (s.readWord off) } := by
  unfold State.hostRead
  simp [hf, hw]

theorem deliverRead_aligned {s : State} {off : Offset} (h4 : off.toNat % 4 = 0) :
    s.deliverRead off .bits32 = s.hostRead off.toNat := if_pos (accessOk_aligned h4)

/-- Settles O47: the map, one lemma per kind of word, then the two facts about a read. -/
theorem hostReadsFollowTheMapWithoutSideEffect : Obligations.HostReadsFollowTheMapWithoutSideEffect := by
  unfold Obligations.HostReadsFollowTheMapWithoutSideEffect
  refine ⟨fun s => ⟨rfl, rfl, statusWord_fields s, rfl, rfl, rfl, rfl, rfl, rfl, rfl, rfl, rfl, toNat_xsShiftWord s, rfl,
    rfl, rfl, toNat_cmwcIndexWord s, toNat_kcountWord s, fun off h => ?_, fun k hk => ?_, fun k hk => ?_,
    fun k hk => readWord_q s hk⟩, fun s off width rest hr => ⟨?_, ?_⟩⟩
  · have hram : isRamOffset off = false := by
      rw [← Bool.not_eq_true, isRamOffset_iff]
      omega
    rw [readWord_register hram, readRegister_reserved s (by omega)]
  · refine ⟨readWord_perm s hk, readWord_src s hk, ?_⟩
    rw [Nat.add_right_comm 0x1000 4 (8 * k)]
    exact readWord_value s hk
  · rw [Nat.add_right_comm 0x1800 4 (8 * k)]
    exact readWord_knot s hk
  · obtain ⟨r, n, h⟩ := deliverRead_changes_reply_alone { s with arrivals := rest } off width
    exact ⟨r, n, by rw [step_read _ _ _ hr, h]⟩
  · rintro hi rfl h4
    rw [step_read _ _ _ hr, deliverRead_aligned h4, hostRead_idle (s := { s with arrivals := rest }) _ hi]
    rfl

end Sys2Proof.Machine
end

section
/-! Reads while a command runs (rule R71). A run is a sequence of draws from one generator and of stores to RAM words, and
then changes of flags and of `RES`; what such a sequence leaves as it was is shown once, for every command. -/

namespace Sys2Proof.Machine

/-! ## What a read depends on -/

theorem readWord_eq_of_parts {s t : State} {off : Nat} (hram : isRamOffset off = true → t.wordAt off = s.wordAt off)
    (hreg : t.readRegister off = s.readRegister off) : t.readWord off = s.readWord off := by
  cases h : isRamOffset off with
  | true => rw [readWord_ram h, readWord_ram h, hram h]
  | false => rw [readWord_register h, readWord_register h, hreg]

/-- After draws and RAM stores every register reads the same whose generator value is the same. -/
theorem DrawFrame.readRegister_eq {s t : State} (h : DrawFrame s t) {off : Nat}
    (hxs : off = offXsState → t.xsState = s.xsState) (hminstd : off = offMinstdState → t.minstdState = s.minstdState)
    (hmars : off = offMarsState → t.marsState = s.marsState) (hcarry : off = offCmwcCarry → t.cmwcCarry = s.cmwcCarry)
    (hindex : off = offCmwcIndex → t.cmwcIndex = s.cmwcIndex) : t.readRegister off = s.readRegister off := by
  have hstatus : t.statusWord = s.statusWord := by
    simp only [State.statusWord, State.busy, h.ecode, h.valueReady, h.permReady, h.cmwcSeeded, h.err, h.inflight]
  have hshift : t.xsShiftWord = s.xsShiftWord := by
    simp only [State.xsShiftWord, h.xsShiftA, h.xsShiftB, h.xsShiftC]
  have hkcount : t.kcountWord = s.kcountWord := by simp only [State.kcountWord, h.kcount]
  unfold State.readRegister
  split
  case h_1 => rfl
  case h_2 => exact hstatus
  case h_3 => exact h.opaLo
  case h_4 => exact h.opaHi
  case h_5 => exact h.opbLo
  case h_6 => exact h.opbHi
  case h_7 => exact h.opcLo
  case h_8 => exact h.opcHi
  case h_9 => exact h.resLo
  case h_10 => exact h.resHi
  case h_11 => exact hxs rfl
  case h_12 => exact hshift
  case h_13 => exact hminstd rfl
  case h_14 => exact hmars rfl
  case h_15 => exact hcarry rfl
  case h_16 => simp only [State.cmwcIndexWord, hindex rfl]
  case h_17 => exact hkcount
  case h_18 => simp

/-- The flags, the in-flight command and `RES` show in STATUS, RES_LO and RES_HI alone. -/
theorem readWord_flags_result (s : State) (seeded perm value : Bool) (f : Option InFlight) (lo hi : Word) {off : Nat}
    (hstatus : off ≠ 0x008) (hlo : off ≠ 0x028) (hhi : off ≠ 0x02C) :
    State.readWord { s with
      cmwcSeeded := seeded, permReady := perm, valueReady := value, inflight := f, resLo := lo, resHi := hi } off =
    s.readWord off := by
  refine readWord_eq_of_parts (fun _ => rfl) ?_
  unfold State.readRegister
  split
  case h_2 => exact absurd rfl hstatus
  case h_9 => exact absurd rfl hlo
  case h_10 => exact absurd rfl hhi
  case h_18 => simp
  all_goals rfl

/-! ## One draw and one store -/

theorem readWord_xsDraw (s : State) {off : Nat} (h : off ≠ offXsState) : (xsDraw s).2.readWord off = s.readWord off :=
  readWord_eq_of_parts (fun _ => rfl) ((xsDraw_frame s).readRegister_eq (absurd · h) (fun _ => rfl) (fun _ => rfl)
    (fun _ => rfl) (fun _ => rfl))

theorem readWord_minstdDraw (s : State) {off : Nat} (h : off ≠ offMinstdState) :
    (minstdDraw s).2.readWord off = s.readWord off :=
  readWord_eq_of_parts (fun _ => rfl) ((minstdDraw_frame s).readRegister_eq (fun _ => rfl) (absurd · h) (fun _ => rfl)
    (fun _ => rfl) (fun _ => rfl))

theorem readWord_marsDraw (s : State) {off : Nat} (h : off ≠ offMarsState) :
    (marsDraw s).2.readWord off = s.readWord off :=
  readWord_eq_of_parts (fun _ => rfl) ((marsDraw_frame s).readRegister_eq (fun _ => rfl) (fun _ => rfl) (absurd · h)
    (fun _ => rfl) (fun _ => rfl))

theorem readWord_cmwcDraw (s : State) {off : Nat} (hcarry : off ≠ offCmwcCarry) (hindex : off ≠ offCmwcIndex)
    (hq : off + 4 ≤ qOff s.nextIndex.toNat ∨ qOff s.nextIndex.toNat + 4 ≤ off) :
    (cmwcDraw s).2.readWord off = s.readWord off := by
  refine readWord_eq_of_parts (fun _ => ?_) ((cmwcDraw_frame s).readRegister_eq (fun _ => rfl) (fun _ => rfl)
    (fun _ => rfl) (absurd · hcarry) (absurd · hindex))
  exact wordAt_setWord_other s (cmwcDraw s).1 hq

theorem readWord_setWord (s : State) {a off : Nat} (w : Word) (h : off + 4 ≤ a ∨ a + 4 ≤ off) :
    (s.setWord a w).readWord off = s.readWord off := by
  have hframe : DrawFrame s (s.setWord a w) := by constructor <;> rfl
  exact readWord_eq_of_parts (fun _ => wordAt_setWord_other s w h) (hframe.readRegister_eq (fun _ => rfl) (fun _ => rfl)
    (fun _ => rfl) (fun _ => rfl) (fun _ => rfl))

/-- The word of the next ring index is the one that a single draw reaches. -/
theorem not_inNextRingWords_one {s : State} {off : Nat} (h4 : off % 4 = 0) (h : inNextRingWords s 1 off = false) :
    off + 4 ≤ qOff s.nextIndex.toNat ∨ qOff s.nextIndex.toNat + 4 ≤ off := by
  have hi := s.nextIndex.isLt
  simp only [inNextRingWords, inQ, Bool.and_eq_false_iff, decide_eq_false_iff_not] at h
  unfold qOff
  omega

/-- A draw changes no word outside those that `drawWrites` gives one draw. -/
theorem readWord_draw {g : Gsel} {s : State} {off : Nat} (h4 : off % 4 = 0) (h : drawWrites s g 1 off = false) :
    (draw g s).2.readWord off = s.readWord off := by
  cases g with
  | xs => exact readWord_xsDraw s (of_decide_eq_false h)
  | minstd => exact readWord_minstdDraw s (of_decide_eq_false h)
  | mars => exact readWord_marsDraw s (of_decide_eq_false h)
  | cmwc =>
    simp only [drawWrites, Bool.or_eq_false_iff, decide_eq_false_iff_not] at h
    obtain ⟨⟨hcarry, hindex⟩, hring⟩ := h
    exact readWord_cmwcDraw s hcarry hindex (not_inNextRingWords_one h4 hring)
  | comb =>
    simp only [drawWrites, Bool.or_eq_false_iff, decide_eq_false_iff_not] at h
    obtain ⟨⟨⟨⟨hcarry, hindex⟩, hring⟩, hminstd⟩, hxs⟩ := h
    calc (combDraw s).2.readWord off
      _ = (minstdDraw (cmwcDraw s).2).2.readWord off := readWord_xsDraw _ hxs
      _ = (cmwcDraw s).2.readWord off := readWord_minstdDraw _ hminstd
      _ = s.readWord off := readWord_cmwcDraw s hcarry hindex (not_inNextRingWords_one h4 hring)

/-! ## The words that more draws reach -/

theorem drawWrites_of_ring {g : Gsel} {s t : State} {m n off : Nat}
    (hring : inNextRingWords s m off = true → inNextRingWords t n off = true) (h : drawWrites s g m off = true) :
    drawWrites t g n off = true := by
  cases g with
  | xs | minstd | mars => exact h
  | cmwc =>
    simp only [drawWrites, Bool.or_eq_true] at h ⊢
    exact h.imp_right hring
  | comb =>
    simp only [drawWrites, Bool.or_eq_true] at h ⊢
    exact h.imp_left (.imp_left (.imp_right hring))

theorem inNextRingWords_mono {s : State} {m n off : Nat} (hmn : m ≤ n) (h : inNextRingWords s m off = true) :
    inNextRingWords s n off = true := by
  simp only [inNextRingWords, Bool.and_eq_true, decide_eq_true_eq] at h ⊢
  exact ⟨h.1, Nat.lt_of_lt_of_le h.2 hmn⟩

/-- As many draws as the ring has words reach all of it. -/
theorem inNextRingWords_all {s : State} {n off : Nat} (h : inNextRingWords s n off = true) :
    inNextRingWords s Config.cmwcN off = true := by
  simp only [inNextRingWords, Bool.and_eq_true, decide_eq_true_eq] at h ⊢
  exact ⟨h.1, Nat.mod_lt _ (by decide)⟩

theorem draw_nextIndex (g : Gsel) (s : State) :
    (draw g s).2.nextIndex = s.nextIndex ∨ (draw g s).2.nextIndex = s.nextIndex + 1#12 := by
  cases g with
  | xs | minstd | mars => exact .inl rfl
  | cmwc | comb => exact .inr rfl

/-- What `n` draws after a first one reach, `n + 1` draws reach. -/
theorem inNextRingWords_after_draw {g : Gsel} {s : State} {n off : Nat}
    (h : inNextRingWords (draw g s).2 n off = true) : inNextRingWords s (n + 1) off = true := by
  rcases draw_nextIndex g s with hi | hi
  · refine inNextRingWords_mono (Nat.le_succ n) ?_
    rwa [inNextRingWords, hi] at h
  · have hlt := s.nextIndex.isLt
    simp only [inNextRingWords, hi, BitVec.toNat_add, BitVec.toNat_ofNat, Bool.and_eq_true, decide_eq_true_eq] at h ⊢
    exact ⟨h.1, by omega⟩

/-! ## Runs of draws and stores -/

/-- The second state is reached from the first by a number of draws from a generator, and between them stores of RAM words
at offsets that `allowed` holds of. -/
inductive RunsTo (g : Gsel) (allowed : Nat → Prop) : Nat → State → State → Prop where
  | done (s : State) : RunsTo g allowed 0 s s
  | afterDraw {n : Nat} {s t : State} : RunsTo g allowed n (draw g s).2 t → RunsTo g allowed (n + 1) s t
  | afterStore {n a : Nat} {s t : State} (w : Word) : allowed a → RunsTo g allowed n (s.setWord a w) t →
      RunsTo g allowed n s t

section runs

variable {g : Gsel} {allowed : Nat → Prop} {s t u : State}

theorem RunsTo.trans {m n : Nat} (h : RunsTo g allowed m s t) (h' : RunsTo g allowed n t u) :
    RunsTo g allowed (m + n) s u := by
  induction h with
  | done => rwa [Nat.zero_add]
  | afterDraw _ ih =>
    rw [Nat.add_right_comm]
    exact .afterDraw (ih h')
  | afterStore w ha _ ih => exact .afterStore w ha (ih h')

theorem RunsTo.draws (n : Nat) (s : State) : RunsTo g allowed n s (drawState g n s) := by
  induction n generalizing s with
  | zero => exact .done s
  | succ n ih => exact .afterDraw (ih _)

theorem RunsTo.store {a : Nat} (w : Word) (ha : allowed a) : RunsTo g allowed 0 s (s.setWord a w) :=
  .afterStore w ha (.done _)

/-- A run changes no word that none of its draws and none of its stores reaches. -/
theorem RunsTo.readWord_eq {n off : Nat} (h : RunsTo g allowed n s t) (h4 : off % 4 = 0)
    (hd : drawWrites s g n off = false) (hs : ∀ a, allowed a → off + 4 ≤ a ∨ a + 4 ≤ off) :
    t.readWord off = s.readWord off := by
  induction h with
  | done => rfl
  | @afterDraw n s t _ ih =>
    have hfirst : drawWrites s g 1 off = false := by
      rw [← Bool.not_eq_true] at hd ⊢
      exact mt (drawWrites_of_ring (inNextRingWords_mono (by omega))) hd
    have hrest : drawWrites (draw g s).2 g n off = false := by
      rw [← Bool.not_eq_true] at hd ⊢
      exact mt (drawWrites_of_ring inNextRingWords_after_draw) hd
    exact (ih hrest).trans (readWord_draw h4 hfirst)
  | afterStore w ha _ ih => exact (ih hd).trans (readWord_setWord _ w (hs _ ha))

/-- A `uniform` call is some number of draws. -/
theorem uniformDraw_runsTo {lower upper r : Word} (h : uniformDraw g lower upper s = some (r, t)) :
    ∃ k, RunsTo g allowed k s t := by
  unfold uniformDraw at h
  simp only at h
  split at h
  · injection h with h
    obtain ⟨rfl, rfl⟩ := Prod.mk.inj h
    exact ⟨0, .done _⟩
  · split at h
    · rename_i r' t' hd
      injection h with h
      obtain ⟨rfl, rfl⟩ := Prod.mk.inj h
      obtain ⟨k, _, _, _, _, rfl⟩ := drawUntil_some hd
      exact ⟨k + 1, .draws _ _⟩
    · cases h

/-- A `uniform` call from 0 on answers below its upper end, when that is not 0. -/
theorem uniformDraw_zero_lt {n : Nat} {r : Word} (hn : n + 1 < 2 ^ 32)
    (h : uniformDraw g 0#32 (BitVec.ofNat 32 (n + 1)) s = some (r, t)) : r.toNat < n + 1 := by
  have hb : (BitVec.ofNat 32 (n + 1)).toNat = n + 1 := by rw [BitVec.toNat_ofNat, Nat.mod_eq_of_lt hn]
  rcases uniformDraw_range (show (0#32 : Word) ≤ _ from Nat.zero_le _) h with ⟨_, hlt | ⟨_, he⟩⟩
  · omega
  · have := congrArg BitVec.toNat he
    rw [hb] at this
    cases this

theorem shufflePasses_runsTo {n : Nat} (hn : n ≤ 255) (hperm : ∀ k ≤ n, allowed (permOff k))
    (h : shufflePasses g n s = some t) : ∃ k, RunsTo g allowed k s t := by
  induction n generalizing s with
  | zero =>
    cases h
    exact ⟨0, .done _⟩
  | succ n ih =>
    simp only [shufflePasses] at h
    split at h
    · rename_i j u hu
      have hj := uniformDraw_zero_lt (by omega) hu
      obtain ⟨k, hk⟩ := uniformDraw_runsTo (allowed := allowed) hu
      obtain ⟨l, hl⟩ := ih (by omega) (fun i hi => hperm i (by omega)) h
      have hswap : RunsTo g allowed 0 u (u.swapPerm (n + 1) j.toNat) :=
        .afterStore _ (hperm (n + 1) (by omega)) (.store _ (hperm j.toNat (by omega)))
      exact ⟨_, (hk.trans hswap).trans hl⟩
    · cases h

theorem placeInsideOut_runsTo {i j : Nat} (hi : allowed (permOff i)) (hj : allowed (permOff j)) :
    RunsTo g allowed 0 s (s.placeInsideOut i j) := by
  rw [placeInsideOut_eq]
  split
  · exact .store _ hi
  · exact .afterStore _ hi (.store _ hj)

theorem shuffleIoSteps_runsTo {n i : Nat} (hn : i + n ≤ 256) (hperm : ∀ k < i + n, allowed (permOff k))
    (h : shuffleIoSteps g n i s = some t) : ∃ k, RunsTo g allowed k s t := by
  induction n generalizing s i with
  | zero =>
    cases h
    exact ⟨0, .done _⟩
  | succ n ih =>
    simp only [shuffleIoSteps] at h
    split at h
    · rename_i j u hu
      have hj := uniformDraw_zero_lt (by omega) hu
      obtain ⟨k, hk⟩ := uniformDraw_runsTo (allowed := allowed) hu
      obtain ⟨l, hl⟩ := ih (by omega) (fun m hm => hperm m (by omega)) h
      have hplace : RunsTo g allowed 0 u (u.placeInsideOut i j.toNat) :=
        placeInsideOut_runsTo (hperm i (by omega)) (hperm j.toNat (by omega))
      exact ⟨_, (hk.trans hplace).trans hl⟩
    · cases h

theorem identityPerm_runsTo {n : Nat} (hperm : ∀ k < n, allowed (permOff k)) :
    RunsTo g allowed 0 s { s with mem := identityPerm n s.mem } := by
  induction n generalizing s with
  | zero => exact .done s
  | succ n ih => exact .afterStore _ (hperm n (by omega)) (ih fun k hk => hperm k (by omega))

theorem fillValues_runsTo {n k : Nat} (hvalue : ∀ i < k + n, allowed (valueOff i) ∧ allowed (valueOff i + 4)) :
    RunsTo g allowed n s (fillValues g n k s) := by
  induction n generalizing s k with
  | zero => exact .done s
  | succ n ih =>
    obtain ⟨hlo, hhi⟩ := hvalue k (by omega)
    exact .afterDraw (.afterStore _ hhi (.afterStore _ hlo (ih fun i hi => hvalue i (by omega))))

end runs

/-! ## The words that the completion of a command leaves as they were -/

/-- A word outside the write set of the command, other than STATUS and `RES`, reads the same in both states. -/
def ReadsKept (f : InFlight) (s t : State) : Prop :=
  ∀ off, off % 4 = 0 → s.mayWrite f off = false → off ≠ 0x008 → off ≠ 0x028 → off ≠ 0x02C →
    t.readWord off = s.readWord off

/-- The `PERM` and `VALUE` words of a write set. -/
def WriteSet.stores (w : WriteSet) (a : Nat) : Prop :=
  a % 4 = 0 ∧ ((permOff 0 ≤ a ∧ a < permOff w.perms) ∨ (valueOff 0 ≤ a ∧ a < valueOff w.values))

theorem WriteSet.stores_perm {w : WriteSet} {k : Nat} (hk : k < w.perms) : w.stores (permOff k) := by
  unfold WriteSet.stores permOff
  omega

theorem WriteSet.stores_value {w : WriteSet} {k : Nat} (hk : k < w.values) :
    w.stores (valueOff k) ∧ w.stores (valueOff k + 4) := by
  unfold WriteSet.stores valueOff
  omega

theorem drawWrites_eq_false_of_not_mayWrite {s : State} {f : InFlight} {off n : Nat} {g : Gsel}
    (h : s.mayWrite f off = false) (hw : (writeSetOf f).draws = some (g, n)) : drawWrites s g n off = false := by
  simp only [State.mayWrite, hw, Bool.or_eq_false_iff] at h
  exact h.1.1.1

theorem disjoint_stores_of_not_mayWrite {s : State} {f : InFlight} {off a : Nat} (h4 : off % 4 = 0)
    (h : s.mayWrite f off = false) (ha : (writeSetOf f).stores a) : off + 4 ≤ a ∨ a + 4 ≤ off := by
  obtain ⟨ha4, hrange⟩ := ha
  simp only [State.mayWrite, Bool.or_eq_false_iff, Bool.and_eq_false_iff, decide_eq_false_iff_not] at h
  obtain ⟨⟨⟨_, hperm⟩, hvalue⟩, _⟩ := h
  have hne : off ≠ a := by
    rintro rfl
    omega
  omega

section kept

variable {f : InFlight} {g : Gsel} {s t : State}

theorem ReadsKept.refl (f : InFlight) (s : State) : ReadsKept f s s := fun _ _ _ _ _ _ => rfl

theorem ReadsKept.flags_result (h : ReadsKept f s t) (seeded perm value : Bool) (c : Option InFlight) (lo hi : Word) :
    ReadsKept f s { t with
      cmwcSeeded := seeded, permReady := perm, valueReady := value, inflight := c, resLo := lo, resHi := hi } :=
  fun off h4 hw hstatus hlo hhi =>
    (readWord_flags_result t seeded perm value c lo hi hstatus hlo hhi).trans (h off h4 hw hstatus hlo hhi)

theorem ReadsKept.setResU32 (h : ReadsKept f s t) (w : Word) : ReadsKept f s (t.setResU32 w) :=
  h.flags_result _ _ _ _ _ _

theorem ReadsKept.setResF64 (h : ReadsKept f s t) (d : DWord) : ReadsKept f s (t.setResF64 d) :=
  h.flags_result _ _ _ _ _ _

/-- A run within the write set, of as many draws as the set gives, or of any number when it gives the whole ring. -/
theorem RunsTo.readsKept {n k : Nat} (h : RunsTo g (writeSetOf f).stores k s t)
    (hw : (writeSetOf f).draws = some (g, n)) (hk : k ≤ n ∨ n = Config.cmwcN) : ReadsKept f s t := by
  intro off h4 hoff _ _ _
  refine h.readWord_eq h4 ?_ fun a ha => disjoint_stores_of_not_mayWrite h4 hoff ha
  have hd := drawWrites_eq_false_of_not_mayWrite hoff hw
  rw [← Bool.not_eq_true] at hd ⊢
  refine mt (drawWrites_of_ring fun hring => ?_) hd
  rcases hk with hk | rfl
  · exact inNextRingWords_mono hk hring
  · exact inNextRingWords_all hring

theorem draw_readsKept (hw : (writeSetOf f).draws = some (g, 1)) : ReadsKept f s (draw g s).2 :=
  RunsTo.readsKept (.draws 1 s) hw (.inl le_rfl)

theorem drawToRes_readsKept {o : Operands} (hw : (writeSetOf f).draws = some (g, 1))
    (h : (drawToRes g).run o s = some t) : ReadsKept f s t := by
  injection h with h
  exact h ▸ (draw_readsKept hw).setResU32 _

theorem read_seedRing_outside {n k x : Nat} (v : Nat) (m : Memory) (h : x < qOff k ∨ qOff (k + n) ≤ x) :
    Memory.read (seedRing n k v m).2 x = Memory.read m x := by
  induction n generalizing k v with
  | zero => rfl
  | succ n ih =>
    unfold qOff at h
    rw [seedRing, Memory.read_writeWord_outside _ _ (by unfold qOff; omega), ih _ (by unfold qOff; omega)]

/-- CMWC_SEED changes the ring, the carry, the ring index and a flag. -/
theorem seeded_readsKept {m : Memory} (carry : Word) (index : BitVec 12) (hw : (writeSetOf f).seeds = true)
    (hm : ∀ x, x < 0x4000 ∨ 0x8000 ≤ x → Memory.read m x = Memory.read s.mem x) :
    ReadsKept f s { s with mem := m, cmwcCarry := carry, cmwcIndex := index, cmwcSeeded := true } := by
  refine ReadsKept.flags_result (t := { s with mem := m, cmwcCarry := carry, cmwcIndex := index })
    (fun off h4 hoff _ _ _ => ?_) true s.permReady s.valueReady s.inflight s.resLo s.resHi
  simp only [State.mayWrite, hw, Bool.true_and, Bool.or_eq_false_iff, decide_eq_false_iff_not, inQ,
    Bool.and_eq_false_iff] at hoff
  obtain ⟨_, ⟨hq, hcarry⟩, hindex⟩ := hoff
  refine readWord_eq_of_parts (fun _ => wordAt_congr fun k hk => ?_)
    (DrawFrame.readRegister_eq (by constructor <;> rfl) (fun _ => rfl) (fun _ => rfl) (fun _ => rfl) (absurd · hcarry)
      (absurd · hindex))
  simp only [State.byteAt, hm (off + k) (by omega)]

theorem seedCmwc_readsKept {cMax : Nat} {seed : Word} (hw : (writeSetOf f).seeds = true)
    (h : seedCmwc cMax seed s = some t) : ReadsKept f s t := by
  obtain ⟨c, _, ht⟩ := seedCmwc_some h
  rw [ht]
  exact seeded_readsKept _ _ hw fun x hx => read_seedRing_outside _ _ (by simpa [qOff, Config.cmwcN] using hx)

end kept

theorem firstFailure_eq_none {l : List (Bool × ErrorCode)} (h : firstFailure l = none) : ∀ p ∈ l, p.1 = false := by
  induction l with
  | nil => simp
  | cons p l ih =>
    simp only [firstFailure] at h
    split at h
    · cases h
    · rename_i hp
      exact List.forall_mem_cons.2 ⟨by simpa using hp, ih h⟩

/-- The length of a shuffle that passed its checks (rules R153, R157). -/
theorem lengthCheck_passed {s : State} {g : Gsel} (h : firstFailure [s.seedCheck g, s.lengthCheck] = none) :
    1 ≤ s.operands.aU32.toNat ∧ s.operands.aU32.toNat ≤ 256 := by
  obtain ⟨hzero, hlong⟩ := Bool.or_eq_false_iff.1 (firstFailure_eq_none h s.lengthCheck (by simp))
  exact ⟨Nat.pos_of_ne_zero (of_decide_eq_false hzero), Nat.le_of_not_lt (of_decide_eq_false hlong)⟩

/-- The completion of a command changes no word outside its write set, apart from STATUS and `RES`. -/
theorem run_readsKept {i : Instr} {s t : State} (hc : (meaningOf i).check s = none)
    (h : (meaningOf i).run s.operands s = some t) : ReadsKept ⟨i, s.operands⟩ s t := by
  cases i with
  | nop =>
    cases h
    exact .refl _ _
  | xsNext | minstdNext | marsNext | cmwcNext | combNext => exact drawToRes_readsKept rfl h
  | cmwcSeed => exact seedCmwc_readsKept rfl (cmwcSeed_run _ _ ▸ h)
  | uniform g =>
    simp only [meaningOf, uniformMeaning] at h
    split at h
    · rename_i r u hu
      cases h
      obtain ⟨k, hk⟩ := uniformDraw_runsTo hu
      exact (hk.readsKept rfl (.inr rfl)).setResU32 _
    · cases h
  | double g | doubleAffine g =>
    cases h
    exact (draw_readsKept rfl).setResF64 _
  | shuffle g =>
    obtain ⟨hpos, hle⟩ := lengthCheck_passed hc
    simp only [meaningOf, shuffleMeaning] at h
    split at h
    · rename_i u hu
      cases h
      have hperm : ∀ j < s.operands.aU32.toNat, (writeSetOf ⟨.shuffle g, s.operands⟩).stores (permOff j) :=
        fun j hj => WriteSet.stores_perm (hj.trans_eq (Nat.min_eq_left hle).symm)
      obtain ⟨k, hk⟩ := shufflePasses_runsTo (by omega) (fun j hj => hperm j (by omega)) hu
      exact (hk.readsKept rfl (.inr rfl)).flags_result _ _ _ _ _ _
    · cases h
  | shuffleIo g =>
    obtain ⟨hpos, hle⟩ := lengthCheck_passed hc
    simp only [meaningOf, shuffleIoMeaning] at h
    split at h
    · rename_i u hu
      cases h
      have hperm : ∀ j < s.operands.aU32.toNat, (writeSetOf ⟨.shuffleIo g, s.operands⟩).stores (permOff j) :=
        fun j hj => WriteSet.stores_perm (hj.trans_eq (Nat.min_eq_left hle).symm)
      obtain ⟨k, hk⟩ := shuffleIoSteps_runsTo (by omega) (fun j hj => hperm j (by omega)) hu
      exact (hk.readsKept rfl (.inr rfl)).flags_result _ _ _ _ _ _
    · cases h
  | permBuild g =>
    simp only [meaningOf, permBuildMeaning] at h
    split at h
    · rename_i u hu
      cases h
      have hperm : ∀ j < 256, (writeSetOf ⟨.permBuild g, s.operands⟩).stores (permOff j) :=
        fun j hj => WriteSet.stores_perm hj
      obtain ⟨k, hk⟩ := shufflePasses_runsTo le_rfl (fun j hj => hperm j (by omega)) hu
      exact (((identityPerm_runsTo hperm).trans hk).readsKept rfl (.inr rfl)).flags_result _ _ _ _ _ _
    · cases h
  | valueBuild g =>
    cases h
    have hvalue : ∀ j < 0 + 256, (writeSetOf ⟨.valueBuild g, s.operands⟩).stores (valueOff j) ∧
        (writeSetOf ⟨.valueBuild g, s.operands⟩).stores (valueOff j + 4) :=
      fun j hj => WriteSet.stores_value (hj.trans_eq (Nat.zero_add 256))
    exact ((fillValues_runsTo hvalue).readsKept rfl (.inl le_rfl)).flags_result _ _ _ _ _ _
  | hash =>
    cases h
    exact (ReadsKept.refl _ _).setResU32 _
  | latticeValue | sampleBilinear | sampleBicubic | lerp | spline =>
    cases h
    exact (ReadsKept.refl _ _).setResF64 _

theorem complete_readsKept {s : State} {f : InFlight} (hf : s.inflight = some f) (hinv : s.flightInvariant) :
    ReadsKept f s s.complete := by
  rcases complete_cases s with he | ⟨f', hf', hrun⟩
  · rw [he]
    exact .refl f s
  · obtain ⟨hops, hcheck, _⟩ := hinv f hf
    obtain ⟨i, o⟩ := f
    obtain rfl : f' = ⟨i, o⟩ := Option.some.inj (hf'.symm.trans hf)
    obtain rfl : o = s.operands := hops
    intro off h4 hoff hstatus hlo hhi
    calc s.complete.readWord off
      _ = State.readWord { s with inflight := none } off :=
        run_readsKept (s := { s with inflight := none }) hcheck hrun off h4 hoff hstatus hlo hhi
      _ = s.readWord off := readWord_flags_result s _ _ _ _ _ _ hstatus hlo hhi

/-! ## What the write set names -/

theorem writeSetOf_draws {f : InFlight} {g : Gsel} {n : Nat} (h : (writeSetOf f).draws = some (g, n)) :
    drawnGenerator f.instr = some g := by
  obtain ⟨i, o⟩ := f
  cases i <;> simp_all [writeSetOf, WriteSet.nothing, drawnGenerator]

theorem writeSetOf_perms_le {f : InFlight} {s : State} (h : f.ops = s.operands) :
    (writeSetOf f).perms ≤ permWords f.instr s := by
  have hlo : s.operands.aU32 = s.opaLo := loWord_append _ _
  obtain ⟨i, o⟩ := f
  obtain rfl : o = s.operands := h
  cases i <;> simp [writeSetOf, WriteSet.nothing, permWords, hlo, Config.permN]

theorem writeSetOf_values (f : InFlight) : (writeSetOf f).values = valueWords f.instr := by
  obtain ⟨i, o⟩ := f
  cases i <;> rfl

theorem writeSetOf_seeds {f : InFlight} (h : (writeSetOf f).seeds = true) : f.instr = .cmwcSeed := by
  obtain ⟨i, o⟩ := f
  cases i <;> simp_all [writeSetOf, WriteSet.nothing]

/-- A command of one draw has one ring word in its set, and no word by the other parts of the set. -/
theorem writeSetOf_one_draw {f : InFlight}
    (h : ∃ g, f.instr = .cmwcNext ∨ f.instr = .combNext ∨ f.instr = .double g ∨ f.instr = .doubleAffine g) :
    ∃ g, writeSetOf f = { WriteSet.nothing with draws := some (g, 1) } := by
  obtain ⟨i, o⟩ := f
  obtain ⟨g, rfl | rfl | rfl | rfl⟩ := h <;> exact ⟨_, rfl⟩

theorem mayWrite_named {s : State} {f : InFlight} {off : Nat} (hops : f.ops = s.operands) (h4 : off % 4 = 0)
    (h : s.mayWrite f off = true) :
    mayStoreTo f.instr s off ∨ (off = 0x030 ∧ advances f.instr .xs = true) ∨
      (off = 0x038 ∧ advances f.instr .minstd = true) ∨ (off = 0x03C ∧ advances f.instr .mars = true) ∨
      ((off = 0x040 ∨ off = 0x044) ∧ (advances f.instr .cmwc = true ∨ f.instr = .cmwcSeed)) := by
  rcases mayWrite_cases h with ⟨g, n, hw, hd⟩ | hperm | hvalue | ⟨hseeds, hq | hreg⟩
  · have hadv : ∀ c, advances f.instr c = (components g).contains c := by
      simp [advances, writeSetOf_draws hw]
    simp only [hadv, mayStoreTo]
    rcases drawWrites_cases h4 hd with hxs | hminstd | hmars | ⟨hreg, hc⟩ | ⟨hc, hge, hlt, _⟩
    · exact .inr (.inl hxs)
    · exact .inr (.inr (.inl hminstd))
    · exact .inr (.inr (.inr (.inl hmars)))
    · exact .inr (.inr (.inr (.inr ⟨hreg, .inl hc⟩)))
    · exact .inl (.inr (.inr ⟨.inl hc, hge, hlt⟩))
  · have hle := writeSetOf_perms_le hops
    exact .inl (.inl ⟨hperm.1, by omega⟩)
  · rw [writeSetOf_values] at hvalue
    exact .inl (.inr (.inl hvalue))
  · exact .inl (.inr (.inr ⟨.inr (writeSetOf_seeds hseeds), hq⟩))
  · exact .inr (.inr (.inr (.inr ⟨hreg, .inr (writeSetOf_seeds hseeds)⟩)))

theorem mayWrite_one_draw_ring {s : State} {f : InFlight} {off : Nat} (h4 : off % 4 = 0)
    (h : s.mayWrite f off = true) (hq : 0x4000 ≤ off)
    (hone : ∃ g, f.instr = .cmwcNext ∨ f.instr = .combNext ∨ f.instr = .double g ∨ f.instr = .doubleAffine g) :
    off = qOff s.nextIndex.toNat := by
  obtain ⟨g, hw⟩ := writeSetOf_one_draw hone
  have hcases := mayWrite_cases h
  simp only [hw, WriteSet.nothing] at hcases
  rcases hcases with ⟨g', n, hg, hd⟩ | hperm | hvalue | ⟨hseeds, _⟩
  · obtain ⟨rfl, rfl⟩ : g = g' ∧ 1 = n := by simpa using hg
    rcases drawWrites_cases h4 hd with ⟨rfl, _⟩ | ⟨rfl, _⟩ | ⟨rfl, _⟩ | ⟨hreg, _⟩ | ⟨_, _, _, hnext⟩
    · omega
    · omega
    · omega
    · omega
    · exact hnext rfl
  · omega
  · omega
  · cases hseeds

/-- No word below the RAMs is in a write set but the generators' own registers. -/
theorem not_mayWrite_other_register {s : State} {f : InFlight} {off : Nat} (h4 : off % 4 = 0) (hlt : off < 0x400)
    (hreg : off ∉ [0x030, 0x038, 0x03C, 0x040, 0x044]) : s.mayWrite f off = false := by
  simp only [List.mem_cons, List.not_mem_nil, or_false, not_or] at hreg
  by_contra h
  rcases mayWrite_cases (Bool.not_eq_false _ ▸ h) with ⟨g, n, _, hd⟩ | hperm | hvalue | ⟨_, hseed⟩
  · have := drawWrites_cases h4 hd
    omega
  · omega
  · omega
  · omega

theorem offset_eq_iff (a b : Offset) : a = b ↔ a.toNat = b.toNat := BitVec.toNat_inj.symm

/-- Settles O52: by `hostRead_busy` and `complete_readsKept` outside the set, by `mayWrite_named` and
`mayWrite_one_draw_ring` inside it. -/
theorem busyReadsAreCurrentOutsideTheWriteSet : Obligations.BusyReadsAreCurrentOutsideTheWriteSet := by
  unfold Obligations.BusyReadsAreCurrentOutsideTheWriteSet
  intro s f rest hr hf hinv
  simp only [ne_eq, offset_eq_iff, BitVec.toNat_ofNat, Nat.reducePow, Nat.reduceMod]
  refine ⟨fun off h4 hoff => ⟨?_, complete_readsKept hf hinv _ h4 hoff⟩, fun off hmem => ?_, fun off h4 hoff =>
    ⟨?_, fun g hone hq => mayWrite_one_draw_ring h4 hoff hq ⟨g, hone⟩⟩⟩
  · rw [step_read _ _ _ hr, deliverRead_aligned h4, hostRead_busy (s := { s with arrivals := rest }) hf hoff]
    rfl
  · have hnamed : ∀ n ∈ [0x000, 0x004, 0x008, 0x010, 0x014, 0x018, 0x01C, 0x020, 0x024, 0x028, 0x02C, 0x034, 0x048],
        n % 4 = 0 ∧ n < 0x400 ∧ n ∉ [0x030, 0x038, 0x03C, 0x040, 0x044] := by decide
    obtain ⟨h4, hlt, hreg⟩ := hnamed off hmem
    exact not_mayWrite_other_register h4 hlt hreg
  · obtain ⟨hops, _, _⟩ := hinv f hf
    exact mayWrite_named hops h4 hoff

end Sys2Proof.Machine
end

section
/-! The command set (file 30_encoding.md): the decoder follows the rows of rule R87, so a word decodes exactly when it
breaks no condition of rule R88, and an illegal word written to CMD records BAD_CMD alone. -/

namespace Sys2Proof.Machine

/-! ## Legal words by their row (rules R87, R88) -/

/-- The GSEL values a row of rule R87 takes: 0 on a "0" row, 0 to 4 on a "G" row. -/
def gselFits : GselUse → BitVec 3 → Prop
  | .zero, g => g = 0#3
  | .select, g => g ≤ 4#3

theorem opcodeRows_op_injective : ∀ r ∈ opcodeRows, ∀ r' ∈ opcodeRows, r.op = r'.op → r = r' := by decide

theorem reservedBitsClear_iff (w : Word) : reservedBitsClear w = true ↔ wordRes0 w = 0#21 := by
  simp [reservedBitsClear]

theorem opcodeAssigned_iff (w : Word) : opcodeAssigned w = true ↔ ∃ r ∈ opcodeRows, r.op = wordOp w := by
  simp [opcodeAssigned]

/-- Together the two GSEL checks are one condition on each row with the word's opcode. -/
theorem gselChecks_iff (w : Word) : (gselZeroWhereUnused w && gselNotReserved w) = true ↔
    ∀ r ∈ opcodeRows, r.op = wordOp w → gselFits r.use (wordGsel w) := by
  rw [Bool.and_eq_true, gselZeroWhereUnused, gselNotReserved, List.all_eq_true, List.all_eq_true, ← forall₂_and]
  refine forall₂_congr fun r _ => ?_
  cases huse : r.use <;> simp [gselFits, imp_iff_not_or]

theorem legalWord_of_row {w : Word} {r : OpcodeRow} (hres : wordRes0 w = 0#21) (hr : r ∈ opcodeRows)
    (hop : r.op = wordOp w) : legalWord w = true ↔ gselFits r.use (wordGsel w) := by
  have hrow : ∀ r' ∈ opcodeRows, r'.op = wordOp w → r' = r := fun r' hr' hop' =>
    opcodeRows_op_injective r' hr' r hr (hop'.trans hop.symm)
  rw [legalWord, (reservedBitsClear_iff w).2 hres, (opcodeAssigned_iff w).2 ⟨r, hr, hop⟩, Bool.true_and, Bool.true_and,
    gselChecks_iff]
  exact ⟨fun h => h r hr hop, fun h r' hr' hop' => hrow r' hr' hop' ▸ h⟩

/-! ## The decoder by row (rule R89) -/

theorem gselOfBits_isSome_iff : ∀ g : BitVec 3, (gselOfBits g).isSome = true ↔ g ≤ 4#3 := by decide

theorem decodePlain_command_iff (g : BitVec 3) (i : Instr) : (∃ j, decodePlain g i = .command j) ↔ g = 0#3 := by
  by_cases h : g = 0#3 <;> simp [decodePlain, h]

theorem decodeDrawing_command_iff (g : BitVec 3) (f : Gsel → Instr) :
    (∃ j, decodeDrawing g f = .command j) ↔ g ≤ 4#3 := by
  rw [← gselOfBits_isSome_iff]
  cases h : gselOfBits g <;> simp [decodeDrawing, h]

/-- The decoder's last step on a row: the finish for the row's GSEL column. -/
def DecodedByRow (w : Word) : GselUse → Prop
  | .zero => ∃ i, decode w = decodePlain (wordGsel w) i
  | .select => ∃ f, decode w = decodeDrawing (wordGsel w) f

theorem DecodedByRow.command_iff {w : Word} {u : GselUse} (h : DecodedByRow w u) :
    (∃ i, decode w = .command i) ↔ gselFits u (wordGsel w) := by
  cases u with
  | zero =>
    obtain ⟨i, hi⟩ := h
    rw [hi]
    exact decodePlain_command_iff _ i
  | select =>
    obtain ⟨f, hf⟩ := h
    rw [hf]
    exact decodeDrawing_command_iff _ f

theorem row_of_opcode {w : Word} {n : Nat} {u : GselUse} (hop : (wordOp w).toNat = n)
    (hr : ⟨BitVec.ofNat 8 n, u⟩ ∈ opcodeRows) (hdec : DecodedByRow w u) :
    ∃ r ∈ opcodeRows, r.op = wordOp w ∧ DecodedByRow w r.use :=
  ⟨_, hr, by rw [← hop, BitVec.ofNat_toNat, BitVec.setWidth_eq], hdec⟩

/-- Every way the decoder can go: reserved bits, an opcode of no row, or the finish of the opcode's row. -/
theorem decode_cases (w : Word) :
    (wordRes0 w ≠ 0#21 ∧ decode w = .badCmd .reservedBits) ∨
    ((∀ r ∈ opcodeRows, r.op ≠ wordOp w) ∧ decode w = .badCmd .unassignedOpcode) ∨
    (wordRes0 w = 0#21 ∧ ∃ r ∈ opcodeRows, r.op = wordOp w ∧ DecodedByRow w r.use) := by
  by_cases hres : wordRes0 w = 0#21
  case neg => exact .inl ⟨hres, if_pos hres⟩
  case pos =>
    refine .inr ?_
    have hdec : decode w = _ := if_neg (not_not.2 hres)
    split at hdec
    -- The seven "G" opcodes, 0x10 to 0x23; then no opcode of the map; what is left are the "0" opcodes.
    case h_8 hop | h_9 hop | h_10 hop | h_11 hop | h_12 hop | h_13 hop | h_14 hop =>
      exact .inr ⟨hres, row_of_opcode (u := .select) hop (by decide) ⟨_, hdec⟩⟩
    case h_21 hop =>
      refine .inl ⟨?_, hdec⟩
      simp only [opcodeRows, List.forall_mem_cons, List.not_mem_nil, IsEmpty.forall_iff, implies_true, and_true, ne_eq,
        ← BitVec.toNat_inj, eq_comm (b := (wordOp w).toNat)]
      and_intros <;> assumption
    all_goals exact .inr ⟨hres, row_of_opcode (u := .zero) ‹_› (by decide) ⟨_, hdec⟩⟩

theorem legalWord_iff_decodes (w : Word) : legalWord w = true ↔ ∃ i, decode w = .command i := by
  rcases decode_cases w with ⟨hres, hbad⟩ | ⟨hnone, hbad⟩ | ⟨hres, r, hr, hop, hdec⟩
  · simp [hbad, legalWord, reservedBitsClear, hres]
  · have hop : opcodeAssigned w = false := by
      rw [← Bool.not_eq_true, opcodeAssigned_iff]
      exact fun ⟨r, hr, hop⟩ => hnone r hr hop
    simp [hbad, legalWord, hop]
  · rw [legalWord_of_row hres hr hop, hdec.command_iff]

/-! ## An illegal word written to CMD (rules R88, R222) -/

theorem writeCommand_illegal {w : Word} (h : legalWord w = false) (s : State) :
    writeCommand w s = .next (s.recordError .badCmd) := by
  cases hdec : decode w with
  | command i => exact absurd ((legalWord_iff_decodes w).2 ⟨i, hdec⟩) (by simp [h])
  | badCmd why => rw [writeCommand, hdec]

/-- Settles O2: the decoder finishes each word by its row of rule R87 (`legalWord_iff_decodes`), and the port hands an
illegal word to `recordError` (`writeCommand_illegal`). -/
theorem illegalWordsRecordBadCmd : Obligations.IllegalWordsRecordBadCmd := by
  unfold Obligations.IllegalWordsRecordBadCmd
  refine ⟨legalWord_iff_decodes, fun s w rest hr hi hw => ?_⟩
  have hbusy : State.busy { s with arrivals := rest } = false := idle_not_busy hi
  calc step { s with arrivals := .write 0x004#15 .bits32 w :: rest }
      = deliverWrite (BitVec.ofNat 15 offCmd) .bits32 w { s with arrivals := rest } := step_write _ _ _ _ hr
    _ = writeCommand w (State.answerAccepted { s with arrivals := rest }) := deliverWrite_command w hbusy
    _ = .next ((State.answerAccepted { s with arrivals := rest }).recordError .badCmd) := writeCommand_illegal hw _
    _ = .next { s with
          arrivals := rest, reply := .accepted, err := true, ecode := if s.err then s.ecode else 1#4 } := rfl

end Sys2Proof.Machine
end

section
/-! The PRNG core commands (file 40_prng.md): a command of one draw completes with that draw in `RES.u32`, or records
NOT_SEEDED; the draws of each generator in the terms of rules R103, R106 and R114 give the statements about the five
commands. -/

namespace Sys2Proof.Machine

/-! ## A command of one draw (rules R101, R104, R107, R115, R121; check: rule R113) -/

theorem exec_drawToRes {i : Instr} {g : Gsel} (hi : meaningOf i = drawToRes g) {s : State} (hs : s.idle)
    (hr : s.drawReady g) : exec i s = .next ((draw g s).2.setResU32 (draw g s).1) :=
  exec_completes hs (hi ▸ firstFailure_seedCheck hr []) (hi ▸ rfl)

theorem exec_drawToRes_notSeeded {i : Instr} {g : Gsel} (hi : meaningOf i = drawToRes g) {s : State} (hs : s.idle)
    (hg : Gsel.needsSeed g = true) (h : s.cmwcSeeded = false) :
    exec i s = .next { s with err := true, ecode := if s.err then s.ecode else 3#4 } :=
  calc exec i s = .next (s.reject (meaningOf i) .notSeeded) := exec_rejected hs (hi ▸ firstFailure_notSeeded hg h [])
    _ = .next (s.recordError .notSeeded) := by rw [hi]; rfl

/-! ## The linear congruential generators (rules R103, R106) -/

theorem minstdStep_eq (x : Nat) : minstdStep x = (48271 * x + 0) % (2 ^ 31 - 1) :=
  congrArg (· % Config.lcgM) (Nat.add_comm _ _)

theorem marsStep_eq (x : Nat) : marsStep x = (69069 * x + 362437) % (2 ^ 31 - 1) :=
  congrArg (· % Config.lcgM) (Nat.add_comm _ _)

/-- A residue of the LCG modulus is a 32-bit word, so no bit of it is lost in the state register (rules R104, R107). -/
theorem lcg_residue_fits (n : Nat) :
    (BitVec.ofNat 32 (n % (2 ^ 31 - 1))).toNat = n % (2 ^ 31 - 1) ∧ n % (2 ^ 31 - 1) ≤ 2 ^ 31 - 2 := by
  have hlt := Nat.mod_lt n (show 2 ^ 31 - 1 > 0 by decide)
  exact ⟨by rw [BitVec.toNat_ofNat]; omega, by omega⟩

theorem minstdNext_eq (x : Word) : minstdNext x = BitVec.ofNat 32 ((48271 * x.toNat + 0) % (2 ^ 31 - 1)) := by
  rw [minstdNext, minstdStep_eq]

theorem marsNext_eq (x : Word) : marsNext x = BitVec.ofNat 32 ((69069 * x.toNat + 362437) % (2 ^ 31 - 1)) := by
  rw [marsNext, marsStep_eq]

/-! ## The multiply-with-carry step (rule R114) -/

theorem cmwcR_sub_ofNat {x : Nat} (hx : x < 2 ^ 32) :
    Config.cmwcR - BitVec.ofNat 32 x = BitVec.ofNat 32 ((0xFFFFFFFE + 2 ^ 32 - x) % 2 ^ 32) := by
  rw [Config.cmwcR, BitVec.ofNat_sub_ofNat, Nat.mod_eq_of_lt hx, ← Nat.sub_add_comm hx.le, Nat.add_comm]
  exact BitVec.eq_of_toNat_eq (Nat.mod_mod _ _).symm

theorem cmwcStep_eq (q carry : Word) :
    let t := 18782 * q.toNat + carry.toNat
    let c0 := t / 2 ^ 32
    let x0 := (t % 2 ^ 32 + c0) % 2 ^ 32
    let x := if x0 < c0 then x0 + 1 else x0
    let c := if x0 < c0 then c0 + 1 else c0
    cmwcStep q carry = (BitVec.ofNat 32 ((0xFFFFFFFE + 2 ^ 32 - x) % 2 ^ 32), BitVec.ofNat 32 c) := by
  intro t c0 x0 x c
  have hx0 : x0 < 2 ^ 32 := Nat.mod_lt _ (by decide)
  have hcorr : x0 < c0 → x0 + 1 < 2 ^ 32 := fun h => by
    have hq := q.isLt
    have hcarry := carry.isLt
    omega
  have hstep : cmwcStep q carry =
      if x0 < c0 then (Config.cmwcR - BitVec.ofNat 32 (x0 + 1), BitVec.ofNat 32 (c0 + 1))
      else (Config.cmwcR - BitVec.ofNat 32 x0, BitVec.ofNat 32 c0) := by
    rfl
  rw [hstep]
  by_cases h : x0 < c0
  · simp only [x, c, if_pos h, cmwcR_sub_ofNat (hcorr h)]
  · simp only [x, c, if_neg h, cmwcR_sub_ofNat hx0]

/-! ## The ring word of a CMWC draw (rule R114) -/

theorem toNat_nextIndex (s : State) : s.nextIndex.toNat = (s.cmwcIndex.toNat + 1) % 4096 :=
  BitVec.toNat_add _ _

theorem ofNat_nextIndex (s : State) : BitVec.ofNat 12 ((s.cmwcIndex.toNat + 1) % 4096) = s.nextIndex := by
  rw [← toNat_nextIndex, BitVec.ofNat_toNat, BitVec.setWidth_eq]

theorem cmwcDraw_q_same (s : State) : (cmwcDraw s).2.q s.nextIndex.toNat = (cmwcDraw s).1 :=
  (cmwcDraw_q s _).trans (q_setQ_same s _ _)

/-- A CMWC draw stores to one ring word alone. -/
theorem cmwcDraw_byteAt_outside (s : State) {a : Nat}
    (h : a < qOff s.nextIndex.toNat ∨ qOff s.nextIndex.toNat + 4 ≤ a) : (cmwcDraw s).2.byteAt a = s.byteAt a :=
  byteAt_setQ_outside s (cmwcDraw s).1 h

/-! ## The five commands -/

/-- Settles O9: XS_NEXT is one `xsDraw` (`exec_drawToRes`), which is the three shifts in order. -/
theorem xsNextIsOneXorShiftStep : Obligations.XsNextIsOneXorShiftStep := by
  unfold Obligations.XsNextIsOneXorShiftStep
  exact fun s hs => exec_drawToRes (g := .xs) rfl hs nofun

/-- Settles O10: each command is one draw (`exec_drawToRes`), each draw one exact step (`minstdNext_eq`, `marsNext_eq`),
and the residue fits the word (`lcg_residue_fits`). -/
theorem lcgNextIsOneExactStep : Obligations.LcgNextIsOneExactStep := by
  unfold Obligations.LcgNextIsOneExactStep
  intro s hs
  refine ⟨?_, ?_⟩
  · intro x
    have hx : minstdNext s.minstdState = BitVec.ofNat 32 x := minstdNext_eq s.minstdState
    refine ⟨?_, lcg_residue_fits _⟩
    rw [← hx]
    exact exec_drawToRes (g := .minstd) rfl hs nofun
  · intro x
    have hx : marsNext s.marsState = BitVec.ofNat 32 x := marsNext_eq s.marsState
    refine ⟨?_, lcg_residue_fits _⟩
    rw [← hx]
    exact exec_drawToRes (g := .mars) rfl hs nofun

/-- Settles O16: CMWC_NEXT is one `cmwcDraw` (`exec_drawToRes`), whose output and carry are those of `cmwcStep_eq`, stored
at the next ring index alone. -/
theorem cmwcNextFollowsTheRecurrence : Obligations.CmwcNextFollowsTheRecurrence := by
  unfold Obligations.CmwcNextFollowsTheRecurrence
  refine fun s hs => ⟨exec_drawToRes_notSeeded (g := .cmwc) rfl hs rfl, fun hseeded => ?_⟩
  intro i t c0 x0 x c out
  have hi : s.nextIndex.toNat = i := toNat_nextIndex s
  have hindex : BitVec.ofNat 12 i = s.nextIndex := ofNat_nextIndex s
  have hstep : cmwcStep (s.q s.nextIndex.toNat) s.cmwcCarry = (out, BitVec.ofNat 32 c) := hi ▸ cmwcStep_eq _ _
  have hout : (cmwcDraw s).1 = out := congrArg Prod.fst hstep
  have hcarry : (cmwcDraw s).2.cmwcCarry = BitVec.ofNat 32 c := congrArg Prod.snd hstep
  rw [← hout, ← hcarry, hindex, ← hi]
  exact ⟨_, exec_drawToRes (g := .cmwc) rfl hs fun _ => hseeded, cmwcDraw_q_same s,
    fun _ => cmwcDraw_byteAt_outside s, rfl⟩

/-- Settles O17: COMB_NEXT is one `combDraw` (`exec_drawToRes`), and of its three draws only that of CMWC stores
(`cmwcDraw_byteAt_outside`). -/
theorem combNextCombinesThreeDraws : Obligations.CombNextCombinesThreeDraws := by
  unfold Obligations.CombNextCombinesThreeDraws
  refine fun s hs => ⟨exec_drawToRes_notSeeded (g := .comb) rfl hs rfl, fun hseeded => ?_⟩
  intro a b d i
  have hb : minstdNext s.minstdState = b := minstdNext_eq s.minstdState
  have hi : i = s.nextIndex.toNat := (toNat_nextIndex s).symm
  rw [← hb, hi]
  exact ⟨exec_drawToRes (g := .comb) rfl hs fun _ => hseeded, fun _ => cmwcDraw_byteAt_outside s⟩

end Sys2Proof.Machine
end

section
/-! The full period of MINSTD (rule R105): 48271 is a primitive root modulo the prime `2^31 - 1`, and a MINSTD step is the
multiplication by it. -/

namespace Sys2Proof.Machine

/-! ## 48271 is a primitive root modulo the prime `2^31 - 1` -/

theorem prime_dvd_minstdPeriod {q : Nat} (hq : q.Prime) (hdvd : q ∣ 2147483646) :
    q ∈ [2, 3, 3, 7, 11, 31, 151, 331] := by
  have hmem : q ∈ Nat.primeFactorsList 2147483646 := (Nat.mem_primeFactorsList (by decide)).2 ⟨hq, hdvd⟩
  simpa only [Nat.primeFactorsList_ofNat] using hmem

theorem minstdA_pow_period : (48271 : ZMod 2147483647) ^ 2147483646 = 1 := by reduce_mod_char

/-- No proper divisor of `2^31 - 2` is a period: it would divide `2^31 - 2` over one of its prime factors. -/
theorem minstdA_pow_div_prime {q : Nat} (hq : q.Prime) (hdvd : q ∣ 2147483646) :
    (48271 : ZMod 2147483647) ^ (2147483646 / q) ≠ 1 := by
  have hmem := prime_dvd_minstdPeriod hq hdvd
  simp only [List.mem_cons, List.not_mem_nil, or_false] at hmem
  rcases hmem with rfl | rfl | rfl | rfl | rfl | rfl | rfl | rfl <;>
    (norm_num only; reduce_mod_char; decide)

theorem prime_lcgM : Nat.Prime 2147483647 :=
  lucas_primality _ 48271 minstdA_pow_period fun _ => minstdA_pow_div_prime

theorem isPrimitiveRoot_minstdA : IsPrimitiveRoot (48271 : ZMod 2147483647) 2147483646 :=
  IsPrimitiveRoot.iff_orderOf.2
    (orderOf_eq_of_pow_and_pow_div_prime (by decide) minstdA_pow_period fun _ => minstdA_pow_div_prime)

/-! ## MINSTD steps as multiplications (rule R103) -/

theorem minstdStep_lt (x : Nat) : minstdStep x < 2147483647 := Nat.mod_lt _ (by decide)

theorem cast_minstdStep (x : Nat) : (minstdStep x : ZMod 2147483647) = 48271 * x := by
  rw [minstdStep_eq, Nat.add_zero]
  exact (ZMod.natCast_mod _ _).trans (by push_cast; rfl)

theorem cast_minstdStep_iterate (n x : Nat) : (minstdStep^[n] x : ZMod 2147483647) = 48271 ^ n * x := by
  induction n with
  | zero => simp
  | succ n ih => rw [Function.iterate_succ_apply', cast_minstdStep, ih, pow_succ', mul_assoc]

theorem cast_lcgM_inj {x y : Nat} (hx : x < 2147483647) (hy : y < 2147483647) :
    (x : ZMod 2147483647) = y ↔ x = y := by
  rw [ZMod.natCast_eq_natCast_iff', Nat.mod_eq_of_lt hx, Nat.mod_eq_of_lt hy]

theorem cast_lcgM_ne_zero {x : Nat} (h : x % 2147483647 ≠ 0) : (x : ZMod 2147483647) ≠ 0 := fun h0 =>
  h (Nat.mod_eq_zero_of_dvd ((ZMod.natCast_eq_zero_iff _ _).1 h0))

/-- From a state of nonzero residue every nonzero residue comes exactly once in `2^31 - 2` steps: step `n + 1` gives `y`
when the power `n` of 48271 is `y / (48271 x)`. -/
theorem minstd_full_period {x y : Nat} (hx : x % 2147483647 ≠ 0) (hy : 1 ≤ y) (hy' : y < 2147483647) :
    ∃! n, n < 2147483646 ∧ minstdStep^[n + 1] x = y := by
  have : Fact (Nat.Prime 2147483647) := ⟨prime_lcgM⟩
  have hroot := isPrimitiveRoot_minstdA
  have hax : (48271 * x : ZMod 2147483647) ≠ 0 :=
    mul_ne_zero (hroot.ne_zero (by decide)) (cast_lcgM_ne_zero hx)
  have hyx : (y / (48271 * x) : ZMod 2147483647) ≠ 0 :=
    div_ne_zero (cast_lcgM_ne_zero (by rw [Nat.mod_eq_of_lt hy']; omega)) hax
  have hiff : ∀ n, minstdStep^[n + 1] x = y ↔ (48271 : ZMod 2147483647) ^ n = y / (48271 * x) := fun n => by
    rw [eq_div_iff hax, ← mul_assoc, ← pow_succ, ← cast_minstdStep_iterate]
    refine (cast_lcgM_inj ?_ hy').symm
    rw [Function.iterate_succ_apply']
    exact minstdStep_lt _
  obtain ⟨n, hn, hpow⟩ := hroot.eq_pow_of_pow_eq_one (ZMod.pow_card_sub_one_eq_one hyx)
  exact ⟨n, ⟨hn, (hiff n).2 hpow⟩, fun m ⟨hm, hmy⟩ => hroot.pow_inj hm hn (((hiff m).1 hmy).trans hpow.symm)⟩

/-! ## The residue of a state (rule R105) -/

theorem minstdStep_mod (x : Nat) : minstdStep x = minstdStep (x % 2147483647) := by
  rw [minstdStep_eq, minstdStep_eq, Nat.add_zero, Nat.add_zero]
  exact (Nat.mul_mod_mod _ _ _).symm

theorem minstdStep_of_residue_zero {x : Nat} (h : x % 2147483647 = 0) : minstdStep x = 0 := by
  rw [minstdStep_mod, h]
  rfl

/-- Settles O13: the residue decides the step (`minstdStep_mod`), and a nonzero one runs through all of them
(`minstd_full_period`). -/
theorem minstdRunsThroughEveryNonzeroResidue : Obligations.MinstdRunsThroughEveryNonzeroResidue := by
  unfold Obligations.MinstdRunsThroughEveryNonzeroResidue
  simp only [Nat.reducePow, Nat.reduceSub]
  exact ⟨fun _ => minstdStep_of_residue_zero, minstdStep_of_residue_zero rfl, minstdStep_mod,
    fun _ _ hx hy hy' => minstd_full_period hx hy (Nat.lt_succ_of_le hy')⟩

end Sys2Proof.Machine
end

section
/-! Seeding CMWC (rules R109 to R112): the ring is the scratch sequence in index order; the carry loop finds the first
scratch value below the threshold whenever there is one, by the full period of MINSTD, and there is none exactly for a
nonzero residue and threshold 1. -/

namespace Sys2Proof.Machine

/-! ## The scratch sequence (rules R109, R111) -/

theorem scratch_eq_iterate (n t : Nat) : scratch n t = minstdStep^[n] t := by
  induction n with
  | zero => rfl
  | succ n ih => rw [scratch, ih, Function.iterate_succ_apply']

theorem scratch_add (m n t : Nat) : scratch (m + n) t = scratch m (scratch n t) := by
  simp only [scratch_eq_iterate, Function.iterate_add_apply]

theorem scratch_succ_lt (n t : Nat) : scratch (n + 1) t < 2147483647 := minstdStep_lt _

theorem scratch_succ_of_residue_zero {t : Nat} (h : t % 2147483647 = 0) (n : Nat) : scratch (n + 1) t = 0 := by
  rw [← scratch_minstdStep, minstdStep_of_residue_zero h, scratch_zero]

theorem scratch_residue_zero {t : Nat} (h : t % 2147483647 = 0) (n : Nat) : scratch n t % 2147483647 = 0 := by
  cases n with
  | zero => exact h
  | succ n => rw [scratch_succ_of_residue_zero h]

theorem scratch_residue_ne_zero {t : Nat} (h : t % 2147483647 ≠ 0) (n : Nat) : scratch n t % 2147483647 ≠ 0 := by
  have : Fact (Nat.Prime 2147483647) := ⟨prime_lcgM⟩
  intro h0
  have hcast : (scratch n t : ZMod 2147483647) = 0 := (ZMod.natCast_eq_zero_iff _ _).2 (Nat.dvd_of_mod_eq_zero h0)
  rw [scratch_eq_iterate, cast_minstdStep_iterate] at hcast
  exact mul_ne_zero (pow_ne_zero n (isPrimitiveRoot_minstdA.ne_zero (by decide))) (cast_lcgM_ne_zero h) hcast

theorem scratch_succ_pos {t : Nat} (h : t % 2147483647 ≠ 0) (n : Nat) : 0 < scratch (n + 1) t :=
  Nat.pos_of_ne_zero fun h0 => scratch_residue_ne_zero h (n + 1) (by rw [h0])

/-- From a seed of nonzero residue the scratch sequence takes every nonzero residue within one period. -/
theorem exists_scratch_eq {t y : Nat} (h : t % 2147483647 ≠ 0) (hy : 1 ≤ y) (hy' : y < 2147483647) :
    ∃ n < 2147483646, scratch (n + 1) t = y := by
  simp only [scratch_eq_iterate]
  exact (minstd_full_period h hy hy').exists

/-- Every value of the scratch sequence is among the first `2^31 - 2` (rule R111(b)). -/
theorem exists_scratch_eq_scratch (t n : Nat) : ∃ m < 2147483646, scratch (m + 1) t = scratch (n + 1) t := by
  by_cases h : t % 2147483647 = 0
  · exact ⟨0, by decide, by rw [scratch_succ_of_residue_zero h, scratch_succ_of_residue_zero h]⟩
  · exact exists_scratch_eq h (scratch_succ_pos h n) (scratch_succ_lt n t)

/-! ## The carry loop (rules R109, R111) -/

theorem carryAccepted_iff {cMax : Nat} (h : 1 ≤ cMax) (t : Nat) : carryAccepted cMax t = true ↔ t < cMax := by
  simp only [carryAccepted, Bool.or_eq_true, beq_iff_eq, decide_eq_true_eq]
  omega

theorem carryRejected_iff {cMax : Nat} (h : 1 ≤ cMax) (t : Nat) : carryAccepted cMax t = false ↔ cMax ≤ t := by
  rw [← Bool.not_eq_true, carryAccepted_iff h, Nat.not_lt]

theorem seedCarry_of_first {cMax N n t : Nat} (hn : n < N)
    (hrej : ∀ k < n, carryAccepted cMax (scratch (k + 1) t) = false)
    (hacc : carryAccepted cMax (scratch (n + 1) t) = true) : seedCarry cMax N t = some (scratch (n + 1) t) := by
  induction N generalizing n t with
  | zero => omega
  | succ N ih =>
    cases n with
    | zero => exact if_pos hacc
    | succ n =>
      have hfirst : carryAccepted cMax (minstdStep t) = false := hrej 0 (Nat.succ_pos n)
      have hrest := ih (n := n) (t := minstdStep t) (by omega)
        (fun k hk => by rw [scratch_minstdStep]; exact hrej (k + 1) (by omega)) (by rw [scratch_minstdStep]; exact hacc)
      rw [seedCarry, hfirst, if_neg Bool.false_ne_true, hrest, scratch_minstdStep]

/-- The number of draws after which the loop is given up is no bound on it: a first accepted value is found, however late
it comes. -/
theorem seedCarry_first {cMax n t : Nat} (hrej : ∀ k < n, carryAccepted cMax (scratch (k + 1) t) = false)
    (hacc : carryAccepted cMax (scratch (n + 1) t) = true) : seedCarry cMax (2 ^ 31) t = some (scratch (n + 1) t) := by
  obtain ⟨m, hm, heq⟩ := exists_scratch_eq_scratch t n
  have hnm : n ≤ m := by
    by_contra hlt
    have hrejm := hrej m (by omega)
    rw [heq, hacc] at hrejm
    cases hrejm
  exact seedCarry_of_first (by omega) hrej hacc

theorem seedCarry_of_accepted {cMax n t : Nat} (hacc : carryAccepted cMax (scratch (n + 1) t) = true) :
    ∃ c, seedCarry cMax (2 ^ 31) t = some c := by
  have h : ∃ n, carryAccepted cMax (scratch (n + 1) t) = true := ⟨n, hacc⟩
  exact ⟨_, seedCarry_first (fun _ hk => Bool.eq_false_of_not_eq_true (Nat.find_min h hk)) (Nat.find_spec h)⟩

theorem seedCarry_of_residue_zero (cMax : Nat) {t : Nat} (h : t % 2147483647 = 0) :
    seedCarry cMax (2 ^ 31) t = some 0 := by
  have h0 := scratch_succ_of_residue_zero h 0
  have hfirst := seedCarry_first (cMax := cMax) (n := 0) (t := t) (fun _ hk => absurd hk (Nat.not_lt_zero _))
    (by rw [h0]; rfl)
  rwa [h0] at hfirst

theorem seedCarry_of_two_le {cMax t : Nat} (h : t % 2147483647 ≠ 0) (hc : 2 ≤ cMax) :
    ∃ c, seedCarry cMax (2 ^ 31) t = some c := by
  obtain ⟨n, _, hn⟩ := exists_scratch_eq h le_rfl (by decide)
  exact seedCarry_of_accepted (n := n) ((carryAccepted_iff (by omega) _).2 (by omega))

/-- The loop ends at residue 0, and with a threshold of at least 2 from every seed. -/
theorem seedCarry_ends {cMax t : Nat} (h : t % 2147483647 = 0 ∨ 2 ≤ cMax) (n : Nat) :
    ∃ c, seedCarry cMax (2 ^ 31) (scratch n t) = some c := by
  by_cases h0 : t % 2147483647 = 0
  · exact ⟨0, seedCarry_of_residue_zero cMax (scratch_residue_zero h0 n)⟩
  · exact seedCarry_of_two_le (scratch_residue_ne_zero h0 n) (h.resolve_left h0)

theorem seedCarry_one {t : Nat} (h : t % 2147483647 ≠ 0) : seedCarry 1 (2 ^ 31) t = none := by
  rw [Option.eq_none_iff_forall_ne_some]
  intro c hc
  obtain ⟨k, _, _, hacc, _⟩ := seedCarry_some hc
  have hlt := (carryAccepted_iff le_rfl _).1 hacc
  have hpos := scratch_succ_pos h k
  omega

/-! ## The seeded state (rules R109, R110, R112) -/

/-- The state CMWC_SEED leaves with the given RAM contents and an accepted carry. -/
def State.seeded (s : State) (ring : Memory) (c : Nat) : State :=
  { s with mem := ring, cmwcCarry := BitVec.ofNat 32 c, cmwcIndex := 4095#12, cmwcSeeded := true }

theorem seeded_mem (s : State) (ring : Memory) (c : Nat) : (s.seeded ring c).mem = ring := rfl

theorem seeded_resets (s : State) (ring : Memory) (c : Nat) : (s.seeded ring c).resets = s.resets := rfl

theorem seeded_frame (s : State) (ring : Memory) (c : Nat) :
    s.seeded ring c = { s with
      mem := (s.seeded ring c).mem, cmwcCarry := BitVec.ofNat 32 c, cmwcIndex := 4095#12, cmwcSeeded := true } := rfl

/-- The RAM contents with the first `n` ring words filled from a seed (rule R109). -/
def seededMem (n : Nat) (s : State) (seed : Word) : Memory := (seedRing n 0 seed.toNat s.mem).2

theorem seedCmwc_eq_map (cMax : Nat) (seed : Word) (s : State) :
    seedCmwc cMax seed s =
      (seedCarry cMax (2 ^ 31) (scratch Config.cmwcN seed.toNat)).map (s.seeded (seededMem Config.cmwcN s seed)) := by
  unfold seedCmwc seededMem
  simp only [seedRing_scratch]
  cases seedCarry cMax (2 ^ 31) (scratch Config.cmwcN seed.toNat) with
  | none => rfl
  | some c => rfl

theorem seedCmwc_completes {cMax c : Nat} {seed : Word} (s : State)
    (hc : seedCarry cMax (2 ^ 31) (scratch Config.cmwcN seed.toNat) = some c) :
    seedCmwc cMax seed s = some (s.seeded (seededMem Config.cmwcN s seed) c) := by
  rw [seedCmwc_eq_map, hc, Option.map_some]

theorem seedCmwc_hangs {cMax : Nat} {seed : Word} (s : State)
    (hc : seedCarry cMax (2 ^ 31) (scratch Config.cmwcN seed.toNat) = none) : seedCmwc cMax seed s = none := by
  rw [seedCmwc_eq_map, hc, Option.map_none]

theorem seedCmwc_seeded {cMax : Nat} {seed : Word} {s t : State} (h : seedCmwc cMax seed s = some t) :
    ∃ c, t = s.seeded (seededMem Config.cmwcN s seed) c := by
  rw [seedCmwc_eq_map, Option.map_eq_some_iff] at h
  obtain ⟨c, _, ht⟩ := h
  exact ⟨c, ht.symm⟩

theorem q_congr {s t : State} (hm : s.mem = t.mem) (hr : s.resets = t.resets) (k : Nat) : s.q k = t.q k :=
  wordAt_congr fun _ _ => byteAt_congr hm hr _

/-- Ring word `k + j` of a fill from index `k` on is number `j + 1` of the scratch sequence. -/
theorem q_seedRing (s : State) {n j : Nat} (hj : j < n) (k t : Nat) (m : Memory) :
    State.q { s with mem := (seedRing n k t m).2 } (k + j) = BitVec.ofNat 32 (scratch (j + 1) t) := by
  induction n generalizing j k t with
  | zero => omega
  | succ n ih =>
    have hstore : { s with mem := (seedRing (n + 1) k t m).2 } =
        State.setQ { s with mem := (seedRing n (k + 1) (minstdStep t) m).2 } k (BitVec.ofNat 32 (minstdStep t)) := rfl
    rw [hstore]
    cases j with
    | zero => exact q_setQ_same _ _ _
    | succ j =>
      rw [q_setQ_other _ _ (by omega), show k + (j + 1) = k + 1 + j by omega, ih (by omega), scratch_minstdStep]

theorem q_seeded (s : State) (seed : Word) (c : Nat) {n k : Nat} (hk : k < n) :
    (s.seeded (seededMem n s seed) c).q k = BitVec.ofNat 32 (scratch (k + 1) seed.toNat) := by
  have hring := q_seedRing s hk 0 seed.toNat s.mem
  rw [Nat.zero_add] at hring
  exact (q_congr (t := { s with mem := seededMem n s seed }) rfl rfl k).trans hring

theorem read_seededMem_outside {n a : Nat} (s : State) (seed : Word) (h : a < qOff 0 ∨ qOff n ≤ a) :
    Memory.read (seededMem n s seed) a = Memory.read s.mem a :=
  read_seedRing_outside _ _ (by rwa [Nat.zero_add])

theorem byteAt_seeded_outside (s : State) (seed : Word) (c : Nat) {a : Nat} (h : a < 0x4000 ∨ 0x8000 ≤ a) :
    (s.seeded (seededMem Config.cmwcN s seed) c).byteAt a = s.byteAt a := by
  have hread : Memory.read (seededMem Config.cmwcN s seed) a = Memory.read s.mem a := read_seededMem_outside s seed h
  rw [State.byteAt, State.byteAt, seeded_mem, seeded_resets, hread]

theorem toNat_q_seeded_le (s : State) (seed : Word) (c : Nat) {n k : Nat} (hk : k < n) :
    ((s.seeded (seededMem n s seed) c).q k).toNat ≤ 2147483646 := by
  have hlt := scratch_succ_lt k seed.toNat
  rw [q_seeded s seed c hk, BitVec.toNat_ofNat]
  omega

/-! ## The command (rules R110, R111, R265) -/

theorem cmwcSeed_run_operands (s : State) :
    (meaningOf .cmwcSeed).run s.operands s = seedCmwc Config.cmwcCMax s.opaLo s := by
  have hseed : s.operands.aU32 = s.opaLo := loWord_append _ _
  rw [cmwcSeed_run, hseed]

theorem exec_cmwcSeed_completes {s : State} {c : Nat} (hs : s.idle)
    (hc : seedCarry Config.cmwcCMax (2 ^ 31) (scratch Config.cmwcN s.opaLo.toNat) = some c) :
    exec .cmwcSeed s = .next (s.seeded (seededMem Config.cmwcN s s.opaLo) c) :=
  exec_completes hs rfl ((cmwcSeed_run_operands s).trans (seedCmwc_completes s hc))

theorem exec_cmwcSeed_hangs {s : State} (hs : s.idle)
    (hc : seedCarry Config.cmwcCMax (2 ^ 31) (scratch Config.cmwcN s.opaLo.toNat) = none) :
    exec .cmwcSeed s = .next (s.begin .cmwcSeed) :=
  exec_runs_forever hs rfl ((cmwcSeed_run_operands s).trans (seedCmwc_hangs s hc))

theorem one_le_cmwcCMax : 1 ≤ Config.cmwcCMax := Nat.succ_pos _

/-- Settles O14: the carry loop takes the given draw (`seedCarry_first`), and the seeded state holds the scratch sequence in
index order (`q_seeded`) and is as before elsewhere (`byteAt_seeded_outside`). -/
theorem cmwcSeedFillsTheRingFromTheScratchSequence : Obligations.CmwcSeedFillsTheRingFromTheScratchSequence := by
  unfold Obligations.CmwcSeedFillsTheRingFromTheScratchSequence
  intro s n hs hrej hacc
  have hdraw : ∀ k, scratch (4097 + k) s.opaLo.toNat = scratch (k + 1) (scratch Config.cmwcN s.opaLo.toNat) := by
    intro k
    rw [← scratch_add, Config.cmwcN, show 4097 + k = k + 1 + 4096 by omega]
  simp only [hdraw] at hrej hacc ⊢
  have hc := seedCarry_first (fun k hk => (carryRejected_iff one_le_cmwcCMax _).2 (hrej k hk))
    ((carryAccepted_iff one_le_cmwcCMax _).2 hacc)
  exact ⟨_, exec_cmwcSeed_completes hs hc, fun k => q_seeded s _ _, fun a => byteAt_seeded_outside s _ _,
    seeded_frame s _ _⟩

/-- Settles O15: the carry loop ends at residue 0 (`seedCarry_of_residue_zero`) and with a threshold of at least 2
(`seedCarry_of_two_le`), and never with threshold 1 (`seedCarry_one`); the command follows (`exec_cmwcSeed_completes`,
`exec_cmwcSeed_hangs`). -/
theorem cmwcSeedingEndsUnlessTheThresholdIsOne : Obligations.CmwcSeedingEndsUnlessTheThresholdIsOne := by
  unfold Obligations.CmwcSeedingEndsUnlessTheThresholdIsOne
  simp only [Nat.reducePow, Nat.reduceSub]
  refine ⟨fun cMax seed s _ => ⟨fun h => ?_, fun _ hc => ?_, ?_, ?_⟩, fun s hs => ⟨?_, ?_⟩⟩
  · refine ⟨_, seedCmwc_completes s (seedCarry_of_residue_zero cMax ?_), rfl, fun k hk => ?_⟩
    · exact scratch_residue_zero h _
    · rw [q_seeded (n := Config.cmwcN) s seed 0 hk, scratch_succ_of_residue_zero h]
  · obtain ⟨c, hcarry⟩ := seedCarry_ends (.inr hc) Config.cmwcN
    exact ⟨_, seedCmwc_completes s hcarry⟩
  · rintro h rfl
    exact seedCmwc_hangs s (seedCarry_one (scratch_residue_ne_zero h Config.cmwcN))
  · intro t ht k hk
    obtain ⟨c, rfl⟩ := seedCmwc_seeded ht
    exact toNat_q_seeded_le s seed c hk
  · intro h
    obtain ⟨c, hcarry⟩ := seedCarry_ends h Config.cmwcN
    exact ⟨_, exec_cmwcSeed_completes hs hcarry, hs, rfl⟩
  · intro h hc
    exact exec_cmwcSeed_hangs hs (hc ▸ seedCarry_one (scratch_residue_ne_zero h Config.cmwcN))

end Sys2Proof.Machine
end

section
/-! UNIFORM (rules R133 to R138): its checks pass for `lower <= upper` on a ready generator, and from there it completes with
what `uniformDraw` answers or stays in flight when that answers none; so it is the unbounded procedure of rule R133. -/

namespace Sys2Proof.Machine

/-- The model's deduction that the loop never ends misses no run of rule R133 that never returns (log entry 9). -/
theorem uniformDraw_eq_none {g : Gsel} {lower upper : Word} {s : State} (hle : lower ≤ upper)
    (h : ¬ ∃ r t, UniformReturns g lower.toNat upper.toNat s r t) : uniformDraw g lower upper s = none := by
  rw [Option.eq_none_iff_forall_ne_some]
  rintro ⟨r, t⟩ hd
  exact h ⟨r.toNat, t, uniformDraw_sound hle hd⟩

theorem operands_aU32 (s : State) : s.operands.aU32 = s.opaLo := loWord_append _ _

theorem operands_bU32 (s : State) : s.operands.bU32 = s.opbLo := loWord_append _ _

theorem uniform_check_passes {g : Gsel} {s : State} (hr : s.drawReady g) (hle : s.opaLo ≤ s.opbLo) :
    (meaningOf (.uniform g)).check s = none := by
  have hparam : ¬ s.operands.bU32 < s.operands.aU32 := by
    rw [operands_aU32, operands_bU32]
    exact BitVec.not_lt.2 hle
  calc (meaningOf (.uniform g)).check s
      = firstFailure [(decide (s.operands.bU32 < s.operands.aU32), .param)] := firstFailure_seedCheck hr _
    _ = none := by rw [decide_eq_false hparam]; rfl

theorem uniform_run (g : Gsel) (s : State) :
    (meaningOf (.uniform g)).run s.operands s =
      (uniformDraw g s.opaLo s.opbLo s).map fun p => p.2.setResU32 p.1 := by
  rw [← operands_aU32, ← operands_bU32]
  simp only [meaningOf, uniformMeaning]
  cases uniformDraw g s.operands.aU32 s.operands.bU32 s with
  | none => rfl
  | some p => rfl

section issued
variable {g : Gsel} {s : State} (hs : s.idle) (hr : s.drawReady g) (hle : s.opaLo ≤ s.opbLo)
include hs hr hle

theorem exec_uniform_completes {r : Word} {t : State} (h : uniformDraw g s.opaLo s.opbLo s = some (r, t)) :
    exec (.uniform g) s = .next (t.setResU32 r) :=
  exec_completes hs (uniform_check_passes hr hle) (by rw [uniform_run, h, Option.map_some])

theorem exec_uniform_hangs (h : uniformDraw g s.opaLo s.opbLo s = none) :
    exec (.uniform g) s = .next (s.begin (.uniform g)) :=
  exec_runs_forever hs (uniform_check_passes hr hle) (by rw [uniform_run, h, Option.map_none])

theorem exec_uniform_of_returns {r : Nat} {t : State} (h : UniformReturns g s.opaLo.toNat s.opbLo.toNat s r t) :
    exec (.uniform g) s = .next (t.setResU32 (BitVec.ofNat 32 r)) :=
  exec_uniform_completes hs hr hle (uniformDraw_complete h)

/-- A UNIFORM that is no longer in flight has completed with an answer of `uniformDraw`. -/
theorem exec_uniform_completed {t : State} (h : exec (.uniform g) s = .next t) (ht : t.inflight = none) :
    ∃ r u, uniformDraw g s.opaLo s.opbLo s = some (r, u) ∧ t = u.setResU32 r := by
  cases hd : uniformDraw g s.opaLo s.opbLo s with
  | none =>
    rw [exec_uniform_hangs hs hr hle hd] at h
    cases h
    cases ht
  | some p =>
    rw [exec_uniform_completes hs hr hle hd] at h
    cases h
    exact ⟨p.1, p.2, rfl, rfl⟩

end issued

/-- Settles O20: the command completes with what rule R133's procedure returns (`exec_uniform_of_returns`), and where it
never returns the model's loop has no answer (`uniformDraw_eq_none`) and the command hangs (`exec_uniform_hangs`). -/
theorem uniformIsUnboundedRejectionSampling : Obligations.UniformIsUnboundedRejectionSampling := by
  unfold Obligations.UniformIsUnboundedRejectionSampling
  exact fun g s hs hr hle =>
    ⟨fun r t h => exec_uniform_of_returns hs hr hle h, fun h => exec_uniform_hangs hs hr hle (uniformDraw_eq_none hle h)⟩

/-- Settles O21: a completed command holds an answer of `uniformDraw` (`exec_uniform_completed`), which is in range
(`uniformDraw_range`); an empty range is rule R133's case without a draw. -/
theorem uniformResultIsInRange : Obligations.UniformResultIsInRange := by
  unfold Obligations.UniformResultIsInRange
  refine fun g s hs hr => ⟨fun hlt t h ht => ?_, fun heq => ?_⟩
  · have hle := BitVec.le_of_lt hlt
    obtain ⟨r, u, hd, rfl⟩ := exec_uniform_completed hs hr hle h ht
    obtain ⟨hlower, hupper⟩ := uniformDraw_range hle hd
    have hne : s.opaLo ≠ s.opbLo := BitVec.ne_of_lt hlt
    exact ⟨hlower, hupper.resolve_right fun hdeg => hne hdeg.2, rfl⟩
  · have h := exec_uniform_of_returns hs hr (BitVec.le_of_eq heq)
      (.degenerate (congrArg BitVec.toNat heq.symm))
    rwa [BitVec.ofNat_toNat, BitVec.setWidth_eq] at h

end Sys2Proof.Machine
end

section
/-! DOUBLE and DOUBLE_AFFINE (rules R140 to R144): each is one draw and a function of its output. Rounding is monotone, so
`doubleOfWord` is, and its range is read off at the largest draw of a generator. -/

namespace Sys2Proof.Machine

/-! ## Rounding is monotone (rules R10, R194) -/

/-- The nearest pattern of a larger numerator is no smaller: were it smaller, both quotients would be the midpoint between
two neighbours, and both neighbours even. -/
theorem NearestMag.mono {n n' d M M' : Nat} (h : NearestMag n d M) (h' : NearestMag n' d M') (hd : 0 < d) (hn : n ≤ n') :
    M ≤ M' := by
  by_contra hlt
  obtain ⟨k, rfl⟩ : ∃ k, k + 1 = M := ⟨M - 1, by omega⟩
  have hbelow := h.below k rfl
  have hbelow_even := h.below_even k rfl
  have habove := h'.above
  have habove_even := h'.above_even
  rcases Nat.lt_or_ge M' k with hk | hk
  · have h1 := magUnits_mul_strictMono hd hk
    have h2 := magUnits_mul_mono d (show M' + 1 ≤ k + 1 by omega)
    omega
  · obtain rfl : M' = k := by omega
    have heven := habove_even (by omega)
    have heven_succ := hbelow_even (by omega)
    omega

theorem f64RoundMag_mono {n n' d : Nat} (hd : 0 < d) (hn : n ≤ n') : f64RoundMag n d ≤ f64RoundMag n' d := by
  rw [f64RoundMag_eq_min, f64RoundMag_eq_min]
  exact min_le_min_right _ ((roundMagUnbounded_nearest hd).mono (roundMagUnbounded_nearest hd) hd hn)

theorem toNat_f64Pack_roundMag (n d : Nat) : (f64Pack false (f64RoundMag n d)).toNat = f64RoundMag n d :=
  (f64Pack_toNat false (f64RoundMag_lt n d)).trans (if_neg Bool.false_ne_true)

/-- Patterns below that of plus infinity are the finite doubles that are not negative. -/
theorem finite_nonneg_of_lt {d : DWord} (h : d.toNat < f64InfMag) :
    f64IsFinite d = true ∧ f64Neg d = false ∧ f64Mag d = d.toNat := by
  have hinf : f64InfMag < 2 ^ 63 := by decide
  have hlt : d.toNat < 2 ^ 63 := Nat.lt_trans h hinf
  have hmag : f64Mag d = d.toNat := Nat.mod_eq_of_lt hlt
  refine ⟨?_, Bool.eq_false_of_not_eq_true (mt (f64Neg_iff d).1 (Nat.not_le_of_lt hlt)), hmag⟩
  rw [f64IsFinite, hmag]
  exact decide_eq_true h

theorem toNat_fdiv {a b : DWord} (ha : a.toNat < f64InfMag) (hb : b.toNat < f64InfMag) (h0 : b.toNat ≠ 0) :
    (fdiv a b).toNat = f64RoundMag (magUnits a.toNat * f64One) (magUnits b.toNat) := by
  obtain ⟨hafin, haneg, hamag⟩ := finite_nonneg_of_lt ha
  obtain ⟨hbfin, hbneg, hbmag⟩ := finite_nonneg_of_lt hb
  rw [fdiv_finite hafin hbfin (by rwa [hbmag]), haneg, hbneg, f64Units_eq_magUnits, f64Units_eq_magUnits, hamag, hbmag]
  exact toNat_f64Pack_roundMag _ _

/-- A quotient by a positive double grows with its numerator, in the order of the patterns. -/
theorem fdiv_mono {a a' b : DWord} (h : a ≤ a') (ha' : a'.toNat < f64InfMag) (hb : b.toNat < f64InfMag)
    (h0 : b.toNat ≠ 0) : fdiv a b ≤ fdiv a' b := by
  have hle : a.toNat ≤ a'.toNat := h
  have hpos : 0 < magUnits b.toNat := by
    have := magUnits_strictMono (Nat.pos_of_ne_zero h0)
    rwa [magUnits_zero] at this
  rw [BitVec.le_def, toNat_fdiv (hle.trans_lt ha') hb h0, toNat_fdiv ha' hb h0]
  exact f64RoundMag_mono hpos (magUnits_mul_mono _ hle)

theorem toNat_f64OfInt (n : Nat) : (f64OfInt n).toNat = f64RoundMag (n * f64One) 1 := by
  have hneg : decide ((n : Int) < 0) = false := decide_eq_false (by omega)
  rw [f64OfInt, hneg, Int.natAbs_natCast]
  exact toNat_f64Pack_roundMag _ _

theorem f64OfInt_mono {m n : Nat} (h : m ≤ n) : f64OfInt m ≤ f64OfInt n := by
  rw [BitVec.le_def, toNat_f64OfInt, toNat_f64OfInt]
  exact f64RoundMag_mono Nat.one_pos (Nat.mul_le_mul_right _ h)

/-! ## The value of a draw (rules R140, R142) -/

theorem dblDiv_pattern : dblDiv = 0x41EFFFFFFFE00000#64 := by decide +kernel

theorem doubleOfWord_zero : doubleOfWord 0#32 = 0#64 := by decide +kernel

theorem doubleOfWord_max : doubleOfWord 0xFFFFFFFF#32 = f64OneD := by decide +kernel

theorem doubleOfWord_lcg_max_lt_half : doubleOfWord (BitVec.ofNat 32 (2 ^ 31 - 2)) < 0x3FE0000000000000#64 := by
  decide +kernel

/-- Greater draws give greater doubles: `f64(r)` and the division by the positive `DBL_DIV` are both monotone. -/
theorem doubleOfWord_mono {r r' : Word} (h : r ≤ r') : doubleOfWord r ≤ doubleOfWord r' := by
  have hmax : f64OfInt r'.toNat ≤ f64OfInt ((4294967295 : Nat) : Int) := f64OfInt_mono (Nat.le_of_lt_succ r'.isLt)
  have hdiv : dblDiv.toNat < f64InfMag ∧ dblDiv.toNat ≠ 0 := by
    rw [dblDiv_pattern]
    decide
  exact fdiv_mono (f64OfInt_mono h) (Nat.lt_of_le_of_lt (BitVec.le_def.1 hmax) hdiv.1) hdiv.1 hdiv.2

theorem f64InUnit_of_le_one {d : DWord} (h : d ≤ f64OneD) : f64InUnit d := by
  have hle : d.toNat ≤ f64OneD.toNat := h
  have hone : f64OneD.toNat < f64InfMag := by decide
  obtain ⟨_, hneg, hmag⟩ := finite_nonneg_of_lt (hle.trans_lt hone)
  obtain ⟨_, _, honemag⟩ := finite_nonneg_of_lt hone
  exact ⟨hneg, by rwa [hmag, honemag]⟩

theorem doubleOfWord_inUnit (r : Word) : f64InUnit (doubleOfWord r) := by
  refine f64InUnit_of_le_one ?_
  rw [← doubleOfWord_max]
  exact doubleOfWord_mono (Nat.le_of_lt_succ r.isLt)

/-- Both linear congruential generators draw residues of `2^31 - 1` (rules R103, R106). -/
theorem lcg_draw_le {g : Gsel} (hg : g = .minstd ∨ g = .mars) (s : State) :
    (draw g s).1 ≤ BitVec.ofNat 32 (2 ^ 31 - 2) := by
  have hresidue : ∀ n, BitVec.ofNat 32 (n % (2 ^ 31 - 1)) ≤ BitVec.ofNat 32 (2 ^ 31 - 2) := fun n => by
    obtain ⟨hfits, hle⟩ := lcg_residue_fits n
    rw [BitVec.le_def, hfits]
    exact hle
  rcases hg with rfl | rfl
  · rw [show (draw .minstd s).1 = minstdNext s.minstdState from rfl, minstdNext_eq]
    exact hresidue _
  · rw [show (draw .mars s).1 = marsNext s.marsState from rfl, marsNext_eq]
    exact hresidue _

/-! ## The two commands (rules R141, R144) -/

theorem res_setResF64 (s : State) (d : DWord) : (s.setResF64 d).res = d := hiWord_append_loWord d

theorem double_run (g : Gsel) (o : Operands) (s : State) :
    (meaningOf (.double g)).run o s = some ((draw g s).2.setResF64 (doubleOfWord (draw g s).1)) := by
  simp only [meaningOf, doubleMeaning, doubleDraw]

theorem doubleAffine_run (g : Gsel) (o : Operands) (s : State) :
    (meaningOf (.doubleAffine g)).run o s =
      some ((draw g s).2.setResF64 (flerp o.opa o.opb (doubleOfWord (draw g s).1))) := by
  simp only [meaningOf, doubleAffineMeaning, doubleAffineDraw, doubleDraw, flerp, Operands.aF64, Operands.bF64]

section issued
variable {g : Gsel} {s : State} (hs : s.idle) (hr : s.drawReady g)
include hs hr

theorem exec_double : exec (.double g) s = .next ((draw g s).2.setResF64 (doubleOfWord (draw g s).1)) :=
  exec_completes hs (firstFailure_seedCheck hr []) (double_run g _ s)

theorem exec_doubleAffine :
    exec (.doubleAffine g) s =
      .next ((draw g s).2.setResF64 (flerp (s.opaHi ++ s.opaLo) (s.opbHi ++ s.opbLo) (doubleOfWord (draw g s).1))) :=
  exec_completes hs (firstFailure_seedCheck hr []) (doubleAffine_run g _ s)

theorem exec_double_res {t : State} (h : exec (.double g) s = .next t) : t.res = doubleOfWord (draw g s).1 := by
  rw [exec_double hs hr] at h
  cases h
  exact res_setResF64 _ _

end issued

/-- Settles O27: the values at the ends are computed, `doubleOfWord` is monotone between them (`doubleOfWord_mono`), and a
draw of MINSTD or MARS is at most `2^31 - 2` (`lcg_draw_le`). -/
theorem doubleIsInTheClosedUnitInterval : Obligations.DoubleIsInTheClosedUnitInterval := by
  unfold Obligations.DoubleIsInTheClosedUnitInterval
  refine ⟨doubleOfWord_zero, doubleOfWord_max, doubleOfWord_inUnit, fun g s t hs hr h => ?_, fun g s t hs hg h => ?_⟩
  · rw [exec_double_res hs hr h]
    exact doubleOfWord_inUnit _
  · have hr : s.drawReady g := by rcases hg with rfl | rfl <;> exact nofun
    have hle := doubleOfWord_mono (lcg_draw_le hg s)
    rw [exec_double_res hs hr h]
    exact ⟨hle, Std.lt_of_le_of_lt hle doubleOfWord_lcg_max_lt_half⟩

/-- Settles O26: each command is one draw and a function of its output (`exec_double`, `exec_doubleAffine`), and the affine
formula is that of `flerp`. -/
theorem doubleCommandsDivideOneDraw : Obligations.DoubleCommandsDivideOneDraw := by
  unfold Obligations.DoubleCommandsDivideOneDraw
  exact fun g s hs hr => ⟨exec_double hs hr, exec_doubleAffine hs hr, rfl⟩

end Sys2Proof.Machine
end

section
/-! The shuffles and PERM_BUILD (rules R150 to R160): the passes of the model are those of the source's procedures, whose
`uniform` calls draw until an output is accepted, so each command completes exactly where its procedure can end. What one
exchange and one placement do to the RAM stands beside it, word by word. -/

namespace Sys2Proof.Machine

/-! ## One exchange and one placement (rules R150, R154) -/

section words
variable (s : State) (i j : Nat)

theorem perm_swapPerm_left : (s.swapPerm i j).perm i = s.perm j := by
  rw [swapPerm_eq]
  by_cases h : i = j
  · rw [h, perm_setPerm_same]
  · rw [perm_setPerm_other _ _ h, perm_setPerm_same]

theorem perm_swapPerm_right : (s.swapPerm i j).perm j = s.perm i := by
  rw [swapPerm_eq, perm_setPerm_same]

theorem byteAt_swapPerm_outside {a : Nat} (hi : a < permOff i ∨ permOff i + 4 ≤ a)
    (hj : a < permOff j ∨ permOff j + 4 ≤ a) : (s.swapPerm i j).byteAt a = s.byteAt a := by
  rw [swapPerm_eq, byteAt_setPerm_outside _ _ hj, byteAt_setPerm_outside _ _ hi]

theorem placeInsideOut_same : s.placeInsideOut i i = s.setPerm i (s.src i) := by
  rw [placeInsideOut_eq, if_pos rfl]

theorem placeInsideOut_other (h : j ≠ i) :
    s.placeInsideOut i j = (s.setPerm i (s.perm j)).setPerm j (s.src i) := by
  rw [placeInsideOut_eq, if_neg h]

theorem byteAt_placeInsideOut_outside {a : Nat} (hi : a < permOff i ∨ permOff i + 4 ≤ a)
    (hj : a < permOff j ∨ permOff j + 4 ≤ a) : (s.placeInsideOut i j).byteAt a = s.byteAt a := by
  by_cases h : j = i
  · rw [h, placeInsideOut_same, byteAt_setPerm_outside _ _ hi]
  · rw [placeInsideOut_other s i j h, byteAt_setPerm_outside _ _ hj, byteAt_setPerm_outside _ _ hi]

theorem placeInsideOut_registers : s.placeInsideOut i j = { s with mem := (s.placeInsideOut i j).mem } := by
  by_cases h : j = i
  · rw [h, placeInsideOut_same]
    rfl
  · rw [placeInsideOut_other s i j h]
    rfl

end words

/-! ## The model's passes are the source's procedures (log entry 9) -/

section procedures
variable {g : Gsel} {s t u : State} {n i j : Nat}

/-- What the unbounded `uniform` from 0 on returns is a word, and `uniformDraw` answers it. -/
theorem uniformDraw_zero_of_returns (hn : n < 2 ^ 32) (h : UniformReturns g 0 n s j u) :
    ∃ r : Word, r.toNat = j ∧ uniformDraw g 0#32 (BitVec.ofNat 32 n) s = some (r, u) := by
  have hupper : (BitVec.ofNat 32 n).toNat = n := by rw [BitVec.toNat_ofNat, Nat.mod_eq_of_lt hn]
  have hj : j < 2 ^ 32 := by
    cases h with
    | degenerate _ => exact Nat.two_pow_pos 32
    | accepted m hlt _ =>
      have := Nat.mod_lt (drawOut g m s).toNat (Nat.sub_pos_of_lt hlt)
      omega
  exact ⟨BitVec.ofNat 32 j, by rw [BitVec.toNat_ofNat, Nat.mod_eq_of_lt hj], uniformDraw_complete (by rwa [hupper])⟩

theorem shufflePasses_complete (h : ShufflePasses g n s t) (hn : n ≤ 255) : shufflePasses g n s = some t := by
  induction h with
  | done s => rfl
  | pass i j s u t hu _ ih =>
    obtain ⟨r, rfl, hd⟩ := uniformDraw_zero_of_returns (by omega) hu
    rw [shufflePasses, hd]
    exact ih (by omega)

theorem shufflePasses_iff (hn : n ≤ 255) : ShufflePasses g n s t ↔ shufflePasses g n s = some t :=
  ⟨fun h => shufflePasses_complete h hn, shufflePasses_sound hn⟩

theorem shuffleIoSteps_complete (h : ShuffleIoSteps g n i s t) (hn : n ≤ 256) :
    shuffleIoSteps g (n - i) i s = some t := by
  induction h with
  | done s => rw [Nat.sub_self, shuffleIoSteps]
  | stepAt i j s u t hi hu _ ih =>
    obtain ⟨r, rfl, hd⟩ := uniformDraw_zero_of_returns (by omega) hu
    rw [show n - i = n - (i + 1) + 1 by omega, shuffleIoSteps, hd]
    exact ih

theorem shuffleIoSteps_iff (hn : n ≤ 256) : ShuffleIoSteps g n 0 s t ↔ shuffleIoSteps g n 0 s = some t := by
  refine ⟨fun h => shuffleIoSteps_complete h hn, fun h => ?_⟩
  have hsound := shuffleIoSteps_sound (i := 0) (by omega) h
  rwa [Nat.zero_add] at hsound

end procedures

/-! ## The commands (rules R151, R155, R159) -/

theorem firstFailure_lengthCheck {s : State} (h1 : 1 ≤ s.opaLo.toNat) (h256 : s.opaLo.toNat ≤ 256) :
    firstFailure [s.lengthCheck] = none := by
  have hzero : decide (s.operands.aU32.toNat = 0) = false := decide_eq_false (by rw [operands_aU32]; omega)
  have hmax : decide (Config.permN < s.operands.aU32.toNat) = false :=
    decide_eq_false (by rw [operands_aU32, Config.permN]; omega)
  rw [State.lengthCheck, hzero, hmax]
  rfl

theorem shuffle_run (g : Gsel) (s : State) :
    (meaningOf (.shuffle g)).run s.operands s =
      (shufflePasses g (s.opaLo.toNat - 1) s).map State.clearPermReady := by
  rw [← operands_aU32]
  simp only [meaningOf, shuffleMeaning, shuffleRun]
  cases shufflePasses g (s.operands.aU32.toNat - 1) s <;> rfl

theorem shuffleIo_run (g : Gsel) (s : State) :
    (meaningOf (.shuffleIo g)).run s.operands s =
      (shuffleIoSteps g s.opaLo.toNat 0 s).map State.clearPermReady := by
  rw [← operands_aU32]
  simp only [meaningOf, shuffleIoMeaning, shuffleIoRun]
  cases shuffleIoSteps g s.operands.aU32.toNat 0 s <;> rfl

theorem permBuild_run (g : Gsel) (o : Operands) (s : State) :
    (meaningOf (.permBuild g)).run o s = (shufflePasses g 255 s.fillIdentity).map State.setPermReady := by
  simp only [meaningOf, permBuildMeaning, permBuildRun, shuffleRun, Config.permN]
  cases shufflePasses g 255 s.fillIdentity <;> rfl

/-- A command whose run answers the end states of a procedure completes where the procedure can end, and stays in flight
where it never ends (rules R207, R265). -/
theorem exec_refines {i : Instr} {s : State} {result : Option State} {finish : State → State} {EndsIn : State → Prop}
    (hs : s.idle) (hcheck : (meaningOf i).check s = none)
    (hrun : (meaningOf i).run s.operands s = result.map finish) (hends : ∀ t, EndsIn t ↔ result = some t) :
    (∀ t, EndsIn t → exec i s = .next (finish t)) ∧
      ((¬ ∃ t, EndsIn t) → exec i s = .next { s with inflight := some ⟨i, s.operands⟩ }) := by
  constructor
  · intro t ht
    exact exec_completes hs hcheck (by rw [hrun, (hends t).1 ht, Option.map_some])
  · intro hnever
    have hnone : result = none :=
      Option.eq_none_iff_forall_ne_some.2 fun t ht => hnever ⟨t, (hends t).2 ht⟩
    exact exec_runs_forever hs hcheck (by rw [hrun, hnone, Option.map_none])

/-- Settles O28: the runs of both commands answer where the procedures end (`shufflePasses_iff`, `shuffleIoSteps_iff`), which
is what completes a command (`exec_refines`); the words of one step are those of its `PERM` stores. -/
theorem shufflesAreTheFisherYatesProcedures : Obligations.ShufflesAreTheFisherYatesProcedures := by
  unfold Obligations.ShufflesAreTheFisherYatesProcedures
  refine ⟨fun g s hs hr h1 h256 => ?_, fun s i j => ?_⟩
  · have hcheck : firstFailure [s.seedCheck g, s.lengthCheck] = none :=
      (firstFailure_seedCheck hr _).trans (firstFailure_lengthCheck h1 h256)
    exact ⟨exec_refines hs hcheck (shuffle_run g s) fun t => shufflePasses_iff (by omega),
      exec_refines hs hcheck (shuffleIo_run g s) fun t => shuffleIoSteps_iff h256⟩
  · refine ⟨⟨perm_swapPerm_left s i j, perm_swapPerm_right s i j, fun _ => byteAt_swapPerm_outside s i j, rfl⟩,
      fun hne => ?_, ?_, fun _ => byteAt_placeInsideOut_outside s i j, placeInsideOut_registers s i j⟩
    · rw [placeInsideOut_other s i j hne]
      exact ⟨(perm_setPerm_other _ _ hne.symm).trans (perm_setPerm_same _ _ _), perm_setPerm_same _ _ _⟩
    · rintro rfl
      rw [placeInsideOut_same]
      exact perm_setPerm_same _ _ _

/-- Settles O30: the run fills in the identity (`perm_fillIdentity`) and answers where the 255 passes from there end
(`shufflePasses_iff`), which is what completes the command (`exec_refines`). -/
theorem permBuildShufflesTheIdentity : Obligations.PermBuildShufflesTheIdentity := by
  unfold Obligations.PermBuildShufflesTheIdentity
  exact fun g s hs hr =>
    ⟨s.fillIdentity, fun _ => perm_fillIdentity s, fun _ => byteAt_fillIdentity_outside s,
      by simp only [State.fillIdentity],
      exec_refines hs (firstFailure_seedCheck hr []) (permBuild_run g _ s) fun _ => shufflePasses_iff le_rfl⟩

end Sys2Proof.Machine
end

section
/-! VALUE_BUILD (rules R161, R162): a draw reads and stores no `VALUE` word, so it commutes with the stores of the table, and
the command leaves the table of the drawn doubles stored over the state that 256 draws leave. -/

namespace Sys2Proof.Machine

/-! ## Stores to different offsets commute -/

/-- While both offsets are above the first cell both writes go past it; else one of them stops there. -/
theorem Memory.write_comm (m : Memory) {a a' : Nat} (b b' : Byte) (h : a ≠ a') :
    Memory.write (Memory.write m a b) a' b' = Memory.write (Memory.write m a' b') a b := by
  induction m with
  | nil => grind [Memory.write]
  | cons c m ih =>
    by_cases habove : c.1 < a ∧ c.1 < a'
    · obtain ⟨ha, ha'⟩ := habove
      simp only [Memory.write, if_neg (Nat.lt_asymm ha), if_neg (Nat.ne_of_gt ha), if_neg (Nat.lt_asymm ha'),
        if_neg (Nat.ne_of_gt ha'), ih]
    · grind [Memory.write]

theorem Memory.write_writeWord_comm (m : Memory) {a x : Nat} (b : Byte) (w : Word) (h : x < a ∨ a + 4 ≤ x) :
    Memory.write (Memory.writeWord m a w) x b = Memory.writeWord (Memory.write m x b) a w := by
  unfold Memory.writeWord
  rw [Memory.write_comm _ _ _ (show a ≠ x by omega), Memory.write_comm _ _ _ (show a + 1 ≠ x by omega),
    Memory.write_comm _ _ _ (show a + 2 ≠ x by omega), Memory.write_comm _ _ _ (show a + 3 ≠ x by omega)]

theorem Memory.writeWord_eq (m : Memory) (a : Nat) (w : Word) :
    Memory.writeWord m a w =
      Memory.write (Memory.write (Memory.write (Memory.write m (a + 3) (byteLane w 3)) (a + 2) (byteLane w 2)) (a + 1)
        (byteLane w 1)) a (byteLane w 0) := rfl

theorem Memory.writeWord_comm (m : Memory) {a a' : Nat} (w w' : Word) (h : a' + 4 ≤ a ∨ a + 4 ≤ a') :
    Memory.writeWord (Memory.writeWord m a w) a' w' = Memory.writeWord (Memory.writeWord m a' w') a w := by
  rw [Memory.writeWord_eq (Memory.writeWord m a w), Memory.writeWord_eq m a',
    Memory.write_writeWord_comm _ _ _ (show a' + 3 < a ∨ a + 4 ≤ a' + 3 by omega),
    Memory.write_writeWord_comm _ _ _ (show a' + 2 < a ∨ a + 4 ≤ a' + 2 by omega),
    Memory.write_writeWord_comm _ _ _ (show a' + 1 < a ∨ a + 4 ≤ a' + 1 by omega),
    Memory.write_writeWord_comm _ _ _ (show a' < a ∨ a + 4 ≤ a' by omega)]

theorem Memory.writeWord_writeDword_comm (m : Memory) {a x : Nat} (d : DWord) (w : Word)
    (h : x + 4 ≤ a ∨ a + 8 ≤ x) :
    Memory.writeWord (Memory.writeDword m a d) x w = Memory.writeDword (Memory.writeWord m x w) a d := by
  unfold Memory.writeDword
  rw [Memory.writeWord_comm _ _ _ (show x + 4 ≤ a ∨ a + 4 ≤ x by omega),
    Memory.writeWord_comm _ _ _ (show x + 4 ≤ a + 4 ∨ a + 4 + 4 ≤ x by omega)]

/-! ## Draws and `VALUE` stores commute -/

section draws
variable (s : State) {k : Nat} (hk : k < 256) (d : DWord)
include hk

theorem q_setValue (j : Nat) : (s.setValue k d).q j = s.q j :=
  wordAt_congr fun _ _ => byteAt_setValue_outside s d (by unfold qOff valueOff; omega)

theorem cmwcDraw_setValue : cmwcDraw (s.setValue k d) = ((cmwcDraw s).1, (cmwcDraw s).2.setValue k d) := by
  have hq : (s.setValue k d).q s.nextIndex.toNat = s.q s.nextIndex.toNat := q_setValue s hk d _
  have hmem := fun w => Memory.writeWord_writeDword_comm s.mem (a := valueOff k) (x := qOff s.nextIndex.toNat) d w
    (by unfold qOff valueOff; omega)
  have hnext : (s.setValue k d).nextIndex = s.nextIndex := rfl
  simp only [cmwcDraw, hnext, hq, State.setValue_cmwcCarry, State.setValue_mem, hmem]
  rfl

theorem draw_setValue (g : Gsel) : draw g (s.setValue k d) = ((draw g s).1, (draw g s).2.setValue k d) := by
  cases g with
  | xs | minstd | mars => rfl
  | cmwc => exact cmwcDraw_setValue s hk d
  | comb =>
    rw [draw_comb, combDraw, cmwcDraw_setValue s hk d]
    rfl

end draws

/-! ## The table over the drawn state -/

/-- Store `f 0, ..., f (n-1)` in `VALUE[0..n-1]`. -/
def State.storeValues (f : Nat → DWord) : Nat → State → State
  | 0, s => s
  | n + 1, s => (State.storeValues f n s).setValue n (f n)

section table
variable (f : Nat → DWord) {n : Nat}

theorem draw_storeValues (g : Gsel) (s : State) (hn : n ≤ 256) :
    draw g (s.storeValues f n) = ((draw g s).1, (draw g s).2.storeValues f n) := by
  induction n with
  | zero => rfl
  | succ n ih =>
    rw [State.storeValues, draw_setValue _ (by omega), ih (by omega)]
    rfl

theorem value_storeValues (s : State) {k : Nat} (hk : k < n) : (s.storeValues f n).value k = f k := by
  induction n with
  | zero => omega
  | succ n ih =>
    rw [State.storeValues]
    by_cases h : k = n
    · rw [h, value_setValue_same]
    · rw [value_setValue_other _ _ h, ih (by omega)]

theorem byteAt_storeValues_outside (s : State) {a : Nat} (h : a < valueOff 0 ∨ valueOff n ≤ a) :
    (s.storeValues f n).byteAt a = s.byteAt a := by
  induction n with
  | zero => rfl
  | succ n ih =>
    unfold valueOff at h ih
    rw [State.storeValues, byteAt_setValue_outside _ _ (by unfold valueOff; omega), ih (by omega)]

theorem storeValues_registers (n : Nat) (s : State) :
    s.storeValues f n = { s with mem := (s.storeValues f n).mem } := by
  induction n with
  | zero => rfl
  | succ n ih => exact congrArg (fun t : State => t.setValue n (f n)) ih

end table

/-- The doubles that a generator draws from a state on. -/
def drawnDoubles (g : Gsel) (s : State) (k : Nat) : DWord := doubleOfWord (drawOut g k s)

/-- The last step of the fill is one draw and one store more. -/
theorem fillValues_succ (g : Gsel) (n k : Nat) (s : State) :
    fillValues g (n + 1) k s =
      (draw g (fillValues g n k s)).2.setValue (k + n) (doubleOfWord (draw g (fillValues g n k s)).1) := by
  induction n generalizing k s with
  | zero => simp only [fillValues, doubleDraw, Nat.add_zero]
  | succ n ih =>
    rw [fillValues, ih, fillValues, Nat.add_right_comm, Nat.add_assoc]

/-- Filling the table is drawing all its entries and then storing them: no draw sees a store before it. -/
theorem fillValues_eq_storeValues (g : Gsel) {n : Nat} (s : State) (hn : n ≤ 256) :
    fillValues g n 0 s = (drawState g n s).storeValues (drawnDoubles g s) n := by
  induction n with
  | zero => rfl
  | succ n ih =>
    rw [fillValues_succ, ih (by omega), draw_storeValues _ _ _ (by omega), Nat.zero_add, State.storeValues,
      drawState_succ, drawnDoubles, drawOut]

theorem value_setValueReady (s : State) (k : Nat) : s.setValueReady.value k = s.value k := rfl

theorem byteAt_setValueReady (s : State) (a : Nat) : s.setValueReady.byteAt a = s.byteAt a := rfl

theorem setValueReady_registers {s t : State} (h : t = { s with mem := t.mem }) :
    t.setValueReady = { s with mem := t.setValueReady.mem, valueReady := true } :=
  congrArg State.setValueReady h

/-- The table that VALUE_BUILD stores over the state after its 256 draws. -/
theorem exec_valueBuild {g : Gsel} {s : State} (hs : s.idle) (hr : s.drawReady g) :
    exec (.valueBuild g) s =
      .next ((drawState g 256 s).storeValues (drawnDoubles g s) 256).setValueReady := by
  refine exec_completes hs (firstFailure_seedCheck hr []) ?_
  simp only [meaningOf, valueBuildMeaning, Config.permN]
  rw [fillValues_eq_storeValues g s le_rfl]

/-- Settles O32: the command leaves the table stored over the state after 256 draws (`exec_valueBuild`); what the stores and
the draws keep gives the rest. -/
theorem valueBuildFillsTheTableInIndexOrder : Obligations.ValueBuildFillsTheTableInIndexOrder := by
  unfold Obligations.ValueBuildFillsTheTableInIndexOrder
  intro g s hs hr
  have hbytes (a : Nat) (ha : a < 0x1000 ∨ 0x1800 ≤ a) :
      ((drawState g 256 s).storeValues (drawnDoubles g s) 256).setValueReady.byteAt a = (drawState g 256 s).byteAt a :=
    (byteAt_setValueReady _ a).trans (byteAt_storeValues_outside _ _ ha)
  exact ⟨_, exec_valueBuild hs hr,
    fun k hk => (value_setValueReady _ k).trans (value_storeValues (drawnDoubles g s) _ hk), hbytes,
    fun a ha => (hbytes a (ha.imp_right And.left)).trans (drawState_byteAt_below g 256 s (by omega)),
    setValueReady_registers (storeValues_registers _ 256 _)⟩

end Sys2Proof.Machine
end

section
/-! The coordinate split (rule R176). The floor of a finite double is a double: a double of at least `2^52` is whole, and
the floor of a smaller one has at most 53 bits. So `f64(floor(d))` rounds nothing, and the one subtraction is rounded
between the doubles 0.0 and 1.0, which bound the exact difference. -/

namespace Sys2Proof.Machine

/-! ## Rounding keeps to a range whose ends are doubles (rule R194) -/

theorem f64Units_lt_overflow {d : DWord} (h : f64IsFinite d = true) : f64Units d < (2 ^ 54 - 1) * 2 ^ 2044 := by
  have hmag : f64Mag d < f64InfMag := of_decide_eq_true h
  have hle : magUnits (f64Mag d) ≤ magUnits (f64InfMag - 1) := magUnits_strictMono.monotone (Nat.le_sub_one_of_lt hmag)
  have hlt : magUnits (f64InfMag - 1) < magUnits f64InfMag := magUnits_strictMono (by decide)
  have hmid := magUnits_overflow_midpoint
  rw [f64Units_eq_magUnits]
  omega

theorem natAbs_f64Scaled (d : DWord) : (f64Scaled d).natAbs = f64Units d := natAbs_withSign _ _

/-- A whole number of units between two finite doubles is rounded to a finite double between them. -/
theorem RoundedNearestEven.between {r a b : DWord} {num : Int} (h : RoundedNearestEven r num 1)
    (ha : f64IsFinite a = true) (hb : f64IsFinite b = true) (hlo : f64Scaled a ≤ num) (hhi : num ≤ f64Scaled b) :
    f64IsFinite r = true ∧ f64Scaled a ≤ f64Scaled r ∧ f64Scaled r ≤ f64Scaled b := by
  rcases h with ⟨hfin, -, hnear⟩ | ⟨-, hover, -⟩
  · have hna := (hnear a ha).1
    have hnb := (hnear b hb).1
    exact ⟨hfin, by omega, by omega⟩
  · have hla := f64Units_lt_overflow ha
    have hlb := f64Units_lt_overflow hb
    rw [← natAbs_f64Scaled] at hla hlb
    omega

/-- The value of a double is rounded to itself. -/
theorem RoundedNearestEven.exact {r a : DWord} {num : Int} (h : RoundedNearestEven r num 1)
    (ha : f64IsFinite a = true) (hnum : f64Scaled a = num) : f64IsFinite r = true ∧ f64Scaled r = num := by
  obtain ⟨hfin, hlo, hhi⟩ := h.between ha ha hnum.le hnum.ge
  exact ⟨hfin, by omega⟩

theorem roundedNearestEven_f64OfInt (n : Int) : RoundedNearestEven (f64OfInt n) (n * (f64One : Int)) 1 := by
  have h := roundedNearestEven_pack (decide (n < 0)) (n := n.natAbs * f64One) Nat.one_pos
  rwa [← withSign_mul_natCast, withSign_decide_lt_zero] at h

/-! ## The floor of a finite double is a double -/

/-- A whole number of at most 53 bits is the value of a finite magnitude pattern: its bits, moved up to the hidden bit. -/
theorem exists_magUnits_eq_mul_one {k : Nat} (hk : k < 2 ^ 53) : ∃ M < f64InfMag, magUnits M = k * f64One := by
  by_cases h0 : k = 0
  · exact ⟨0, by decide, by rw [h0, magUnits_zero, Nat.zero_mul]⟩
  · have hlog : k.log2 < 53 := (Nat.log2_lt h0).2 hk
    obtain ⟨j, hj⟩ : ∃ j, k.log2 + j = 52 := ⟨52 - k.log2, by omega⟩
    have hlow : 2 ^ 52 ≤ k * 2 ^ j :=
      calc 2 ^ 52 = 2 ^ k.log2 * 2 ^ j := by rw [← Nat.pow_add, hj]
        _ ≤ k * 2 ^ j := Nat.mul_le_mul_right _ (Nat.log2_self_le h0)
    have hhigh : k * 2 ^ j < 2 ^ 53 :=
      calc k * 2 ^ j < 2 ^ (k.log2 + 1) * 2 ^ j := Nat.mul_lt_mul_of_pos_right Nat.lt_log2_self (Nat.two_pow_pos j)
        _ = 2 ^ 53 := by rw [← Nat.pow_add, show k.log2 + 1 + j = 53 by omega]
    refine ⟨(1022 + k.log2) * 2 ^ 52 + k * 2 ^ j, by unfold f64InfMag; omega, ?_⟩
    have hone : 2 ^ j * 2 ^ (1022 + k.log2) = f64One := by
      rw [← Nat.pow_add]
      exact congrArg (2 ^ ·) (show j + (1022 + k.log2) = 1074 by omega)
    rw [magUnits_shifted hhigh.le (.inr hlow), Nat.mul_assoc, hone]

theorem exists_double_of_int {n : Int} (hn : n.natAbs < 2 ^ 53) :
    ∃ a, f64IsFinite a = true ∧ f64Scaled a = n * (f64One : Int) := by
  obtain ⟨M, hM, hval⟩ := exists_magUnits_eq_mul_one hn
  have hlt : M < 2 ^ 63 := hM.trans (by decide)
  refine ⟨f64Pack (decide (n < 0)) M, ?_, ?_⟩
  · rw [f64IsFinite, f64Mag_pack _ hlt]
    exact decide_eq_true hM
  · rw [f64Scaled_eq_withSign, f64Mag_pack _ hlt, f64Neg_pack _ hlt, hval, ← withSign_mul_natCast,
      withSign_decide_lt_zero]

/-- A magnitude of at least `2^52` is whole: its 53 bits lie at or above the place of 1.0. -/
theorem f64One_dvd_magUnits {m : Nat} (h : 2 ^ 52 * f64One ≤ magUnits m) : f64One ∣ magUnits m := by
  unfold magUnits at *
  by_cases hsub : m / 2 ^ 52 = 0
  · have hone := f64One_pos
    rw [if_pos hsub] at h
    omega
  · rw [if_neg hsub] at h ⊢
    refine Dvd.dvd.mul_left (pow_dvd_pow 2 ?_) _
    by_contra hexp
    have hpow : 2 * 2 ^ (m / 2 ^ 52 - 1) ≤ f64One :=
      calc 2 * 2 ^ (m / 2 ^ 52 - 1) = 2 ^ (m / 2 ^ 52 - 1 + 1) := Nat.pow_succ'.symm
        _ ≤ f64One := pow_le_pow_right₀ one_le_two (show m / 2 ^ 52 - 1 + 1 ≤ 1074 by omega)
    have hfrac : (2 ^ 52 + m % 2 ^ 52) * 2 ^ (m / 2 ^ 52 - 1) < 2 ^ 53 * 2 ^ (m / 2 ^ 52 - 1) :=
      Nat.mul_lt_mul_of_pos_right (by omega) (Nat.two_pow_pos _)
    omega

theorem f64Floor_mul_le (d : DWord) : f64Floor d * (f64One : Int) ≤ f64Scaled d :=
  Int.ediv_mul_le _ (Int.natCast_ne_zero.2 f64One_pos.ne')

theorem lt_f64Floor_succ_mul (d : DWord) : f64Scaled d < (f64Floor d + 1) * (f64One : Int) :=
  Int.lt_ediv_add_one_mul_self _ (Int.natCast_pos.2 f64One_pos)

theorem natAbs_f64Floor_lt {d : DWord} (h : f64Units d < 2 ^ 52 * f64One) : (f64Floor d).natAbs < 2 ^ 53 := by
  have hone : (0 : Int) < f64One := Int.natCast_pos.2 f64One_pos
  rw [← natAbs_f64Scaled] at h
  have hlow : -2 ^ 52 ≤ f64Floor d := (Int.le_ediv_iff_mul_le hone).2 (by omega)
  have hhigh : f64Floor d < 2 ^ 52 := (Int.ediv_lt_iff_lt_mul hone).2 (by omega)
  omega

/-- The floor of a finite double is the value of a finite double. -/
theorem exists_double_of_floor {d : DWord} (hd : f64IsFinite d = true) :
    ∃ a, f64IsFinite a = true ∧ f64Scaled a = f64Floor d * (f64One : Int) := by
  rcases Nat.lt_or_ge (f64Units d) (2 ^ 52 * f64One) with hsmall | hlarge
  · exact exists_double_of_int (natAbs_f64Floor_lt hsmall)
  · have hdvd : (f64One : Int) ∣ f64Scaled d := by
      rw [← Int.dvd_natAbs, natAbs_f64Scaled]
      exact Int.natCast_dvd_natCast.2 (f64One_dvd_magUnits hlarge)
    exact ⟨d, hd, (Int.ediv_mul_cancel hdvd).symm⟩

theorem f64OfInt_floor_exact {d : DWord} (hd : f64IsFinite d = true) :
    f64IsFinite (f64OfInt (f64Floor d)) = true ∧ f64Scaled (f64OfInt (f64Floor d)) = f64Floor d * (f64One : Int) := by
  obtain ⟨a, ha, hval⟩ := exists_double_of_floor hd
  exact (roundedNearestEven_f64OfInt _).exact ha hval

/-! ## The fraction -/

theorem f64Scaled_zero : f64Scaled f64Zero = 0 := by decide

theorem f64Scaled_one : f64Scaled f64OneD = (f64One : Int) := by decide +kernel

/-- The exact difference lies in `[0, 1)`, so the rounded one lies in `[0, 1]` (rule R176). -/
theorem splitCoord_frac_in_unit {d : DWord} (hd : f64IsFinite d = true) :
    f64IsFinite (splitCoord d).frac = true ∧ 0 ≤ f64Scaled (splitCoord d).frac ∧
    f64Scaled (splitCoord d).frac ≤ (f64One : Int) := by
  obtain ⟨hfin, hval⟩ := f64OfInt_floor_exact hd
  have hround := roundedNearestEven_fsub hd hfin
  have hle := f64Floor_mul_le d
  have hlt := lt_f64Floor_succ_mul d
  rw [Int.add_mul, Int.one_mul] at hlt
  rw [hval] at hround
  have h := hround.between (a := f64Zero) (b := f64OneD) (by decide) (by decide) (by rw [f64Scaled_zero]; omega)
    (by rw [f64Scaled_one]; omega)
  rwa [f64Scaled_zero, f64Scaled_one] at h

/-- Settles O35: the floor is a quotient, its double is exact (`f64OfInt_floor_exact`), and the rounded difference stays
between 0 and 1 (`splitCoord_frac_in_unit`). -/
theorem splitTakesTheFloor : Obligations.SplitTakesTheFloor := by
  unfold Obligations.SplitTakesTheFloor
  intro d hd
  obtain ⟨hfin, hval⟩ := f64OfInt_floor_exact hd
  obtain ⟨hfrac, hlow, hhigh⟩ := splitCoord_frac_in_unit hd
  have hcell : (splitCoord d).cell < 256 := Int.emod_lt_of_pos _ (by decide)
  exact ⟨f64Floor d, rfl, f64Floor_mul_le d, lt_f64Floor_succ_mul d, hval, hfin, rfl, Int.emod_nonneg _ (by decide),
    Int.le_of_lt_add_one hcell, hlow, hhigh, hfrac⟩

end Sys2Proof.Machine
end

section
/-! The lattice commands (file 43_lattice.md): their checks by readiness and finite coordinates (rules R170, R184), then
each command as its lookup or sample on the operand registers. -/

namespace Sys2Proof.Machine

/-! ## Operands and checks -/

theorem operands_aS32 (s : State) : s.operands.aS32 = s.opaLo.toInt := congrArg BitVec.toInt (operands_aU32 s)

theorem operands_bS32 (s : State) : s.operands.bS32 = s.opbLo.toInt := congrArg BitVec.toInt (operands_bU32 s)

/-- The error that every rejected command but SPLINE records: its fallback changes nothing (rules R221, R222). -/
theorem exec_rejected_without_fallback {i : Instr} {s : State} {k : ErrorCode} (hs : s.idle)
    (hid : (meaningOf i).fallback = id) (hk : (meaningOf i).check s = some k) :
    exec i s = .next { s with err := true, ecode := if s.err then s.ecode else k.code } :=
  calc exec i s = .next (s.reject (meaningOf i) k) := exec_rejected hs hk
    _ = .next (s.recordError k) := by rw [State.reject, hid, id_eq]

theorem firstFailure_of_fails {p : Bool × ErrorCode} (h : p.1 = true) (rest : List (Bool × ErrorCode)) :
    firstFailure (p :: rest) = some p.2 := if_pos h

theorem firstFailure_of_passes {p : Bool × ErrorCode} (h : p.1 = false) (rest : List (Bool × ErrorCode)) :
    firstFailure (p :: rest) = firstFailure rest := if_neg (Bool.not_eq_true _ ▸ h)

theorem tablesCheck_fails_iff (s : State) :
    s.tablesCheck.1 = true ↔ s.permReady = false ∨ s.valueReady = false := by simp [State.tablesCheck]

theorem tablesCheck_passes {s : State} (hp : s.permReady = true) (hv : s.valueReady = true) :
    s.tablesCheck.1 = false := by simp [State.tablesCheck, hp, hv]

theorem coordinateCheck_fails_iff (s : State) :
    s.coordinateCheck.1 = true ↔
      f64IsFinite (s.opaHi ++ s.opaLo) = false ∨ f64IsFinite (s.opbHi ++ s.opbLo) = false := by
  simp [State.coordinateCheck, Operands.aF64, Operands.bF64, State.operands]

theorem coordinateCheck_passes {s : State} (hx : f64IsFinite (s.opaHi ++ s.opaLo) = true)
    (hy : f64IsFinite (s.opbHi ++ s.opbLo) = true) : s.coordinateCheck.1 = false := by
  simp [State.coordinateCheck, Operands.aF64, Operands.bF64, State.operands, hx, hy]

/-! ## HASH and LATTICE_VALUE (rules R172, R174) -/

theorem hash_run (s : State) :
    (meaningOf .hash).run s.operands s = some (s.setResU32 (s.lhash s.opaLo.toInt s.opbLo.toInt)) := by
  rw [← operands_aS32, ← operands_bS32]
  rfl

theorem latticeValue_run (s : State) :
    (meaningOf .latticeValue).run s.operands s = some (s.setResF64 (s.lval s.opaLo.toInt s.opbLo.toInt)) := by
  rw [← operands_aS32, ← operands_bS32]
  rfl

/-- Settles O33: a table that is not ready fails the check, and otherwise the run writes `lhash` or `lval` of the operands,
whose definitions are the two lookups (rules R171, R175). -/
theorem hashAndLatticeValueLookUpTheTables : Obligations.HashAndLatticeValueLookUpTheTables := by
  unfold Obligations.HashAndLatticeValueLookUpTheTables
  refine fun s hs => ⟨fun hp => ?_, fun hp => ?_, fun hnot => ?_, fun hp hv => ?_⟩
  · have hfails : s.permCheck.1 = true := congrArg not hp
    have hcheck : (meaningOf .hash).check s = some .notReady := firstFailure_of_fails hfails []
    exact exec_rejected_without_fallback hs rfl hcheck
  · have hpasses : s.permCheck.1 = false := congrArg not hp
    exact exec_completes hs (firstFailure_of_passes hpasses []) (hash_run s)
  · have hcheck : (meaningOf .latticeValue).check s = some .notReady :=
      firstFailure_of_fails ((tablesCheck_fails_iff s).2 hnot) []
    exact exec_rejected_without_fallback hs rfl hcheck
  · exact exec_completes hs (firstFailure_of_passes (tablesCheck_passes hp hv) []) (latticeValue_run s)

/-! ## The sample commands (rules R178, R181) -/

/-- The two sample commands have one check: NOT_READY, then DOMAIN (rules R178, R181, R184). -/
def State.sampleCheck (s : State) : Option ErrorCode := firstFailure [s.tablesCheck, s.coordinateCheck]

theorem sampleBilinear_check (s : State) : (meaningOf .sampleBilinear).check s = s.sampleCheck := rfl

theorem sampleBicubic_check (s : State) : (meaningOf .sampleBicubic).check s = s.sampleCheck := rfl

theorem sampleCheck_notReady {s : State} (h : s.permReady = false ∨ s.valueReady = false) :
    s.sampleCheck = some .notReady := firstFailure_of_fails ((tablesCheck_fails_iff s).2 h) _

section ready
variable {s : State} (hp : s.permReady = true) (hv : s.valueReady = true)
include hp hv

theorem sampleCheck_domain
    (h : f64IsFinite (s.opaHi ++ s.opaLo) = false ∨ f64IsFinite (s.opbHi ++ s.opbLo) = false) :
    s.sampleCheck = some .domain :=
  (firstFailure_of_passes (tablesCheck_passes hp hv) _).trans
    (firstFailure_of_fails ((coordinateCheck_fails_iff s).2 h) [])

theorem sampleCheck_passes (hx : f64IsFinite (s.opaHi ++ s.opaLo) = true)
    (hy : f64IsFinite (s.opbHi ++ s.opbLo) = true) : s.sampleCheck = none :=
  (firstFailure_of_passes (tablesCheck_passes hp hv) _).trans (firstFailure_of_passes (coordinateCheck_passes hx hy) [])

end ready

theorem exec_samples_rejected {s : State} {k : ErrorCode} (hs : s.idle) (h : s.sampleCheck = some k) :
    exec .sampleBilinear s = .next { s with err := true, ecode := if s.err then s.ecode else k.code } ∧
    exec .sampleBicubic s = .next { s with err := true, ecode := if s.err then s.ecode else k.code } :=
  ⟨exec_rejected_without_fallback hs rfl ((sampleBilinear_check s).trans h),
    exec_rejected_without_fallback hs rfl ((sampleBicubic_check s).trans h)⟩

/-- The rows of the 4x4 neighbourhood counted from the first one, `v0 - 1` (rule R182). -/
theorem sampleBicubic_eq_rows (s : State) (x y : DWord) :
    s.sampleBicubic x y =
      spline4 (splitCoord y).frac (s.bicubicRow (splitCoord x) ((splitCoord y).cell - 1 + 0))
        (s.bicubicRow (splitCoord x) ((splitCoord y).cell - 1 + 1))
        (s.bicubicRow (splitCoord x) ((splitCoord y).cell - 1 + 2))
        (s.bicubicRow (splitCoord x) ((splitCoord y).cell - 1 + 3)) := by
  generalize hv : splitCoord y = v
  rw [show v.cell - 1 + 0 = v.cell - 1 by omega, show v.cell - 1 + 1 = v.cell by omega,
    show v.cell - 1 + 2 = v.cell + 1 by omega, show v.cell - 1 + 3 = v.cell + 2 by omega, ← hv]
  rfl

theorem sampleBicubic_run (s : State) :
    (meaningOf .sampleBicubic).run s.operands s =
      some (s.setResF64 (s.sampleBicubic (s.opaHi ++ s.opaLo) (s.opbHi ++ s.opbLo))) := rfl

/-- Settles O36: the two checks in their order (`sampleCheck`), then the sample written to `RES`: the bilinear one is the
three interpolations by definition, the bicubic one the splines of `sampleBicubic_eq_rows`. -/
theorem samplesInterpolateTheNeighbourhood : Obligations.SamplesInterpolateTheNeighbourhood := by
  unfold Obligations.SamplesInterpolateTheNeighbourhood
  refine fun s hs => ⟨fun hnot => ?_, fun hp hv hinf => ?_, fun hp hv hx hy => ?_⟩
  · exact exec_samples_rejected hs (sampleCheck_notReady hnot)
  · exact exec_samples_rejected hs (sampleCheck_domain hp hv hinf)
  · have hcheck := sampleCheck_passes hp hv hx hy
    refine ⟨exec_completes hs ((sampleBilinear_check s).trans hcheck) rfl,
      exec_completes hs ((sampleBicubic_check s).trans hcheck) ?_⟩
    rw [sampleBicubic_run, sampleBicubic_eq_rows]
    rfl

end Sys2Proof.Machine
end

section
/-! The interpolation commands (file 44_interp.md): LERP is `flerp` of its operands (rule R191), SPLINE its two checks and
then `spline`, whose scaling and span are put in the integers of rule R196. -/

namespace Sys2Proof.Machine

/-! ## LERP (rules R190, R191) -/

theorem exec_lerp {s : State} (hs : s.idle) :
    exec .lerp s =
      .next (s.setResF64 (flerp (s.opaHi ++ s.opaLo) (s.opbHi ++ s.opbLo) (s.opcHi ++ s.opcLo))) :=
  exec_completes hs rfl rfl

/-- Settles O40: LERP has no check, and its run writes `flerp` of the operands, whose definition is the three operations. -/
theorem lerpIsThreeRoundedOperations : Obligations.LerpIsThreeRoundedOperations := by
  unfold Obligations.LerpIsThreeRoundedOperations
  exact fun s hs => exec_lerp hs

/-! ## The checks of SPLINE and its fallback (rule R197) -/

theorem spline_check (s : State) :
    (meaningOf .spline).check s =
      if s.kcount.toNat < 4 ∨ 64 < s.kcount.toNat then some .param
      else if f64IsNaN (s.opaHi ++ s.opaLo) = true then some .domain
      else none := by
  have hcount : (decide (s.kcount.toNat < 4) || decide (64 < s.kcount.toNat)) =
      decide (s.kcount.toNat < 4 ∨ 64 < s.kcount.toNat) := (Bool.decide_or _ _).symm
  change firstFailure [(decide (s.kcount.toNat < 4) || decide (64 < s.kcount.toNat), .param),
    (f64IsNaN (s.opaHi ++ s.opaLo), .domain)] = _
  rw [hcount]
  simp only [firstFailure, decide_eq_true_eq]

/-- SPLINE's fallback is +0.0 in `RES`; the error is recorded after it (rules R197, R222). -/
theorem exec_spline_rejected {s : State} {k : ErrorCode} (hs : s.idle) (hk : (meaningOf .spline).check s = some k) :
    exec .spline s =
      .next { s with resLo := 0#32, resHi := 0#32, err := true, ecode := if s.err then s.ecode else k.code } :=
  exec_rejected hs hk

theorem exec_spline {s : State} (hs : s.idle) (h4 : 4 ≤ s.kcount.toNat) (h64 : s.kcount.toNat ≤ 64)
    (hx : f64IsNaN (s.opaHi ++ s.opaLo) = false) :
    exec .spline s = .next (s.setResF64 (s.spline (s.opaHi ++ s.opaLo) s.kcount.toNat)) := by
  refine exec_completes hs ?_ rfl
  rw [spline_check, if_neg (by omega), if_neg (by simp [hx])]

/-! ## The scaling and the span (rule R196) -/

theorem splineScaled_eq (x : DWord) {n : Nat} (h4 : 4 ≤ n) :
    splineScaled x n = fmul (splineClamp x) (f64OfInt ((n : Int) - 3)) := by
  rw [splineScaled, show ((n - 3 : Nat) : Int) = (n : Int) - 3 by omega]

/-- The limit to the last span, as a comparison with the number of spans. -/
theorem splineSpan_eq (x : DWord) {n : Nat} (h4 : 4 ≤ n) :
    splineSpan x n =
      if (n : Int) - 3 ≤ f64Floor (splineScaled x n) then n - 4 else (f64Floor (splineScaled x n)).toNat := by
  unfold splineSpan
  split <;> omega

theorem splineSpan_add_three_lt (x : DWord) {n : Nat} (h4 : 4 ≤ n) : splineSpan x n + 3 < n := by
  have hle : splineSpan x n ≤ n - 4 := Nat.min_le_right _ _
  omega

/-- Settles O41: `spline4` is the written-out basis and Horner's rule by definition; the checks in their order
(`spline_check`); and the run's `spline` with the scaling and the span of `splineScaled_eq` and `splineSpan_eq`. -/
theorem splineEvaluatesTheSelectedSpan : Obligations.SplineEvaluatesTheSelectedSpan := by
  unfold Obligations.SplineEvaluatesTheSelectedSpan
  refine ⟨fun t k0 k1 k2 k3 => rfl, fun s hs => ?_⟩
  intro n x xc sc span pos v
  refine ⟨fun hcount => ?_, fun h4 h64 hnan => ?_, fun h4 h64 hx => ?_⟩
  · exact exec_spline_rejected hs ((spline_check s).trans (if_pos hcount))
  · have hcount : ¬ (n < 4 ∨ 64 < n) := by omega
    exact exec_spline_rejected hs (((spline_check s).trans (if_neg hcount)).trans (if_pos hnan))
  · have hsc : sc = splineScaled x n := (splineScaled_eq x h4).symm
    have hspan : span = splineSpan x n := by rw [splineSpan_eq x h4, ← hsc]
    have hpos : pos = splinePosition x n := by rw [splinePosition, ← hspan, ← hsc]
    have hv : v = s.spline x n := by
      simp only [State.spline, ← hspan, ← hpos]
      rfl
    refine ⟨?_, hspan ▸ splineSpan_add_three_lt x h4⟩
    rw [exec_spline hs h4 h64 hx, hv]
    rfl

end Sys2Proof.Machine
end

section
/-! NaN results (rule R193): a NaN operand and each invalid operation give the canonical quiet NaN, and no operation gives
another. Every double result of LERP, SPLINE, DOUBLE_AFFINE and the samples is a sum, so the same holds of it. -/

namespace Sys2Proof.Machine

theorem f64IsNaN_iff_fields (d : DWord) :
    f64IsNaN d = true ↔ d.extractLsb' 52 11 = 0x7FF#11 ∧ d.extractLsb' 0 52 ≠ 0#52 := by
  have he := f64Mag_div_eq_exponent d
  have hf := f64Mag_mod_eq_fraction d
  have hlt := (d.extractLsb' 52 11).isLt
  rw [f64IsNaN, decide_eq_true_eq, f64InfMag, ne_eq, ← BitVec.toNat_inj, ← BitVec.toNat_inj, ← he, ← hf,
    BitVec.toNat_ofNat, BitVec.toNat_ofNat]
  omega

theorem f64IsNaN_nan : f64IsNaN f64NaN = true := by decide

/-! ## A NaN operand -/

section operand
variable {a b : DWord}

theorem fadd_of_nan (h : f64IsNaN a = true ∨ f64IsNaN b = true) : fadd a b = f64NaN := if_pos (by simpa using h)

theorem fsub_of_nan (h : f64IsNaN a = true ∨ f64IsNaN b = true) : fsub a b = f64NaN :=
  fadd_of_nan (by rwa [f64IsNaN_negate])

theorem fmul_of_nan (h : f64IsNaN a = true ∨ f64IsNaN b = true) : fmul a b = f64NaN := if_pos (by simpa using h)

theorem fdiv_of_nan (h : f64IsNaN a = true ∨ f64IsNaN b = true) : fdiv a b = f64NaN := if_pos (by simpa using h)

end operand

@[simp] theorem fadd_nan_left (b : DWord) : fadd f64NaN b = f64NaN := fadd_of_nan (.inl f64IsNaN_nan)

@[simp] theorem fadd_nan_right (a : DWord) : fadd a f64NaN = f64NaN := fadd_of_nan (.inr f64IsNaN_nan)

@[simp] theorem fmul_nan_left (b : DWord) : fmul f64NaN b = f64NaN := fmul_of_nan (.inl f64IsNaN_nan)

@[simp] theorem fmul_nan_right (a : DWord) : fmul a f64NaN = f64NaN := fmul_of_nan (.inr f64IsNaN_nan)

/-! ## The invalid operations (mark G1) -/

theorem fmul_comm (a b : DWord) : fmul a b = fmul b a := by
  simp only [fmul, Bool.or_comm, Nat.mul_comm, bne_comm]

section invalid
variable {a b : DWord}

theorem fadd_inf_opposite (ha : f64IsInf a = true) (hb : f64IsInf b = true) (h : f64Neg a ≠ f64Neg b) :
    fadd a b = f64NaN := by
  simp [fadd, ha, hb, h]

theorem fsub_inf_same (ha : f64IsInf a = true) (hb : f64IsInf b = true) (h : f64Neg a = f64Neg b) :
    fsub a b = f64NaN :=
  fadd_inf_opposite ha (by rwa [f64IsInf_negate]) (by simp [h])

theorem fdiv_inf_inf (ha : f64IsInf a = true) (hb : f64IsInf b = true) : fdiv a b = f64NaN := by
  simp [fdiv, ha, hb]

theorem fdiv_zero_zero (ha : f64Mag a = 0) (hb : f64Mag b = 0) : fdiv a b = f64NaN := by
  have hinf : (0 == f64InfMag) = false := by decide
  simp [fdiv, f64IsInf, ha, hb, hinf]

theorem fmul_inf_zero (ha : f64IsInf a = true) (hb : f64Mag b = 0) : fmul a b = f64NaN := by
  simp [fmul, ha, hb]

theorem fmul_zero_of_not_finite (ha : f64Mag a = 0) (hb : f64IsFinite b = false) : fmul a b = f64NaN := by
  rcases f64_not_finite hb with hinf | hnan
  · rw [fmul_comm, fmul_inf_zero hinf ha]
  · exact fmul_of_nan (.inr hnan)

end invalid

theorem f64Mag_of_zero {d : DWord} (h : d = 0x0000000000000000#64 ∨ d = 0x8000000000000000#64) : f64Mag d = 0 := by
  rcases h with rfl | rfl <;> decide

/-! ## No other NaN -/

/-- A result that is the canonical quiet NaN whenever it is a NaN (rule R193). -/
def NaNIsCanonical (d : DWord) : Prop := f64IsNaN d = true → d = f64NaN

theorem nanIsCanonical_nan : NaNIsCanonical f64NaN := fun _ => rfl

theorem nanIsCanonical_of_inf {d : DWord} (h : f64IsInf d = true) : NaNIsCanonical d := fun hnan => by
  rw [f64IsNaN_of_inf h] at hnan
  cases hnan

/-- A packed pattern of at most the magnitude of infinity is no NaN. -/
theorem nanIsCanonical_pack (neg : Bool) {m : Nat} (h : m ≤ f64InfMag) : NaNIsCanonical (f64Pack neg m) := fun hnan => by
  rw [f64IsNaN, f64Mag_pack neg (h.trans_lt (by decide)), decide_eq_true_eq] at hnan
  omega

theorem fadd_nanIsCanonical (a b : DWord) : NaNIsCanonical (fadd a b) := by
  simp only [fadd]
  split
  · exact nanIsCanonical_nan
  · split
    case isTrue ha =>
      split
      · exact nanIsCanonical_nan
      · exact nanIsCanonical_of_inf ha
    case isFalse =>
      split
      case isTrue hb => exact nanIsCanonical_of_inf hb
      case isFalse =>
        split
        · exact nanIsCanonical_pack _ (Nat.zero_le _)
        · exact nanIsCanonical_pack _ (f64RoundMag_le _ _)

theorem fmul_nanIsCanonical (a b : DWord) : NaNIsCanonical (fmul a b) := by
  simp only [fmul]
  split
  · exact nanIsCanonical_nan
  · split
    · split
      · exact nanIsCanonical_nan
      · exact nanIsCanonical_pack _ (Nat.le_refl _)
    · exact nanIsCanonical_pack _ (f64RoundMag_le _ _)

theorem fdiv_nanIsCanonical (a b : DWord) : NaNIsCanonical (fdiv a b) := by
  simp only [fdiv]
  split
  · exact nanIsCanonical_nan
  · split
    · split
      · exact nanIsCanonical_nan
      · exact nanIsCanonical_pack _ (Nat.le_refl _)
    · split
      · exact nanIsCanonical_pack _ (Nat.zero_le _)
      · split
        · split
          · exact nanIsCanonical_nan
          · exact nanIsCanonical_pack _ (Nat.le_refl _)
        · exact nanIsCanonical_pack _ (f64RoundMag_le _ _)

/-! ## The commands -/

theorem flerp_nanIsCanonical (a b f : DWord) : NaNIsCanonical (flerp a b f) := fadd_nanIsCanonical _ _

theorem spline4_nanIsCanonical (t k0 k1 k2 k3 : DWord) : NaNIsCanonical (spline4 t k0 k1 k2 k3) :=
  fadd_nanIsCanonical _ _

/-- The commands whose result is a double computed by `lerp` or `spline4` (rules R144, R178, R181, R191, R197). -/
def Interpolates (i : Instr) : Prop :=
  i = .lerp ∨ i = .spline ∨ (∃ g, i = .doubleAffine g) ∨ i = .sampleBilinear ∨ i = .sampleBicubic

theorem Interpolates.run_nanIsCanonical {i : Instr} (hi : Interpolates i) (o : Operands) (s : State) :
    ∃ u d, (meaningOf i).run o s = some (State.setResF64 u d) ∧ NaNIsCanonical d := by
  rcases hi with rfl | rfl | ⟨g, rfl⟩ | rfl | rfl
  · exact ⟨_, _, rfl, flerp_nanIsCanonical _ _ _⟩
  · exact ⟨_, _, rfl, spline4_nanIsCanonical _ _ _ _ _⟩
  · exact ⟨_, _, doubleAffine_run g o s, flerp_nanIsCanonical _ _ _⟩
  · exact ⟨_, _, rfl, flerp_nanIsCanonical _ _ _⟩
  · exact ⟨_, _, rfl, spline4_nanIsCanonical _ _ _ _ _⟩

theorem Interpolates.res_nanIsCanonical {i : Instr} (hi : Interpolates i) {s t : State} (hs : s.idle)
    (hk : (meaningOf i).check s = none) (h : exec i s = .next t) : NaNIsCanonical t.res := by
  obtain ⟨u, d, hrun, hd⟩ := hi.run_nanIsCanonical s.operands s
  rw [exec_completes hs hk hrun] at h
  cases h
  rwa [res_setResF64]

theorem setResF64_nan (s : State) : s.setResF64 f64NaN = { s with resLo := 0#32, resHi := 0x7FF80000#32 } := rfl

/-! ## LERP (rule R192(e)) -/

theorem flerp_of_nan {a b f : DWord} (h : f64IsNaN a = true ∨ f64IsNaN b = true ∨ f64IsNaN f = true) :
    flerp a b f = f64NaN := by
  rw [flerp]
  rcases h with ha | hb | hf
  · exact fadd_of_nan (.inl ha)
  · rw [fsub_of_nan (.inl hb), fmul_nan_right, fadd_nan_right]
  · rw [fmul_of_nan (.inl hf), fadd_nan_right]

theorem flerp_equal_infinite_ends {a : DWord} (ha : f64IsInf a = true) (f : DWord) : flerp a a f = f64NaN := by
  rw [flerp, fsub_inf_same ha ha rfl, fmul_nan_right, fadd_nan_right]

/-- Equal finite ends differ by a zero, which an infinite fraction multiplies. -/
theorem flerp_equal_ends_infinite_fraction {a f : DWord} (ha : f64IsFinite a = true) (hf : f64IsInf f = true) :
    flerp a a f = f64NaN := by
  have hzero : f64Mag (fsub a a) = 0 := by
    rw [fsub_exact_zero ha ha (Int.sub_self _), f64Mag_pack _ (by decide)]
  rw [flerp, fmul_inf_zero hf hzero, fadd_nan_right]

theorem flerp_eq_nan {a b f : DWord}
    (h : (f64IsNaN a = true ∨ f64IsNaN b = true ∨ f64IsNaN f = true) ∨ (f64IsInf a = true ∧ b = a) ∨
      (f64IsFinite a = true ∧ b = a ∧ f64IsInf f = true)) : flerp a b f = f64NaN := by
  rcases h with hnan | ⟨ha, rfl⟩ | ⟨ha, rfl, hf⟩
  · exact flerp_of_nan hnan
  · exact flerp_equal_infinite_ends ha f
  · exact flerp_equal_ends_infinite_fraction ha hf

/-! ## `spline4` and SPLINE (rule R198(e)) -/

/-- A coefficient with a NaN product is a NaN. -/
theorem coefficient_of_nan_product {r : BasisRow} {k0 k1 k2 k3 : DWord}
    (h : fmul r.m0 k0 = f64NaN ∨ fmul r.m1 k1 = f64NaN ∨ fmul r.m2 k2 = f64NaN ∨ fmul r.m3 k3 = f64NaN) :
    coefficient r k0 k1 k2 k3 = f64NaN := by
  rw [coefficient]
  rcases h with h | h | h | h <;> simp [h]

/-- A zero of the basis meets every knot: one of row `c0` for the knots 0, 2 and 3, one of row `c1` for knot 1. Times an
infinite or NaN knot it is a NaN, and so is the coefficient, and every later step of Horner's rule. -/
theorem spline4_of_not_finite {k0 k1 k2 k3 : DWord} (t : DWord) (h : ∃ k ∈ [k0, k1, k2, k3], f64IsFinite k = false) :
    spline4 t k0 k1 k2 k3 = f64NaN := by
  have hzero : ∀ {k : DWord}, f64IsFinite k = false → fmul 0#64 k = f64NaN := fmul_zero_of_not_finite (by decide)
  have hcoef : coefficient basisC0 k0 k1 k2 k3 = f64NaN ∨ coefficient basisC1 k0 k1 k2 k3 = f64NaN := by
    obtain ⟨k, hmem, hk⟩ := h
    simp only [List.mem_cons, List.not_mem_nil, or_false] at hmem
    rcases hmem with rfl | rfl | rfl | rfl
    · exact .inl (coefficient_of_nan_product (.inl (hzero hk)))
    · exact .inr (coefficient_of_nan_product (.inr (.inl (hzero hk))))
    · exact .inl (coefficient_of_nan_product (.inr (.inr (.inl (hzero hk)))))
    · exact .inl (coefficient_of_nan_product (.inr (.inr (.inr (hzero hk)))))
  rw [spline4]
  rcases hcoef with hc | hc <;> simp [hc]

theorem spline_of_not_finite {s : State} {x : DWord} {n k : Nat} (hlo : splineSpan x n ≤ k)
    (hhi : k ≤ splineSpan x n + 3) (hk : f64IsFinite (s.knot k) = false) : s.spline x n = f64NaN := by
  refine spline4_of_not_finite _ ⟨s.knot k, ?_, hk⟩
  obtain rfl | rfl | rfl | rfl :
      k = splineSpan x n ∨ k = splineSpan x n + 1 ∨ k = splineSpan x n + 2 ∨ k = splineSpan x n + 3 := by omega
  all_goals simp

/-- Settles O39: the NaN operands and the invalid operations one by one, the results by `NaNIsCanonical`, and then LERP and
SPLINE by the step at which the NaN arises. -/
theorem everyNaNResultIsCanonical : Obligations.EveryNaNResultIsCanonical := by
  unfold Obligations.EveryNaNResultIsCanonical
  refine ⟨f64IsNaN_iff_fields, fun a b => ⟨fun h => ?_, fun ha hb => ?_, fun ha hb => ?_, fun ha hb => ?_,
    fadd_nanIsCanonical a b, fadd_nanIsCanonical a _, fmul_nanIsCanonical a b, fdiv_nanIsCanonical a b⟩,
    fun i s t hs hk h hi => Interpolates.res_nanIsCanonical hi hs hk h, fun s hs => ?_,
    fun t k0 k1 k2 k3 => spline4_of_not_finite t, fun s hs => ?_⟩
  · exact ⟨fadd_of_nan h, fsub_of_nan h, fmul_of_nan h, fdiv_of_nan h⟩
  · exact ⟨fadd_inf_opposite ha hb, fsub_inf_same ha hb, fdiv_inf_inf ha hb⟩
  · exact ⟨fmul_inf_zero ha (f64Mag_of_zero hb), (fmul_comm b a).trans (fmul_inf_zero ha (f64Mag_of_zero hb))⟩
  · exact fdiv_zero_zero (f64Mag_of_zero ha) (f64Mag_of_zero hb)
  · intro a b f h
    rw [exec_lerp hs, flerp_eq_nan h, setResF64_nan]
  · intro n x h4 h64 hx ⟨k, hlo, hhi, hk⟩
    rw [exec_spline hs h4 h64 hx, spline_of_not_finite hlo hhi hk, setResF64_nan]

end Sys2Proof.Machine
end

section
/-! The comparison and SPLINE's clamp (rules R194, R196, R198). `flt` orders the doubles by their values; 1.0 times a finite
double is that double, so a parameter clamped to 1.0 is scaled to the number of spans exactly. -/

namespace Sys2Proof.Machine

/-! ## The IEEE comparison (rule R194) -/

theorem f64Order_lt_iff_scaled (a b : DWord) : f64Order a < f64Order b ↔ f64Scaled a < f64Scaled b := by
  have hab := f64Units_lt_iff a b
  have hba := f64Units_lt_iff b a
  have ha := f64Units_zero_iff a
  have hb := f64Units_zero_iff b
  unfold f64Order f64Scaled
  cases f64Neg a <;> cases f64Neg b <;> simp only [if_true, Bool.false_eq_true, if_false] <;> omega

theorem flt_iff (a b : DWord) :
    flt a b = true ↔ f64IsNaN a = false ∧ f64IsNaN b = false ∧ f64Order a < f64Order b := by
  simp [flt, and_assoc]

theorem flt_of_nan {a b : DWord} (h : f64IsNaN a = true ∨ f64IsNaN b = true) : flt a b = false := by
  rcases h with h | h <;> simp [flt, h]

theorem flt_iff_order {a b : DWord} (ha : f64IsNaN a = false) (hb : f64IsNaN b = false) :
    flt a b = true ↔ f64Order a < f64Order b := by
  simp [flt_iff, ha, hb]

theorem flt_finite_iff {a b : DWord} (ha : f64IsFinite a = true) (hb : f64IsFinite b = true) :
    flt a b = true ↔ f64Scaled a < f64Scaled b :=
  (flt_iff_order (f64IsNaN_of_finite ha) (f64IsNaN_of_finite hb)).trans (f64Order_lt_iff_scaled a b)

theorem flt_trans {a b c : DWord} (hab : flt a b = true) (hbc : flt b c = true) : flt a c = true := by
  rw [flt_iff] at *
  obtain ⟨ha, -, hab⟩ := hab
  obtain ⟨-, hc, hbc⟩ := hbc
  exact ⟨ha, hc, Int.lt_trans hab hbc⟩

/-! ## The infinities are the ends of the order -/

/-- A sign and a magnitude other than 0 can be told from the signed number. -/
theorem withSign_eq_iff {p q : Bool} {m n : Nat} (hn : 0 < n) : withSign p m = withSign q n ↔ p = q ∧ m = n := by
  cases p <;> cases q <;> simp [withSign] <;> omega

theorem f64Order_packInf (p : Bool) : f64Order (f64Pack p f64InfMag) = withSign p f64InfMag := by
  simp [f64Order, withSign]

theorem f64Order_eq_inf_iff (p : Bool) (a : DWord) : f64Order a = withSign p f64InfMag ↔ a = f64Pack p f64InfMag := by
  constructor
  · intro h
    obtain ⟨hneg, hmag⟩ := (withSign_eq_iff (by decide)).1 (show withSign (f64Neg a) (f64Mag a) = _ from h)
    rw [← hneg, ← hmag, f64Pack_neg_mag]
  · rintro rfl
    exact f64Order_packInf p

section ends
variable {a : DWord} (ha : f64IsNaN a = false)
include ha

theorem f64Order_bounds : withSign true f64InfMag ≤ f64Order a ∧ f64Order a ≤ withSign false f64InfMag := by
  have hmag : f64Mag a ≤ f64InfMag := Nat.le_of_not_lt (of_decide_eq_false ha)
  unfold f64Order withSign
  cases f64Neg a <;> simp only [if_true, Bool.false_eq_true, if_false] <;> omega

theorem flt_posInf_iff : flt a (f64Pack false f64InfMag) = true ↔ a ≠ f64Pack false f64InfMag := by
  have hle := (f64Order_bounds ha).2
  rw [flt_iff_order ha (f64IsNaN_packInf _), f64Order_packInf, ne_eq, ← f64Order_eq_inf_iff]
  omega

theorem negInf_flt_iff : flt (f64Pack true f64InfMag) a = true ↔ a ≠ f64Pack true f64InfMag := by
  have hle := (f64Order_bounds ha).1
  rw [flt_iff_order (f64IsNaN_packInf _) ha, f64Order_packInf, ne_eq, ← f64Order_eq_inf_iff]
  omega

theorem posInf_not_flt : flt (f64Pack false f64InfMag) a = false := by
  rw [Bool.eq_false_iff, ne_eq, flt_iff_order (f64IsNaN_packInf _) ha, f64Order_packInf]
  exact Int.not_lt.2 (f64Order_bounds ha).2

theorem not_flt_negInf : flt a (f64Pack true f64InfMag) = false := by
  rw [Bool.eq_false_iff, ne_eq, flt_iff_order ha (f64IsNaN_packInf _), f64Order_packInf]
  exact Int.not_lt.2 (f64Order_bounds ha).1

end ends

/-! ## The clamp (rule R196) -/

theorem splineClamp_below {x : DWord} (h : flt x 0#64 = true) : splineClamp x = 0#64 := if_pos h

/-- What is above 1.0 is not below 0.0, so the second comparison decides. -/
theorem splineClamp_above {x : DWord} (h : flt f64OneD x = true) : splineClamp x = f64OneD := by
  have hnot : ¬ flt x f64Zero = true := fun hx => absurd (flt_trans h hx) (by decide)
  rw [splineClamp, if_neg hnot, if_pos h]

theorem splineClamp_zero : splineClamp 0#64 = 0#64 := by decide

theorem splineClamp_one : splineClamp f64OneD = f64OneD := by decide

/-- The parameter enters SPLINE through its clamp alone. -/
theorem spline_of_clamp_eq {x y : DWord} (h : splineClamp x = splineClamp y) (s : State) (n : Nat) :
    s.spline x n = s.spline y n := by
  simp only [State.spline, splinePosition, splineSpan, splineScaled, h]

/-! ## 1.0 times a finite double (rule R194) -/

theorem f64_eq_of_scaled {a b : DWord} (hneg : f64Neg a = f64Neg b) (h : f64Scaled a = f64Scaled b) : a = b := by
  have hunits : magUnits (f64Mag a) = magUnits (f64Mag b) := by
    have := congrArg Int.natAbs h
    rwa [natAbs_f64Scaled, natAbs_f64Scaled] at this
  rw [← f64Pack_neg_mag a, ← f64Pack_neg_mag b, hneg, magUnits_strictMono.injective hunits]

/-- A quotient that is the value of a double is rounded to it. -/
theorem RoundedNearestEven.exact_quotient {r a : DWord} {den : Nat} (hden : 0 < den)
    (h : RoundedNearestEven r (f64Scaled a * den) den) (ha : f64IsFinite a = true) : f64Scaled r = f64Scaled a := by
  rcases h with ⟨-, -, hnear⟩ | ⟨-, hover, -⟩
  · have hle := (hnear a ha).1
    rw [Int.sub_self, Int.natAbs_zero, Nat.le_zero, Int.natAbs_eq_zero, Int.sub_eq_zero] at hle
    exact Int.eq_of_mul_eq_mul_right (Int.natCast_ne_zero.2 hden.ne') hle
  · rw [Int.natAbs_mul, Int.natAbs_natCast, natAbs_f64Scaled] at hover
    exact absurd (Nat.mul_lt_mul_of_pos_right (f64Units_lt_overflow ha) hden) (Nat.not_lt_of_le hover)

theorem fmul_one_left {x : DWord} (hx : f64IsFinite x = true) : fmul f64OneD x = x := by
  have hone : f64IsFinite f64OneD = true := by decide
  have hsign : f64Neg f64OneD = false := by decide
  have hround := roundedNearestEven_fmul hone hx
  rw [f64Scaled_one, Int.mul_comm] at hround
  refine f64_eq_of_scaled ?_ (hround.exact_quotient f64One_pos hx)
  rw [f64Neg_fmul hone hx, hsign, Bool.false_bne]

/-! ## The parameter 1.0 (rule R198(b)) -/

theorem f64OfInt_exact {m : Int} (hm : m.natAbs < 2 ^ 53) :
    f64IsFinite (f64OfInt m) = true ∧ f64Scaled (f64OfInt m) = m * (f64One : Int) := by
  obtain ⟨a, ha, hval⟩ := exists_double_of_int hm
  exact (roundedNearestEven_f64OfInt m).exact ha hval

theorem f64Floor_f64OfInt {m : Int} (hm : m.natAbs < 2 ^ 53) : f64Floor (f64OfInt m) = m := by
  rw [f64Floor, (f64OfInt_exact hm).2]
  exact Int.mul_ediv_cancel _ (Int.natCast_ne_zero.2 f64One_pos.ne')

/-- Two whole numbers one apart differ by exactly 1.0 as doubles. -/
theorem fsub_f64OfInt_succ {m : Int} (hm : m.natAbs < 2 ^ 53) (hm' : (m + 1).natAbs < 2 ^ 53) :
    fsub (f64OfInt (m + 1)) (f64OfInt m) = f64OneD := by
  obtain ⟨hfin, hval⟩ := f64OfInt_exact hm
  obtain ⟨hfin', hval'⟩ := f64OfInt_exact hm'
  have hround := roundedNearestEven_fsub hfin' hfin
  rw [hval, hval', ← Int.sub_mul, show m + 1 - m = 1 by omega, Int.one_mul] at hround
  have hscaled := (hround.exact (a := f64OneD) (by decide) f64Scaled_one).2
  have hpositive : f64Neg (fsub (f64OfInt (m + 1)) (f64OfInt m)) = false :=
    ((withSign_eq_iff f64One_pos).1 (show withSign _ _ = withSign false f64One from hscaled)).1
  exact f64_eq_of_scaled (hpositive.trans (by decide)) (hscaled.trans f64Scaled_one.symm)

section one
variable {n : Nat} (h4 : 4 ≤ n) (h64 : n ≤ 64)
include h4 h64

theorem splineScaled_one : splineScaled f64OneD n = f64OfInt ((n : Int) - 3) := by
  rw [splineScaled_eq _ h4, splineClamp_one, fmul_one_left (f64OfInt_exact (by omega)).1]

theorem splineSpan_one : splineSpan f64OneD n = n - 4 := by
  rw [splineSpan_eq _ h4, splineScaled_one h4 h64, f64Floor_f64OfInt (by omega), if_pos (Int.le_refl _)]

theorem splinePosition_one : splinePosition f64OneD n = f64OneD := by
  have hspans : (n : Int) - 3 = ((n - 4 : Nat) : Int) + 1 := by omega
  rw [splinePosition, splineSpan_one h4 h64, splineScaled_one h4 h64, hspans]
  exact fsub_f64OfInt_succ (by omega) (by omega)

end one

/-- Settles O42: the clamp's two ends (`splineClamp_below`, `splineClamp_above`), the last span at 1.0, and the comparison
on each class of doubles. -/
theorem splineClampsItsParameter : Obligations.SplineClampsItsParameter := by
  unfold Obligations.SplineClampsItsParameter
  have hpos : (0x7FF0000000000000#64 : DWord) = f64Pack false f64InfMag := (f64Pack_infMag false).symm
  have hneg : (0xFFF0000000000000#64 : DWord) = f64Pack true f64InfMag := (f64Pack_infMag true).symm
  refine ⟨fun s n x h4 h64 => ⟨fun h => ?_, fun h => ?_, splineSpan_one h4 h64, splinePosition_one h4 h64⟩,
    by decide, by decide, fun a b => ⟨flt_of_nan, flt_finite_iff, fun ha => ?_⟩⟩
  · exact spline_of_clamp_eq ((splineClamp_below h).trans splineClamp_zero.symm) s n
  · exact spline_of_clamp_eq ((splineClamp_above h).trans splineClamp_one.symm) s n
  · rw [hpos, hneg]
    exact ⟨flt_posInf_iff ha, posInf_not_flt ha, negInf_flt_iff ha, not_flt_negInf ha⟩

end Sys2Proof.Machine
end

section
/-! Host accesses while a command runs (rules R206 to R209, R268, R269). A write of the host records or clears an error and a
read answers a word: ERR, ECODE and the model's own record of the port are all that they change. No run reads those fields
and none changes them, so laying other values of them over the state commutes with every run, and the completion is the
same after any accesses. -/

namespace Sys2Proof.Machine

/-! ## Writes while a command runs (rule R208) -/

/-- Settles O51: `writeWhileBusy` takes the STATUS write apart from every other; a refused access is refused Busy as it is
Idle (`oddAccessesGetABusError`). -/
theorem writesWhileBusyAreDropped : Obligations.WritesWhileBusyAreDropped := by
  unfold Obligations.WritesWhileBusyAreDropped
  intro s off w rest hr hf
  have hbusy : State.busy { s with arrivals := rest } = true := Option.isSome_iff_ne_none.2 hf
  refine ⟨fun h4 => ?_, fun width h => (oddAccessesGetABusError s off width w rest hr h).2⟩
  have hoff : off = 0x008#15 ↔ off.toNat = offStatus := offset_eq_iff off 0x008#15
  rw [step_write _ _ _ _ hr, deliverWrite_busy w h4 hbusy, State.writeWhileBusy]
  by_cases hstatus : off = 0x008#15
  · rw [if_pos hstatus, if_pos (hoff.1 hstatus), State.writeStatus]
    rfl
  · rw [if_neg hstatus, if_neg (mt hoff.2 hstatus)]
    rfl

/-! ## The fields that host accesses change while a command runs -/

/-- The second state with ERR, ECODE, the events to come, the response and the count of unspecified reads of the first. -/
def State.overlay (u s : State) : State :=
  { s with err := u.err, ecode := u.ecode, arrivals := u.arrivals, reply := u.reply, freeReads := u.freeReads }

/-- A read or a write of the host, accepted by the port or not. -/
def PortEvent.isHostAccess (e : PortEvent) : Prop :=
  (∃ off width, e = .read off width) ∨ ∃ off width w, e = .write off width w

/-- One host access to a Busy block is used up and changes no field that `overlay` keeps. -/
theorem step_hostAccess_busy {s t : State} {e : PortEvent} {rest : List PortEvent} (he : e.isHostAccess)
    (hr : s.inReset = false) (hf : s.inflight ≠ none) (h : step { s with arrivals := e :: rest } = .next t) :
    t.arrivals = rest ∧ t = t.overlay s := by
  rcases he with ⟨off, width, rfl⟩ | ⟨off, width, w, rfl⟩
  · obtain ⟨r, n, hread⟩ := deliverRead_changes_reply_alone { s with arrivals := rest } off width
    rw [step_read _ _ _ hr, hread] at h
    cases h
    exact ⟨rfl, rfl⟩
  · obtain ⟨haligned, hodd⟩ := writesWhileBusyAreDropped s off w rest hr hf
    by_cases hok : width ≠ .bits32 ∨ off.toNat % 4 ≠ 0
    · rw [hodd width hok] at h
      cases h
      exact ⟨rfl, rfl⟩
    · obtain ⟨rfl, h4⟩ : width = .bits32 ∧ off.toNat % 4 = 0 := by simpa using hok
      rw [haligned h4] at h
      split at h
      · split at h <;>
        · cases h
          exact ⟨rfl, rfl⟩
      · cases h
        exact ⟨rfl, rfl⟩

theorem core_run_succ {s t : State} (k : Nat) (h : step s = .next t) :
    Host.Core.run Sys2Proof.core (k + 1) s = Host.Core.run Sys2Proof.core k t := by
  have hstep : Sys2Proof.core.step s = .next t := h
  simp only [Host.Core.run, hstep]

/-- Any number of host accesses to a Busy block leaves all other fields as they were. -/
theorem run_hostAccesses_busy {s u : State} {es : List PortEvent} (hes : ∀ e ∈ es, e.isHostAccess)
    (hr : s.inReset = false) (hf : s.inflight ≠ none)
    (h : Host.Core.run Sys2Proof.core es.length { s with arrivals := es } = .next u) : u = u.overlay s := by
  induction es generalizing s with
  | nil =>
    cases h
    rfl
  | cons e rest ih =>
    obtain ⟨he, hrest⟩ := List.forall_mem_cons.1 hes
    obtain ⟨t, ht⟩ := step_answers_next { s with arrivals := e :: rest }
    obtain ⟨harr, hover⟩ := step_hostAccess_busy he hr hf ht
    have hrun : Host.Core.run Sys2Proof.core rest.length { t with arrivals := rest } = .next u := by
      subst harr
      exact (core_run_succ _ ht).symm.trans h
    have hinReset : t.inReset = false := by rwa [hover]
    have hinflight : t.inflight ≠ none := by rwa [hover]
    calc u = u.overlay t := ih hrest hinReset hinflight hrun
      _ = u.overlay (t.overlay s) := congrArg u.overlay hover
      _ = u.overlay s := rfl

/-! ## No run reads or changes those fields -/

section overlay

variable (u : State) (g : Gsel) (s : State)

theorem overlay_operands : (u.overlay s).operands = s.operands := rfl

theorem draw_overlay : draw g (u.overlay s) = ((draw g s).1, u.overlay (draw g s).2) := by
  cases g <;> rfl

theorem drawIsFixed_overlay (t : State) : drawIsFixed g (u.overlay s) (u.overlay t) = drawIsFixed g s t := by
  cases g <;> rfl

theorem drawUntil_overlay (accept : Word → Bool) (n : Nat) :
    drawUntil g accept n (u.overlay s) = (drawUntil g accept n s).map (Prod.map id u.overlay) := by
  induction n generalizing s with
  | zero => rfl
  | succ n ih =>
    simp only [drawUntil, draw_overlay, drawIsFixed_overlay, ih]
    split
    · rfl
    · split <;> rfl

theorem uniformDraw_overlay (lower upper : Word) :
    uniformDraw g lower upper (u.overlay s) = (uniformDraw g lower upper s).map (Prod.map id u.overlay) := by
  simp only [uniformDraw, drawUntil_overlay]
  split
  · rfl
  · cases drawUntil g _ (generatorStates g) s <;> rfl

theorem swapPerm_overlay (i j : Nat) : (u.overlay s).swapPerm i j = u.overlay (s.swapPerm i j) := rfl

theorem placeInsideOut_overlay (i j : Nat) :
    (u.overlay s).placeInsideOut i j = u.overlay (s.placeInsideOut i j) := by
  unfold State.placeInsideOut
  split <;> rfl

theorem shufflePasses_overlay (n : Nat) :
    shufflePasses g n (u.overlay s) = (shufflePasses g n s).map u.overlay := by
  induction n generalizing s with
  | zero => rfl
  | succ n ih =>
    rw [shufflePasses, shufflePasses, uniformDraw_overlay]
    cases uniformDraw g 0#32 (BitVec.ofNat 32 (n + 2)) s with
    | none => rfl
    | some p => exact ih (p.2.swapPerm (n + 1) p.1.toNat)

theorem shuffleIoSteps_overlay (n i : Nat) :
    shuffleIoSteps g n i (u.overlay s) = (shuffleIoSteps g n i s).map u.overlay := by
  induction n generalizing s i with
  | zero => rfl
  | succ n ih =>
    rw [shuffleIoSteps, shuffleIoSteps, uniformDraw_overlay]
    cases uniformDraw g 0#32 (BitVec.ofNat 32 (i + 1)) s with
    | none => rfl
    | some p =>
      simp only [Option.map_some, Prod.map, id, placeInsideOut_overlay]
      exact ih _ _

theorem fillIdentity_overlay : (u.overlay s).fillIdentity = u.overlay s.fillIdentity := by
  simp only [State.fillIdentity, State.overlay]

theorem setValue_overlay (k : Nat) (d : DWord) : (u.overlay s).setValue k d = u.overlay (s.setValue k d) := rfl

theorem fillValues_overlay (n k : Nat) : fillValues g n k (u.overlay s) = u.overlay (fillValues g n k s) := by
  induction n generalizing s k with
  | zero => rfl
  | succ n ih =>
    simp only [fillValues, doubleDraw, draw_overlay, setValue_overlay, ih]

theorem seededMem_overlay (n : Nat) (seed : Word) : seededMem n (u.overlay s) seed = seededMem n s seed := rfl

theorem seeded_overlay (ring : Memory) (c : Nat) : (u.overlay s).seeded ring c = u.overlay (s.seeded ring c) := rfl

theorem seedCmwc_overlay (cMax : Nat) (seed : Word) :
    seedCmwc cMax seed (u.overlay s) = (seedCmwc cMax seed s).map u.overlay := by
  rw [seedCmwc_eq_map, seedCmwc_eq_map, seededMem_overlay]
  cases seedCarry cMax (2 ^ 31) (scratch Config.cmwcN seed.toNat) with
  | none => rfl
  | some c => exact congrArg some (seeded_overlay u s _ c)

theorem lval_overlay (x y : Int) : (u.overlay s).lval x y = s.lval x y := rfl

theorem sampleBilinear_overlay (x y : DWord) : (u.overlay s).sampleBilinear x y = s.sampleBilinear x y := by
  simp only [State.sampleBilinear, lval_overlay]

theorem sampleBicubic_overlay (x y : DWord) : (u.overlay s).sampleBicubic x y = s.sampleBicubic x y := by
  simp only [State.sampleBicubic, State.bicubicRow, lval_overlay]

theorem spline_overlay (x : DWord) (n : Nat) : (u.overlay s).spline x n = s.spline x n := rfl

theorem drawToRes_overlay (o : Operands) :
    (drawToRes g).run o (u.overlay s) = ((drawToRes g).run o s).map u.overlay := by
  simp only [drawToRes, draw_overlay]
  rfl

/-- The run of every command commutes with the fields that host accesses change. -/
theorem run_overlay (i : Instr) :
    (meaningOf i).run s.operands (u.overlay s) = ((meaningOf i).run s.operands s).map u.overlay := by
  cases i with
  | nop | lerp => rfl
  | xsNext | minstdNext | marsNext | cmwcNext | combNext => exact drawToRes_overlay u _ s _
  | cmwcSeed =>
    rw [cmwcSeed_run, cmwcSeed_run]
    exact seedCmwc_overlay u s _ _
  | uniform g =>
    rw [← overlay_operands u s, uniform_run, overlay_operands, uniform_run, Option.map_map]
    refine (congrArg _ (uniformDraw_overlay u g s s.opaLo s.opbLo)).trans ?_
    rw [Option.map_map]
    rfl
  | double g =>
    rw [double_run, double_run, draw_overlay]
    rfl
  | doubleAffine g =>
    rw [doubleAffine_run, doubleAffine_run, draw_overlay]
    rfl
  | shuffle g =>
    rw [← overlay_operands u s, shuffle_run, overlay_operands, shuffle_run, shufflePasses_overlay, Option.map_map,
      Option.map_map]
    rfl
  | shuffleIo g =>
    rw [← overlay_operands u s, shuffleIo_run, overlay_operands, shuffleIo_run, shuffleIoSteps_overlay, Option.map_map,
      Option.map_map]
    rfl
  | permBuild g =>
    rw [permBuild_run, permBuild_run, fillIdentity_overlay, shufflePasses_overlay, Option.map_map, Option.map_map]
    rfl
  | valueBuild g =>
    simp only [meaningOf, valueBuildMeaning, fillValues_overlay]
    rfl
  | hash | latticeValue => rfl
  | sampleBilinear =>
    simp only [meaningOf, sampleBilinearMeaning, sampleBilinear_overlay]
    rfl
  | sampleBicubic =>
    simp only [meaningOf, sampleBicubicMeaning, sampleBicubic_overlay]
    rfl
  | spline =>
    simp only [meaningOf, splineMeaning, spline_overlay]
    rfl

end overlay

/-! ## The completion (rules R207, R210, R268) -/

theorem complete_idle {s : State} (h : s.inflight = none) : s.complete = s := by
  rw [State.complete, h]

theorem complete_busy {s : State} {f : InFlight} (h : s.inflight = some f) :
    s.complete = s.finish f (meaningOf f.instr) := by
  rw [State.complete, h]

theorem complete_of_run {s t : State} {f : InFlight} (hf : s.inflight = some f)
    (hrun : (meaningOf f.instr).run f.ops { s with inflight := none } = some t) : s.complete = t := by
  rw [complete_busy hf, State.finish, hrun]

/-- A command that `exec` completes is one whose run ends. -/
theorem run_of_exec_completes {i : Instr} {s t : State} (hs : s.idle) (hcheck : (meaningOf i).check s = none)
    (hexec : exec i s = .next t) (ht : t.inflight = none) : (meaningOf i).run s.operands s = some t := by
  cases hrun : (meaningOf i).run s.operands s with
  | some t' =>
    rw [exec_completes hs hcheck hrun] at hexec
    cases hexec
    rfl
  | none =>
    rw [exec_runs_forever hs hcheck hrun] at hexec
    cases hexec
    cases ht

/-- The completion of a command from its start with other values in those fields ends where its run does, with those
values. -/
theorem complete_after_hostAccesses {i : Instr} {s t u : State} (hs : s.idle)
    (hrun : (meaningOf i).run s.operands s = some t) (hu : u = u.overlay (s.begin i)) : u.complete = u.overlay t := by
  have hinflight : u.inflight = some ⟨i, s.operands⟩ := congrArg State.inflight hu
  have hidle : { u with inflight := none } = u.overlay s := by
    rw [show u.overlay s = { u.overlay (s.begin i) with inflight := s.inflight } from rfl, ← hu,
      show s.inflight = none from hs]
  refine complete_of_run hinflight ?_
  rw [hidle, run_overlay, hrun, Option.map_some]

theorem step_completion {s : State} (rest : List PortEvent) (hr : s.inReset = false) :
    step { s with arrivals := .completion :: rest } =
      .next (State.complete { s with arrivals := rest, reply := .none }) := by
  rw [step_event, deliver, if_neg (by simp [hr])]
  rfl

theorem step_completion_inReset {s : State} (rest : List PortEvent) (hr : s.inReset = true) :
    step { s with arrivals := .completion :: rest } = .next { s with arrivals := rest, reply := .none } :=
  deliver_inReset (s := { s with arrivals := rest }) .completion hr

theorem step_no_event {s : State} (hr : s.inReset = false) :
    step { s with arrivals := [] } = .next (State.complete { s with arrivals := [] }) :=
  congrArg Host.Outcome.next (if_neg (by simp [hr]))

theorem step_no_event_inReset {s : State} (hr : s.inReset = true) :
    step { s with arrivals := [] } = .next { s with arrivals := [] } :=
  congrArg Host.Outcome.next (if_pos hr)

/-- Settles O6: the accesses change nothing but the fields that `overlay` replaces (`run_hostAccesses_busy`), and no run
depends on those (`run_overlay`); the clauses about one step are those of `complete`. -/
theorem resultsDoNotDependOnTiming : Obligations.ResultsDoNotDependOnTiming := by
  unfold Obligations.ResultsDoNotDependOnTiming
  refine ⟨fun i s t u es hs hr hcheck hexec ht hes hu => ?_, fun s f rest hr hf => ?_, fun s rest h => ?_⟩
  · exact complete_after_hostAccesses hs (run_of_exec_completes hs hcheck hexec ht)
      (run_hostAccesses_busy (s := s.begin i) hes hr (Option.some_ne_none _) hu)
  · exact ⟨step_completion rest hr, step_no_event hr, complete_busy hf⟩
  · by_cases hr : s.inReset = true
    · exact ⟨step_completion_inReset rest hr, step_no_event_inReset hr⟩
    · have hidle : s.inflight = none := h.resolve_left hr
      rw [step_completion rest (Bool.eq_false_of_not_eq_true hr), step_no_event (Bool.eq_false_of_not_eq_true hr)]
      exact ⟨congrArg _ (complete_idle hidle), congrArg _ (complete_idle hidle)⟩

end Sys2Proof.Machine
end

section
/-! The command words of rule R87 and the decoder of rule R89 are inverse to each other: a word is its three fields
(rule R85), and the decoder answers a command exactly on the fields of that command. -/

namespace Sys2Proof.Machine

/-! ## A word is its three fields (rule R85) -/

theorem word_eq_of_fields (w : Word) : w = wordRes0 w ++ wordGsel w ++ wordOp w := by
  have hw := w.isLt
  apply BitVec.eq_of_toNat_eq
  simp only [wordRes0, wordGsel, wordOp, toNat_append_add, BitVec.extractLsb'_toNat, Nat.shiftRight_eq_div_pow]
  omega

/-- The fields of a word are those of a command's encoding. -/
def FieldsOf (w : Word) (i : Instr) : Prop :=
  wordRes0 w = 0#21 ∧ wordGsel w = gselFieldOf i ∧ wordOp w = opcodeOf i

theorem eq_encode_of_fields {w : Word} {i : Instr} (h : FieldsOf w i) : w = encode i := by
  obtain ⟨hres, hgsel, hop⟩ := h
  rw [word_eq_of_fields w, hres, hgsel, hop]
  rfl

/-! ## The decoder's answers (rule R89) -/

theorem gselBits_of_gselOfBits {c : Gsel} : ∀ {g : BitVec 3}, gselOfBits g = some c → gselBits c = g := by
  cases c <;> decide

theorem decodePlain_eq_command {g : BitVec 3} {i j : Instr} (h : decodePlain g j = .command i) : i = j ∧ g = 0#3 := by
  by_cases hg : g = 0#3
  · rw [decodePlain, if_pos hg] at h
    cases h
    exact ⟨rfl, hg⟩
  · rw [decodePlain, if_neg hg] at h
    cases h

theorem decodeDrawing_eq_command {g : BitVec 3} {i : Instr} {f : Gsel → Instr}
    (h : decodeDrawing g f = .command i) : ∃ c, i = f c ∧ g = gselBits c := by
  cases hg : gselOfBits g with
  | none =>
    rw [decodeDrawing, hg] at h
    cases h
  | some c =>
    rw [decodeDrawing, hg] at h
    cases h
    exact ⟨c, rfl, (gselBits_of_gselOfBits hg).symm⟩

theorem wordOp_eq_of_toNat {w : Word} {n : Nat} (h : (wordOp w).toNat = n) : wordOp w = BitVec.ofNat 8 n := by
  rw [← h, BitVec.ofNat_toNat, BitVec.setWidth_eq]

/-- What the decoder reads from a word, it reads from the fields of that command's encoding. -/
theorem fieldsOf_of_decode {w : Word} {i : Instr} (h : decode w = .command i) : FieldsOf w i := by
  by_cases hres : wordRes0 w = 0#21
  case neg =>
    rw [decode, if_pos hres] at h
    cases h
  case pos =>
    have hdec : decode w = _ := if_neg (not_not.2 hres)
    rw [h] at hdec
    split at hdec
    -- The seven "G" opcodes, 0x10 to 0x23; then no opcode of the map; what is left are the "0" opcodes.
    case h_8 hop | h_9 hop | h_10 hop | h_11 hop | h_12 hop | h_13 hop | h_14 hop =>
      obtain ⟨c, rfl, hg⟩ := decodeDrawing_eq_command hdec.symm
      exact ⟨hres, hg, wordOp_eq_of_toNat hop⟩
    case h_21 => cases hdec
    all_goals
      obtain ⟨rfl, hg⟩ := decodePlain_eq_command hdec.symm
      exact ⟨hres, hg, wordOp_eq_of_toNat ‹_›⟩

theorem decode_encode (i : Instr) : decode (encode i) = .command i := by
  cases i with
  | uniform g | double g | doubleAffine g | shuffle g | shuffleIo g | permBuild g | valueBuild g =>
    cases g <;> decide
  | nop | xsNext | minstdNext | marsNext | cmwcNext | combNext | cmwcSeed | hash | latticeValue | sampleBilinear
  | sampleBicubic | lerp | spline => decide

/-- Settles O1: `decode_encode` one way; the other way the fields of a decoded word (`fieldsOf_of_decode`) are all of
it. -/
theorem decodeInvertsEncode : Obligations.DecodeInvertsEncode := by
  unfold Obligations.DecodeInvertsEncode
  intro w i
  constructor
  · exact fun h => eq_encode_of_fields (fieldsOf_of_decode h)
  · rintro rfl
    exact decode_encode i

/-- Settles O3, by evaluating the decoder on the thirteen words. -/
theorem listedWordsDecodeAsListed : Obligations.ListedWordsDecodeAsListed := by
  unfold Obligations.ListedWordsDecodeAsListed
  decide

end Sys2Proof.Machine
end

section
/-! The lifecycle of a command (file 45_system.md): issue followed by completion is `exec` (rule R207), a step that
delivers a command's word runs it (rules R205, R210), and a run that never ends is ended by reset alone (rule R265). -/

namespace Sys2Proof.Machine

/-! ## Issue and completion (rules R205 to R207) -/

theorem fallback_inflight (i : Instr) (s : State) : ((meaningOf i).fallback s).inflight = s.inflight := by
  cases i <;> rfl

theorem idle_state_eq {s : State} (h : s.idle) : { s with inflight := none } = s := by
  rw [show none = s.inflight from h.symm]

theorem complete_begin {s : State} (h : s.idle) (i : Instr) :
    (s.begin i).complete = ((meaningOf i).run s.operands s).getD (s.begin i) := by
  have hidle : { s.begin i with inflight := none } = s := idle_state_eq h
  rw [complete_busy (State.begin_inflight s i), State.finish, hidle]
  cases (meaningOf i).run s.operands s <;> rfl

/-- Settles O5: a rejected command leaves the block Idle, where a completion does nothing; a started one is completed by
the run that `exec` takes (`complete_begin`). -/
theorem execIsIssueThenCompletion : Obligations.ExecIsIssueThenCompletion := by
  unfold Obligations.ExecIsIssueThenCompletion
  intro i s hs
  rcases issue_cases s i (meaningOf i) with ⟨k, hk, hissue⟩ | ⟨hk, hissue⟩
  · have hidle : (s.reject (meaningOf i) k).inflight = none := (fallback_inflight i s).trans hs
    rw [exec_rejected hs hk, hissue, complete_idle hidle]
  · rw [hissue, complete_begin hs]
    cases hrun : (meaningOf i).run s.operands s with
    | some t => rw [exec_completes hs hk hrun, Option.getD_some]
    | none => rw [exec_runs_forever hs hk hrun, Option.getD_none]

/-- Settles O8: NOP has no check, and its run answers the state it is given. -/
theorem nopChangesNothing : Obligations.NopChangesNothing := by
  unfold Obligations.NopChangesNothing
  exact fun s hs => exec_completes hs rfl rfl

/-! ## A step that delivers a command word (rules R205, R210) -/

theorem step_writeCommand {s : State} (w : Word) (rest : List PortEvent) (hr : s.inReset = false) (hs : s.idle) :
    step { s with arrivals := .write 0x004#15 .bits32 w :: rest } =
      writeCommand w { s with arrivals := rest, reply := .accepted } :=
  (step_write _ _ w rest hr).trans (deliverWrite_command (s := { s with arrivals := rest }) w (idle_not_busy hs))

theorem writeCommand_completes {s : State} {w : Word} {i : Instr} (hd : decode w = .command i)
    (h : s.completesNext = true) : writeCommand w s = exec i s.dropCompletion := by
  rw [writeCommand, hd]
  exact if_pos h

theorem writeCommand_issues {s : State} {w : Word} {i : Instr} (hd : decode w = .command i)
    (h : s.completesNext = false) : writeCommand w s = .next (s.issue i (meaningOf i)) := by
  rw [writeCommand, hd]
  exact if_neg (Bool.eq_false_iff.1 h)

theorem completesNext_eq_false {s : State} {e : PortEvent} {rest : List PortEvent} (h : s.arrivals = e :: rest)
    (he : e ≠ .completion) : s.completesNext = false := by
  rw [State.completesNext, h]
  cases e with
  | completion => exact absurd rfl he
  | read | write | resetAssert | resetRelease => rfl

theorem decode_of_decodeTableWord {nbits n : Nat} {i : Instr} (h : decodeTableWord nbits n = some i) :
    decode (BitVec.ofNat 32 (n % 2 ^ nbits)) = .command i := by
  unfold decodeTableWord at h
  split at h
  · cases h
    assumption
  · cases h

/-- Settles O4: the write reaches `writeCommand` (`step_writeCommand`), which runs the command by `exec` or issues it
by the event that comes next. -/
theorem stepRunsTheDecodedCommand : Obligations.StepRunsTheDecodedCommand := by
  unfold Obligations.StepRunsTheDecodedCommand
  intro s w i hd
  refine ⟨fun hr hs => ⟨fun rest => ?_, ?_, fun e rest he => ?_⟩, fun nbits n hn => ?_⟩
  · rw [step_writeCommand w _ hr hs, writeCommand_completes hd rfl]
    rfl
  · rw [step_writeCommand w _ hr hs, writeCommand_completes hd rfl]
    rfl
  · rw [step_writeCommand w _ hr hs, writeCommand_issues hd (completesNext_eq_false rfl he)]
    rfl
  · have hstep := step_writeCommand (s := { s with inflight := none, inReset := false })
      (BitVec.ofNat 32 (n % 2 ^ nbits)) (.completion :: s.arrivals) rfl rfl
    exact hstep.trans (writeCommand_completes (decode_of_decodeTableWord hn) rfl)

/-! ## A run that never ends (rules R212, R265) -/

theorem uniform_run_map (g : Gsel) (o : Operands) (s : State) :
    (meaningOf (.uniform g)).run o s = (uniformDraw g o.aU32 o.bU32 s).map fun p => p.2.setResU32 p.1 := by
  simp only [meaningOf, uniformMeaning]
  cases uniformDraw g o.aU32 o.bU32 s <;> rfl

theorem shuffle_run_map (g : Gsel) (o : Operands) (s : State) :
    (meaningOf (.shuffle g)).run o s = (shufflePasses g (o.aU32.toNat - 1) s).map State.clearPermReady := by
  simp only [meaningOf, shuffleMeaning, shuffleRun]
  cases shufflePasses g (o.aU32.toNat - 1) s <;> rfl

theorem shuffleIo_run_map (g : Gsel) (o : Operands) (s : State) :
    (meaningOf (.shuffleIo g)).run o s = (shuffleIoSteps g o.aU32.toNat 0 s).map State.clearPermReady := by
  simp only [meaningOf, shuffleIoMeaning, shuffleIoRun]
  cases shuffleIoSteps g o.aU32.toNat 0 s <;> rfl

/-- Where a run never ends, it never ends with other values in the fields that host accesses change. -/
theorem run_overlay_hangs {i : Instr} {o : Operands} {s : State} (u : State) (h : (meaningOf i).run o s = none) :
    (meaningOf i).run o (u.overlay s) = none := by
  cases i with
  | cmwcSeed =>
    rw [cmwcSeed_run] at h ⊢
    rw [seedCmwc_overlay, h, Option.map_none]
  | uniform g =>
    rw [uniform_run_map, Option.map_eq_none_iff] at h ⊢
    rw [uniformDraw_overlay, h, Option.map_none]
  | shuffle g =>
    rw [shuffle_run_map, Option.map_eq_none_iff] at h ⊢
    rw [shufflePasses_overlay, h, Option.map_none]
  | shuffleIo g =>
    rw [shuffleIo_run_map, Option.map_eq_none_iff] at h ⊢
    rw [shuffleIoSteps_overlay, h, Option.map_none]
  | permBuild g =>
    rw [permBuild_run, Option.map_eq_none_iff] at h ⊢
    rw [fillIdentity_overlay, shufflePasses_overlay, h, Option.map_none]
  | nop | xsNext | minstdNext | marsNext | cmwcNext | combNext | double | doubleAffine | valueBuild | hash
  | latticeValue | sampleBilinear | sampleBicubic | lerp | spline => cases h

theorem hung_overlay {s : State} (u : State) (h : s.hung) : (u.overlay s).hung := by
  obtain ⟨f, hf, hrun⟩ := h
  exact ⟨f, hf, run_overlay_hangs u hrun⟩

theorem complete_hung {s : State} (h : s.hung) : s.complete = s := by
  obtain ⟨f, hf, hrun⟩ := h
  rw [complete_busy hf, State.finish, hrun]

/-- Out of reset and with no assertion of it to come first, a step of a hung block changes no field that `overlay`
keeps. -/
theorem step_hung {s t : State} (h : s.hung) (hr : s.inReset = false)
    (hev : s.arrivals.head? ≠ some .resetAssert) (hst : step s = .next t) : t = t.overlay s := by
  obtain ⟨f, hf, -⟩ := id h
  have hbusy : s.inflight ≠ none := by simp [hf]
  cases harr : s.arrivals with
  | nil =>
    have hs : s = { s with arrivals := [] } := by rw [← harr]
    rw [hs, step_no_event hr, ← hs, complete_hung h] at hst
    cases hst
    rfl
  | cons e rest =>
    have hs : s = { s with arrivals := e :: rest } := by rw [← harr]
    cases e with
    | read off width =>
      rw [hs] at hst
      exact (step_hostAccess_busy (.inl ⟨off, width, rfl⟩) hr hbusy hst).2
    | write off width w =>
      rw [hs] at hst
      exact (step_hostAccess_busy (.inr ⟨off, width, w, rfl⟩) hr hbusy hst).2
    | completion =>
      have hhung : State.hung { s with arrivals := rest, reply := .none } :=
        hung_overlay { s with arrivals := rest, reply := .none } h
      rw [hs, step_completion rest hr, complete_hung hhung] at hst
      cases hst
      rfl
    | resetAssert => simp [harr] at hev
    | resetRelease =>
      rw [hs, step_event, deliver, if_neg (by simp [hr])] at hst
      cases hst
      rfl

/-- Settles O7: such a step keeps the in-flight command and all that its run depends on (`step_hung`), and a run hangs
whatever the other fields hold (`hung_overlay`). -/
theorem hungCommandsEndOnlyByReset : Obligations.HungCommandsEndOnlyByReset := by
  unfold Obligations.HungCommandsEndOnlyByReset
  intro s t h hr hev hst
  have ht := step_hung h hr hev hst
  rw [ht]
  exact ⟨rfl, hung_overlay t h, hr⟩

end Sys2Proof.Machine
end

section
/-! What a command can do to the block (rules R13, R36, R131): draws of its own generator with stores to the `PERM` and
`VALUE` words it names, or the seeding of CMWC; then flags and `RES`. The frames of the commands are read off that. -/

namespace Sys2Proof.Machine

/-! ## A run as draws and stores -/

/-- How many `PERM` words from `PERM[0]` on the run of a command may store to (rules R151, R155, R159). -/
def permCount : Instr → Operands → Nat
  | .shuffle _, o | .shuffleIo _, o => o.aU32.toNat
  | .permBuild _, _ => 256
  | _, _ => 0

/-- The offset is a `PERM` or `VALUE` word that the run of a command may store to. -/
def storesWord (i : Instr) (o : Operands) (a : Nat) : Prop :=
  (∃ k < permCount i o, a = permOff k) ∨ ∃ k < valueWords i, a = valueOff k ∨ a = valueOff k + 4

theorem permCount_operands (i : Instr) (s : State) : permCount i s.operands = permWords i s := by
  cases i with
  | shuffle | shuffleIo => exact congrArg BitVec.toNat (operands_aU32 s)
  | _ => rfl

/-- What the draws, the stores and the seeding of a command can reach, its flags and its result apart. -/
inductive RunEffect (i : Instr) (o : Operands) (s : State) : State → Prop where
  | nothing : RunEffect i o s s
  | seeds (c : Nat) : i = .cmwcSeed → RunEffect i o s (s.seeded (seededMem Config.cmwcN s o.aU32) c)
  | draws {g : Gsel} {k : Nat} {u : State} : drawnGenerator i = some g → RunsTo g (storesWord i o) k s u →
      RunEffect i o s u

/-- CMWC_SEEDED after a completed command (rule R36). -/
def seededAfter : Instr → Bool → Bool
  | .cmwcSeed, _ => true
  | _, b => b

/-- PERM_READY after a completed command (rule R36). -/
def permReadyAfter : Instr → Bool → Bool
  | .permBuild _, _ => true
  | .shuffle _, _ | .shuffleIo _, _ => false
  | _, b => b

/-- VALUE_READY after a completed command (rule R36). -/
def valueReadyAfter : Instr → Bool → Bool
  | .valueBuild _, _ => true
  | _, b => b

/-- The flags a command sets at its completion, and its result (rules R28, R36). -/
def State.afterRun (u : State) (i : Instr) (lo hi : Word) : State :=
  { u with
    cmwcSeeded := seededAfter i u.cmwcSeeded, permReady := permReadyAfter i u.permReady,
    valueReady := valueReadyAfter i u.valueReady, resLo := lo, resHi := hi }

theorem seeded_afterRun (s : State) (ring : Memory) (c : Nat) :
    s.seeded ring c = (s.seeded ring c).afterRun .cmwcSeed s.resLo s.resHi := rfl

/-- A `uniform` call from 0 on answers at most one less than what its upper end is made from. -/
theorem uniformDraw_zero_le {g : Gsel} {n : Nat} {r : Word} {s t : State}
    (h : uniformDraw g 0#32 (BitVec.ofNat 32 (n + 1)) s = some (r, t)) : r.toNat ≤ n := by
  have hupper : (BitVec.ofNat 32 (n + 1)).toNat ≤ n + 1 := by
    rw [BitVec.toNat_ofNat]
    exact Nat.mod_le _ _
  rcases uniformDraw_range (Nat.zero_le _) h with ⟨_, hlt | ⟨rfl, _⟩⟩
  · omega
  · exact Nat.zero_le n

section runs

variable {g : Gsel} {allowed : Nat → Prop} {s t : State}

/-- The passes of the classic shuffle store to `PERM` words alone, whatever their number. -/
theorem shufflePasses_runsTo_any {n : Nat} (hperm : ∀ k ≤ n, allowed (permOff k))
    (h : shufflePasses g n s = some t) : ∃ k, RunsTo g allowed k s t := by
  induction n generalizing s with
  | zero =>
    cases h
    exact ⟨0, .done _⟩
  | succ n ih =>
    simp only [shufflePasses] at h
    split at h
    · rename_i j u hu
      obtain ⟨k, hk⟩ := uniformDraw_runsTo (allowed := allowed) hu
      obtain ⟨l, hl⟩ := ih (fun i hi => hperm i (by omega)) h
      have hswap : RunsTo g allowed 0 u (u.swapPerm (n + 1) j.toNat) :=
        .afterStore _ (hperm (n + 1) le_rfl) (.store _ (hperm j.toNat (uniformDraw_zero_le hu)))
      exact ⟨_, (hk.trans hswap).trans hl⟩
    · cases h

/-- The steps of the inside-out shuffle store to `PERM` words alone, whatever their number. -/
theorem shuffleIoSteps_runsTo_any {n i : Nat} (hperm : ∀ k < i + n, allowed (permOff k))
    (h : shuffleIoSteps g n i s = some t) : ∃ k, RunsTo g allowed k s t := by
  induction n generalizing s i with
  | zero =>
    cases h
    exact ⟨0, .done _⟩
  | succ n ih =>
    simp only [shuffleIoSteps] at h
    split at h
    · rename_i j u hu
      have hj := uniformDraw_zero_le hu
      obtain ⟨k, hk⟩ := uniformDraw_runsTo (allowed := allowed) hu
      obtain ⟨l, hl⟩ := ih (fun m hm => hperm m (by omega)) h
      have hplace : RunsTo g allowed 0 u (u.placeInsideOut i j.toNat) :=
        placeInsideOut_runsTo (hperm i (by omega)) (hperm j.toNat (by omega))
      exact ⟨_, (hk.trans hplace).trans hl⟩
    · cases h

/-- What one draw and one allowed store keep, a run keeps. -/
theorem RunsTo.keeps {n : Nat} {P : State → Prop} (hdraw : ∀ s, P s → P (draw g s).2)
    (hstore : ∀ s a w, allowed a → P s → P (s.setWord a w)) (h : RunsTo g allowed n s t) (hs : P s) : P t := by
  induction h with
  | done => exact hs
  | afterDraw _ ih => exact ih (hdraw _ hs)
  | afterStore w ha _ ih => exact ih (hstore _ _ w ha hs)

theorem setWord_frame (s : State) (a : Nat) (w : Word) : DrawFrame s (s.setWord a w) := by constructor <;> rfl

theorem RunsTo.frame {n : Nat} (h : RunsTo g allowed n s t) : DrawFrame s t :=
  h.keeps (fun u hu => hu.trans (draw_frame g u)) (fun u a w _ hu => hu.trans (setWord_frame u a w)) (.refl s)

end runs

/-- Every run that ends: draws and stores, or seeding, and then the flags and the result of the command. -/
theorem run_effect {i : Instr} {o : Operands} {s t : State} (h : (meaningOf i).run o s = some t) :
    ∃ u lo hi, RunEffect i o s u ∧ t = u.afterRun i lo hi ∧
      (hasResult i = false → lo = u.resLo ∧ hi = u.resHi) := by
  cases i with
  | nop =>
    cases h
    exact ⟨_, _, _, .nothing, rfl, fun _ => ⟨rfl, rfl⟩⟩
  | xsNext | minstdNext | marsNext | cmwcNext | combNext | double g | doubleAffine g =>
    cases h
    exact ⟨_, _, _, .draws rfl (.draws 1 s), rfl, nofun⟩
  | cmwcSeed =>
    rw [cmwcSeed_run, seedCmwc_eq_map, Option.map_eq_some_iff] at h
    obtain ⟨c, -, rfl⟩ := h
    exact ⟨s.seeded (seededMem Config.cmwcN s o.aU32) c, s.resLo, s.resHi, .seeds c rfl, seeded_afterRun s _ c,
      fun _ => ⟨rfl, rfl⟩⟩
  | uniform g =>
    rw [uniform_run_map, Option.map_eq_some_iff] at h
    obtain ⟨⟨r, u⟩, hu, rfl⟩ := h
    obtain ⟨k, hk⟩ := uniformDraw_runsTo hu
    exact ⟨u, _, _, .draws rfl hk, rfl, nofun⟩
  | shuffle g =>
    rw [shuffle_run_map, Option.map_eq_some_iff] at h
    obtain ⟨u, hu, rfl⟩ := h
    by_cases h0 : o.aU32.toNat = 0
    · rw [h0] at hu
      cases hu
      exact ⟨_, _, _, .nothing, rfl, fun _ => ⟨rfl, rfl⟩⟩
    · obtain ⟨k, hk⟩ := shufflePasses_runsTo_any (allowed := storesWord (.shuffle g) o)
        (fun j hj => .inl ⟨j, show j < o.aU32.toNat by omega, rfl⟩) hu
      exact ⟨u, _, _, .draws rfl hk, rfl, fun _ => ⟨rfl, rfl⟩⟩
  | shuffleIo g =>
    rw [shuffleIo_run_map, Option.map_eq_some_iff] at h
    obtain ⟨u, hu, rfl⟩ := h
    obtain ⟨k, hk⟩ := shuffleIoSteps_runsTo_any (allowed := storesWord (.shuffleIo g) o)
      (fun j hj => .inl ⟨j, show j < o.aU32.toNat by omega, rfl⟩) hu
    exact ⟨u, _, _, .draws rfl hk, rfl, fun _ => ⟨rfl, rfl⟩⟩
  | permBuild g =>
    rw [permBuild_run, Option.map_eq_some_iff] at h
    obtain ⟨u, hu, rfl⟩ := h
    have hperm : ∀ j < 256, storesWord (.permBuild g) o (permOff j) := fun j hj => .inl ⟨j, hj, rfl⟩
    obtain ⟨k, hk⟩ := shufflePasses_runsTo_any (fun j hj => hperm j (by omega)) hu
    exact ⟨u, _, _, .draws rfl ((identityPerm_runsTo hperm).trans hk), rfl, fun _ => ⟨rfl, rfl⟩⟩
  | valueBuild g =>
    cases h
    have hvalue : ∀ j < 0 + 256, storesWord (.valueBuild g) o (valueOff j) ∧
        storesWord (.valueBuild g) o (valueOff j + 4) := fun j hj =>
      ⟨.inr ⟨j, show j < 256 by omega, .inl rfl⟩, .inr ⟨j, show j < 256 by omega, .inr rfl⟩⟩
    exact ⟨_, _, _, .draws rfl (fillValues_runsTo hvalue), rfl, fun _ => ⟨rfl, rfl⟩⟩
  | hash | latticeValue | sampleBilinear | sampleBicubic | lerp | spline =>
    cases h
    exact ⟨_, _, _, .nothing, rfl, nofun⟩

/-! ## What the effect of a run keeps -/

section effect

variable {i : Instr} {o : Operands} {s u : State}

/-- What the seeding, one draw of the command's generator and one store to a word it names keep, its run keeps. -/
theorem RunEffect.keeps {P : State → Prop} (h : RunEffect i o s u) (hs : P s)
    (hseed : ∀ c, i = .cmwcSeed → P (s.seeded (seededMem Config.cmwcN s o.aU32) c))
    (hdraw : ∀ g u, drawnGenerator i = some g → P u → P (draw g u).2)
    (hstore : ∀ u a w, storesWord i o a → P u → P (u.setWord a w)) : P u := by
  cases h with
  | nothing => exact hs
  | seeds c hi => exact hseed c hi
  | draws hg hrun => exact hrun.keeps (fun u => hdraw _ u hg) hstore hs

theorem seeded_drawFrame (s : State) (ring : Memory) (c : Nat) :
    DrawFrame { s with cmwcSeeded := true } (s.seeded ring c) := by constructor <;> rfl

theorem RunEffect.frame (h : RunEffect i o s u) : DrawFrame { s with cmwcSeeded := u.cmwcSeeded } u := by
  cases h with
  | nothing => exact .refl s
  | seeds c hi => exact seeded_drawFrame s _ c
  | draws hg hrun =>
    rw [hrun.frame.cmwcSeeded]
    exact hrun.frame

theorem RunEffect.seededAfter_eq (h : RunEffect i o s u) : seededAfter i u.cmwcSeeded = seededAfter i s.cmwcSeeded := by
  cases h with
  | nothing => rfl
  | seeds c hi =>
    subst hi
    rfl
  | draws hg hrun => rw [hrun.frame.cmwcSeeded]

theorem advances_eq {g : Gsel} (h : drawnGenerator i = some g) (c : Gsel) :
    advances i c = (components g).contains c := by
  rw [advances, h]

end effect

theorem draw_xsState {g : Gsel} (h : (components g).contains .xs = false) (s : State) :
    (draw g s).2.xsState = s.xsState := by
  cases g with
  | xs | comb => cases h
  | minstd | mars | cmwc => rfl

theorem draw_minstdState {g : Gsel} (h : (components g).contains .minstd = false) (s : State) :
    (draw g s).2.minstdState = s.minstdState := by
  cases g with
  | minstd | comb => cases h
  | xs | mars | cmwc => rfl

theorem draw_marsState {g : Gsel} (h : (components g).contains .mars = false) (s : State) :
    (draw g s).2.marsState = s.marsState := by
  cases g with
  | mars => cases h
  | xs | minstd | cmwc | comb => rfl

theorem draw_cmwcRegisters {g : Gsel} (h : (components g).contains .cmwc = false) (s : State) :
    (draw g s).2.cmwcCarry = s.cmwcCarry ∧ (draw g s).2.cmwcIndex = s.cmwcIndex := by
  cases g with
  | cmwc | comb => cases h
  | xs | minstd | mars => exact ⟨rfl, rfl⟩

/-- Any draw stores to the next ring word alone. -/
theorem draw_byteAt_outside (g : Gsel) (s : State) {a : Nat}
    (h : a < qOff s.nextIndex.toNat ∨ qOff s.nextIndex.toNat + 4 ≤ a) : (draw g s).2.byteAt a = s.byteAt a := by
  rcases draw_mem g s with hm | ⟨w, hm⟩
  · exact byteAt_congr hm (draw_resets g s) a
  · rw [byteAt_congr (t := s.setQ s.nextIndex.toNat w) hm (draw_resets g s), byteAt_setQ_outside _ _ h]

/-- A generator without a CMWC part stores nothing, and a draw of CMWC no byte outside the ring. -/
theorem draw_byteAt_of_not_ring {g : Gsel} {a : Nat}
    (h : (components g).contains .cmwc = true → a < 0x4000 ∨ 0x8000 ≤ a) (s : State) :
    (draw g s).2.byteAt a = s.byteAt a := by
  cases g with
  | xs | minstd | mars => rfl
  | cmwc | comb =>
    have ha := h rfl
    have hi := s.nextIndex.isLt
    exact draw_byteAt_outside _ s (by unfold qOff; omega)

/-- A byte outside the words that a run may store to, and outside the ring where the command can change that, is kept.
-/
theorem RunEffect.byteAt_eq {i : Instr} {o : Operands} {s u : State} (h : RunEffect i o s u) {a : Nat}
    (hring : advances i .cmwc = true ∨ i = .cmwcSeed → a < 0x4000 ∨ 0x8000 ≤ a)
    (hwords : ∀ x, storesWord i o x → a < x ∨ x + 4 ≤ a) : u.byteAt a = s.byteAt a := by
  refine h.keeps (P := fun u => u.byteAt a = s.byteAt a) rfl (fun c hi => ?_) (fun g u hg hu => ?_)
    (fun u x w hx hu => ?_)
  · exact byteAt_seeded_outside s _ c (hring (.inr hi))
  · exact (draw_byteAt_of_not_ring (fun hc => hring (.inl ((advances_eq hg _).trans hc))) u).trans hu
  · exact (byteAt_setWord_outside u w (hwords x hx)).trans hu

theorem storesWord_cases {i : Instr} {o : Operands} {x : Nat} (h : storesWord i o x) :
    (0x400 ≤ x ∧ x + 4 ≤ 0x400 + 4 * permCount i o) ∨ (0x1000 ≤ x ∧ x + 4 ≤ 0x1000 + 8 * valueWords i) := by
  rcases h with ⟨k, hk, rfl⟩ | ⟨k, hk, rfl | rfl⟩
  · unfold permOff
    omega
  · unfold valueOff
    omega
  · unfold valueOff
    omega

/-- The run of a command stores to no byte that its rule does not name. -/
theorem RunEffect.byteAt_unnamed {i : Instr} {s u : State} (h : RunEffect i s.operands s u) {a : Nat}
    (ha : ¬ mayStoreTo i s a) : u.byteAt a = s.byteAt a := by
  unfold mayStoreTo at ha
  rw [← permCount_operands] at ha
  refine h.byteAt_eq (fun hi => ?_) fun x hx => ?_
  · by_contra hin
    exact ha (.inr (.inr ⟨hi, by omega, by omega⟩))
  · have := storesWord_cases hx
    omega

/-! ## The frame of a run, and of `exec` -/

/-- The first state with the flags, the in-flight command and the result of the second. -/
def State.withOutcome (u t : State) : State :=
  { u with
    err := t.err, ecode := t.ecode, inflight := t.inflight, cmwcSeeded := t.cmwcSeeded, permReady := t.permReady,
    valueReady := t.valueReady, resLo := t.resLo, resHi := t.resHi }

/-- SPLINE alone has a fallback (rule R197). -/
theorem fallback_cases (i : Instr) (s : State) :
    (meaningOf i).fallback s = s ∨ (i = .spline ∧ (meaningOf i).fallback s = s.setResF64 f64Zero) := by
  cases i with
  | spline => exact .inr ⟨rfl, rfl⟩
  | _ => exact .inl rfl

/-- Readiness flags and `RES` apart, a run changes generator registers and RAM alone. -/
theorem run_frame {i : Instr} {o : Operands} {s t : State} (h : (meaningOf i).run o s = some t) :
    DrawFrame { s with
      cmwcSeeded := t.cmwcSeeded, permReady := t.permReady, valueReady := t.valueReady, resLo := t.resLo,
      resHi := t.resHi } t := by
  obtain ⟨u, lo, hi, hu, rfl, -⟩ := run_effect h
  have hf := hu.frame
  exact { hf with
    cmwcSeeded := rfl, permReady := rfl, valueReady := rfl, resLo := rfl, resHi := rfl }

theorem run_flags {i : Instr} {o : Operands} {s t : State} (h : (meaningOf i).run o s = some t) :
    t.cmwcSeeded = seededAfter i s.cmwcSeeded ∧ t.permReady = permReadyAfter i s.permReady ∧
      t.valueReady = valueReadyAfter i s.valueReady := by
  obtain ⟨u, lo, hi, hu, rfl, -⟩ := run_effect h
  exact ⟨hu.seededAfter_eq, congrArg (permReadyAfter i) hu.frame.permReady,
    congrArg (valueReadyAfter i) hu.frame.valueReady⟩

/-- Whatever becomes of a command, flags, BUSY and `RES` apart it has at most the effect of its run. -/
theorem exec_effect {i : Instr} {s t : State} (h : exec i s = .next t) :
    ∃ u, RunEffect i s.operands s u ∧ t = u.withOutcome t ∧
      (hasResult i = false → t.resLo = s.resLo ∧ t.resHi = s.resHi) := by
  rw [exec_eq_perform] at h
  rcases perform_cases h with ⟨_, rfl⟩ | ⟨_, k, _, rfl⟩ | ⟨_, _, hrun⟩ | ⟨_, _, _, rfl⟩
  · exact ⟨s, .nothing, rfl, fun _ => ⟨rfl, rfl⟩⟩
  · refine ⟨s, .nothing, ?_⟩
    rcases fallback_cases i s with hid | ⟨rfl, hres⟩
    · rw [State.reject, hid]
      exact ⟨rfl, fun _ => ⟨rfl, rfl⟩⟩
    · rw [State.reject, hres]
      exact ⟨rfl, nofun⟩
  · obtain ⟨u, lo, hi, hu, rfl, hres⟩ := run_effect hrun
    refine ⟨u, hu, rfl, fun hno => ?_⟩
    obtain ⟨rfl, rfl⟩ := hres hno
    exact ⟨hu.frame.resLo, hu.frame.resHi⟩
  · exact ⟨s, .nothing, rfl, fun _ => ⟨rfl, rfl⟩⟩

/-- Settles O18: the effect of a run keeps the operand registers (`RunEffect.frame`), and a generator's registers
where no draw of the command is of that generator (`RunEffect.keeps`). -/
theorem commandsKeepTheRegistersTheyDoNotName : Obligations.CommandsKeepTheRegistersTheyDoNotName := by
  unfold Obligations.CommandsKeepTheRegistersTheyDoNotName
  intro i s t h
  obtain ⟨u, hu, ht, hres⟩ := exec_effect h
  have hf := hu.frame
  rw [ht]
  refine ⟨⟨hf.opaLo, hf.opaHi, hf.opbLo, hf.opbHi, hf.opcLo, hf.opcHi, hf.kcount, hf.xsShiftA, hf.xsShiftB,
      hf.xsShiftC⟩,
    hres, fun hadv => ?_, fun hadv => ?_, fun hadv => ?_, fun hadv hseed => ?_⟩
  · exact hu.keeps (P := fun u => u.xsState = s.xsState) rfl (fun _ _ => rfl)
      (fun g u hg hu => (draw_xsState ((advances_eq hg _).symm.trans hadv) u).trans hu) (fun _ _ _ _ hu => hu)
  · exact hu.keeps (P := fun u => u.minstdState = s.minstdState) rfl (fun _ _ => rfl)
      (fun g u hg hu => (draw_minstdState ((advances_eq hg _).symm.trans hadv) u).trans hu) (fun _ _ _ _ hu => hu)
  · exact hu.keeps (P := fun u => u.marsState = s.marsState) rfl (fun _ _ => rfl)
      (fun g u hg hu => (draw_marsState ((advances_eq hg _).symm.trans hadv) u).trans hu) (fun _ _ _ _ hu => hu)
  · refine hu.keeps (P := fun u => u.cmwcCarry = s.cmwcCarry ∧ u.cmwcIndex = s.cmwcIndex) ⟨rfl, rfl⟩
      (fun _ hi => absurd hi hseed) (fun g u hg hu => ?_) (fun _ _ _ _ hu => hu)
    obtain ⟨hcarry, hindex⟩ := draw_cmwcRegisters ((advances_eq hg _).symm.trans hadv) u
    exact ⟨hcarry.trans hu.1, hindex.trans hu.2⟩

/-- A command that is one draw and a function of its output leaves the RAM as the draw does. -/
theorem one_draw_run_mem {i : Instr} {o : Operands} {s t : State}
    (hi : ∃ g, i = .cmwcNext ∨ i = .combNext ∨ i = .double g ∨ i = .doubleAffine g)
    (h : (meaningOf i).run o s = some t) : ∃ g, t.mem = (draw g s).2.mem := by
  obtain ⟨g, rfl | rfl | rfl | rfl⟩ := hi
  · cases h
    exact ⟨.cmwc, rfl⟩
  · cases h
    exact ⟨.comb, rfl⟩
  · rw [double_run] at h
    cases h
    exact ⟨g, State.setResF64_mem _ _⟩
  · rw [doubleAffine_run] at h
    cases h
    exact ⟨g, State.setResF64_mem _ _⟩

/-- Only a run that ends changes the RAM. -/
theorem exec_mem_cases {i : Instr} {s t : State} (h : exec i s = .next t) :
    t.mem = s.mem ∨ (meaningOf i).run s.operands s = some t := by
  rw [exec_eq_perform] at h
  rcases perform_cases h with ⟨_, rfl⟩ | ⟨_, k, _, rfl⟩ | ⟨_, _, hrun⟩ | ⟨_, _, _, rfl⟩
  · exact .inl rfl
  · rcases fallback_cases i s with hid | ⟨_, hid⟩ <;>
    · rw [State.reject, hid]
      exact .inl rfl
  · exact .inr hrun
  · exact .inl rfl

/-- Settles O19: the stores of a run are to the bytes its rule names (`RunEffect.byteAt_unnamed`), and a single draw
stores to one ring word (`draw_byteAt_outside`). -/
theorem commandsStoreOnlyToTheBytesTheyName : Obligations.CommandsStoreOnlyToTheBytesTheyName := by
  unfold Obligations.CommandsStoreOnlyToTheBytesTheyName
  intro i s t h
  obtain ⟨u, hu, ht, -⟩ := exec_effect h
  have hresets : t.resets = s.resets := (congrArg State.resets ht).trans hu.frame.resets
  refine ⟨fun a ha => ?_, fun g hi a ha => ?_⟩
  · exact (byteAt_congr (congrArg State.mem ht) (congrArg State.resets ht) a).trans (hu.byteAt_unnamed ha)
  · rcases exec_mem_cases h with hm | hrun
    · exact byteAt_congr hm hresets a
    · obtain ⟨g', hm⟩ := one_draw_run_mem ⟨g, hi⟩ hrun
      have hdraw : t.resets = (draw g' s).2.resets := hresets.trans (draw_resets g' s).symm
      exact (byteAt_congr hm hdraw a).trans (draw_byteAt_outside g' s ha)

end Sys2Proof.Machine
end

section
/-! The invariants that need no premise on the in-flight command and speak of registers alone (rules R47, R205, R220),
each carried over a step by its parts (`KeptByParts`). -/

namespace Sys2Proof.Machine

/-! ## What the parts of a step leave as it was -/

/-- The fields that neither a host write while Idle nor a fallback changes. -/
structure SteadyFrame (s t : State) : Prop where
  err : t.err = s.err
  ecode : t.ecode = s.ecode
  cmwcSeeded : t.cmwcSeeded = s.cmwcSeeded
  inflight : t.inflight = s.inflight
  cmwcCarry : t.cmwcCarry = s.cmwcCarry
  resets : t.resets = s.resets

/-- Those fields, and the RAM with the two flags that speak of it. -/
structure TablesFrame (s t : State) : Prop extends SteadyFrame s t where
  permReady : t.permReady = s.permReady
  valueReady : t.valueReady = s.valueReady
  mem : t.mem = s.mem

theorem writeRegister_frame (s : State) (off : Nat) (w : Word) : TablesFrame s (s.writeRegister off w) := by
  unfold State.writeRegister
  split <;> exact ⟨⟨rfl, rfl, rfl, rfl, rfl, rfl⟩, rfl, rfl, rfl⟩

theorem fallback_frame (i : Instr) (s : State) : TablesFrame s ((meaningOf i).fallback s) := by
  rcases fallback_cases i s with h | ⟨_, h⟩ <;>
  · rw [h]
    exact ⟨⟨rfl, rfl, rfl, rfl, rfl, rfl⟩, rfl, rfl, rfl⟩

/-- Everything a host write to a RAM offset can do: a `PERM` or `VALUE` write clears the flag of its table, a `Q`
write is ignored. -/
theorem writeRam_cases (s : State) (off : Nat) (w : Word) :
    (off < 0x800 ∧ s.writeRam off w = (s.setWord off w).clearPermReady) ∨
    (0x800 ≤ off ∧ off < 0x1000 ∧ s.writeRam off w = s.setWord off w) ∨
    (0x1000 ≤ off ∧ off < 0x1800 ∧ s.writeRam off w = (s.setWord off w).clearValueReady) ∨
    (0x1800 ≤ off ∧ off < 0x4000 ∧ s.writeRam off w = s.setWord off w) ∨
    (0x4000 ≤ off ∧ s.writeRam off w = s) := by
  unfold State.writeRam
  grind

theorem writeRam_frame (s : State) (off : Nat) (w : Word) : SteadyFrame s (s.writeRam off w) := by
  rcases writeRam_cases s off w with ⟨_, h⟩ | ⟨_, _, h⟩ | ⟨_, _, h⟩ | ⟨_, _, h⟩ | ⟨_, h⟩ <;>
  · rw [h]
    exact ⟨rfl, rfl, rfl, rfl, rfl, rfl⟩

/-! ## ERR and ECODE (rules R25, R220) -/

theorem errorInvariant_congr {s t : State} (h : s.errorInvariant) (herr : t.err = s.err) (hcode : t.ecode = s.ecode) :
    t.errorInvariant := by
  rw [State.errorInvariant, herr, hcode]
  exact h

theorem errorInvariant_of_no_error {s : State} (herr : s.err = false) (hcode : s.ecode = 0#4) : s.errorInvariant := by
  simp [State.errorInvariant, herr, hcode]

theorem errorInvariant_recordError {s : State} (k : ErrorCode) (h : s.errorInvariant) :
    (s.recordError k).errorInvariant := by
  obtain ⟨hzero, hle⟩ := h
  have hcode : k.code ≠ 0#4 ∧ k.code ≤ 6#4 := by cases k <;> decide
  cases herr : s.err with
  | true =>
    have hne : s.ecode ≠ 0#4 := fun h0 => by simp [hzero.2 h0] at herr
    simp [State.errorInvariant, herr, hne, hle]
  | false => simp [State.errorInvariant, herr, hcode]

theorem errorInvariant_run {i : Instr} {o : Operands} {s t : State} (hrun : (meaningOf i).run o s = some t)
    (h : s.errorInvariant) : t.errorInvariant :=
  errorInvariant_congr h (run_frame hrun).err (run_frame hrun).ecode

theorem errorInvariant_kept : KeptByParts State.errorInvariant where
  bookkeeping _ _ _ _ h := h
  record _ k h := errorInvariant_recordError k h
  clear _ _ := errorInvariant_of_no_error rfl rfl
  register s off w _ h := errorInvariant_congr h (writeRegister_frame s off w).err
    (writeRegister_frame s off w).ecode
  ram s off w _ _ _ h := errorInvariant_congr h (writeRam_frame s off w).err
    (writeRam_frame s off w).ecode
  fallback s i _ h := errorInvariant_congr h (fallback_frame i s).err
    (fallback_frame i s).ecode
  starts _ _ _ _ _ h := h
  completes _ _ _ _ h hrun := errorInvariant_run hrun h
  finishes _ _ _ _ h hrun := errorInvariant_run hrun h
  asserts _ h := h
  resets _ := errorInvariant_of_no_error rfl rfl

/-- Settles O57, by the parts of a step: `record_error` keeps the code of the first error, and no run touches either. -/
theorem everyStepKeepsTheErrorCodeLegal : Obligations.EveryStepKeepsTheErrorCodeLegal := by
  unfold Obligations.EveryStepKeepsTheErrorCodeLegal
  exact fun s t hs h => errorInvariant_kept.step_keeps hs h

/-! ## The in-flight snapshot (rules R205, R206) -/

/-- The checks of a command read the operand registers and the readiness flags alone. -/
theorem check_congr (i : Instr) {s t : State} (hops : t.operands = s.operands) (hseeded : t.cmwcSeeded = s.cmwcSeeded)
    (hperm : t.permReady = s.permReady) (hvalue : t.valueReady = s.valueReady) :
    (meaningOf i).check t = (meaningOf i).check s := by
  have hseed : ∀ g, t.seedCheck g = s.seedCheck g := fun g => by simp only [State.seedCheck, hseeded]
  have hpermCheck : t.permCheck = s.permCheck := by simp only [State.permCheck, hperm]
  have htables : t.tablesCheck = s.tablesCheck := by simp only [State.tablesCheck, hperm, hvalue]
  have hcoord : t.coordinateCheck = s.coordinateCheck := by simp only [State.coordinateCheck, hops]
  have hlength : t.lengthCheck = s.lengthCheck := by simp only [State.lengthCheck, hops]
  cases i with
  | nop | cmwcSeed | lerp => rfl
  | xsNext => exact congrArg (firstFailure [·]) (hseed .xs)
  | minstdNext => exact congrArg (firstFailure [·]) (hseed .minstd)
  | marsNext => exact congrArg (firstFailure [·]) (hseed .mars)
  | cmwcNext => exact congrArg (firstFailure [·]) (hseed .cmwc)
  | combNext => exact congrArg (firstFailure [·]) (hseed .comb)
  | double g | doubleAffine g | permBuild g | valueBuild g => exact congrArg (firstFailure [·]) (hseed g)
  | uniform g => simp only [meaningOf, uniformMeaning, hseed, hops]
  | shuffle g => simp only [meaningOf, shuffleMeaning, hseed, hlength]
  | shuffleIo g => simp only [meaningOf, shuffleIoMeaning, hseed, hlength]
  | hash => exact congrArg (firstFailure [·]) hpermCheck
  | latticeValue => exact congrArg (firstFailure [·]) htables
  | sampleBilinear => simp only [meaningOf, sampleBilinearMeaning, htables, hcoord]
  | sampleBicubic => simp only [meaningOf, sampleBicubicMeaning, htables, hcoord]
  | spline => simp only [meaningOf, splineMeaning, hops]

theorem flightInvariant_of_idle {s : State} (h : s.inflight = none) : s.flightInvariant := fun f hf => by
  rw [h] at hf
  cases hf

/-- The snapshot, the flags the checks read, and reset are all that the invariant speaks of. -/
theorem flightInvariant_congr {s t : State} (h : s.flightInvariant) (hf : t.inflight = s.inflight)
    (hops : t.operands = s.operands) (hseeded : t.cmwcSeeded = s.cmwcSeeded) (hperm : t.permReady = s.permReady)
    (hvalue : t.valueReady = s.valueReady) (hreset : t.inReset = s.inReset) : t.flightInvariant := by
  intro f hft
  obtain ⟨hsnap, hcheck, hr⟩ := h f (hf ▸ hft)
  have hsame := check_congr f.instr (s := { s with inflight := none }) (t := { t with inflight := none }) hops hseeded
    hperm hvalue
  exact ⟨hsnap.trans hops.symm, hsame.trans hcheck, hreset.trans hr⟩

theorem flightInvariant_begin {s : State} {i : Instr} (hr : s.inReset = false)
    (hc : (meaningOf i).check s = none) : (s.begin i).flightInvariant := by
  intro f hf
  cases hf
  exact ⟨rfl, (check_congr i (s := s) (t := { s.begin i with inflight := none }) rfl rfl rfl rfl).trans hc, hr⟩

theorem flightInvariant_kept : KeptByParts State.flightInvariant where
  bookkeeping _ _ _ _ h := flightInvariant_congr h rfl rfl rfl rfl rfl rfl
  record _ _ h := flightInvariant_congr h rfl rfl rfl rfl rfl rfl
  clear _ h := flightInvariant_congr h rfl rfl rfl rfl rfl rfl
  register s off w hi _ := flightInvariant_of_idle ((writeRegister_frame s off w).inflight.trans hi)
  ram s off w hi _ _ _ := flightInvariant_of_idle ((writeRam_frame s off w).inflight.trans hi)
  fallback s i hi _ := flightInvariant_of_idle ((fallback_frame i s).inflight.trans hi)
  starts _ _ _ hr hc _ := flightInvariant_begin hr hc
  completes _ _ _ hi _ hrun := flightInvariant_of_idle ((run_frame hrun).inflight.trans hi)
  finishes _ _ _ _ _ hrun := flightInvariant_of_idle (run_frame hrun).inflight
  asserts _ _ := flightInvariant_of_idle rfl
  resets _ := flightInvariant_of_idle rfl

/-- Settles O58, by the parts of a step: only `begin` puts a command in flight, and while one is no part changes what
the snapshot and the checks read. -/
theorem everyStepKeepsTheSnapshotEqualToTheRegisters : Obligations.EveryStepKeepsTheSnapshotEqualToTheRegisters := by
  unfold Obligations.EveryStepKeepsTheSnapshotEqualToTheRegisters
  exact fun s t hs h => flightInvariant_kept.step_keeps hs h

/-! ## The CMWC carry (rule R47) -/

theorem carryInvariant_congr {s t : State} (h : s.carryInvariant) (hseeded : t.cmwcSeeded = s.cmwcSeeded)
    (hcarry : t.cmwcCarry = s.cmwcCarry) : t.carryInvariant := by
  rw [State.carryInvariant, hseeded, hcarry]
  exact h

/-- The new carry is the high half of `18782 q + c` or one more, whatever the ring word and the old carry. -/
theorem cmwcStep_carry_le (q c : Word) : (cmwcStep q c).2.toNat ≤ 18783 := by
  have hq := q.isLt
  have hc := c.isLt
  rw [cmwcStep_eq]
  simp only [BitVec.toNat_ofNat]
  refine (Nat.mod_le _ _).trans ?_
  split <;> omega

theorem draw_carry (g : Gsel) (s : State) :
    (draw g s).2.cmwcCarry = s.cmwcCarry ∨ (draw g s).2.cmwcCarry.toNat ≤ 18783 := by
  cases g with
  | xs | minstd | mars => exact .inl rfl
  | cmwc | comb => exact .inr (cmwcStep_carry_le _ _)

theorem carryInvariant_draw (g : Gsel) {s : State} (h : s.carryInvariant) : (draw g s).2.carryInvariant := by
  rcases draw_carry g s with hc | hc
  · exact carryInvariant_congr h (draw_frame g s).cmwcSeeded hc
  · exact fun _ => .inr hc

/-- CMWC_SEED takes as the carry a scratch value below the threshold (rule R109). -/
theorem carryInvariant_cmwcSeed {o : Operands} {s t : State} (h : (meaningOf .cmwcSeed).run o s = some t) :
    t.carryInvariant := by
  rw [cmwcSeed_run] at h
  obtain ⟨c, hc, rfl⟩ := seedCmwc_some h
  obtain ⟨k, -, -, hacc, rfl⟩ := seedCarry_some hc
  have hlt := (carryAccepted_iff one_le_cmwcCMax _).1 hacc
  refine fun _ => .inl (lt_of_le_of_lt ?_ hlt)
  rw [BitVec.toNat_ofNat]
  exact Nat.mod_le _ _

theorem carryInvariant_run {i : Instr} {o : Operands} {s t : State} (hrun : (meaningOf i).run o s = some t)
    (h : s.carryInvariant) : t.carryInvariant := by
  by_cases hi : i = .cmwcSeed
  · subst hi
    exact carryInvariant_cmwcSeed hrun
  · obtain ⟨u, lo, hi', hu, rfl, -⟩ := run_effect hrun
    have hkept : u.carryInvariant := hu.keeps h (fun _ hseed => absurd hseed hi) (fun g u _ => carryInvariant_draw g)
      (fun _ _ _ _ hu => carryInvariant_congr hu rfl rfl)
    refine carryInvariant_congr hkept ?_ rfl
    cases i with
    | cmwcSeed => exact absurd rfl hi
    | _ => rfl

theorem carryInvariant_kept : KeptByParts State.carryInvariant where
  bookkeeping _ _ _ _ h := h
  record _ _ h := h
  clear _ h := h
  register s off w _ h := carryInvariant_congr h (writeRegister_frame s off w).cmwcSeeded
    (writeRegister_frame s off w).cmwcCarry
  ram s off w _ _ _ h := carryInvariant_congr h (writeRam_frame s off w).cmwcSeeded
    (writeRam_frame s off w).cmwcCarry
  fallback s i _ h := carryInvariant_congr h (fallback_frame i s).cmwcSeeded
    (fallback_frame i s).cmwcCarry
  starts _ _ _ _ _ h := h
  completes _ _ _ _ h hrun := carryInvariant_run hrun h
  finishes _ _ _ _ h hrun := carryInvariant_run hrun h
  asserts _ h := h
  resets _ h := nomatch h

/-- Settles O56, by the parts of a step: a CMWC draw bounds the carry by itself (`cmwcStep_carry_le`), and CMWC_SEED
accepts one below the threshold. -/
theorem everyStepKeepsTheCarryBounded : Obligations.EveryStepKeepsTheCarryBounded := by
  unfold Obligations.EveryStepKeepsTheCarryBounded
  exact fun s t hs h => carryInvariant_kept.step_keeps hs h

end Sys2Proof.Machine
end

section
/-! Everything a step can do other than the release of reset (rules R210, R227), by what it does to the state after the
bookkeeping of its event; and what is read off that: errors are sticky (rules R222, R229), CMWC_SEEDED ends with reset
(rule R254), the RAM keeps its form, and a ready value table stays in [0, 1] (rule R46). Last, the reset state, which
meets every invariant (rules R250, R251). -/

namespace Sys2Proof.Machine

/-! ## Step inversion -/

/-- The ways a step from `s` goes on from the state `u`, which is `s` after the bookkeeping of the event. -/
inductive StepOutcome (s u : State) : State → Prop where
  | same : StepOutcome s u u
  | asserted : StepOutcome s u u.assertReset
  | recorded (k : ErrorCode) : StepOutcome s u (u.recordError k)
  | cleared (w : Word) : w.getLsbD 1 = true → s.inReset = false →
      s.arrivals.head? = some (.write 0x008#15 .bits32 w) → StepOutcome s u u.clearError
  | ram (off : Nat) (w : Word) : isRamOffset off = true → off % 4 = 0 → StepOutcome s u (u.writeRam off w)
  | register (off : Nat) (w : Word) : StepOutcome s u (u.writeRegister off w)
  | rejected (i : Instr) (k : ErrorCode) : StepOutcome s u (((meaningOf i).fallback u).recordError k)
  | started (i : Instr) : StepOutcome s u (u.begin i)
  /-- The run of a command just issued, whose checks have passed. -/
  | ranIssued (i : Instr) (t : State) : (meaningOf i).check u = none → (meaningOf i).run u.operands u = some t →
      StepOutcome s u t
  /-- The run of the command in flight. -/
  | ranInFlight (f : InFlight) (t : State) : u.inflight = some f →
      (meaningOf f.instr).run f.ops { u with inflight := none } = some t → StepOutcome s u t

/-- The state after the bookkeeping of an event: the events still to come, the response, and the count of unspecified
reads. -/
def State.booked (s : State) (arrivals : List PortEvent) (reply : Response) (freeReads : Nat) : State :=
  { s with arrivals := arrivals, reply := reply, freeReads := freeReads }

theorem StepOutcome.exec {s u t : State} {i : Instr} (h : exec i u = .next t) : StepOutcome s u t := by
  rw [exec_eq_perform] at h
  rcases perform_cases h with ⟨_, rfl⟩ | ⟨_, k, _, rfl⟩ | ⟨_, hc, hrun⟩ | ⟨_, _, _, rfl⟩
  · exact .recorded _
  · exact .rejected i k
  · exact .ranIssued i t hc hrun
  · exact .started i

theorem StepOutcome.issue (s u : State) (i : Instr) : StepOutcome s u (u.issue i (meaningOf i)) := by
  rcases issue_cases u i (meaningOf i) with ⟨k, _, h⟩ | ⟨_, h⟩
  · rw [h]
    exact .rejected i k
  · rw [h]
    exact .started i

theorem StepOutcome.complete (s u : State) : StepOutcome s u u.complete := by
  rcases complete_cases u with h | ⟨f, hf, hrun⟩
  · rw [h]
    exact .same
  · exact .ranInFlight f _ hf hrun

theorem dropCompletion_eq (s : State) : ∃ rest, s.dropCompletion = { s with arrivals := rest } := by
  unfold State.dropCompletion
  split
  · exact ⟨_, rfl⟩
  · exact ⟨s.arrivals, rfl⟩

/-- A 32-bit write of the first event to the STATUS offset. -/
theorem StepOutcome.writeStatus {s : State} (u : State) {off : Offset} {w : Word} (hr : s.inReset = false)
    (hev : s.arrivals.head? = some (.write off .bits32 w)) (hoff : off.toNat = offStatus) :
    StepOutcome s u (u.writeStatus w) := by
  obtain rfl : off = 0x008#15 := (offset_eq_iff off 0x008#15).2 hoff
  unfold State.writeStatus
  split
  · exact .cleared w ‹_› hr hev
  · exact .same

theorem StepOutcome.writeWord {s : State} (u : State) {off : Offset} {w : Word} (hr : s.inReset = false)
    (hev : s.arrivals.head? = some (.write off .bits32 w)) (h4 : off.toNat % 4 = 0) :
    StepOutcome s u (u.writeWord off.toNat w) := by
  unfold State.writeWord
  split
  · exact .writeStatus u hr hev ‹_›
  · split
    · exact .ram _ w ‹_› h4
    · exact .register _ w

theorem writeCommand_cases {s u t : State} {w : Word} (h : writeCommand w u = .next t) :
    ∃ rest, StepOutcome s { u with arrivals := rest } t := by
  unfold writeCommand at h
  split at h
  · cases h
    exact ⟨u.arrivals, .recorded _⟩
  · split at h
    · obtain ⟨rest, hrest⟩ := dropCompletion_eq u
      rw [hrest] at h
      exact ⟨rest, .exec h⟩
    · cases h
      exact ⟨u.arrivals, .issue s u _⟩

/-- One host write out of reset. -/
theorem step_write_cases {s t : State} {off : Offset} {width : Width} {w : Word} {rest : List PortEvent}
    (hr : s.inReset = false) (harr : s.arrivals = .write off width w :: rest) (h : step s = .next t) :
    ∃ arrivals reply, StepOutcome s (s.booked arrivals reply s.freeReads) t := by
  have hs : s = { s with arrivals := .write off width w :: rest } := by rw [← harr]
  have hdel : deliverWrite off width w { s with arrivals := rest } = .next t := by
    rw [← step_write off width w rest hr, ← hs]
    exact h
  by_cases hok : width ≠ .bits32 ∨ off.toNat % 4 ≠ 0
  · rw [deliverWrite, accessOk_eq_false hok] at hdel
    cases hdel
    exact ⟨rest, .busError, .same⟩
  · obtain ⟨rfl, h4⟩ : width = .bits32 ∧ off.toNat % 4 = 0 := by simpa using hok
    have hev : s.arrivals.head? = some (.write off .bits32 w) := by rw [harr]; rfl
    cases hb : State.busy { s with arrivals := rest } with
    | true =>
      rw [deliverWrite_busy w h4 hb, State.writeWhileBusy] at hdel
      cases hdel
      refine ⟨rest, .accepted, ?_⟩
      split
      · exact .writeStatus _ hr hev ‹_›
      · exact .recorded _
    | false =>
      by_cases hcmd : off.toNat = offCmd
      · obtain rfl : off = BitVec.ofNat 15 offCmd := (offset_eq_iff off _).2 hcmd
        rw [deliverWrite_command w hb] at hdel
        obtain ⟨arrivals, hout⟩ := writeCommand_cases (s := s) hdel
        exact ⟨arrivals, .accepted, hout⟩
      · rw [deliverWrite_idle w h4 hb hcmd] at hdel
        cases hdel
        exact ⟨rest, .accepted, .writeWord _ hr hev h4⟩

/-- Everything a step can do: release reset, or one of the outcomes. -/
theorem step_cases {s t : State} (h : step s = .next t) :
    (s.inReset = true ∧ s.arrivals.head? = some .resetRelease ∧ ∃ u : State, t = u.afterReset) ∨
    ∃ arrivals reply freeReads, StepOutcome s (s.booked arrivals reply freeReads) t := by
  cases harr : s.arrivals with
  | nil =>
    have hs : s = { s with arrivals := [] } := by rw [← harr]
    cases hr : s.inReset with
    | true =>
      rw [hs, step_no_event_inReset hr] at h
      cases h
      exact .inr ⟨[], s.reply, s.freeReads, .same⟩
    | false =>
      rw [hs, step_no_event hr] at h
      cases h
      exact .inr ⟨[], s.reply, s.freeReads, .complete s _⟩
  | cons e rest =>
    have hs : s = { s with arrivals := e :: rest } := by rw [← harr]
    cases hr : s.inReset with
    | true =>
      rw [hs, step_event, deliver_inReset (s := { s with arrivals := rest }) e hr] at h
      cases e with
      | read | write =>
        cases h
        exact .inr ⟨rest, .unanswered, s.freeReads, .same⟩
      | completion | resetAssert =>
        cases h
        exact .inr ⟨rest, .none, s.freeReads, .same⟩
      | resetRelease =>
        cases h
        exact .inl ⟨rfl, rfl, _, rfl⟩
    | false =>
      refine .inr ?_
      cases e with
      | read off width =>
        obtain ⟨r, n, hread⟩ := deliverRead_changes_reply_alone { s with arrivals := rest } off width
        rw [hs, step_read off width rest hr, hread] at h
        cases h
        exact ⟨rest, r, n, .same⟩
      | write off width w =>
        obtain ⟨arrivals, reply, hout⟩ := step_write_cases hr harr h
        exact ⟨arrivals, reply, s.freeReads, hout⟩
      | completion =>
        rw [hs, step_completion rest hr] at h
        cases h
        exact ⟨rest, .none, s.freeReads, .complete s _⟩
      | resetAssert =>
        rw [hs, step_event, deliver, if_neg (by simp [hr])] at h
        cases h
        exact ⟨rest, .none, s.freeReads, .asserted⟩
      | resetRelease =>
        rw [hs, step_event, deliver, if_neg (by simp [hr])] at h
        cases h
        exact ⟨rest, .none, s.freeReads, .same⟩

/-! ## Errors are sticky (rules R222, R229) -/

theorem StepOutcome.error_kept {s u t : State} (h : StepOutcome s u t) (herr : u.err = true)
    (hclear : ¬ (s.inReset = false ∧
      ∃ w : Word, w.getLsbD 1 = true ∧ s.arrivals.head? = some (.write 0x008#15 .bits32 w))) :
    t.err = true ∧ t.ecode = u.ecode := by
  cases h with
  | same | asserted | started => exact ⟨herr, rfl⟩
  | recorded k => exact ⟨rfl, if_pos herr⟩
  | cleared w hw hr hev => exact absurd ⟨hr, w, hw, hev⟩ hclear
  | ram off w =>
    have hf := writeRam_frame u off w
    exact ⟨hf.err.trans herr, hf.ecode⟩
  | register off w =>
    have hf := writeRegister_frame u off w
    exact ⟨hf.err.trans herr, hf.ecode⟩
  | rejected i k =>
    have hf := fallback_frame i u
    exact ⟨rfl, (if_pos (hf.err.trans herr)).trans hf.ecode⟩
  | ranIssued i t _ hrun => exact ⟨(run_frame hrun).err.trans herr, (run_frame hrun).ecode⟩
  | ranInFlight f t _ hrun => exact ⟨(run_frame hrun).err.trans herr, (run_frame hrun).ecode⟩

/-- Settles O44: of all a step can do (`step_cases`), only the excluded STATUS write and the release of reset clear an
error. -/
theorem errorIsStickyUntilClearedOrReset : Obligations.ErrorIsStickyUntilClearedOrReset := by
  unfold Obligations.ErrorIsStickyUntilClearedOrReset
  intro s t herr h hrelease hclear
  rcases step_cases h with ⟨hr, hev, -⟩ | ⟨arrivals, reply, freeReads, hout⟩
  · exact absurd ⟨hr, hev⟩ hrelease
  · exact hout.error_kept (u := s.booked arrivals reply freeReads) herr hclear

/-! ## The readiness flags (rules R36, R254) -/

theorem seededAfter_true (i : Instr) : seededAfter i true = true := by
  cases i with
  | _ => rfl

theorem StepOutcome.seeded_kept {s u t : State} (h : StepOutcome s u t) (hu : u.cmwcSeeded = true) :
    t.cmwcSeeded = true := by
  cases h with
  | same | asserted | started | recorded | cleared => exact hu
  | ram off w => exact (writeRam_frame u off w).cmwcSeeded.trans hu
  | register off w => exact (writeRegister_frame u off w).cmwcSeeded.trans hu
  | rejected i k => exact (fallback_frame i u).cmwcSeeded.trans hu
  | ranIssued i t _ hrun => rw [(run_flags hrun).1, hu, seededAfter_true]
  | ranInFlight f t _ hrun =>
    have hf : State.cmwcSeeded { u with inflight := none } = true := hu
    rw [(run_flags hrun).1, hf, seededAfter_true]

/-- Settles O45: the flags after a run are functions of the command and the flags before (`run_flags`), read off
command by command; and no outcome of a step clears CMWC_SEEDED but the release of reset. -/
theorem readinessFlagsFollowTheirCommands : Obligations.ReadinessFlagsFollowTheirCommands := by
  unfold Obligations.ReadinessFlagsFollowTheirCommands
  refine ⟨fun i s t hs hcheck hexec ht => ?_, fun s t hs h hrelease => ?_⟩
  · obtain ⟨hseeded, hperm, hvalue⟩ := run_flags (run_of_exec_completes hs hcheck hexec ht)
    rw [hseeded, hperm, hvalue]
    refine ⟨?_, fun g => ⟨?_, ?_⟩, fun hne => ?_, fun g => ?_, fun hne => ?_⟩
    · cases i with
      | _ => rfl
    · rintro rfl
      rfl
    · rintro (rfl | rfl)
      · rfl
      · rfl
    · cases i with
      | permBuild g => exact absurd rfl (hne g).1
      | shuffle g => exact absurd rfl (hne g).2.1
      | shuffleIo g => exact absurd rfl (hne g).2.2
      | _ => rfl
    · rintro rfl
      rfl
    · cases i with
      | valueBuild g => exact absurd rfl (hne g)
      | _ => rfl
  · rcases step_cases h with ⟨hr, hev, -⟩ | ⟨arrivals, reply, freeReads, hout⟩
    · exact absurd ⟨hr, hev⟩ hrelease
    · exact hout.seeded_kept (u := s.booked arrivals reply freeReads) hs

/-! ## Properties of the tables, under the premise that the command in flight passed its checks -/

/-- A property of the RAM and VALUE_READY that a RAM write, the run of a command that passed its checks, and reset
keep. -/
structure TablesProperty (P : State → Prop) : Prop where
  congr : ∀ {u t : State}, P u → t.mem = u.mem → t.resets = u.resets → t.valueReady = u.valueReady → P t
  ram : ∀ (u : State) off w, isRamOffset off = true → off % 4 = 0 → P u → P (u.writeRam off w)
  run : ∀ {i : Instr} {u t : State}, (meaningOf i).check u = none → (meaningOf i).run u.operands u = some t → P u → P t
  reset : ∀ u : State, P u.afterReset

theorem TablesProperty.outcome {P : State → Prop} (hP : TablesProperty P) {s u t : State} (h : StepOutcome s u t)
    (hf : u.flightInvariant) (hu : P u) : P t := by
  cases h with
  | same => exact hu
  | asserted | started | recorded | cleared => exact hP.congr hu rfl rfl rfl
  | ram off w hoff h4 => exact hP.ram u off w hoff h4 hu
  | register off w =>
    have hw := writeRegister_frame u off w
    exact hP.congr hu hw.mem hw.resets hw.valueReady
  | rejected i k =>
    have hw := fallback_frame i u
    exact hP.congr hu hw.mem hw.resets hw.valueReady
  | ranIssued i t hc hrun => exact hP.run hc hrun hu
  | ranInFlight f t hfl hrun =>
    obtain ⟨hsnap, hc, -⟩ := hf f hfl
    rw [hsnap] at hrun
    exact hP.run hc hrun (hP.congr hu rfl rfl rfl)

theorem TablesProperty.step_keeps {P : State → Prop} (hP : TablesProperty P) {s t : State} (hf : s.flightInvariant)
    (hs : P s) (h : step s = .next t) : P t := by
  rcases step_cases h with ⟨-, -, u, rfl⟩ | ⟨arrivals, reply, freeReads, hout⟩
  · exact hP.reset u
  · exact hP.outcome hout (flightInvariant_congr hf rfl rfl rfl rfl rfl rfl) (hP.congr hs rfl rfl rfl)

theorem permCount_le_of_check {i : Instr} {s : State} (h : (meaningOf i).check s = none) :
    permCount i s.operands ≤ 256 := by
  cases i with
  | shuffle | shuffleIo => exact (lengthCheck_passed h).2
  | permBuild => exact le_rfl
  | _ => exact Nat.zero_le 256

/-! ## The RAM keeps its form (log entry 4) -/

theorem storesWord_isRamWord {i : Instr} {o : Operands} {a : Nat} (hcount : permCount i o ≤ 256)
    (h : storesWord i o a) :
    a % 4 = 0 ∧ isRamOffset a = true := by
  have hvalues : valueWords i ≤ 256 := by
    cases i with
    | valueBuild => exact le_rfl
    | _ => exact Nat.zero_le 256
  rw [isRamOffset_iff]
  rcases h with ⟨k, hk, rfl⟩ | ⟨k, hk, rfl | rfl⟩
  · unfold permOff
    omega
  · unfold valueOff
    omega
  · unfold valueOff
    omega

theorem wf_seedRing {n k : Nat} (t : Nat) {m : Memory} (hk : k + n ≤ 4096) (hm : Memory.wf m = true) :
    Memory.wf (seedRing n k t m).2 = true := by
  induction n generalizing k t with
  | zero => exact hm
  | succ n ih => exact Memory.wf_writeQ _ (ih (minstdStep t) (by omega)) (by omega)

theorem memInvariant_seeded {n : Nat} {s : State} (hn : n ≤ 4096) (seed : Word) (c : Nat) (h : s.memInvariant) :
    (s.seeded (seededMem n s seed) c).memInvariant := wf_seedRing (k := 0) _ (by omega) h

theorem memInvariant_draw (g : Gsel) {s : State} (h : s.memInvariant) : (draw g s).2.memInvariant := by
  rcases draw_mem g s with hm | ⟨w, hm⟩
  · exact (congrArg Memory.wf hm).trans h
  · exact (congrArg Memory.wf hm).trans (Memory.wf_writeQ w h s.nextIndex.isLt)

theorem memInvariant_run {i : Instr} {s t : State} (hc : (meaningOf i).check s = none)
    (hrun : (meaningOf i).run s.operands s = some t) (h : s.memInvariant) : t.memInvariant := by
  obtain ⟨u, lo, hi, hu, rfl, -⟩ := run_effect hrun
  refine hu.keeps h (fun c _ => ?_) (fun g u _ => memInvariant_draw g) (fun u a w ha hu => ?_)
  · exact memInvariant_seeded (n := Config.cmwcN) le_rfl _ c h
  · obtain ⟨h4, hram⟩ := storesWord_isRamWord (permCount_le_of_check hc) ha
    exact Memory.wf_writeWord w hu h4 hram

theorem memInvariant_tables : TablesProperty State.memInvariant where
  congr h hm _ _ := (congrArg Memory.wf hm).trans h
  ram u off w hoff h4 h := by
    have hword : (u.setWord off w).memInvariant := Memory.wf_writeWord w h h4 hoff
    rcases writeRam_cases u off w with ⟨_, he⟩ | ⟨_, _, he⟩ | ⟨_, _, he⟩ | ⟨_, _, he⟩ | ⟨_, he⟩
    · rwa [he]
    · rwa [he]
    · rwa [he]
    · rwa [he]
    · rwa [he]
  run hc hrun h := memInvariant_run hc hrun h
  reset _ := rfl

/-- Settles O59: every store of a step is of a word at an aligned RAM offset (`storesWord_isRamWord`), and such a
store keeps the form. -/
theorem everyStepKeepsTheRamCanonical : Obligations.EveryStepKeepsTheRamCanonical := by
  unfold Obligations.EveryStepKeepsTheRamCanonical
  exact fun s t hf hs h => memInvariant_tables.step_keeps hf hs h

/-! ## A ready value table stays in [0.0, 1.0] (rule R46) -/

theorem value_eq_of_bytes {s t : State} (h : ∀ a, 0x1000 ≤ a → a < 0x1800 → t.byteAt a = s.byteAt a) {k : Nat}
    (hk : k < 256) : t.value k = s.value k := by
  have hword : ∀ a, 0x1000 ≤ a → a + 4 ≤ 0x1800 → t.wordAt a = s.wordAt a := fun a _ _ =>
    wordAt_congr fun _ _ => h _ (by omega) (by omega)
  unfold State.value State.dwordAt valueOff
  rw [hword _ (by omega) (by omega), hword _ (by omega) (by omega)]

theorem valueInvariant_congr {s t : State} (h : s.valueInvariant) (hready : t.valueReady = s.valueReady)
    (hbytes : ∀ a, 0x1000 ≤ a → a < 0x1800 → t.byteAt a = s.byteAt a) : t.valueInvariant := by
  intro ht k hk
  rw [value_eq_of_bytes hbytes hk]
  exact h (hready.symm.trans ht) k hk

/-- Every entry VALUE_BUILD stores is a drawn double. -/
theorem valueInvariant_valueBuild {g : Gsel} {o : Operands} {s t : State}
    (h : (meaningOf (.valueBuild g)).run o s = some t) : t.valueInvariant := by
  simp only [meaningOf, valueBuildMeaning, Config.permN] at h
  rw [fillValues_eq_storeValues g s le_rfl] at h
  obtain rfl := Option.some.inj h
  intro _ k hk
  rw [value_setValueReady, value_storeValues _ _ hk]
  exact doubleOfWord_inUnit _

theorem valueInvariant_run {i : Instr} {s t : State} (hc : (meaningOf i).check s = none)
    (hrun : (meaningOf i).run s.operands s = some t) (h : s.valueInvariant) : t.valueInvariant := by
  by_cases hi : ∃ g, i = .valueBuild g
  · obtain ⟨g, rfl⟩ := hi
    exact valueInvariant_valueBuild hrun
  · have hflag : valueReadyAfter i s.valueReady = s.valueReady ∧ valueWords i = 0 := by
      cases i with
      | valueBuild g => exact absurd ⟨g, rfl⟩ hi
      | _ => exact ⟨rfl, rfl⟩
    obtain ⟨hready, hwords⟩ := hflag
    refine valueInvariant_congr h ((run_flags hrun).2.2.trans hready) fun a hlo hhi => ?_
    have hcount := permCount_le_of_check hc
    obtain ⟨u, lo, hi', hu, rfl, -⟩ := run_effect hrun
    refine (byteAt_congr (t := u) rfl rfl a).trans (hu.byteAt_unnamed ?_)
    unfold mayStoreTo
    rw [← permCount_operands, hwords]
    omega

theorem valueInvariant_tables : TablesProperty State.valueInvariant where
  congr h hm hr hready := valueInvariant_congr h hready fun a _ _ => byteAt_congr hm hr a
  ram u off w _ _ h := by
    have hkept (hout : off + 4 ≤ 0x1000 ∨ 0x1800 ≤ off) (a : Nat) (hlo : 0x1000 ≤ a) (hhi : a < 0x1800) :
        (u.setWord off w).byteAt a = u.byteAt a := byteAt_setWord_outside u w (by omega)
    rcases writeRam_cases u off w with ⟨_, he⟩ | ⟨_, _, he⟩ | ⟨_, _, he⟩ | ⟨_, _, he⟩ | ⟨_, he⟩
    · rw [he]
      exact valueInvariant_congr h rfl (hkept (.inl (by omega)))
    · rw [he]
      exact valueInvariant_congr h rfl (hkept (.inl (by omega)))
    · rw [he]
      exact nofun
    · rw [he]
      exact valueInvariant_congr h rfl (hkept (.inr (by omega)))
    · rwa [he]
  run hc hrun h := valueInvariant_run hc hrun h
  reset _ := nofun

/-- Settles O55: a host write to `VALUE` clears the flag, VALUE_BUILD stores drawn doubles, and no other command that
passed its checks stores to `VALUE`. -/
theorem everyStepKeepsValuesInUnitWhileReady : Obligations.EveryStepKeepsValuesInUnitWhileReady := by
  unfold Obligations.EveryStepKeepsValuesInUnitWhileReady
  exact fun s t hf hs h => valueInvariant_tables.step_keeps hf hs h

/-! ## Reset (rules R250, R251) -/

theorem afterReset_reads (s : State) : s.afterReset.readWord 0x000 = 0x524E4731#32 ∧
    s.afterReset.readWord 0x034 = 0x000A0301#32 := by
  have hshift : s.afterReset.readWord 0x034 = State.reset.readWord 0x034 := rfl
  exact ⟨rfl, hshift.trans (by decide)⟩

/-- Settles O53: while reset is asserted every event is `deliverInReset`, and what reset leaves is `afterReset`. -/
theorem resetRestoresEveryRegister : Obligations.ResetRestoresEveryRegister := by
  unfold Obligations.ResetRestoresEveryRegister
  refine fun s rest => ⟨fun hr => ?_, fun hr off width w => ?_, fun hr => ?_⟩
  · rw [step_event, deliver, if_neg (by simp [hr])]
    rfl
  · rw [step_event, step_event, deliver_inReset (s := { s with arrivals := rest }) _ hr,
      deliver_inReset (s := { s with arrivals := rest }) _ hr]
    exact ⟨rfl, rfl⟩
  · refine ⟨_, deliver_inReset (s := { s with arrivals := rest }) .resetRelease hr, ?_⟩
    have hreads := afterReset_reads { s with arrivals := rest, reply := .none }
    exact ⟨rfl, rfl, rfl, hreads.1, rfl, rfl, rfl, rfl, rfl, rfl, rfl, rfl, rfl, rfl, rfl, rfl, rfl, rfl, hreads.2, rfl,
      rfl, rfl, rfl, rfl, fun _ => rfl⟩

/-- Settles O60: no flag is set, no command is in flight and no RAM byte is written. -/
theorem resetStateMeetsTheInvariants : Obligations.ResetStateMeetsTheInvariants := by
  unfold Obligations.ResetStateMeetsTheInvariants
  exact ⟨nofun, nofun, nofun, errorInvariant_of_no_error rfl rfl, flightInvariant_of_idle rfl, rfl⟩

end Sys2Proof.Machine
end

section
/-! The shuffles permute words (rules R152(b), R156(c)): an exchange permutes the `PERM` words it is among, a
placement of the inside-out shuffle is a store and an exchange, and draws touch no `PERM` or `SRC` word. PERM_BUILD
permutes the identity, so it leaves a bijection (rules R45, R160). -/

namespace Sys2Proof.Machine

/-! ## One exchange and one placement as permutations -/

/-- The words `PERM[0..m-1]`, in index order. -/
def permList (m : Nat) (s : State) : List Word := (List.range m).map s.perm

theorem permList_congr {m : Nat} {s t : State} (h : ∀ k < m, t.perm k = s.perm k) : permList m t = permList m s :=
  List.map_congr_left fun k hk => h k (List.mem_range.1 hk)

theorem permList_succ (m : Nat) (s : State) : permList (m + 1) s = permList m s ++ [s.perm m] := by
  rw [permList, List.range_succ, List.map_append]
  rfl

theorem map_swap_range_perm {m i j : Nat} (hi : i < m) (hj : j < m) :
    ((List.range m).map (Equiv.swap i j)).Perm (List.range m) := by
  rw [List.perm_ext_iff_of_nodup (List.nodup_range.map (Equiv.injective _)) List.nodup_range]
  intro k
  have hmem : Equiv.swap i j k < m ↔ k < m := by
    rcases eq_or_ne k i with rfl | hki
    · simp [hi, hj]
    · rcases eq_or_ne k j with rfl | hkj
      · simp [hi, hj]
      · rw [Equiv.swap_apply_of_ne_of_ne hki hkj]
  rw [List.mem_range, ← hmem, List.mem_map]
  refine ⟨?_, fun hk => ⟨_, List.mem_range.2 hk, Equiv.swap_apply_self i j k⟩⟩
  rintro ⟨l, hl, rfl⟩
  rw [Equiv.swap_apply_self]
  exact List.mem_range.1 hl

theorem perm_swapPerm (s : State) (i j k : Nat) : (s.swapPerm i j).perm k = s.perm (Equiv.swap i j k) := by
  rcases eq_or_ne k i with rfl | hki
  · rw [perm_swapPerm_left, Equiv.swap_apply_left]
  · rcases eq_or_ne k j with rfl | hkj
    · rw [perm_swapPerm_right, Equiv.swap_apply_right]
    · rw [swapPerm_eq, perm_setPerm_other _ _ hkj, perm_setPerm_other _ _ hki, Equiv.swap_apply_of_ne_of_ne hki hkj]

theorem permList_swapPerm (s : State) {m i j : Nat} (hi : i < m) (hj : j < m) :
    (permList m (s.swapPerm i j)).Perm (permList m s) := by
  have hmap : permList m (s.swapPerm i j) = ((List.range m).map (Equiv.swap i j)).map s.perm := by
    rw [List.map_map]
    exact List.map_congr_left fun k _ => perm_swapPerm s i j k
  rw [hmap]
  exact (map_swap_range_perm hi hj).map s.perm

/-- A placement puts the new word at its own index and exchanges it with the drawn one. -/
theorem perm_placeInsideOut (s : State) (i j k : Nat) :
    (s.placeInsideOut i j).perm k = ((s.setPerm i (s.src i)).swapPerm i j).perm k := by
  rw [perm_swapPerm]
  rcases eq_or_ne j i with rfl | hji
  · rw [placeInsideOut_same, Equiv.swap_self, Equiv.refl_apply]
  · rw [placeInsideOut_other s i j hji]
    rcases eq_or_ne k j with rfl | hkj
    · rw [Equiv.swap_apply_right, perm_setPerm_same, perm_setPerm_same]
    · rw [perm_setPerm_other _ _ hkj]
      rcases eq_or_ne k i with rfl | hki
      · rw [Equiv.swap_apply_left, perm_setPerm_same, perm_setPerm_other _ _ hji]
      · rw [Equiv.swap_apply_of_ne_of_ne hki hkj, perm_setPerm_other _ _ hki, perm_setPerm_other _ _ hki]

theorem permList_placeInsideOut (s : State) {i j : Nat} (hj : j ≤ i) :
    (permList (i + 1) (s.placeInsideOut i j)).Perm (permList i s ++ [s.src i]) := by
  have hlist : permList (i + 1) (s.placeInsideOut i j) = permList (i + 1) ((s.setPerm i (s.src i)).swapPerm i j) :=
    permList_congr fun k _ => perm_placeInsideOut s i j k
  have hstored : permList (i + 1) (s.setPerm i (s.src i)) = permList i s ++ [s.src i] := by
    rw [permList_succ, perm_setPerm_same, permList_congr fun k hk => perm_setPerm_other s (s.src i) (by omega)]
  rw [hlist, ← hstored]
  exact permList_swapPerm _ (Nat.lt_succ_self i) (Nat.lt_succ_of_le hj)

/-! ## Draws and placements keep the words -/

/-- The rejection loop of `uniform` stores to no byte below the ring. -/
theorem uniformDraw_byteAt_below {g : Gsel} {lower upper r : Word} {s t : State}
    (h : uniformDraw g lower upper s = some (r, t)) {a : Nat} (ha : a < 0x4000) : t.byteAt a = s.byteAt a := by
  obtain ⟨k, hk⟩ := uniformDraw_runsTo (allowed := fun _ => False) h
  exact hk.keeps (P := fun u => u.byteAt a = s.byteAt a) (fun u hu => (draw_byteAt_below g u ha).trans hu)
    (fun _ _ _ hno _ => hno.elim) rfl

theorem perm_eq_of_bytes {s t : State} {k : Nat}
    (h : ∀ a, permOff k ≤ a → a < permOff k + 4 → t.byteAt a = s.byteAt a) :
    t.perm k = s.perm k :=
  wordAt_congr fun _ _ => h _ (by omega) (by omega)

theorem src_eq_of_bytes {s t : State} {k : Nat} (h : ∀ a, srcOff k ≤ a → a < srcOff k + 4 → t.byteAt a = s.byteAt a) :
    t.src k = s.src k :=
  wordAt_congr fun _ _ => h _ (by omega) (by omega)

section uniform
variable {g : Gsel} {lower upper r : Word} {s t : State} {k : Nat}

theorem uniformDraw_perm (h : uniformDraw g lower upper s = some (r, t)) (hk : k < 256) : t.perm k = s.perm k :=
  perm_eq_of_bytes fun a _ ha => uniformDraw_byteAt_below h (by unfold permOff at ha; omega)

theorem uniformDraw_src (h : uniformDraw g lower upper s = some (r, t)) (hk : k < 256) : t.src k = s.src k :=
  src_eq_of_bytes fun a _ ha => uniformDraw_byteAt_below h (by unfold srcOff at ha; omega)

end uniform

theorem src_placeInsideOut (s : State) {i j k : Nat} (hi : i < 256) (hj : j < 256) :
    (s.placeInsideOut i j).src k = s.src k :=
  src_eq_of_bytes fun a ha _ => byteAt_placeInsideOut_outside s i j (by unfold srcOff at ha; unfold permOff; omega)
    (by unfold srcOff at ha; unfold permOff; omega)

/-! ## The two procedures -/

theorem shufflePasses_permList {g : Gsel} {n m : Nat} {s t : State} (hn : n < m) (hm : m ≤ 256)
    (h : shufflePasses g n s = some t) : (permList m t).Perm (permList m s) := by
  induction n generalizing s with
  | zero =>
    cases h
    exact .refl _
  | succ n ih =>
    simp only [shufflePasses] at h
    split at h
    · rename_i j u hu
      have hj := uniformDraw_zero_le hu
      have hdrawn : permList m u = permList m s := permList_congr fun k hk => uniformDraw_perm hu (by omega)
      rw [← hdrawn]
      exact (ih (by omega) h).trans (permList_swapPerm u hn (by omega))
    · cases h

/-- From `PERM[0..i-1]` a permutation of the first `i` source words, the steps from `i` on make `PERM[0..i+n-1]` one
of the first `i + n`. -/
theorem shuffleIoSteps_permList {g : Gsel} {n i : Nat} {s t : State} {f : Nat → Word} (hn : i + n ≤ 256)
    (h : shuffleIoSteps g n i s = some t) (hsrc : ∀ k < 256, s.src k = f k)
    (hs : (permList i s).Perm ((List.range i).map f)) : (permList (i + n) t).Perm ((List.range (i + n)).map f) := by
  induction n generalizing s i with
  | zero =>
    cases h
    exact hs
  | succ n ih =>
    simp only [shuffleIoSteps] at h
    split at h
    · rename_i j u hu
      have hj := uniformDraw_zero_le hu
      have hsrcU : ∀ k < 256, u.src k = f k := fun k hk => (uniformDraw_src hu hk).trans (hsrc k hk)
      have hlistU : permList i u = permList i s := permList_congr fun k hk => uniformDraw_perm hu (by omega)
      have hplaced : (permList (i + 1) (u.placeInsideOut i j.toNat)).Perm ((List.range (i + 1)).map f) := by
        refine (permList_placeInsideOut u hj).trans ?_
        rw [hlistU, hsrcU i (by omega), List.range_succ, List.map_append]
        exact hs.append_right _
      rw [show i + (n + 1) = i + 1 + n by omega] at hn ⊢
      exact ih hn h (fun k hk => (src_placeInsideOut u (by omega) (by omega)).trans (hsrcU k hk)) hplaced
    · cases h

/-- A shuffle of length `n` keeps `PERM[n..255]` and `SRC`. -/
theorem shuffle_keeps_rest {i : Instr} {g : Gsel} {s t : State} (hi : i = .shuffle g ∨ i = .shuffleIo g)
    (hn : s.opaLo.toNat ≤ 256) (h : (meaningOf i).run s.operands s = some t) :
    (∀ k, s.opaLo.toNat ≤ k → k < 256 → t.perm k = s.perm k) ∧ ∀ k < 256, t.src k = s.src k := by
  obtain ⟨u, lo, hi', hu, rfl, -⟩ := run_effect h
  have hwords : permWords i s = s.opaLo.toNat ∧ valueWords i = 0 := by
    rcases hi with rfl | rfl
    · exact ⟨rfl, rfl⟩
    · exact ⟨rfl, rfl⟩
  obtain ⟨hperms, hvalues⟩ := hwords
  have hbyte (a : Nat) (hlo : 0x400 + 4 * s.opaLo.toNat ≤ a) (hhi : a < 0x1000) : u.byteAt a = s.byteAt a := by
    refine hu.byteAt_unnamed ?_
    rw [mayStoreTo, hperms, hvalues]
    omega
  refine ⟨fun k hlo hk => perm_eq_of_bytes (t := u) fun a ha hb => ?_,
    fun k hk => src_eq_of_bytes (t := u) fun a ha hb => ?_⟩
  · unfold permOff at ha hb
    exact hbyte a (by omega) (by omega)
  · unfold srcOff at ha hb
    exact hbyte a (by omega) (by omega)

theorem shuffle_check {g : Gsel} {s : State} (hr : s.drawReady g) (h1 : 1 ≤ s.opaLo.toNat)
    (h256 : s.opaLo.toNat ≤ 256) : firstFailure [s.seedCheck g, s.lengthCheck] = none :=
  (firstFailure_seedCheck hr _).trans (firstFailure_lengthCheck h1 h256)

/-- Settles O29: the passes permute `PERM[0..n-1]` (`shufflePasses_permList`), the steps build it from `SRC[0..n-1]`
(`shuffleIoSteps_permList`), and neither stores to another word (`shuffle_keeps_rest`). -/
theorem shufflesPermuteTheirWords : Obligations.ShufflesPermuteTheirWords := by
  unfold Obligations.ShufflesPermuteTheirWords
  intro g s t hs hr h1 h256 ht
  refine ⟨fun hexec => ?_, fun hexec => ?_⟩
  · have hrun := run_of_exec_completes hs (i := .shuffle g) (shuffle_check hr h1 h256) hexec ht
    refine ⟨?_, shuffle_keeps_rest (.inl rfl) h256 hrun⟩
    rw [shuffle_run, Option.map_eq_some_iff] at hrun
    obtain ⟨u, hu, rfl⟩ := hrun
    exact shufflePasses_permList (t := u) (by omega) h256 hu
  · have hrun := run_of_exec_completes hs (i := .shuffleIo g) (shuffle_check hr h1 h256) hexec ht
    refine ⟨?_, shuffle_keeps_rest (.inr rfl) h256 hrun⟩
    rw [shuffleIo_run, Option.map_eq_some_iff] at hrun
    obtain ⟨u, hu, rfl⟩ := hrun
    have hwords := shuffleIoSteps_permList (f := s.src) (t := u) (by omega) hu (fun _ _ => rfl) (.refl _)
    rwa [Nat.zero_add] at hwords

/-! ## PERM_BUILD leaves a bijection (rules R45, R160) -/

/-- A table whose words are 0 to 255 in some order is a bijection. -/
theorem permBijective_of_permList {s : State} (h : (permList 256 s).Perm ((List.range 256).map (BitVec.ofNat 32))) :
    s.permBijective := by
  have hsmall : ∀ k < 256, (BitVec.ofNat 32 k).toNat = k := fun k hk => by
    rw [BitVec.toNat_ofNat, Nat.mod_eq_of_lt (by omega)]
  have hnodup : (permList 256 s).Nodup := by
    refine h.nodup_iff.2 (List.Nodup.map_on (fun j hj k hk hjk => ?_) List.nodup_range)
    rw [← hsmall j (List.mem_range.1 hj), ← hsmall k (List.mem_range.1 hk), hjk]
  refine ⟨fun k hk => ?_, fun j hj k hk hjk => ?_⟩
  · obtain ⟨l, hl, he⟩ := List.mem_map.1 (h.mem_iff.1 (List.mem_map_of_mem (f := s.perm) (List.mem_range.2 hk)))
    rw [← he, hsmall l (List.mem_range.1 hl)]
    exact List.mem_range.1 hl
  · exact List.inj_on_of_nodup_map hnodup (List.mem_range.2 hj) (List.mem_range.2 hk) hjk

theorem permBijective_permBuild {g : Gsel} {o : Operands} {s t : State}
    (h : (meaningOf (.permBuild g)).run o s = some t) : t.permBijective := by
  rw [permBuild_run, Option.map_eq_some_iff] at h
  obtain ⟨u, hu, rfl⟩ := h
  have hidentity : permList 256 s.fillIdentity = (List.range 256).map (BitVec.ofNat 32) :=
    List.map_congr_left fun k hk => perm_fillIdentity s (List.mem_range.1 hk)
  have hwords := shufflePasses_permList (by omega) le_rfl hu
  rw [hidentity] at hwords
  exact permBijective_of_permList hwords

/-- Settles O31: the passes permute the identity (`permBijective_permBuild`), and a completed PERM_BUILD sets its
flag. -/
theorem permBuildGivesABijection : Obligations.PermBuildGivesABijection := by
  unfold Obligations.PermBuildGivesABijection
  intro g s t hs hr hexec ht
  have hrun := run_of_exec_completes hs (i := .permBuild g) (firstFailure_seedCheck hr []) hexec ht
  exact ⟨permBijective_permBuild hrun, (run_flags hrun).2.1⟩

/-! ## A ready permutation table stays a bijection (rule R45) -/

theorem permInvariant_congr {s t : State} (h : s.permInvariant) (hready : t.permReady = s.permReady)
    (hbytes : ∀ a, 0x400 ≤ a → a < 0x800 → t.byteAt a = s.byteAt a) : t.permInvariant := by
  have hperm : ∀ k < 256, t.perm k = s.perm k := fun k hk => perm_eq_of_bytes fun a ha hb => by
    unfold permOff at ha hb
    exact hbytes a (by omega) (by omega)
  intro ht
  obtain ⟨hlt, hinj⟩ := h (hready.symm.trans ht)
  refine ⟨fun k hk => ?_, fun j hj k hk hjk => ?_⟩
  · rw [hperm k hk]
    exact hlt k hk
  · rw [hperm j hj, hperm k hk] at hjk
    exact hinj j hj k hk hjk

/-- A run that does not set the flag clears it, or stores to no `PERM` word. -/
theorem permInvariant_run {i : Instr} {o : Operands} {s t : State} (hrun : (meaningOf i).run o s = some t)
    (h : s.permInvariant) : t.permInvariant := by
  have hready := (run_flags hrun).2.1
  have hcases : (∃ g, i = .permBuild g) ∨ permReadyAfter i s.permReady = false ∨
      (permReadyAfter i s.permReady = s.permReady ∧ permCount i o = 0) := by
    cases i with
    | permBuild g => exact .inl ⟨g, rfl⟩
    | shuffle | shuffleIo => exact .inr (.inl rfl)
    | _ => exact .inr (.inr ⟨rfl, rfl⟩)
  rcases hcases with ⟨g, rfl⟩ | hclear | ⟨hkept, hcount⟩
  · exact fun _ => permBijective_permBuild hrun
  · intro ht
    rw [hready, hclear] at ht
    cases ht
  · obtain ⟨u, lo, hi, hu, rfl, -⟩ := run_effect hrun
    refine permInvariant_congr h (hready.trans hkept) fun a hlo hhi => ?_
    refine (byteAt_congr (t := u) rfl rfl a).trans (hu.byteAt_eq (fun _ => .inl (by omega)) fun x hx => .inl ?_)
    have := storesWord_cases hx
    omega

theorem permInvariant_writeRam {s : State} (off : Nat) (w : Word) (h : s.permInvariant) :
    (s.writeRam off w).permInvariant := by
  have hkept (hout : 0x800 ≤ off) : (s.setWord off w).permInvariant :=
    permInvariant_congr h rfl fun a _ _ => byteAt_setWord_outside s w (by omega)
  rcases writeRam_cases s off w with ⟨_, he⟩ | ⟨_, _, he⟩ | ⟨_, _, he⟩ | ⟨_, _, he⟩ | ⟨_, he⟩
  · rw [he]
    exact nofun
  · rw [he]
    exact hkept (by omega)
  · rw [he]
    exact hkept (by omega)
  · rw [he]
    exact hkept (by omega)
  · rwa [he]

theorem permInvariant_frame {s t : State} (hf : TablesFrame s t) (h : s.permInvariant) : t.permInvariant :=
  permInvariant_congr h hf.permReady fun a _ _ => byteAt_congr hf.mem hf.resets a

theorem permInvariant_kept : KeptByParts State.permInvariant where
  bookkeeping _ _ _ _ h := h
  record _ _ h := h
  clear _ h := h
  register s off w _ h := permInvariant_frame (writeRegister_frame s off w) h
  ram _ off w _ _ _ h := permInvariant_writeRam off w h
  fallback s i _ h := permInvariant_frame (fallback_frame i s) h
  starts _ _ _ _ _ h := h
  completes _ _ _ _ h hrun := permInvariant_run hrun h
  finishes _ _ _ _ h hrun := permInvariant_run hrun h
  asserts _ h := h
  resets _ := nofun

/-- Settles O54, by the parts of a step: PERM_BUILD builds a bijection, and whatever else stores to `PERM` clears the
flag. -/
theorem everyStepKeepsPermABijectionWhileReady : Obligations.EveryStepKeepsPermABijectionWhileReady := by
  unfold Obligations.EveryStepKeepsPermABijectionWhileReady
  exact fun s t hs h => permInvariant_kept.step_keeps hs h

end Sys2Proof.Machine
end

section
/-! Host writes while Idle (rules R22, R26, R27, R36 to R40, R65, R66): a write to a register offset is
`writeRegister`, a write to a RAM offset stores one word. -/

namespace Sys2Proof.Machine

/-! ## Where a write goes -/

theorem writeWord_register (u : State) (w : Word) {off : Nat} (hst : off ≠ offStatus) (hram : isRamOffset off = false) :
    u.writeWord off w = u.writeRegister off w := by
  rw [State.writeWord, if_neg hst, hram]
  rfl

theorem writeWord_ram (u : State) (w : Word) {off : Nat} (hram : isRamOffset off = true) :
    u.writeWord off w = u.writeRam off w := by
  have hst : off ≠ offStatus := by
    rw [isRamOffset_iff] at hram
    unfold offStatus
    omega
  rw [State.writeWord, if_neg hst, if_pos hram]

/-- A write to a reserved offset between the registers and the RAMs holds nothing. -/
theorem writeRegister_reserved (u : State) (w : Word) {off : Nat} (h : 0x04C ≤ off) : u.writeRegister off w = u := by
  unfold State.writeRegister
  split
  case h_12 => rfl
  all_goals omega

theorem writeRam_perm (u : State) (w : Word) {off : Nat} (h : off < 0x800) :
    u.writeRam off w = (u.setWord off w).clearPermReady := if_pos h

theorem writeRam_value (u : State) (w : Word) {off : Nat} (hlo : 0x1000 ≤ off) (hhi : off < 0x1800) :
    u.writeRam off w = (u.setWord off w).clearValueReady := by
  rw [State.writeRam, if_neg (by omega), if_neg (by omega), if_pos hhi]

theorem writeRam_src_or_knot (u : State) (w : Word) {off : Nat}
    (h : (0x800 ≤ off ∧ off < 0x1000) ∨ (0x1800 ≤ off ∧ off < 0x4000)) : u.writeRam off w = u.setWord off w := by
  unfold State.writeRam
  grind

theorem writeRam_ring (u : State) (w : Word) {off : Nat} (h : 0x4000 ≤ off) : u.writeRam off w = u := by
  rw [State.writeRam, if_neg (by omega), if_neg (by omega), if_neg (by omega), if_neg (by omega)]

/-- Reserved offsets and `Q` ignore a write. -/
theorem writeWord_ignored (u : State) (w : Word) {off : Nat}
    (h : (0x04C ≤ off ∧ off < 0x400) ∨ (0xC00 ≤ off ∧ off < 0x1000) ∨ (0x1A00 ≤ off ∧ off < 0x4000) ∨
      (0x4000 ≤ off ∧ off < 0x8000)) : u.writeWord off w = u := by
  by_cases hq : 0x4000 ≤ off
  · rw [writeWord_ram u w (by rw [isRamOffset_iff]; omega), writeRam_ring u w hq]
  · have hst : off ≠ offStatus := by unfold offStatus; omega
    have hram : isRamOffset off = false := Bool.eq_false_iff.2 fun hram => by
      rw [isRamOffset_iff] at hram
      omega
    rw [writeWord_register u w hst hram, writeRegister_reserved u w (by omega)]

section host
variable {s : State} (w : Word) (rest : List PortEvent) (hr : s.inReset = false) (hs : s.idle)
include hr hs

/-- An accepted write to any offset but CMD. -/
theorem step_write_idle {off : Offset} (h4 : off.toNat % 4 = 0) (hc : off.toNat ≠ offCmd) :
    step { s with arrivals := .write off .bits32 w :: rest } =
      .next (State.writeWord { s with arrivals := rest, reply := .accepted } off.toNat w) :=
  (step_write off .bits32 w rest hr).trans
    (deliverWrite_idle (s := { s with arrivals := rest }) w h4 (idle_not_busy hs) hc)

theorem step_write_register {off : Offset} (h4 : off.toNat % 4 = 0) (hc : off.toNat ≠ offCmd)
    (hst : off.toNat ≠ offStatus) (hram : isRamOffset off.toNat = false) :
    step { s with arrivals := .write off .bits32 w :: rest } =
      .next (State.writeRegister { s with arrivals := rest, reply := .accepted } off.toNat w) := by
  rw [step_write_idle w rest hr hs h4 hc, writeWord_register _ w hst hram]

theorem step_write_ram {off : Nat} (h4 : off % 4 = 0) (hram : isRamOffset off = true) :
    step { s with arrivals := .write (BitVec.ofNat 15 off) .bits32 w :: rest } =
      .next (State.writeRam { s with arrivals := rest, reply := .accepted } off w) := by
  have hrange := (isRamOffset_iff off).1 hram
  have hoff : (BitVec.ofNat 15 off).toNat = off := by
    rw [BitVec.toNat_ofNat, Nat.mod_eq_of_lt (by omega)]
  rw [step_write_idle w rest hr hs (by rwa [hoff]) (by rw [hoff, offCmd]; omega), hoff, writeWord_ram _ w hram]

end host

/-- Settles O49: out of CMD, STATUS and the RAMs a write is `writeRegister`, which each listed offset evaluates; the
ignored ranges are `writeWord_ignored`. -/
theorem registerWritesFollowTheMap : Obligations.RegisterWritesFollowTheMap := by
  unfold Obligations.RegisterWritesFollowTheMap
  intro s w rest hr hs after u
  have hreg (off : Offset) (h : (off.toNat % 4 == 0 && off.toNat != offCmd && off.toNat != offStatus &&
      !isRamOffset off.toNat) = true) : after off = .next (u.writeRegister off.toNat w) := by
    simp only [Bool.and_eq_true, beq_iff_eq, bne_iff_ne, Bool.not_eq_true'] at h
    obtain ⟨⟨⟨h4, hc⟩, hst⟩, hram⟩ := h
    exact step_write_register w rest hr hs h4 hc hst hram
  refine ⟨hreg _ (by decide), hreg _ (by decide), hreg _ (by decide), hreg _ (by decide), hreg _ (by decide),
    hreg _ (by decide), hreg _ (by decide), hreg _ (by decide), hreg _ (by decide), hreg _ (by decide),
    hreg _ (by decide), step_write_idle w rest hr hs (by decide) (by decide), fun off hoff => ?_, fun off h4 hoff => ?_⟩
  · simp only [List.mem_cons, List.not_mem_nil, or_false] at hoff
    rcases hoff with rfl | rfl | rfl | rfl | rfl | rfl <;> exact hreg _ (by decide)
  · have hlt := off.isLt
    refine (step_write_idle w rest hr hs h4 (by unfold offCmd; omega)).trans ?_
    rw [writeWord_ignored _ w (by omega)]

/-! ## The stored word -/

theorem dwordAt_lo (s : State) (a : Nat) : (s.dwordAt a).extractLsb' 0 32 = s.wordAt a := loWord_append _ _

theorem dwordAt_hi (s : State) (a : Nat) : (s.dwordAt a).extractLsb' 32 32 = s.wordAt (a + 4) := hiWord_append _ _

theorem setWord_stores (s : State) (off : Nat) (w : Word) :
    (s.setWord off w).wordAt off = w ∧ ∀ a, a < off ∨ off + 4 ≤ a → (s.setWord off w).byteAt a = s.byteAt a :=
  ⟨wordAt_setWord_same s off w, fun _ h => byteAt_setWord_outside s w h⟩

/-- Settles O50: each write is one word stored (`setWord_stores`), with the flag of its table cleared; an entry of
`VALUE` or `KNOT` is two words. -/
theorem ramWritesStoreOneWord : Obligations.RamWritesStoreOneWord := by
  unfold Obligations.RamWritesStoreOneWord
  intro s w rest k hr hs hk after stored
  have hram (off : Nat) (h4 : off % 4 = 0)
      (hoff : (0x400 ≤ off ∧ off < 0xC00) ∨ (0x1000 ≤ off ∧ off < 0x1A00) ∨ (0x4000 ≤ off ∧ off < 0x8000)) :
      after off = .next (State.writeRam { s with arrivals := rest, reply := .accepted } off w) :=
    step_write_ram w rest hr hs h4 ((isRamOffset_iff off).2 hoff)
  have hstored (off : Nat) := setWord_stores { s with arrivals := rest, reply := .accepted } off w
  have hhi : 0x1004 + 8 * k = valueOff k + 4 ∧ 0x1804 + 8 * k = knotOff k + 4 := by
    unfold valueOff knotOff
    omega
  refine ⟨⟨_, (hram _ (by omega) (by omega)).trans (congrArg _ (writeRam_perm _ w (by omega))), hstored _,
      (hstored _).1, rfl⟩,
    ⟨_, (hram _ (by omega) (by omega)).trans (congrArg _ (writeRam_src_or_knot _ w (by omega))), hstored _,
      (hstored _).1, rfl⟩,
    ⟨_, (hram _ (by omega) (by omega)).trans (congrArg _ (writeRam_value _ w (by omega) (by omega))), hstored _,
      (dwordAt_lo _ _).trans (hstored _).1, rfl⟩,
    ⟨_, (hram _ (by omega) (by omega)).trans (congrArg _ (writeRam_value _ w (by omega) (by omega))), hstored _,
      ?_, rfl⟩, fun hk64 =>
    ⟨⟨_, (hram _ (by omega) (by omega)).trans (congrArg _ (writeRam_src_or_knot _ w (by omega))), hstored _,
      (dwordAt_lo _ _).trans (hstored _).1, rfl⟩,
    ⟨_, (hram _ (by omega) (by omega)).trans (congrArg _ (writeRam_src_or_knot _ w (by omega))), hstored _,
      ?_, rfl⟩⟩⟩
  · refine (dwordAt_hi _ _).trans ?_
    rw [hhi.1]
    exact (hstored _).1
  · refine (dwordAt_hi _ _).trans ?_
    rw [hhi.2]
    exact (hstored _).1

end Sys2Proof.Machine
end

section
/-! Rejected commands (rules R220 to R223): which check of a command fails first, and that the rejection records it and
changes nothing else but for SPLINE's fallback. -/

namespace Sys2Proof.Machine

/-- A command with a fallback is SPLINE. -/
theorem fallback_eq_id {i : Instr} (h : i ≠ .spline) : (meaningOf i).fallback = id := by
  cases i with
  | spline => exact absurd rfl h
  | _ => rfl

/-- The commands that draw from CMWC or COMB, by their own name or by GSEL, check CMWC_SEEDED first. -/
theorem check_notSeeded {g : Gsel} {s : State} (hg : g = .cmwc ∨ g = .comb) (h : s.cmwcSeeded = false) {i : Instr}
    (hi : i ∈ [Instr.cmwcNext, .combNext, .uniform g, .double g, .doubleAffine g, .shuffle g, .shuffleIo g,
      .permBuild g, .valueBuild g]) : i ≠ .spline ∧ (meaningOf i).check s = some .notSeeded := by
  have hneeds : Gsel.needsSeed g = true := by
    rcases hg with rfl | rfl
    · rfl
    · rfl
  have hcheck (rest : List (Bool × ErrorCode)) : firstFailure (s.seedCheck g :: rest) = some .notSeeded :=
    firstFailure_notSeeded hneeds h rest
  simp only [List.mem_cons, List.not_mem_nil, or_false] at hi
  rcases hi with rfl | rfl | rfl | rfl | rfl | rfl | rfl | rfl | rfl
  · exact ⟨nofun, firstFailure_notSeeded (g := .cmwc) rfl h []⟩
  · exact ⟨nofun, firstFailure_notSeeded (g := .comb) rfl h []⟩
  · exact ⟨nofun, hcheck _⟩
  · exact ⟨nofun, hcheck []⟩
  · exact ⟨nofun, hcheck []⟩
  · exact ⟨nofun, hcheck _⟩
  · exact ⟨nofun, hcheck _⟩
  · exact ⟨nofun, hcheck []⟩
  · exact ⟨nofun, hcheck []⟩

section ready
variable {g : Gsel} {s : State} (hr : s.drawReady g)
include hr

theorem uniform_check_param (h : s.opbLo < s.opaLo) : (meaningOf (.uniform g)).check s = some .param := by
  have hlt : decide (s.operands.bU32 < s.operands.aU32) = true := by
    rw [operands_aU32, operands_bU32]
    exact decide_eq_true h
  exact (firstFailure_seedCheck hr _).trans (firstFailure_of_fails hlt [])

theorem shuffle_check_param (h : s.opaLo.toNat = 0 ∨ 256 < s.opaLo.toNat) :
    firstFailure [s.seedCheck g, s.lengthCheck] = some .param := by
  have hlength : s.lengthCheck.1 = true := by
    rw [State.lengthCheck, operands_aU32, Config.permN]
    simpa using h
  exact (firstFailure_seedCheck hr _).trans (firstFailure_of_fails hlength [])

end ready

theorem hash_check_notReady {s : State} (h : s.permReady = false) : (meaningOf .hash).check s = some .notReady := by
  have hcheck : s.permCheck.1 = true := (congrArg not h).trans rfl
  exact firstFailure_of_fails hcheck []

theorem tables_check_notReady {s : State} (h : s.permReady = false ∨ s.valueReady = false) {i : Instr}
    (hi : i ∈ [Instr.latticeValue, .sampleBilinear, .sampleBicubic]) :
    i ≠ .spline ∧ (meaningOf i).check s = some .notReady := by
  simp only [List.mem_cons, List.not_mem_nil, or_false] at hi
  rcases hi with rfl | rfl | rfl
  · exact ⟨nofun, firstFailure_of_fails ((tablesCheck_fails_iff s).2 h) []⟩
  · exact ⟨nofun, sampleCheck_notReady h⟩
  · exact ⟨nofun, sampleCheck_notReady h⟩

/-- Settles O43: a rejection is `exec_rejected_without_fallback`, or SPLINE's `exec_spline_rejected`; the check of each
command names the code, readiness before PARAM before DOMAIN. -/
theorem rejectedCommandsOnlyRecordTheFirstError : Obligations.RejectedCommandsOnlyRecordTheFirstError := by
  unfold Obligations.RejectedCommandsOnlyRecordTheFirstError
  intro s hs rejected
  have hplain {i : Instr} {k : ErrorCode} (hi : i ≠ .spline) (hk : (meaningOf i).check s = some k) :
      exec i s = rejected s k.code := exec_rejected_without_fallback hs (fallback_eq_id hi) hk
  have hspline {k : ErrorCode} (hk : (meaningOf .spline).check s = some k) :
      exec .spline s = rejected { s with resLo := 0#32, resHi := 0#32 } k.code := exec_spline_rejected hs hk
  refine ⟨fun g hg hseed i hi => ?_, fun g hr h => hplain (i := .uniform g) nofun (uniform_check_param hr h),
    fun g hr h => ⟨hplain (i := .shuffle g) nofun (shuffle_check_param hr h),
      hplain (i := .shuffleIo g) nofun (shuffle_check_param hr h)⟩,
    fun hp => hplain (i := .hash) nofun (hash_check_notReady hp),
    fun h i hi => ?_, fun hp hv h i hi => ?_, fun h => hspline (k := .param) ?_,
    fun h4 h64 hx => hspline (k := .domain) ?_, fun i k hk => ?_⟩
  · obtain ⟨hne, hcheck⟩ := check_notSeeded hg hseed hi
    exact hplain hne hcheck
  · obtain ⟨hne, hcheck⟩ := tables_check_notReady h hi
    exact hplain hne hcheck
  · obtain ⟨hbilinear, hbicubic⟩ := exec_samples_rejected hs (sampleCheck_domain hp hv h)
    simp only [List.mem_cons, List.not_mem_nil, or_false] at hi
    rcases hi with rfl | rfl
    · exact hbilinear
    · exact hbicubic
  · rw [spline_check, if_pos h]
  · rw [spline_check, if_neg (by omega), if_pos hx]
  · by_cases hi : i = .spline
    · subst hi
      rw [if_pos rfl]
      exact hspline hk
    · rw [if_neg hi]
      exact hplain hi hk

end Sys2Proof.Machine
end

section
/-! XorShift (rules R100, R102). Each of the three shifts is a bijection when it is by at least one place. A step is
linear over exclusive or, so its powers are those of its columns; computed for the reset triple they show that the
word 1 has the period `2^32 - 1` and no proper divisor of it, so that its cycle holds every nonzero word. -/

namespace Sys2Proof.Machine

/-! ## The step as a bijection (rule R102, cases (a) to (c)) -/

section injective
variable {n : Nat} (hn : 0 < n)
include hn

/-- From the low end on, each bit is determined by the result and a lower bit. -/
theorem xor_shiftLeft_injective : Function.Injective fun x : Word => x ^^^ x <<< n := by
  intro x y hxy
  refine BitVec.eq_of_getLsbD_eq fun i => ?_
  induction i using Nat.strong_induction_on with
  | _ i ih =>
    intro hi
    have hbit := congrArg (BitVec.getLsbD · i) hxy
    simp only [BitVec.getLsbD_xor, BitVec.getLsbD_shiftLeft] at hbit
    by_cases hlow : i < n
    · simpa [hlow] using hbit
    · simpa [hlow, hi, ih (i - n) (by omega) (by omega)] using hbit

/-- From the high end on, each bit is determined by the result and a higher bit. -/
theorem xor_ushiftRight_injective : Function.Injective fun x : Word => x ^^^ x >>> n := by
  intro x y hxy
  refine BitVec.eq_of_getLsbD_eq fun i => ?_
  induction h : 32 - i using Nat.strong_induction_on generalizing i with
  | _ m ih =>
    intro hi
    have hbit := congrArg (BitVec.getLsbD · i) hxy
    simp only [BitVec.getLsbD_xor, BitVec.getLsbD_ushiftRight] at hbit
    by_cases hhigh : n + i < 32
    · simpa [ih (32 - (n + i)) (by omega) (n + i) rfl hhigh] using hbit
    · simpa [BitVec.getLsbD_of_ge _ _ (Nat.le_of_not_lt hhigh)] using hbit

end injective

theorem xorShift_eq_comp (a b c : BitVec 5) : xorShift a b c =
    (fun x : Word => x ^^^ x <<< c.toNat) ∘ (fun x : Word => x ^^^ x >>> b.toNat) ∘
      fun x : Word => x ^^^ x <<< a.toNat := rfl

theorem xorShift_injective {a b c : BitVec 5} (ha : a ≠ 0#5) (hb : b ≠ 0#5) (hc : c ≠ 0#5) :
    Function.Injective (xorShift a b c) := by
  have hpos : ∀ {d : BitVec 5}, d ≠ 0#5 → 0 < d.toNat := fun hd =>
    Nat.pos_of_ne_zero fun h0 => hd (BitVec.eq_of_toNat_eq h0)
  rw [xorShift_eq_comp]
  exact (xor_shiftLeft_injective (hpos hc)).comp
    ((xor_ushiftRight_injective (hpos hb)).comp (xor_shiftLeft_injective (hpos ha)))

theorem xorShift_zero (a b c : BitVec 5) : xorShift a b c 0#32 = 0#32 := by
  simp [xorShift]

/-- A shift by no place cancels the word. -/
theorem xorShift_of_zero_field {a b c : BitVec 5} (x : Word) (h : a = 0#5 ∨ b = 0#5 ∨ c = 0#5) :
    xorShift a b c x = 0#32 := by
  rcases h with rfl | rfl | rfl
  · simp [xorShift]
  · simp [xorShift]
  · simp [xorShift]

/-- Settles O11: each shift is injective on the words (`xor_shiftLeft_injective`, `xor_ushiftRight_injective`), and
there are finitely many. -/
theorem xorShiftIsBijectiveWithNonzeroShifts : Obligations.XorShiftIsBijectiveWithNonzeroShifts := by
  unfold Obligations.XorShiftIsBijectiveWithNonzeroShifts
  exact ⟨xorShift_zero, fun _ _ _ x => xorShift_of_zero_field x, fun _ _ _ ha hb hc =>
    Finite.injective_iff_bijective.1 (xorShift_injective ha hb hc)⟩

/-! ## Linear maps of words by their columns -/

/-- The exclusive or of the columns that a number selects by its bits, lowest first. -/
def applyColumns : List Nat → Nat → Nat
  | [], _ => 0
  | c :: cs, x => (c * (x % 2)) ^^^ applyColumns cs (x / 2)

theorem applyColumns_zero (m : List Nat) : applyColumns m 0 = 0 := by
  induction m with
  | nil => rfl
  | cons c cs ih => simp [applyColumns, ih]

theorem mul_xor_mod_two (c x y : Nat) : c * ((x ^^^ y) % 2) = (c * (x % 2)) ^^^ (c * (y % 2)) := by
  rw [Nat.xor_mod_two_eq]
  rcases Nat.mod_two_eq_zero_or_one x with hx | hx <;> rcases Nat.mod_two_eq_zero_or_one y with hy | hy <;>
    simp [Nat.add_mod, hx, hy]

theorem applyColumns_xor (m : List Nat) (x y : Nat) :
    applyColumns m (x ^^^ y) = applyColumns m x ^^^ applyColumns m y := by
  induction m generalizing x y with
  | nil => exact (Nat.xor_self 0).symm
  | cons c cs ih =>
    rw [applyColumns, applyColumns, applyColumns, mul_xor_mod_two, Nat.xor_div_two, ih]
    ac_rfl

/-- Columns of columns are the columns of the composition. -/
theorem applyColumns_map (m n : List Nat) (x : Nat) :
    applyColumns (m.map (applyColumns n)) x = applyColumns n (applyColumns m x) := by
  induction m generalizing x with
  | nil => exact (applyColumns_zero n).symm
  | cons c cs ih =>
    have hselected : applyColumns n c * (x % 2) = applyColumns n (c * (x % 2)) := by
      rcases Nat.mod_two_eq_zero_or_one x with hx | hx
      · rw [hx, Nat.mul_zero, Nat.mul_zero, applyColumns_zero]
      · rw [hx, Nat.mul_one, Nat.mul_one]
    rw [List.map_cons, applyColumns, applyColumns, applyColumns_xor, hselected, ih]

/-- The columns are those of a map of words. -/
def Represents (m : List Nat) (f : Word → Word) : Prop := ∀ x : Word, applyColumns m x.toNat = (f x).toNat

theorem Represents.square {m : List Nat} {f : Word → Word} (h : Represents m f) :
    Represents (m.map (applyColumns m)) f^[2] := fun x => by
  rw [applyColumns_map, h x, h (f x)]
  rfl

/-- Power `e` of the columns at `x`, by squaring. -/
def iterateColumns : Nat → List Nat → Nat → Nat → Nat
  | 0, _, _, x => x
  | n + 1, m, e, x =>
    iterateColumns n (m.map (applyColumns m)) (e / 2) (if e % 2 = 1 then applyColumns m x else x)

theorem iterateColumns_eq {m : List Nat} {f : Word → Word} (h : Represents m f) {n e : Nat} (he : e < 2 ^ n)
    (x : Word) :
    iterateColumns n m e x.toNat = (f^[e] x).toNat := by
  induction n generalizing m f e x with
  | zero =>
    obtain rfl : e = 0 := by omega
    rfl
  | succ n ih =>
    have hodd : (if e % 2 = 1 then applyColumns m x.toNat else x.toNat) = (f^[e % 2] x).toNat := by
      rcases Nat.mod_two_eq_zero_or_one e with h0 | h1
      · rw [h0]
        rfl
      · rw [h1, if_pos rfl, h x]
        rfl
    rw [iterateColumns, hodd, ih h.square (by omega), ← Function.iterate_mul, ← Function.iterate_add_apply,
      Nat.div_add_mod]

/-- The columns of a map: what it answers on the powers of two from `2^k` on. -/
def columnsFrom (f : Word → Word) (k n : Nat) : List Nat :=
  (List.range n).map fun i => (f (BitVec.ofNat 32 (2 ^ (k + i)))).toNat

theorem columnsFrom_succ (f : Word → Word) (k n : Nat) :
    columnsFrom f k (n + 1) = (f (BitVec.ofNat 32 (2 ^ k))).toNat :: columnsFrom f (k + 1) n := by
  simp only [columnsFrom, List.range_succ_eq_map, List.map_cons, List.map_map, Nat.add_zero]
  congr 1
  exact List.map_congr_left fun i _ => by simp only [Function.comp, Nat.succ_eq_add_one, Nat.add_assoc, Nat.add_comm 1]

theorem eq_xor_of_low_bit (y : Nat) : y = (y % 2) ^^^ (2 * (y / 2)) := by
  have hmod : ((y % 2) ^^^ (2 * (y / 2))) % 2 = y % 2 := by
    rw [Nat.xor_mod_two_eq]
    omega
  have hdiv : ((y % 2) ^^^ (2 * (y / 2))) / 2 = y / 2 := by
    rw [Nat.xor_div_two, Nat.div_eq_of_lt (Nat.mod_lt y Nat.two_pos), Nat.zero_xor,
      Nat.mul_div_cancel_left _ Nat.two_pos]
  omega

theorem mul_two_pow_eq_xor (y k : Nat) : y * 2 ^ k = (y % 2 * 2 ^ k) ^^^ (y / 2 * 2 ^ (k + 1)) := by
  calc y * 2 ^ k = ((y % 2) ^^^ (2 * (y / 2))) <<< k := by rw [← eq_xor_of_low_bit, Nat.shiftLeft_eq]
    _ = (y % 2 * 2 ^ k) ^^^ (y / 2 * 2 ^ (k + 1)) := by
      rw [Nat.shiftLeft_xor_distrib, Nat.shiftLeft_eq, Nat.shiftLeft_eq, pow_succ, Nat.mul_comm 2, Nat.mul_assoc,
        Nat.mul_comm 2]

section linear
variable {f : Word → Word} (hf : ∀ x y, f (x ^^^ y) = f x ^^^ f y)
include hf

theorem linear_zero : f 0#32 = 0#32 := by
  have h := hf 0#32 0#32
  rwa [BitVec.xor_self, BitVec.xor_self] at h

theorem applyColumns_columnsFrom {n y : Nat} (hy : y < 2 ^ n) (k : Nat) :
    applyColumns (columnsFrom f k n) y = (f (BitVec.ofNat 32 (y * 2 ^ k))).toNat := by
  induction n generalizing y k with
  | zero =>
    obtain rfl : y = 0 := by omega
    rw [Nat.zero_mul, linear_zero hf]
    rfl
  | succ n ih =>
    have hlow : (f (BitVec.ofNat 32 (2 ^ k))).toNat * (y % 2) = (f (BitVec.ofNat 32 (y % 2 * 2 ^ k))).toNat := by
      rcases Nat.mod_two_eq_zero_or_one y with h0 | h1
      · rw [h0, Nat.zero_mul, Nat.mul_zero, linear_zero hf]
        rfl
      · rw [h1, Nat.one_mul, Nat.mul_one]
    rw [columnsFrom_succ, applyColumns, ih (by omega), mul_two_pow_eq_xor y, BitVec.ofNat_xor, hf,
      BitVec.toNat_xor, hlow]

theorem represents_columnsFrom : Represents (columnsFrom f 0 32) f := fun x => by
  rw [applyColumns_columnsFrom hf x.isLt, pow_zero, Nat.mul_one, BitVec.ofNat_toNat, BitVec.setWidth_eq]

end linear

/-! ## The cycle of the reset triple (rule R102, case (d)) -/

theorem xorShift_xor (a b c : BitVec 5) (x y : Word) :
    xorShift a b c (x ^^^ y) = xorShift a b c x ^^^ xorShift a b c y := by
  have hleft : ∀ (n : Nat) (x y : Word), (x ^^^ y) ^^^ (x ^^^ y) <<< n = (x ^^^ x <<< n) ^^^ (y ^^^ y <<< n) :=
    fun n x y => by
      rw [BitVec.shiftLeft_xor_distrib]
      ac_rfl
  have hright : ∀ (n : Nat) (x y : Word), (x ^^^ y) ^^^ (x ^^^ y) >>> n = (x ^^^ x >>> n) ^^^ (y ^^^ y >>> n) :=
    fun n x y => by
      rw [BitVec.ushiftRight_xor_distrib]
      ac_rfl
  simp only [xorShift, hleft, hright]

/-- The step with the reset triple. -/
abbrev resetShift : Word → Word := xorShift 1#5 3#5 10#5

/-- The number of nonzero words is the product of five primes. -/
theorem prime_dvd_xsPeriod {p : Nat} (hp : p.Prime) (hdvd : p ∣ 4294967295) : p ∈ [3, 5, 17, 257, 65537] := by
  have hmem : p ∈ Nat.primeFactorsList 4294967295 := (Nat.mem_primeFactorsList (by decide)).2 ⟨hp, hdvd⟩
  simpa only [Nat.primeFactorsList_ofNat] using hmem

theorem resetShift_iterate_toNat {e : Nat} (he : e < 2 ^ 32) :
    (resetShift^[e] 1#32).toNat = iterateColumns 32 (columnsFrom resetShift 0 32) e 1 :=
  (iterateColumns_eq (represents_columnsFrom (xorShift_xor _ _ _)) he 1#32).symm

theorem resetColumns_period : iterateColumns 32 (columnsFrom resetShift 0 32) 4294967295 1 = 1 := by decide +kernel

theorem resetColumns_div_prime :
    ∀ p ∈ [3, 5, 17, 257, 65537], iterateColumns 32 (columnsFrom resetShift 0 32) (4294967295 / p) 1 ≠ 1 := by
  decide +kernel

theorem resetShift_period : Function.IsPeriodicPt resetShift 4294967295 1#32 :=
  BitVec.eq_of_toNat_eq ((resetShift_iterate_toNat (by decide)).trans resetColumns_period)

theorem resetShift_div_prime {p : Nat} (hp : p ∈ [3, 5, 17, 257, 65537]) :
    ¬ Function.IsPeriodicPt resetShift (4294967295 / p) 1#32 := fun h =>
  resetColumns_div_prime p hp
    ((resetShift_iterate_toNat (lt_of_le_of_lt (Nat.div_le_self _ _) (by decide))).symm.trans (congrArg BitVec.toNat h))

/-- A period all of whose quotients by a prime are no periods is the least one. -/
theorem minimalPeriod_eq_of_div_prime {α : Type} {f : α → α} {x : α} {n : Nat}
    (h : Function.IsPeriodicPt f n x) (hdiv : ∀ p : Nat, p.Prime → p ∣ n → ¬ Function.IsPeriodicPt f (n / p) x) :
    Function.minimalPeriod f x = n := by
  obtain ⟨k, hk⟩ := h.minimalPeriod_dvd
  by_cases hone : k = 1
  · rw [hk, hone, Nat.mul_one]
  · obtain ⟨p, hp, l, rfl⟩ := Nat.exists_prime_and_dvd hone
    have hquot : n / p = Function.minimalPeriod f x * l := by
      rw [hk, Nat.mul_left_comm, Nat.mul_div_cancel_left _ hp.pos]
    refine absurd ?_ (hdiv p hp ⟨Function.minimalPeriod f x * l, by rw [hk, Nat.mul_left_comm]⟩)
    rw [hquot]
    exact (Function.isPeriodicPt_minimalPeriod f x).mul_const l

theorem resetShift_minimalPeriod : Function.minimalPeriod resetShift 1#32 = 4294967295 :=
  minimalPeriod_eq_of_div_prime resetShift_period fun _ hp hdvd =>
    resetShift_div_prime (prime_dvd_xsPeriod hp hdvd)

theorem resetShift_injective : Function.Injective resetShift :=
  xorShift_injective (by decide) (by decide) (by decide)

theorem resetShift_iterate_ne_zero (n : Nat) {x : Word} (hx : x ≠ 0#32) : resetShift^[n] x ≠ 0#32 := fun h =>
  hx (resetShift_injective.iterate n (h.trans (Function.iterate_fixed (xorShift_zero _ _ _) n).symm))

/-- The period counts the nonzero words, so the cycle of 1 holds all of them. -/
theorem exists_resetShift_iterate {x : Word} (hx : x ≠ 0#32) : ∃ n < 4294967295, resetShift^[n] 1#32 = x := by
  have hinj : Set.InjOn (fun n => resetShift^[n] 1#32) (Finset.range 4294967295) := by
    have h := Function.iterate_injOn_Iio_minimalPeriod (f := resetShift) (x := 1#32)
    rw [resetShift_minimalPeriod] at h
    exact h.mono fun n hn => Finset.mem_range.1 hn
  have hcard : (Finset.univ.erase (0#32 : Word)).card = 4294967295 := by
    simp only [Finset.card_erase_of_mem (Finset.mem_univ _), Finset.card_univ, card_bitVec, Nat.reducePow,
      Nat.reduceSub]
  have hsurj := Finset.surjOn_of_injOn_of_card_le (t := Finset.univ.erase (0#32 : Word)) _
    (fun n _ => Finset.mem_coe.2 (Finset.mem_erase.2
      ⟨resetShift_iterate_ne_zero n (by decide), Finset.mem_univ _⟩)) hinj (by rw [hcard, Finset.card_range])
  obtain ⟨n, hn, rfl⟩ := hsurj (Finset.mem_coe.2 (Finset.mem_erase.2 ⟨hx, Finset.mem_univ x⟩))
  exact ⟨n, Finset.mem_range.1 hn, rfl⟩

/-- Settles O12: both words are on the cycle of 1 (`exists_resetShift_iterate`), and the way from one to the other is
shorter than the period. -/
theorem xorShiftResetTripleHasOneCycle : Obligations.XorShiftResetTripleHasOneCycle := by
  unfold Obligations.XorShiftResetTripleHasOneCycle
  simp only [Nat.reducePow, Nat.reduceSub]
  intro x y hx hy
  obtain ⟨i, hi, rfl⟩ := exists_resetShift_iterate hx
  obtain ⟨j, hj, rfl⟩ := exists_resetShift_iterate hy
  refine ⟨(j + (4294967295 - i)) % 4294967295, Nat.mod_lt _ (by decide), ?_⟩
  have hmod (n : Nat) : resetShift^[n % 4294967295] 1#32 = resetShift^[n] 1#32 := by
    rw [← resetShift_minimalPeriod]
    exact Function.iterate_mod_minimalPeriod_eq
  rw [← Function.iterate_add_apply, ← hmod, ← hmod j]
  congr 1
  omega

end Sys2Proof.Machine
end

section
/-! Where the loops of the sampling commands end and where they never do (rules R138, R265, R266). A property of the
generator's state that draws and stores keep decides all the `uniform` calls of a command: it completes when from
every such state an output is accepted, and hangs when one of its calls meets rejected outputs alone. -/

namespace Sys2Proof.Machine

/-! ## One `uniform` call -/

section uniform
variable {g : Gsel} {lower upper : Word} {s : State}

/-- A call completes when some output is accepted, or when its range is empty. -/
theorem uniformDraw_ends (hle : lower ≤ upper)
    (h : lower < upper → ∃ k, rejectThreshold (upper.toNat - lower.toNat) ≤ (drawOut g k s).toNat) :
    ∃ r t, uniformDraw g lower upper s = some (r, t) := by
  have hle' : lower.toNat ≤ upper.toNat := hle
  by_cases hlt : lower < upper
  · have hex := h hlt
    exact ⟨_, _, uniformDraw_complete (.accepted (Nat.find hex) hlt
      ⟨fun k hk => Nat.lt_of_not_le (Nat.find_min hex hk), Nat.find_spec hex⟩)⟩
  · have heq : upper.toNat = lower.toNat := le_antisymm (Nat.le_of_not_lt hlt) hle'
    exact ⟨_, _, uniformDraw_complete (.degenerate heq)⟩

/-- A call with a nonempty range never ends when every output is rejected. -/
theorem uniformDraw_never_ends (hlt : lower < upper)
    (h : ∀ k, (drawOut g k s).toNat < rejectThreshold (upper.toNat - lower.toNat)) :
    uniformDraw g lower upper s = none := by
  have hlt' : lower.toNat < upper.toNat := hlt
  refine uniformDraw_eq_none (Nat.le_of_lt hlt') ?_
  rintro ⟨r, t, hr⟩
  cases hr with
  | degenerate heq => omega
  | accepted n _ hfirst => exact absurd (h n) (Nat.not_lt_of_le hfirst.2)

end uniform

theorem rejectThreshold_lt {m : Nat} (hm : 0 < m) : rejectThreshold m < m := Nat.mod_lt _ hm

theorem toNat_range {m : Nat} (hm : m ≤ 256) : (BitVec.ofNat 32 m).toNat - (0#32).toNat = m := by
  have hfits : (BitVec.ofNat 32 m).toNat = m := by rw [BitVec.toNat_ofNat, Nat.mod_eq_of_lt (by omega)]
  rw [hfits]
  exact Nat.sub_zero m

theorem zero_lt_range {m : Nat} (hpos : 0 < m) (hm : m ≤ 256) : 0#32 < BitVec.ofNat 32 m := by
  have h := toNat_range hm
  rw [BitVec.lt_def]
  omega

/-! ## Properties that a run keeps -/

/-- A property that the draws of a generator and RAM stores keep. -/
structure KeptByRuns (g : Gsel) (P : State → Prop) : Prop where
  draw : ∀ s, P s → P (draw g s).2
  store : ∀ s a w, P s → P (s.setWord a w)

section kept
variable {g : Gsel} {P : State → Prop} (hP : KeptByRuns g P) {s t : State} (hs : P s)
include hP hs

theorem KeptByRuns.runsTo {n : Nat} (h : RunsTo g (fun _ => True) n s t) : P t :=
  h.keeps hP.draw (fun u a w _ => hP.store u a w) hs

theorem KeptByRuns.uniform {lower upper r : Word} (h : uniformDraw g lower upper s = some (r, t)) : P t := by
  obtain ⟨k, hk⟩ := uniformDraw_runsTo (allowed := fun _ => True) h
  exact hP.runsTo hs hk

theorem KeptByRuns.drawState (n : Nat) : P (drawState g n s) := hP.runsTo hs (.draws n s)

theorem KeptByRuns.swapPerm (i j : Nat) : P (s.swapPerm i j) := hP.store _ _ _ (hP.store _ _ _ hs)

theorem KeptByRuns.placeInsideOut (i j : Nat) : P (s.placeInsideOut i j) :=
  hP.runsTo hs (placeInsideOut_runsTo trivial trivial)

theorem KeptByRuns.fillIdentity : P s.fillIdentity := hP.runsTo hs (identityPerm_runsTo fun _ _ => trivial)

end kept

/-! ## Loops that end -/

/-- From every state with the property an output is accepted for each range up to a bound. -/
structure LoopsEnd (g : Gsel) (bound : Nat) (P : State → Prop) : Prop extends KeptByRuns g P where
  accepts : ∀ s, P s → ∀ m, 1 ≤ m → m ≤ bound → ∃ k, rejectThreshold m ≤ (drawOut g k s).toNat

section ends
variable {g : Gsel} {bound : Nat} {P : State → Prop} (hP : LoopsEnd g bound P) (hbound : bound ≤ 256)
include hP hbound

theorem LoopsEnd.uniform {s : State} (hs : P s) {m : Nat} (h1 : 1 ≤ m) (hm : m ≤ bound) :
    ∃ r t, uniformDraw g 0#32 (BitVec.ofNat 32 m) s = some (r, t) := by
  refine uniformDraw_ends (Nat.zero_le _) fun _ => ?_
  rw [toNat_range (hm.trans hbound)]
  exact hP.accepts s hs m h1 hm

theorem LoopsEnd.shufflePasses {n : Nat} (hn : n + 1 ≤ bound) {s : State} (hs : P s) :
    ∃ t, shufflePasses g n s = some t := by
  induction n generalizing s with
  | zero => exact ⟨s, rfl⟩
  | succ n ih =>
    obtain ⟨r, u, hu⟩ := hP.uniform hbound hs (m := n + 2) (by omega) hn
    rw [Machine.shufflePasses, hu]
    exact ih (by omega) (hP.swapPerm (hP.toKeptByRuns.uniform hs hu) _ _)

theorem LoopsEnd.shuffleIoSteps {n i : Nat} (hn : i + n ≤ bound) {s : State} (hs : P s) :
    ∃ t, shuffleIoSteps g n i s = some t := by
  induction n generalizing i s with
  | zero => exact ⟨s, rfl⟩
  | succ n ih =>
    obtain ⟨r, u, hu⟩ := hP.uniform hbound hs (m := i + 1) (by omega) (by omega)
    rw [Machine.shuffleIoSteps, hu]
    exact ih (by omega) (hP.placeInsideOut (hP.toKeptByRuns.uniform hs hu) _ _)

variable {s : State} (hidle : s.idle) (hr : s.drawReady g) (hs : P s)
include hidle hr hs

theorem LoopsEnd.shuffle_completes (h1 : 1 ≤ s.opaLo.toNat) (hn : s.opaLo.toNat ≤ bound) :
    ∃ t, exec (.shuffle g) s = .next t ∧ t.inflight = none ∧ t.permReady = false := by
  obtain ⟨u, hu⟩ := hP.shufflePasses hbound (n := s.opaLo.toNat - 1) (by omega) hs
  have hrun : (meaningOf (.shuffle g)).run s.operands s = some u.clearPermReady := by
    rw [shuffle_run, hu, Option.map_some]
  exact ⟨_, exec_completes hidle (shuffle_check hr h1 (hn.trans hbound)) hrun,
    (shufflePasses_frame hu).inflight.trans hidle, rfl⟩

theorem LoopsEnd.shuffleIo_completes (h1 : 1 ≤ s.opaLo.toNat) (hn : s.opaLo.toNat ≤ bound) :
    ∃ t, exec (.shuffleIo g) s = .next t ∧ t.inflight = none ∧ t.permReady = false := by
  obtain ⟨u, hu⟩ := hP.shuffleIoSteps hbound (n := s.opaLo.toNat) (i := 0) (by omega) hs
  have hrun : (meaningOf (.shuffleIo g)).run s.operands s = some u.clearPermReady := by
    rw [shuffleIo_run, hu, Option.map_some]
  exact ⟨_, exec_completes hidle (shuffle_check hr h1 (hn.trans hbound)) hrun,
    (shuffleIoSteps_frame hu).inflight.trans hidle, rfl⟩

end ends

theorem LoopsEnd.permBuild_completes {g : Gsel} {P : State → Prop} (hP : LoopsEnd g 256 P) {s : State} (hidle : s.idle)
    (hr : s.drawReady g) (hs : P s) :
    ∃ t, exec (.permBuild g) s = .next t ∧ t.inflight = none ∧ t.permReady = true := by
  obtain ⟨u, hu⟩ := hP.shufflePasses le_rfl (n := 255) le_rfl (hP.fillIdentity hs)
  have hrun : (meaningOf (.permBuild g)).run s.operands s = some u.setPermReady := by
    rw [permBuild_run, hu, Option.map_some]
  exact ⟨_, exec_completes (i := .permBuild g) hidle (firstFailure_seedCheck hr []) hrun,
    (permBuildRun_frame hu).inflight.trans hidle, rfl⟩

/-- The shuffles and PERM_BUILD complete when the loops of all ranges up to 256 end. -/
theorem LoopsEnd.tables_complete {g : Gsel} {P : State → Prop} (hP : LoopsEnd g 256 P) {s : State} (hidle : s.idle)
    (hr : s.drawReady g) (hs : P s) :
    (1 ≤ s.opaLo.toNat → s.opaLo.toNat ≤ 256 →
      (∃ t, exec (.shuffle g) s = .next t ∧ t.inflight = none ∧ t.permReady = false) ∧
      ∃ t, exec (.shuffleIo g) s = .next t ∧ t.inflight = none ∧ t.permReady = false) ∧
    ∃ t, exec (.permBuild g) s = .next t ∧ t.inflight = none ∧ t.permReady = true :=
  ⟨fun h1 hn => ⟨hP.shuffle_completes le_rfl hidle hr hs h1 hn, hP.shuffleIo_completes le_rfl hidle hr hs h1 hn⟩,
    hP.permBuild_completes hidle hr hs⟩

/-- UNIFORM completes when some output reaches the threshold of its range. -/
theorem uniform_completes {g : Gsel} {s : State} (hidle : s.idle) (hr : s.drawReady g) (hle : s.opaLo ≤ s.opbLo)
    (h : s.opaLo < s.opbLo → ∃ k, rejectThreshold (s.opbLo.toNat - s.opaLo.toNat) ≤ (drawOut g k s).toNat) :
    ∃ t, exec (.uniform g) s = .next t ∧ t.inflight = none := by
  obtain ⟨r, u, hu⟩ := uniformDraw_ends hle h
  exact ⟨_, exec_uniform_completes hidle hr hle hu, (uniformDraw_frame hu).inflight.trans hidle⟩

/-! ## XorShift with the reset triple (rules R102(d), R138(d)) -/

/-- The shifts are the reset triple and the state is not 0. -/
def State.xsCycles (s : State) : Prop :=
  s.xsShiftA = 1#5 ∧ s.xsShiftB = 3#5 ∧ s.xsShiftC = 10#5 ∧ s.xsState ≠ 0#32

/-- The cycle comes by the highest word, which no threshold is above. -/
theorem xsCycles_output_max {s : State} (h : s.xsCycles) : ∃ k, (drawOut .xs k s).toNat = 2 ^ 32 - 1 := by
  obtain ⟨ha, hb, hc, hx⟩ := h
  obtain ⟨k, -, hk⟩ := xorShiftResetTripleHasOneCycle (resetShift s.xsState) (BitVec.ofNat 32 (2 ^ 32 - 1))
    (resetShift_iterate_ne_zero 1 hx) (by decide)
  refine ⟨k, ?_⟩
  rw [xs_outputs, ha, hb, hc, ← Function.iterate_succ_apply' (xorShift 1#5 3#5 10#5), Function.iterate_succ_apply, hk]
  decide

theorem rejectThreshold_le_max {m : Nat} (hm : 1 ≤ m) : rejectThreshold m ≤ 2 ^ 32 - 1 :=
  (Nat.mod_le _ _).trans (by omega)

theorem xsCycles_loopsEnd : LoopsEnd .xs 256 State.xsCycles where
  draw _ := fun ⟨ha, hb, hc, hx⟩ => ⟨ha, hb, hc, by
    simp only [draw, xsDraw, ha, hb, hc]
    exact resetShift_iterate_ne_zero 1 hx⟩
  store _ _ _ h := h
  accepts s h m h1 _ := by
    obtain ⟨k, hk⟩ := xsCycles_output_max h
    exact ⟨k, hk ▸ rejectThreshold_le_max h1⟩

/-- Settles O23: from the cycle of all nonzero words the highest output comes (`xsCycles_output_max`), and every
threshold accepts it. -/
theorem loopsEndFromXorShiftWithTheResetTriple : Obligations.LoopsEndFromXorShiftWithTheResetTriple := by
  unfold Obligations.LoopsEndFromXorShiftWithTheResetTriple
  intro s hs ha hb hc hx
  have hcycles : s.xsCycles := ⟨ha, hb, hc, hx⟩
  refine ⟨fun hle => uniform_completes hs nofun hle fun hlt => ?_, xsCycles_loopsEnd.tables_complete hs nofun hcycles⟩
  have hlt' : s.opaLo.toNat < s.opbLo.toNat := hlt
  obtain ⟨k, hk⟩ := xsCycles_output_max hcycles
  exact ⟨k, hk ▸ rejectThreshold_le_max (by omega)⟩

/-! ## MINSTD (rules R105(c), R138(e)) -/

theorem minstdNext_toNat (x : Word) : (minstdNext x).toNat = minstdStep x.toNat := by
  rw [minstdNext, BitVec.toNat_ofNat, Nat.mod_eq_of_lt]
  exact (minstdStep_lt _).trans (by decide)

theorem minstdNext_iterate_toNat (n : Nat) (x : Word) : (minstdNext^[n] x).toNat = minstdStep^[n] x.toNat := by
  induction n with
  | zero => rfl
  | succ n ih => rw [Function.iterate_succ_apply', Function.iterate_succ_apply', minstdNext_toNat, ih]

theorem minstdStep_residue_ne_zero {x : Nat} (h : x % 2147483647 ≠ 0) : minstdStep x % 2147483647 ≠ 0 := by
  rw [Nat.mod_eq_of_lt (minstdStep_lt x)]
  intro h0
  obtain ⟨n, ⟨-, hn⟩, -⟩ := minstd_full_period h (y := 1) le_rfl (by decide)
  have hzero : minstdStep^[n + 1] x = 0 := by
    rw [Function.iterate_succ_apply, h0]
    exact Function.iterate_fixed (minstdStep_of_residue_zero rfl) n
  omega

/-- MINSTD_STATE has a nonzero residue. -/
def State.minstdCycles (s : State) : Prop := s.minstdState.toNat % 2147483647 ≠ 0

/-- The period comes by the highest residue. -/
theorem minstdCycles_output_max {s : State} (h : s.minstdCycles) : ∃ k, (drawOut .minstd k s).toNat = 2 ^ 31 - 2 := by
  obtain ⟨k, ⟨-, hk⟩, -⟩ := minstd_full_period h (y := 2 ^ 31 - 2) (by decide) (by decide)
  refine ⟨k, ?_⟩
  rw [minstd_outputs, ← Function.iterate_succ_apply' minstdNext, minstdNext_iterate_toNat, hk]

theorem minstdCycles_loopsEnd : LoopsEnd .minstd 256 State.minstdCycles where
  draw s h := by
    have hnext : (draw .minstd s).2.minstdState = minstdNext s.minstdState := rfl
    rw [State.minstdCycles, hnext, minstdNext_toNat]
    exact minstdStep_residue_ne_zero h
  store _ _ _ h := h
  accepts s h m h1 hm := by
    obtain ⟨k, hk⟩ := minstdCycles_output_max h
    have hlt := rejectThreshold_lt h1
    exact ⟨k, by omega⟩

/-- Settles O24: from a nonzero residue the output `2^31 - 2` comes (`minstdCycles_output_max`). -/
theorem loopsEndFromMinstdWithNonzeroResidue : Obligations.LoopsEndFromMinstdWithNonzeroResidue := by
  unfold Obligations.LoopsEndFromMinstdWithNonzeroResidue
  intro s hs hx
  have hcycles : s.minstdCycles := hx
  refine ⟨fun hle hthreshold => uniform_completes hs nofun hle fun hlt => ?_,
    minstdCycles_loopsEnd.tables_complete hs nofun hcycles⟩
  have hle' := hthreshold.resolve_right fun heq => absurd hlt (heq ▸ BitVec.lt_irrefl _)
  obtain ⟨k, hk⟩ := minstdCycles_output_max hcycles
  exact ⟨k, hk ▸ hle'⟩

/-! ## MARS (rule R265(d)) -/

theorem marsNext_toNat (x : Word) : (marsNext x).toNat = (69069 * x.toNat + 362437) % 2147483647 := by
  rw [marsNext_eq]
  exact (lcg_residue_fits _).1

/-- The output after one below 256 is not reduced, and is above every threshold below 256. -/
theorem mars_loopsEnd : LoopsEnd .mars 256 fun _ => True where
  draw _ _ := trivial
  store _ _ _ _ := trivial
  accepts s _ m h1 hm := by
    have hlt := rejectThreshold_lt h1
    by_cases hfirst : rejectThreshold m ≤ (drawOut .mars 0 s).toNat
    · exact ⟨0, hfirst⟩
    · refine ⟨1, ?_⟩
      have hsecond : drawOut .mars 1 s = marsNext (drawOut .mars 0 s) := by
        rw [mars_outputs, mars_outputs]
        rfl
      rw [hsecond, marsNext_toNat, Nat.mod_eq_of_lt (by omega)]
      omega

/-- Settles O25: of any two outputs in a row one is accepted (`mars_loopsEnd`). -/
theorem tableCommandsEndFromMars : Obligations.TableCommandsEndFromMars := by
  unfold Obligations.TableCommandsEndFromMars
  exact fun s hs => mars_loopsEnd.tables_complete hs nofun trivial

/-! ## Loops that never end (rules R138, R265) -/

/-- A generator that draws only zeros goes on drawing them. -/
theorem drawsOnlyZero_draw {g : Gsel} {s : State} (h : s.drawsOnlyZero g) :
    (draw g s).1 = 0#32 ∧ (draw g s).2.drawsOnlyZero g := by
  rcases h with ⟨rfl, hx⟩ | ⟨rfl, hx⟩
  · have hout : xorShift s.xsShiftA s.xsShiftB s.xsShiftC s.xsState = 0#32 := by
      rcases hx with hx | hshift
      · rw [hx, xorShift_zero]
      · exact xorShift_of_zero_field _ hshift
    exact ⟨hout, .inl ⟨rfl, .inl hout⟩⟩
  · have hout : minstdNext s.minstdState = 0#32 := by
      rw [minstdNext, minstdStep_of_residue_zero hx]
    refine ⟨hout, .inr ⟨rfl, ?_⟩⟩
    have hnext : (draw .minstd s).2.minstdState = 0#32 := hout
    rw [hnext]
    rfl

theorem drawsOnlyZero_kept (g : Gsel) : KeptByRuns g fun s => s.drawsOnlyZero g where
  draw _ h := (drawsOnlyZero_draw h).2
  store _ _ _ h := h

section zero
variable {g : Gsel} {s : State} (h : s.drawsOnlyZero g)
include h

theorem drawOut_of_drawsOnlyZero (k : Nat) : drawOut g k s = 0#32 :=
  (drawsOnlyZero_draw ((drawsOnlyZero_kept g).drawState h k)).1

theorem drawReady_of_drawsOnlyZero : s.drawReady g := by
  rcases h with ⟨rfl, -⟩ | ⟨rfl, -⟩
  · exact nofun
  · exact nofun

/-- The threshold of range 3 is 1: the call never ends. -/
theorem uniformDraw_three_never_ends : uniformDraw g 0#32 (BitVec.ofNat 32 3) s = none := by
  refine uniformDraw_never_ends (zero_lt_range (by decide) (by decide)) fun k => ?_
  rw [drawOut_of_drawsOnlyZero h, toNat_range (by decide)]
  decide

theorem shufflePasses_never_end {n : Nat} (hn : 2 ≤ n) : shufflePasses g n s = none := by
  induction n, hn using Nat.le_induction generalizing s with
  | base => rw [shufflePasses, uniformDraw_three_never_ends h]
  | succ n _ ih =>
    rw [shufflePasses]
    split
    · rename_i r u hu
      exact ih ((drawsOnlyZero_kept g).swapPerm ((drawsOnlyZero_kept g).uniform h hu) _ _)
    · rfl

theorem shuffleIoSteps_never_end {n i : Nat} (hi : i ≤ 2) (hn : 2 < i + n) : shuffleIoSteps g n i s = none := by
  induction n generalizing i s with
  | zero => omega
  | succ n ih =>
    rw [shuffleIoSteps]
    split
    · rename_i r u hu
      by_cases h2 : i = 2
      · rw [h2, uniformDraw_three_never_ends h] at hu
        cases hu
      · exact ih ((drawsOnlyZero_kept g).placeInsideOut ((drawsOnlyZero_kept g).uniform h hu) _ _) (by omega)
          (by omega)
    · rfl

end zero

/-- The thresholds of ranges 1 and 2 are 0, which every output reaches. -/
theorem drawsOnlyZero_loopsEnd (g : Gsel) : LoopsEnd g 2 fun s => s.drawsOnlyZero g where
  toKeptByRuns := drawsOnlyZero_kept g
  accepts s _ m h1 h2 := by
    have hthreshold : rejectThreshold m = 0 := by
      interval_cases m
      · rfl
      · rfl
    exact ⟨0, by rw [hthreshold]; exact Nat.zero_le _⟩

/-- The threshold of range `2^31 + 1` is `2^31 - 1`, which no residue reaches. -/
theorem lcg_output_lt {g : Gsel} (hg : g = .minstd ∨ g = .mars) (k : Nat) (s : State) :
    (drawOut g k s).toNat < rejectThreshold (2 ^ 31 + 1) := by
  have hle : (drawOut g k s).toNat ≤ 2 ^ 31 - 2 := lcg_draw_le hg _
  exact Nat.lt_of_le_of_lt hle (by decide)

/-- Settles O22: UNIFORM meets rejected outputs alone (`uniformDraw_never_ends`); the shuffles come by the range 3
exactly from length 3 on (`shufflePasses_never_end`, `shuffleIoSteps_never_end`, `drawsOnlyZero_loopsEnd`). -/
theorem stuckGeneratorsKeepTheCommandInFlight : Obligations.StuckGeneratorsKeepTheCommandInFlight := by
  unfold Obligations.StuckGeneratorsKeepTheCommandInFlight
  intro g s hs
  refine ⟨fun hlt hstuck => ?_, fun hzero => ?_⟩
  · have hready : s.drawReady g := by
      rcases hstuck with ⟨hzero, -⟩ | ⟨rfl | rfl, -⟩
      · exact drawReady_of_drawsOnlyZero hzero
      · exact nofun
      · exact nofun
    refine exec_uniform_hangs hs hready (BitVec.le_of_lt hlt) (uniformDraw_never_ends hlt fun k => ?_)
    rcases hstuck with ⟨hzero, hthreshold⟩ | ⟨hg, hrange⟩
    · rw [drawOut_of_drawsOnlyZero hzero]
      exact hthreshold
    · rw [hrange]
      exact lcg_output_lt hg k s
  · have hready := drawReady_of_drawsOnlyZero hzero
    refine ⟨?_, fun h3 h256 => ⟨?_, ?_⟩, fun hshort => ⟨?_, ?_⟩⟩
    · refine exec_runs_forever (i := .permBuild g) hs (firstFailure_seedCheck hready []) ?_
      rw [permBuild_run, shufflePasses_never_end ((drawsOnlyZero_kept g).fillIdentity hzero) (by decide),
        Option.map_none]
    · refine exec_runs_forever (i := .shuffle g) hs (shuffle_check hready (by omega) h256) ?_
      rw [shuffle_run, shufflePasses_never_end hzero (by omega), Option.map_none]
    · refine exec_runs_forever (i := .shuffleIo g) hs (shuffle_check hready (by omega) h256) ?_
      rw [shuffleIo_run, shuffleIoSteps_never_end hzero (by decide) (by omega), Option.map_none]
    · obtain ⟨t, hexec, hidle, -⟩ :=
        (drawsOnlyZero_loopsEnd g).shuffle_completes (by decide) hs hready hzero (by omega) (by omega)
      exact ⟨t, hexec, hidle⟩
    · obtain ⟨t, hexec, hidle, -⟩ :=
        (drawsOnlyZero_loopsEnd g).shuffleIo_completes (by decide) hs hready hzero (by omega) (by omega)
      exact ⟨t, hexec, hidle⟩

end Sys2Proof.Machine
end

section
/-! The lattice (file 43_lattice.md): the hash depends on its coordinates modulo 256 (rules R171, R173), and at an
integer point the fractions are zeros, so that both interpolations give the lattice value there (rules R180(a),
R183(a)). -/

namespace Sys2Proof.Machine

/-! ## The hash modulo 256 (rule R173) -/

theorem mask255_lt (v : Int) : mask255 v < 256 := by
  unfold mask255
  omega

theorem mask255_congr {v w : Int} (h : v % 256 = w % 256) : mask255 v = mask255 w := congrArg Int.toNat h

theorem lhash_congr (s : State) {x x' y y' : Int} (hx : x % 256 = x' % 256) (hy : y % 256 = y' % 256) :
    s.lhash x y = s.lhash x' y' := by
  unfold State.lhash
  rw [mask255_congr hy]
  exact congrArg s.perm (mask255_congr (Int.emod_add_cancel_right _ |>.2 hx))

theorem lval_congr (s : State) {x x' y y' : Int} (hx : x % 256 = x' % 256) (hy : y % 256 = y' % 256) :
    s.lval x y = s.lval x' y' := by
  unfold State.lval
  rw [lhash_congr s hx hy]

/-- A two's complement word and its low 8 bits agree modulo 256. -/
theorem toInt_emod_256 (w : Word) : w.toInt % 256 = ((w &&& 0xFF#32).toNat : Int) % 256 := by
  have hlow : (w &&& 0xFF#32).toNat = w.toNat % 256 := by
    rw [BitVec.toNat_and]
    exact Nat.and_two_pow_sub_one_eq_mod w.toNat 8
  rw [hlow, BitVec.toInt_eq_toNat_cond]
  split <;> omega

/-- Settles O34: every clause is that the hash sees its coordinates modulo 256 (`lhash_congr`), or that it is a `PERM`
entry. -/
theorem latticeHashWrapsEveryCoordinate : Obligations.LatticeHashWrapsEveryCoordinate := by
  unfold Obligations.LatticeHashWrapsEveryCoordinate
  exact fun s => ⟨fun x y a b => lhash_congr s (by omega) (by omega),
    fun x y => ⟨lhash_congr s rfl rfl, lhash_congr s rfl rfl, lhash_congr s rfl rfl⟩,
    fun v w => lhash_congr s (toInt_emod_256 v) (toInt_emod_256 w), fun hperm x y => hperm.1 _ (mask255_lt _)⟩

/-! ## Bounded doubles -/

/-- A finite double of magnitude at most `b`. -/
def BoundedBy (b : Nat) (d : DWord) : Prop := f64IsFinite d = true ∧ (f64Scaled d).natAbs ≤ b * f64One

/-- A quotient between two finite doubles is rounded to a finite double between them. -/
theorem RoundedNearestEven.between_quotient {r a b : DWord} {num : Int} {den : Nat} (hden : 0 < den)
    (h : RoundedNearestEven r num den) (ha : f64IsFinite a = true) (hb : f64IsFinite b = true)
    (hlo : f64Scaled a * den ≤ num) (hhi : num ≤ f64Scaled b * den) :
    f64IsFinite r = true ∧ f64Scaled a ≤ f64Scaled r ∧ f64Scaled r ≤ f64Scaled b := by
  have hden' : (0 : Int) < den := Int.natCast_pos.2 hden
  rcases h with ⟨hfin, -, hnear⟩ | ⟨-, hover, -⟩
  · refine ⟨hfin, ?_, ?_⟩
    · by_contra hlt
      have hmul := Int.mul_lt_mul_of_pos_right (Int.lt_of_not_ge hlt) hden'
      have hnear := (hnear a ha).1
      omega
    · by_contra hlt
      have hmul := Int.mul_lt_mul_of_pos_right (Int.lt_of_not_ge hlt) hden'
      have hnear := (hnear b hb).1
      omega
  · have hla := Nat.mul_lt_mul_of_pos_right (f64Units_lt_overflow ha) hden
    have hlb := Nat.mul_lt_mul_of_pos_right (f64Units_lt_overflow hb) hden
    rw [← natAbs_f64Scaled, ← Int.natAbs_natCast den, ← Int.natAbs_mul, Int.natAbs_natCast] at hla hlb
    omega

theorem boundedBy_of_rounded {r : DWord} {num : Int} {b den : Nat} (hb : b < 2 ^ 53) (hden : 0 < den)
    (h : RoundedNearestEven r num den) (hnum : num.natAbs ≤ b * f64One * den) : BoundedBy b r := by
  obtain ⟨u, hu, huval⟩ := exists_double_of_int (n := (b : Int)) (by omega)
  obtain ⟨l, hl, hlval⟩ := exists_double_of_int (n := -(b : Int)) (by omega)
  have hnum' : (num.natAbs : Int) ≤ (b : Int) * f64One * den := by exact_mod_cast hnum
  have hneg : -(b : Int) * f64One * den = -((b : Int) * f64One * den) := by ring
  obtain ⟨hfin, hlo, hhi⟩ := h.between_quotient hden hl hu (by rw [hlval, hneg]; omega) (by rw [huval]; omega)
  rw [hlval, Int.neg_mul] at hlo
  rw [huval] at hhi
  refine ⟨hfin, ?_⟩
  have : ((f64Scaled r).natAbs : Int) ≤ (b : Int) * f64One := by omega
  exact_mod_cast this

section bounded
variable {b c : Nat} {x y : DWord} (hx : BoundedBy b x) (hy : BoundedBy c y)

theorem BoundedBy.mono (hx : BoundedBy b x) (h : b ≤ c) : BoundedBy c x :=
  ⟨hx.1, hx.2.trans (Nat.mul_le_mul_right _ h)⟩

include hx hy

theorem BoundedBy.fadd (h : b + c < 2 ^ 53) : BoundedBy (b + c) (fadd x y) := by
  refine boundedBy_of_rounded h Nat.one_pos (roundedNearestEven_fadd hx.1 hy.1) ?_
  rw [Nat.mul_one, Nat.add_mul]
  exact (Int.natAbs_add_le _ _).trans (Nat.add_le_add hx.2 hy.2)

theorem BoundedBy.fsub (h : b + c < 2 ^ 53) : BoundedBy (b + c) (fsub x y) :=
  hx.fadd ⟨by rw [f64IsFinite_negate]; exact hy.1, by rw [f64Scaled_negate, Int.natAbs_neg]; exact hy.2⟩ h

theorem BoundedBy.fmul (h : b * c < 2 ^ 53) : BoundedBy (b * c) (fmul x y) := by
  refine boundedBy_of_rounded h f64One_pos (roundedNearestEven_fmul hx.1 hy.1) ?_
  rw [Int.natAbs_mul]
  calc (f64Scaled x).natAbs * (f64Scaled y).natAbs ≤ (b * f64One) * (c * f64One) := Nat.mul_le_mul hx.2 hy.2
    _ = b * c * f64One * f64One := by ring

end bounded

/-! ## Zeros in sums and products -/

theorem f64IsFinite_of_zero {z : DWord} (hz : f64Mag z = 0) : f64IsFinite z = true := by
  rw [f64IsFinite, hz]
  decide

theorem f64Mag_fmul_zero {x z : DWord} (hx : f64IsFinite x = true) (hz : f64Mag z = 0) : f64Mag (fmul x z) = 0 := by
  have hround := roundedNearestEven_fmul hx (f64IsFinite_of_zero hz)
  have hprod : f64Scaled x * f64Scaled z = f64Scaled f64Zero * (f64One : Int) := by
    rw [(f64Scaled_zero_iff z).2 hz, f64Scaled_zero, Int.mul_zero, Int.zero_mul]
  rw [hprod] at hround
  exact (f64Scaled_zero_iff _).1 ((hround.exact_quotient f64One_pos (by decide)).trans f64Scaled_zero)

theorem f64Neg_fadd_of_nonneg {x y : DWord} (hx : f64IsFinite x = true) (hy : f64IsFinite y = true)
    (hsum : 0 ≤ f64Scaled x + f64Scaled y) (hneg : f64Neg x = false ∨ f64Neg y = false) :
    f64Neg (fadd x y) = false := by
  rw [fadd_finite hx hy]
  split
  · rw [f64Neg_pack _ (by decide)]
    rcases hneg with h | h <;> simp [h]
  · rw [f64Neg_pack _ (f64RoundMag_lt _ _)]
    exact decide_eq_false (Int.not_lt.2 hsum)

/-- A sum whose exact value is that of a double that is not -0.0. -/
theorem fadd_eq_of_scaled {x y a : DWord} (hx : f64IsFinite x = true) (hy : f64IsFinite y = true)
    (ha : f64IsFinite a = true) (hsign : f64Neg a = false) (hneg : f64Neg x = false ∨ f64Neg y = false)
    (hsum : f64Scaled x + f64Scaled y = f64Scaled a) : fadd x y = a := by
  have hnonneg : 0 ≤ f64Scaled a := by
    rw [f64Scaled, hsign]
    exact Int.natCast_nonneg _
  refine f64_eq_of_scaled ((f64Neg_fadd_of_nonneg hx hy (hsum ▸ hnonneg) hneg).trans hsign.symm) ?_
  exact ((roundedNearestEven_fadd hx hy).exact ha hsum.symm).2.trans hsum

section unit
variable {a z : DWord} (ha : f64InUnit a) (hz : f64Mag z = 0)

theorem f64IsFinite_of_inUnit (ha : f64InUnit a) : f64IsFinite a = true :=
  decide_eq_true (lt_of_le_of_lt ha.2 (by decide))

theorem boundedBy_one_of_inUnit (ha : f64InUnit a) : BoundedBy 1 a := by
  refine ⟨f64IsFinite_of_inUnit ha, ?_⟩
  have hone : f64Units f64OneD = f64One := by rw [← natAbs_f64Scaled, f64Scaled_one, Int.natAbs_natCast]
  rw [natAbs_f64Scaled, Nat.one_mul, ← hone, f64Units_eq_magUnits, f64Units_eq_magUnits]
  exact magUnits_strictMono.monotone ha.2

include ha hz

theorem fadd_zero_right : fadd a z = a :=
  fadd_eq_of_scaled (f64IsFinite_of_inUnit ha) (f64IsFinite_of_zero hz) (f64IsFinite_of_inUnit ha) ha.1 (.inl ha.1)
    (by rw [(f64Scaled_zero_iff z).2 hz, Int.add_zero])

theorem fadd_zero_left : fadd z a = a :=
  fadd_eq_of_scaled (f64IsFinite_of_zero hz) (f64IsFinite_of_inUnit ha) (f64IsFinite_of_inUnit ha) ha.1 (.inr ha.1)
    (by rw [(f64Scaled_zero_iff z).2 hz, Int.zero_add])

end unit

/-! ## The two kernels at a zero fraction -/

theorem flerp_zero {a b z : DWord} (ha : f64InUnit a) (hb : f64InUnit b) (hz : f64Mag z = 0) : flerp a b z = a := by
  have hdiff := (boundedBy_one_of_inUnit hb).fsub (boundedBy_one_of_inUnit ha) (by decide)
  rw [flerp, fmul_comm]
  exact fadd_zero_right ha (f64Mag_fmul_zero hdiff.1 hz)

/-- Every entry of the row is at most 3 in magnitude. -/
def BasisRow.Bounded (r : BasisRow) : Prop := BoundedBy 3 r.m0 ∧ BoundedBy 3 r.m1 ∧ BoundedBy 3 r.m2 ∧ BoundedBy 3 r.m3

theorem basisRows_bounded : basisC3.Bounded ∧ basisC2.Bounded ∧ basisC1.Bounded := by
  unfold BasisRow.Bounded BoundedBy
  decide +kernel

section knots
variable {k0 k1 k2 k3 : DWord} (h0 : f64InUnit k0) (h1 : f64InUnit k1) (h2 : f64InUnit k2) (h3 : f64InUnit k3)
include h0 h1 h2 h3

theorem coefficient_bounded {r : BasisRow} (hr : r.Bounded) : BoundedBy 12 (coefficient r k0 k1 k2 k3) := by
  obtain ⟨hr0, hr1, hr2, hr3⟩ := hr
  have hp0 := hr0.fmul (boundedBy_one_of_inUnit h0) (by decide)
  have hp1 := hr1.fmul (boundedBy_one_of_inUnit h1) (by decide)
  have hp2 := hr2.fmul (boundedBy_one_of_inUnit h2) (by decide)
  have hp3 := hr3.fmul (boundedBy_one_of_inUnit h3) (by decide)
  exact (((hp0.fadd hp1 (by decide)).fadd hp2 (by decide)).fadd hp3 (by decide)).mono (by decide)

/-- The constant coefficient is the second knot. -/
theorem coefficient_basisC0 : coefficient basisC0 k0 k1 k2 k3 = k1 := by
  have hzero {k : DWord} (hk : f64InUnit k) : f64Mag (fmul 0#64 k) = 0 := by
    rw [fmul_comm]
    exact f64Mag_fmul_zero (f64IsFinite_of_inUnit hk) (by decide)
  have hone : fmul basisC0.m1 k1 = k1 := fmul_one_left (f64IsFinite_of_inUnit h1)
  rw [coefficient, hone]
  have h01 : fadd (fmul basisC0.m0 k0) k1 = k1 := fadd_zero_left h1 (hzero h0)
  have h012 : fadd k1 (fmul basisC0.m2 k2) = k1 := fadd_zero_right h1 (hzero h2)
  rw [h01, h012]
  exact fadd_zero_right h1 (hzero h3)

theorem spline4_zero {z : DWord} (hz : f64Mag z = 0) : spline4 z k0 k1 k2 k3 = k1 := by
  obtain ⟨hb3, hb2, hb1⟩ := basisRows_bounded
  have hhorner {x c : DWord} (hx : BoundedBy 24 x) (hc : BoundedBy 12 c) : BoundedBy 24 (fadd (fmul x z) c) := by
    have hzero := f64Mag_fmul_zero hx.1 hz
    have hprod : BoundedBy 0 (fmul x z) :=
      ⟨f64IsFinite_of_zero hzero, by rw [(f64Scaled_zero_iff _).2 hzero]; exact Nat.zero_le _⟩
    exact (hprod.fadd hc (by decide)).mono (by decide)
  have hc3 := (coefficient_bounded h0 h1 h2 h3 hb3).mono (show 12 ≤ 24 by decide)
  have hlast := hhorner (hhorner hc3 (coefficient_bounded h0 h1 h2 h3 hb2)) (coefficient_bounded h0 h1 h2 h3 hb1)
  rw [spline4, coefficient_basisC0 h0 h1 h2 h3]
  exact fadd_zero_left h1 (f64Mag_fmul_zero hlast.1 hz)

end knots

/-! ## Samples at integer points -/

/-- An integer coordinate has a zero fraction, and its cell is the integer modulo 256. -/
theorem splitCoord_of_integer {d : DWord} {a : Int} (hd : f64IsFinite d = true) (h : f64Scaled d = a * (f64One : Int)) :
    (splitCoord d).cell % 256 = a % 256 ∧ f64Mag (splitCoord d).frac = 0 := by
  have hfloor : f64Floor d = a := by
    rw [f64Floor, h]
    exact Int.mul_ediv_cancel _ (Int.natCast_ne_zero.2 f64One_pos.ne')
  obtain ⟨hfin, hval⟩ := f64OfInt_floor_exact hd
  refine ⟨?_, ?_⟩
  · rw [splitCoord, hfloor]
    exact Int.emod_emod _ _
  · rw [splitCoord, fsub_exact_zero hd hfin (by rw [hval, hfloor, h, Int.sub_self])]
    exact f64Mag_pack _ (by decide)

section samples
variable {s : State} (hvalue : ∀ k < 256, f64InUnit (s.value k)) {x y : DWord} {a b : Int}
  (hx : f64IsFinite x = true) (hy : f64IsFinite y = true)
  (ha : f64Scaled x = a * (f64One : Int)) (hb : f64Scaled y = b * (f64One : Int))
include hvalue

theorem lval_inUnit (i j : Int) : f64InUnit (s.lval i j) := hvalue _ (mask255_lt _)

include hx hy ha hb

theorem sampleBilinear_integer : s.sampleBilinear x y = s.lval a b := by
  obtain ⟨hu, hfu⟩ := splitCoord_of_integer hx ha
  obtain ⟨hv, hfv⟩ := splitCoord_of_integer hy hb
  have hunit := lval_inUnit hvalue
  rw [State.sampleBilinear, flerp_zero (hunit _ _) (hunit _ _) hfu, flerp_zero (hunit _ _) (hunit _ _) hfu,
    flerp_zero (hunit _ _) (hunit _ _) hfv]
  exact lval_congr s hu hv

theorem sampleBicubic_integer : s.sampleBicubic x y = s.lval a b := by
  obtain ⟨hu, hfu⟩ := splitCoord_of_integer hx ha
  obtain ⟨hv, hfv⟩ := splitCoord_of_integer hy hb
  have hunit := lval_inUnit hvalue
  have hrow (j : Int) : s.bicubicRow (splitCoord x) j = s.lval (splitCoord x).cell j :=
    spline4_zero (hunit _ _) (hunit _ _) (hunit _ _) (hunit _ _) hfu
  rw [State.sampleBicubic, hrow, hrow, hrow, hrow,
    spline4_zero (hunit _ _) (hunit _ _) (hunit _ _) (hunit _ _) hfv]
  exact lval_congr s hu hv

end samples

/-- Settles O37: both fractions are zeros, and at a zero fraction each kernel gives its value at the point
(`flerp_zero`, `spline4_zero`). -/
theorem samplesAtIntegerPointsAreLatticeValues : Obligations.SamplesAtIntegerPointsAreLatticeValues := by
  unfold Obligations.SamplesAtIntegerPointsAreLatticeValues
  intro s hs hp hv hinv hx hy a b ha hb v
  have hcheck := sampleCheck_passes hp hv hx hy
  have hbilinear : s.sampleBilinear (s.opaHi ++ s.opaLo) (s.opbHi ++ s.opbLo) = v :=
    sampleBilinear_integer (hinv hv) hx hy ha hb
  have hbicubic : s.sampleBicubic (s.opaHi ++ s.opaLo) (s.opbHi ++ s.opbLo) = v :=
    sampleBicubic_integer (hinv hv) hx hy ha hb
  have hexec : exec .sampleBilinear s =
      .next (s.setResF64 (s.sampleBilinear (s.opaHi ++ s.opaLo) (s.opbHi ++ s.opbLo))) :=
    exec_completes hs ((sampleBilinear_check s).trans hcheck) rfl
  have hexec' : exec .sampleBicubic s =
      .next (s.setResF64 (s.sampleBicubic (s.opaHi ++ s.opaLo) (s.opbHi ++ s.opbLo))) :=
    exec_completes hs ((sampleBicubic_check s).trans hcheck) (sampleBicubic_run s)
  rw [hbilinear] at hexec
  rw [hbicubic] at hexec'
  exact ⟨hexec, hexec'⟩

end Sys2Proof.Machine
end
